-- ==== Sys2Proof/Word.lean ====
section
/-! DEFINITION. The two widths the block's interface has: a byte of the caller's buffer and a command word. -/

namespace Sys2Proof

/-- One byte of the caller's input buffer (R41: the one address space is byte-addressed). -/
abbrev Byte := BitVec 8

/-- One 16-bit command word `CW` (R57). -/
abbrev CommandWord := BitVec 16

end Sys2Proof
end

