-- ==== Sys2Proof/Machine/Registers.lean ====
section
/-! DEFINITION. The registers of ONE parser instance as plain data (10_state.md): the bit reader `BR`, the persistent
context `CTX`, the output header `HDR`, the status `ST`, and the values CREATE gives them. -/

namespace Sys2Proof.Machine

/-! ### Named codes -/

/-- `ST.LIFE` (R39): ABSENT before CREATE, LIVE after it, DESTROYED after DESTROY. -/
inductive Life where
  | absent | live | destroyed
deriving DecidableEq, Repr, Inhabited

/-- `ST.RESULT` (R37); the numbers are R73's, `ResultCode.code`. -/
inductive ResultCode where
  | ok | brokenData | noPacketError
deriving DecidableEq, Repr, Inhabited

/-- `ST.CAUSE` (R38, R128); the numbers are R128's, `Cause.code`. -/
inductive Cause where
  /-- 0: the grammar completed. -/
  | none
  /-- 1, raised by R94. -/
  | badFrameMarker
  /-- 2, raised by R95. -/
  | unsupportedProfile
  /-- 3, raised by R99. -/
  | badSyncCode
  /-- 4, raised by R100. -/
  | srgbInProfile02
  /-- 5, raised by R100. -/
  | subsampling420InProfile13
  /-- 6, raised by R100. -/
  | reservedBitSet
  /-- 7, raised by R107. -/
  | invalidRefSlot
  /-- 8, raised by R124. -/
  | zeroFirstPartition
  /-- 16: a read needs bits past the end (R79, R129). -/
  | outOfData
deriving DecidableEq, Repr, Inhabited

/-- `HDR.FRAME_TYPE` (R27, R68): 0 KEY, 1 INTER. -/
inductive FrameType where
  | key | inter
deriving DecidableEq, Repr, Inhabited

/-- `COLOR_SPACE` (R69): the constructors stand in the order of their codes 0 to 7. -/
inductive ColorSpace where
  | unknown | bt601 | bt709 | smpte170 | smpte240 | bt2020 | reserved | srgb
deriving DecidableEq, Repr, Inhabited

/-- `COLOR_RANGE` (R70): 0 limited, 1 full. -/
inductive ColorRange where
  | limited | full
deriving DecidableEq, Repr, Inhabited

/-- `BIT_DEPTH` (R23): one of 0, 8, 10, 12; `undecoded` is 0, no colour configuration decoded yet. -/
inductive BitDepth where
  | undecoded | eight | ten | twelve
deriving DecidableEq, Repr, Inhabited

/-- `HDR.INTERP_FILTER` (R71): the constructors stand in the order of their codes 0 to 4. -/
inductive InterpFilter where
  | eighttap | eighttapSmooth | eighttapSharp | bilinear | switchable
deriving DecidableEq, Repr, Inhabited

/-- A reference id (R72): 0 INTRA, 1 LAST, 2 GOLDEN, 3 ALTREF. -/
inductive RefId where
  | intra | last | golden | altref
deriving DecidableEq, Repr, Inhabited

/-! ### The bit reader `BR` -/

/-- The caller's buffer as (offset, byte) pairs, offsets strictly rising (`Memory.wf`). An offset that is not listed has
no byte: nothing is there to read (assumption log 4). -/
abbrev Memory := List Host.Cell

/-- The bit reader's three items (R16). -/
structure Reader where
  /-- `BR.BUF`: the bound buffer; after a PARSE, which keeps no use of its buffer (R148), bytes nobody knows (assumption log 19). -/
  buf : Memory
  /-- `BR.LEN`: its length in whole bytes. -/
  len : Nat
  /-- `BR.POS`: the bit cursor. -/
  pos : Nat
deriving DecidableEq, Repr, Inhabited

/-- The reader before anything is bound; the spec calls these registers unbound (R16, R142; assumption log 2). -/
def Reader.unbound : Reader := { buf := [], len := 0, pos := 0 }

/-! ### The persistent context `CTX` -/

/-- One entry `CTX.SEG[s]` of the segment feature table, seven fields (R21). -/
structure SegFeature where
  qEn    : Bool
  q      : Int
  lfEn   : Bool
  lf     : Int
  refEn  : Bool
  ref    : RefId
  skip   : Bool
deriving DecidableEq, Repr, Inhabited

/-- Every field 0: no segment feature (R21, R142). -/
def SegFeature.zero : SegFeature :=
  { qEn := false, q := 0, lfEn := false, lf := 0, refEn := false, ref := .intra, skip := false }

/-- The colour configuration (R23), held in `CTX` and copied to `HDR` (R28). -/
structure ColorConfig where
  bitDepth     : BitDepth
  colorSpace   : ColorSpace
  colorRange   : ColorRange
  subsamplingX : Bool
  subsamplingY : Bool
deriving DecidableEq, Repr, Inhabited

/-- Every colour register 0 (R23, R142). -/
def ColorConfig.zero : ColorConfig :=
  { bitDepth := .undecoded, colorSpace := .unknown, colorRange := .limited,
    subsamplingX := false, subsamplingY := false }

/-- One reference slot: `CTX.REF_VALID[i]`, `CTX.REF_W[i]`, `CTX.REF_H[i]` (R24). -/
structure RefSlot where
  valid  : Bool
  width  : Nat
  height : Nat
deriving DecidableEq, Repr, Inhabited

/-- A slot no frame has refreshed (R24, R142). -/
def RefSlot.empty : RefSlot := { valid := false, width := 0, height := 0 }

/-- The persistent context of one instance (R17 to R24). -/
structure Context where
  /-- `CTX.LF_REF_DELTA[0..3]` (R18): INTRA, LAST, GOLDEN, ALTREF. -/
  lfRefDelta  : Vector Int 4
  /-- `CTX.LF_MODE_DELTA[0..1]` (R18). -/
  lfModeDelta : Vector Int 2
  /-- `CTX.SEG_TREE_PROB[0..6]` (R19). -/
  segTreeProb : Vector Nat 7
  /-- `CTX.SEG_PRED_PROB[0..2]` (R19). -/
  segPredProb : Vector Nat 3
  /-- `CTX.SEG_ABS_DELTA` (R20): true is 1, absolute. -/
  segAbsDelta : Bool
  /-- `CTX.SEG[0..7]` (R21). -/
  seg         : Vector SegFeature 8
  /-- `CTX.LOSSLESS` (R22). -/
  lossless    : Bool
  /-- `CTX.BIT_DEPTH` to `CTX.SUBSAMPLING_Y` (R23). -/
  color       : ColorConfig
  /-- `CTX.REF_VALID/REF_W/REF_H[0..7]` (R24). -/
  refs        : Vector RefSlot 8
deriving DecidableEq, Repr, Inhabited

/-- The context CREATE gives (R142). -/
def Context.reset : Context :=
  { lfRefDelta  := Vector.replicate 4 0
    lfModeDelta := Vector.replicate 2 0
    segTreeProb := Vector.replicate 7 255
    segPredProb := Vector.replicate 3 255
    segAbsDelta := false
    seg         := Vector.replicate 8 SegFeature.zero
    lossless    := false
    color       := ColorConfig.zero
    refs        := Vector.replicate 8 RefSlot.empty }

/-! ### The output header `HDR` -/

/-- `HDR.LF` (R32). -/
structure LoopFilterHdr where
  level               : Nat
  sharpness           : Nat
  modeRefDeltaEnabled : Bool
  modeRefDeltaUpdate  : Bool
  refDelta            : Vector Int 4
  modeDelta           : Vector Int 2
  refDeltaUpdated     : Vector Bool 4
  modeDeltaUpdated    : Vector Bool 2
deriving DecidableEq, Repr, Inhabited

/-- `HDR.Q` (R33). -/
structure QuantHdr where
  baseQIdx   : Nat
  deltaQYDc  : Int
  deltaQUvDc : Int
  deltaQUvAc : Int
deriving DecidableEq, Repr, Inhabited

/-- `HDR.SEG` (R34). -/
structure SegHdr where
  enabled         : Bool
  updateMap       : Bool
  temporalUpdate  : Bool
  updateData      : Bool
  treeProbPresent : Vector Bool 7
  predProbPresent : Vector Bool 3
  treeProb        : Vector Nat 7
  predProb        : Vector Nat 3
  absDelta        : Bool
  feature         : Vector SegFeature 8
deriving DecidableEq, Repr, Inhabited

/-- `HDR.TILE` (R35). -/
structure TileHdr where
  minLog2Cols : Nat
  maxLog2Cols : Nat
  log2Cols    : Nat
  log2Rows    : Nat
deriving DecidableEq, Repr, Inhabited

/-- The output header (R26 to R36). -/
structure Header where
  profile                   : Nat
  showExistingFrame         : Bool
  frameToShow               : Fin 8
  frameType                 : FrameType
  showFrame                 : Bool
  errorResilientMode        : Bool
  intraOnly                 : Bool
  resetFrameContext         : Nat
  /-- Bit `i`, the least significant being bit 0, is slot `i` (R27, R126). -/
  refreshFrameFlags         : BitVec 8
  /-- `HDR.BIT_DEPTH` to `HDR.SUBSAMPLING_Y` (R28). -/
  color                     : ColorConfig
  width                     : Nat
  height                    : Nat
  displaySizePresent        : Bool
  displayWidth              : Nat
  displayHeight             : Nat
  /-- Slot of LAST, GOLDEN, ALTREF (R30). -/
  refFrameIdx               : Vector (Fin 8) 3
  refSignBias               : Vector Bool 3
  sizeFromRef               : Vector Bool 3
  allowHighPrecisionMv      : Bool
  interpFilter              : InterpFilter
  refreshFrameContext       : Bool
  frameParallelDecodingMode : Bool
  frameContextIdx           : Nat
  lf                        : LoopFilterHdr
  q                         : QuantHdr
  lossless                  : Bool
  seg                       : SegHdr
  tile                      : TileHdr
  firstPartitionSize        : Nat
  headerLengthBytes         : Nat
deriving DecidableEq, Repr, Inhabited

/-- Every HDR field 0, as at the start of every PARSE (R26). -/
def Header.zero : Header :=
  { profile := 0, showExistingFrame := false, frameToShow := 0, frameType := .key, showFrame := false
    errorResilientMode := false, intraOnly := false, resetFrameContext := 0, refreshFrameFlags := 0
    color := ColorConfig.zero, width := 0, height := 0, displaySizePresent := false
    displayWidth := 0, displayHeight := 0, refFrameIdx := Vector.replicate 3 0
    refSignBias := Vector.replicate 3 false, sizeFromRef := Vector.replicate 3 false
    allowHighPrecisionMv := false, interpFilter := .eighttap, refreshFrameContext := false
    frameParallelDecodingMode := false, frameContextIdx := 0
    lf := { level := 0, sharpness := 0, modeRefDeltaEnabled := false, modeRefDeltaUpdate := false
            refDelta := Vector.replicate 4 0, modeDelta := Vector.replicate 2 0
            refDeltaUpdated := Vector.replicate 4 false, modeDeltaUpdated := Vector.replicate 2 false }
    q := { baseQIdx := 0, deltaQYDc := 0, deltaQUvDc := 0, deltaQUvAc := 0 }
    lossless := false
    seg := { enabled := false, updateMap := false, temporalUpdate := false, updateData := false
             treeProbPresent := Vector.replicate 7 false, predProbPresent := Vector.replicate 3 false
             treeProb := Vector.replicate 7 0, predProb := Vector.replicate 3 0
             absDelta := false, feature := Vector.replicate 8 SegFeature.zero }
    tile := { minLog2Cols := 0, maxLog2Cols := 0, log2Cols := 0, log2Rows := 0 }
    firstPartitionSize := 0, headerLengthBytes := 0 }

end Sys2Proof.Machine
end

