-- ==== Sys2Proof/Config.lean ====
section
/-! DEFINITION. The constants and parameters of 00_scope.md (R6, R7) that a rule uses, and the FREE VALUES: what the spec
leaves unspecified after a command, as constants with no body, so that nothing can be proved of them. The array sizes of
R6 (4, 2, 7, 3, 8, 3) stand in the types of Machine/Registers.lean. -/

namespace Sys2Proof.Config

/-- FRAME_MARKER, the bit string `10` (R6, R65). -/
def frameMarker : Nat := 2

/-- SYNC_CODE (R6, R66). -/
def syncCode : Nat := 0x498342

/-- MAX_LOOP_FILTER (R6). -/
def maxLoopFilter : Nat := 63

/-- MAX_SHARPNESS (R6). -/
def maxSharpness : Nat := 7

/-- MAX_PROB, also the default of an absent probability (R6, R118). -/
def maxProb : Nat := 255

/-- SB_SIZE, a superblock's width in luma samples (R6). -/
def sbSize : Nat := 64

/-- READ_MAX, the largest count of READ_BITS (R7). -/
def readMax : Nat := 32

/-- SREAD_MAX, the largest magnitude width of READ_SIGNED (R7). -/
def sreadMax : Nat := 31

/-- PAST_INDEPENDENCE (R7, R111): whether the bitstream-signalled context reset runs; the spec takes it as enabled. -/
def pastIndependence : Bool := true

/-! The free values. Each is applied to the number of the parser and to that parser's count of free values taken so far
(`Instance.freeCount`), so that two of them are never known to be equal (assumption log 3). -/

/-- HDR where the spec calls it unspecified: after CREATE (R85), after a failed PARSE (R131), after DESTROY (R91). -/
opaque freeHeader : Nat → Nat → Machine.Header

/-- ST.RESULT where it is unspecified: after CREATE (R85), after DESTROY (R91). -/
opaque freeResult : Nat → Nat → Machine.ResultCode

/-- ST.CAUSE where it is unspecified: after CREATE (R85), after DESTROY (R91). -/
opaque freeCause : Nat → Nat → Machine.Cause

/-- CTX where it is unspecified: after DESTROY (R91). -/
opaque freeContext : Nat → Nat → Machine.Context

/-- BR where it is unspecified: after DESTROY (R91). -/
opaque freeReader : Nat → Nat → Machine.Reader

/-- The byte at an offset of BR.BUF where no buffer is bound any more: after a PARSE (R148). The last argument is the offset. -/
opaque freeByte : Nat → Nat → Nat → Byte

end Sys2Proof.Config
end

