-- ==== Sys2Proof/Machine/Flags.lean ====
section
/-! DEFINITION. The flag-like state (R15): result and cause codes, the lossless flag, the trigger of the past-independence
reset, and the sign of a signed-magnitude value. -/

namespace Sys2Proof.Machine

/-- The result a cause belongs to (R128). -/
def Cause.result : Cause → ResultCode
  | .none => .ok
  | .outOfData => .noPacketError
  | .badFrameMarker | .unsupportedProfile | .badSyncCode | .srgbInProfile02 | .subsampling420InProfile13
  | .reservedBitSet | .invalidRefSlot | .zeroFirstPartition => .brokenData

/-- The number of a result (R73). -/
def ResultCode.code : ResultCode → Nat
  | .ok => 0
  | .brokenData => 1
  | .noPacketError => 2

/-- The number of a cause (R128). -/
def Cause.code : Cause → Nat
  | .none => 0
  | .badFrameMarker => 1
  | .unsupportedProfile => 2
  | .badSyncCode => 3
  | .srgbInProfile02 => 4
  | .subsampling420InProfile13 => 5
  | .reservedBitSet => 6
  | .invalidRefSlot => 7
  | .zeroFirstPartition => 8
  | .outOfData => 16

/-- A signed-magnitude value: sign bit 1 is negative, so magnitude 0 gives 0 with either sign (R80). -/
def signMagnitude (m s : Nat) : Int := if s = 1 then -(m : Int) else m

/-- The lossless flag (R116): base index 0 and all three deltas 0. -/
def QuantHdr.isLossless (q : QuantHdr) : Bool :=
  decide (q.baseQIdx = 0 ∧ q.deltaQYDc = 0 ∧ q.deltaQUvDc = 0 ∧ q.deltaQUvAc = 0)

/-- Whether a frame triggers the past-independence reset (R111): key, intra-only or error-resilient. -/
def Header.resetsContext (h : Header) : Bool :=
  decide (h.frameType = .key) || h.intraOnly || h.errorResilientMode

end Sys2Proof.Machine
end

