-- ==== Sys2Proof/Syntax.lean ====
section
/-! DEFINITION. The block's eight operations, one constructor per row of spec/opcode_table.json (R58). PARSE and BR_INIT
take their buffer and length from the data port, not from the word (R57): those operands stand in
`Machine.State.port`. -/

namespace Sys2Proof

/-- The eight operations. The field of READ_BITS and READ_SIGNED is `N = CW[7:0]`, an unsigned bit count (R57). -/
inductive Instr where
  /-- CREATE (R85). -/
  | create
  /-- PARSE buf, len (R86). -/
  | parse
  /-- DESTROY (R91). -/
  | destroy
  /-- BR_INIT buf, len (R77). -/
  | brInit
  /-- READ_BITS n (R78). -/
  | readBits (n : Nat)
  /-- READ_SIGNED n (R80). -/
  | readSigned (n : Nat)
  /-- READ_FLAG (R81). -/
  | readFlag
  /-- GET_POS (R82). -/
  | getPos
deriving DecidableEq, Repr

end Sys2Proof
end

