-- ==== Sys2Proof/WellFormed.lean ====
section
/-! DEFINITION. Which terms of `Instr` are instructions: the count ranges of R58. -/

namespace Sys2Proof

/-- READ_BITS takes 0 to READ_MAX, READ_SIGNED 0 to SREAD_MAX; the other operations have no operand in the word (R58). -/
def Instr.wf : Instr → Bool
  | .create => true
  | .parse => true
  | .destroy => true
  | .brInit => true
  | .readBits n => decide (n ≤ Config.readMax)
  | .readSigned n => decide (n ≤ Config.sreadMax)
  | .readFlag => true
  | .getPos => true

end Sys2Proof
end

