-- ==== Sys2Proof/Decode.lean ====
section
/-! DEFINITION. The command word of R57 to R59: a decoder, total on all 65536 words, that rejects by name, and an encoder
written from the same table. The command word is one number, so no byte order arises. -/

namespace Sys2Proof

/-- Why a word is no command (R59). -/
inductive DecodeError where
  /-- `OPC` is in no row of R58. -/
  | unassignedOpcode
  /-- READ_BITS with `N > 32` or READ_SIGNED with `N > 31`. -/
  | countTooWide
  /-- An operation without a count has `N ≠ 0`. -/
  | countNotZero
deriving DecidableEq, Repr

/-- `OPC = CW[15:8]` (R57). -/
def opcField (w : CommandWord) : Nat := w.toNat / 256

/-- `N = CW[7:0]` (R57). -/
def countField (w : CommandWord) : Nat := w.toNat % 256

/-- An operation without a count: `N` must be 0 (R58, R59). -/
def plainOp (i : Instr) (n : Nat) : Except DecodeError Instr :=
  if n = 0 then .ok i else .error .countNotZero

/-- An operation with a count: `N` must be in the row's range (R58, R59). -/
def countedOp (i : Instr) : Except DecodeError Instr :=
  if i.wf then .ok i else .error .countTooWide

/-- Decode of R58: `OPC` selects the row, then `N` is checked against the row's range. -/
def decode (w : CommandWord) : Except DecodeError Instr :=
  let n := countField w
  match opcField w with
  | 0x01 => plainOp .create n
  | 0x02 => plainOp .parse n
  | 0x03 => plainOp .destroy n
  | 0x10 => plainOp .brInit n
  | 0x11 => countedOp (.readBits n)
  | 0x12 => countedOp (.readSigned n)
  | 0x13 => plainOp .readFlag n
  | 0x14 => plainOp .getPos n
  | _ => .error .unassignedOpcode

/-- `OPC ++ zext_8(N)` (R57, R61). -/
def commandWord (opc n : Nat) : CommandWord := BitVec.ofNat 16 (256 * opc + n)

/-- The word of an instruction (R58). -/
def encode : Instr → CommandWord
  | .create => commandWord 0x01 0
  | .parse => commandWord 0x02 0
  | .destroy => commandWord 0x03 0
  | .brInit => commandWord 0x10 0
  | .readBits n => commandWord 0x11 n
  | .readSigned n => commandWord 0x12 n
  | .readFlag => commandWord 0x13 0
  | .getPos => commandWord 0x14 0

/-- The command word whose low `nbits` bits, numbered as the opcode table numbers them, are `w`; a command word has 16
bits, the others are 0 (R57, R60). -/
def tableWord (nbits w : Nat) : CommandWord := BitVec.ofNat 16 (w % 2 ^ min nbits 16)

/-- The instruction the decoder reads from a row of the opcode table; `none` where it refuses. -/
def decodeTableWord (nbits w : Nat) : Option Instr :=
  match decode (tableWord nbits w) with
  | .ok i => some i
  | .error _ => none

end Sys2Proof
end

