-- ==== Sys2Proof/Machine/State.lean ====
section
/-! DEFINITION. The whole machine: any number of parsers (R141), the data port, the commands the host is going to
issue, the reasons a step stops, and the state after reset. -/

namespace Sys2Proof.Machine

/-- Why the machine stops with a fault. The block itself has no trap (60_exceptions.md): this one reason is the model's
guard for an access outside what exists. -/
inductive Fault where
  /-- `MemRead` at an offset where the bound buffer has no byte (R42: it is defined only for `0 <= a < BR.LEN`). Raised by
  every read, only in a state whose `BR.LEN` passes the bytes bound, which no run reaches (`State.Inv`). Safe. -/
  | absentByte
deriving DecidableEq, Repr

/-- Why a command is refused: no state changes and nothing is claimed afterwards (R59, R92, R134). All are safe: the
model stops where a real block may do anything. -/
inductive Refusal where
  /-- An instruction that has no meaning in the model; no arm of `exec` uses it. Safe. -/
  | notModelled (mnemonic : String)
  /-- A command word whose `OPC` is in no row (R59); raised by `step`. Safe. -/
  | unassignedOpcode
  /-- A count out of the row's range (R59); raised by `step`, and by READ_BITS and READ_SIGNED on an ill-formed term. Safe. -/
  | countTooWide
  /-- `N ≠ 0` on an operation without a count (R59); raised by `step`. Safe. -/
  | countNotZero
  /-- PARSE or DESTROY when `ST.LIFE` is not LIVE (R92). Safe. -/
  | notLive
  /-- CREATE when `ST.LIFE` is not ABSENT (R92). Safe. -/
  | notAbsent
  /-- A bit-reader operation on a destroyed instance (R149). Safe. -/
  | destroyed
  /-- PARSE or BR_INIT with a length above 0 and no buffer, the source's null pointer (R92). Safe. -/
  | nullBuffer
  /-- PARSE or BR_INIT whose buffer has fewer than `len` bytes (R92). Safe. -/
  | shortBuffer
  /-- A command issued while another command on the same instance is in progress (R56, R92, R145). Safe. -/
  | overlapped
  /-- PARSE whose buffer the host changes while it runs (R53, R92). Safe. -/
  | bufferChanged
deriving DecidableEq, Repr

/-- The refusal that reports a word that is no command (R59). -/
def Refusal.ofDecode : DecodeError → Refusal
  | .unassignedOpcode => .unassignedOpcode
  | .countTooWide => .countTooWide
  | .countNotZero => .countNotZero

/-- What the data port answers to a bit-reader operation (R76). -/
inductive Response where
  /-- `ok(v)`. -/
  | ok (v : Int)
  /-- `OutOfData`. -/
  | outOfData
deriving DecidableEq, Repr

/-- One parser instance: its own `ST`, `BR`, `CTX` and `HDR` (R141). -/
structure Instance where
  /-- `ST.LIFE` (R39). -/
  life      : Life
  /-- `ST.RESULT` (R37). -/
  result    : ResultCode
  /-- `ST.CAUSE` (R38). -/
  cause     : Cause
  /-- `BR` (R16). -/
  br        : Reader
  /-- `CTX` (R17). -/
  ctx       : Context
  /-- `HDR` (R26). -/
  hdr       : Header
  /-- The model's own: how many times this instance has taken free values (assumption log 3). -/
  freeCount : Nat
deriving DecidableEq, Repr

/-- An instance nobody has created or used: ABSENT (R39), every other register at the value the log names
(assumption log 2). -/
def Instance.absent : Instance :=
  { life := .absent, result := .ok, cause := .none, br := Reader.unbound, ctx := Context.reset,
    hdr := Header.zero, freeCount := 0 }

/-- An instance right after CREATE as the block's reset (R142); the registers R142 calls unspecified are at the values the
log names (assumption log 2). -/
def Instance.created : Instance := { Instance.absent with life := .live }

/-- What accompanies a command word on the data port (R57), and the two facts about the host's behaviour that R92 makes
part of its contract. -/
structure Port where
  /-- The instance the command is issued to (assumption log 5). -/
  target     : Nat
  /-- The buffer of PARSE and BR_INIT; `none` is the source's null pointer (R92). -/
  buf        : Option Memory
  /-- Its length in bytes (R57). -/
  len        : Nat
  /-- The host issues this command while another command on the instance is in progress (R56, R145). -/
  overlapped : Bool
  /-- The host changes the buffer while this PARSE runs (R53). -/
  bufChanged : Bool
deriving DecidableEq, Repr

/-- One command the host issues: the word, and what is on the data port with it. -/
structure Command where
  word : CommandWord
  port : Port
deriving DecidableEq, Repr

/-- The machine. -/
structure State where
  /-- The instances as (number, instance) pairs, numbers strictly rising; an unlisted one is `Instance.absent`. -/
  insts    : List (Nat × Instance)
  /-- The data port, as the command being executed has it. -/
  port     : Port
  /-- The data port's answer to the last command; `none` after a command that gives none (R76; assumption log 6). -/
  response : Option Response
  /-- The commands the host is going to issue, each after the one before has returned (R51, R145; assumption log 7). -/
  script   : List Command
deriving DecidableEq, Repr

/-- Nothing on the data port: no buffer, length 0, addressed to instance 0, the host within its contract. -/
def Port.idle : Port := { target := 0, buf := none, len := 0, overlapped := false, bufChanged := false }

/-- The machine right after reset: CREATE is the block's reset (R142), so instance 0 is LIVE with the context of R142, and
the host has issued nothing yet. -/
def State.reset : State :=
  { insts := [(0, Instance.created)], port := Port.idle, response := none, script := [] }

end Sys2Proof.Machine
end

