-- ==== Sys2Proof/Machine/Ops.lean ====
section
/-! DEFINITION. The shared operations: tables keyed by a number, the caller's buffer and `MemRead`, the bit reader's reads,
the registers of one instance inside the machine, the data port's answer, the grammar's primitives, and how a PARSE ends
(the block's only "exception entry", R87, R131). -/

namespace Sys2Proof.Machine

/-! ### Tables keyed by a number, in one canonical form -/

/-- The value listed under `k`. -/
def lookup {α : Type} (k : Nat) : List (Nat × α) → Option α
  | [] => none
  | (j, v) :: t => if j = k then some v else lookup k t

/-- List `v` under `k`, keeping the keys strictly rising. -/
def insertAt {α : Type} (k : Nat) (v : α) : List (Nat × α) → List (Nat × α)
  | [] => [(k, v)]
  | (j, w) :: t =>
    if k < j then (k, v) :: (j, w) :: t
    else if k = j then (k, v) :: t
    else (j, w) :: insertAt k v t

/-- List nothing under `k`. -/
def eraseAt {α : Type} (k : Nat) : List (Nat × α) → List (Nat × α)
  | [] => []
  | (j, w) :: t => if j = k then eraseAt k t else (j, w) :: eraseAt k t

/-- The keys are strictly rising and the first is at least `low`. -/
def risingFrom {α : Type} : Nat → List (Nat × α) → Bool
  | _, [] => true
  | low, (j, _) :: t => decide (low ≤ j) && risingFrom (j + 1) t

/-! ### The caller's buffer (20_memory.md) -/

/-- The canonical form of a buffer: offsets strictly rising. What an unlisted offset reads as is `none`, which no entry
holds. -/
def Memory.wf (m : Memory) : Bool := risingFrom 0 m

/-- The buffer holding these bytes at offsets `a`, `a + 1`, … -/
def Memory.ofBytesAt (a : Nat) : List Byte → Memory
  | [] => []
  | b :: bs => (a, b) :: Memory.ofBytesAt (a + 1) bs

/-- The buffer written `[0x.., 0x.., ...]` (R61). -/
def Memory.ofBytes (bs : List Byte) : Memory := Memory.ofBytesAt 0 bs

/-- The buffer has a byte at every offset below `n`. -/
def Memory.holds (m : Memory) (n : Nat) : Bool := (List.range n).all fun a => (lookup a m).isSome

/-- Integer division rounding up (R8). -/
def ceilDiv (a b : Nat) : Nat := (a + (b - 1)) / b

/-! ### The bit reader (40_bit_reader.md) -/

/-- `MemRead(a, 1)` (R42): the byte at offset `a`, defined only for `0 <= a < BR.LEN`. -/
def Reader.memRead (r : Reader) (a : Nat) : Option Byte := if a < r.len then lookup a r.buf else none

/-- `bit(p) = (MemRead(p >> 3, 1) >> (7 - (p mod 8))) & 1` (R43). -/
def Reader.bit (r : Reader) (p : Nat) : Option Nat :=
  match r.memRead (p >>> 3) with
  | some b => some ((b.toNat >>> (7 - p % 8)) &&& 1)
  | none => none

/-- The loop of R78: `n` bits from position `p`, each step `v <- 2 * v + bit(p)`. -/
def Reader.bitsFrom (r : Reader) : Nat → Nat → Nat → Option Nat
  | 0, _, v => some v
  | n + 1, p, v =>
    match r.bit p with
    | some b => r.bitsFrom n (p + 1) (2 * v + b)
    | none => none

/-- What a read answers (R76), with the reader after it; `absent` is the model's guard on R42. -/
inductive ReadOut (α : Type) where
  | ok (v : α) (r : Reader)
  | outOfData
  | absent

/-- A read of whole width `w` (R79): OutOfData exactly when `BR.POS + w > 8 * BR.LEN`, and then nothing moves; otherwise
`value` of the `w` bits and the cursor advanced by `w`. -/
def Reader.read {α : Type} (r : Reader) (w : Nat) (value : Reader → Option α) : ReadOut α :=
  if r.pos + w > 8 * r.len then .outOfData
  else
    match value r with
    | some v => .ok v { r with pos := r.pos + w }
    | none => .absent

/-- READ_BITS (R78). -/
def Reader.readBits (r : Reader) (n : Nat) : ReadOut Nat := r.read n fun r => r.bitsFrom n r.pos 0

/-- The value of `n` magnitude bits and a sign bit (R80). -/
def Reader.signedAt (r : Reader) (n : Nat) : Option Int :=
  match r.bitsFrom n r.pos 0, r.bit (r.pos + n) with
  | some m, some s => some (signMagnitude m s)
  | _, _ => none

/-- READ_SIGNED (R80): the whole `n + 1` bits are checked first. -/
def Reader.readSigned (r : Reader) (n : Nat) : ReadOut Int := r.read (n + 1) fun r => r.signedAt n

/-- The bit at the cursor, as a boolean (R81). -/
def Reader.flagAt (r : Reader) : Option Bool :=
  match r.bit r.pos with
  | some b => some (decide (b = 1))
  | none => none

/-- READ_FLAG (R81). -/
def Reader.readFlag (r : Reader) : ReadOut Bool := r.read 1 Reader.flagAt

/-- BR_INIT (R77): bind the buffer, the cursor at 0. -/
def Reader.init (buf : Memory) (len : Nat) : Reader := { buf := buf, len := len, pos := 0 }

/-- The reader after a PARSE of instance `k`: the block keeps no reference to the buffer that a later command uses (R148), so
what a host reads before the next bind is a free value, byte by byte (assumption log 19). `BR.LEN` and `BR.POS` are registers
and stay as the PARSE left them (R131). -/
def Reader.released (k n : Nat) (r : Reader) : Reader :=
  { r with buf := Memory.ofBytes ((List.range r.len).map (Config.freeByte k n)) }

/-! ### The registers of one instance inside the machine -/

/-- The registers of instance `k`. -/
def State.get (s : State) (k : Nat) : Instance := (lookup k s.insts).getD Instance.absent

/-- The table with the registers of instance `k` written, in canonical form. -/
def putInst (k : Nat) (x : Instance) (t : List (Nat × Instance)) : List (Nat × Instance) :=
  if x = Instance.absent then eraseAt k t else insertAt k x t

/-- Write the registers of instance `k`. -/
def State.put (s : State) (k : Nat) (x : Instance) : State := { s with insts := putInst k x s.insts }

/-- The instance the command being executed is issued to. -/
def State.inst (s : State) : Instance := s.get s.port.target

/-- How every command that is not refused ends: the registers of its instance, and the data port's answer (R50: all the
effects are complete when it returns). -/
def State.done (s : State) (x : Instance) (answer : Option Response) : State :=
  { s.put s.port.target x with response := answer }

/-! ### Answering a bit-reader operation (R76) -/

/-- The instance with its reader replaced. -/
def Instance.withReader (x : Instance) (r : Reader) : Instance := { x with br := r }

/-- Answer a host that issued a read: `ok(v)` with the reader advanced, or OutOfData with nothing moved (R76, R79). -/
def answerRead {α : Type} (s : State) (value : α → Int) : ReadOut α → Host.Outcome State Fault Refusal
  | .ok v r => .next (s.done (s.inst.withReader r) (some (.ok (value v))))
  | .outOfData => .next (s.done s.inst (some .outOfData))
  | .absent => .fault .absentByte

/-- A bit-reader operation may run in every life state but DESTROYED (R58, R149), and no command overlaps another
(R92). -/
def withReaderUsable (s : State) (body : Host.Outcome State Fault Refusal) : Host.Outcome State Fault Refusal :=
  if s.port.overlapped then .refused .overlapped
  else if s.inst.life = .destroyed then .refused .destroyed
  else body

/-! ### The grammar's primitives (R10) -/

/-- The registers a running PARSE reads and writes. -/
structure Work where
  br  : Reader
  ctx : Context
  hdr : Header
deriving DecidableEq, Repr

/-- Why a grammar step ends the PARSE. -/
inductive Abort where
  /-- `raise BrokenData(c)` or, with cause OUT_OF_DATA, `raise OutOfData()`. -/
  | raised (c : Cause)
  /-- The model's guard on R42. -/
  | absent
deriving DecidableEq, Repr

/-- A grammar step: it ends with a value, or ends the whole PARSE; either way what it has written stays written (R90). -/
abbrev Grammar := EStateM Abort Work

/-- The step of the grammar that issues a read and receives its answer (R76, R129). -/
def receive {α : Type} (read : Reader → ReadOut α) : Grammar α := fun w =>
  match read w.br with
  | .ok v r => .ok v { w with br := r }
  | .outOfData => .error (.raised .outOfData) w
  | .absent => .error .absent w

/-- `f(n)` (R10, R62). -/
def f (n : Nat) : Grammar Nat := receive fun r => r.readBits n

/-- `f(1)` taken as a flag (R10, R62). -/
def flag : Grammar Bool := receive Reader.readFlag

/-- `su(n)` (R10, R62). -/
def su (n : Nat) : Grammar Int := receive fun r => r.readSigned n

/-- GET_POS as the grammar issues it (R82). -/
def getPos : Grammar Nat := fun w => .ok w.br.pos w

/-- `raise BrokenData(c)` (R10). -/
def raise {α : Type} (c : Cause) : Grammar α := fun w => .error (.raised c) w

/-- The header as written so far. -/
def getHdr : Grammar Header := fun w => .ok w.hdr w

/-- The context as it stands (R90: every earlier write of this PARSE is seen). -/
def getCtx : Grammar Context := fun w => .ok w.ctx w

/-- Write header fields. -/
def setHdr (g : Header → Header) : Grammar Unit := fun w => .ok () { w with hdr := g w.hdr }

/-- Write context registers; the write lands at once (R90). -/
def setCtx (g : Context → Context) : Grammar Unit := fun w => .ok () { w with ctx := g w.ctx }

/-- `if c then body`, nothing otherwise. -/
def whenTrue (c : Bool) (body : Grammar Unit) : Grammar Unit := if c then body else pure ()

/-- `for i in ...: body i`. -/
def forEach {ι : Type} (body : ι → Grammar Unit) : List ι → Grammar Unit
  | [] => pure ()
  | i :: is => do
    body i
    forEach body is

/-- `if c then read else dflt`. -/
def readIf {α : Type} (c : Bool) (read : Grammar α) (dflt : α) : Grammar α := if c then read else pure dflt

/-- A value guarded by its presence flag: `if f(1) = 1 then read else dflt` (R63), with the flag. -/
def guarded {α : Type} (read : Grammar α) (dflt : α) : Grammar (Bool × α) := do
  let present ← flag
  let v ← readIf present read dflt
  pure (present, v)

/-! ### How a PARSE ends (R87, R131) -/

/-- The instance with the three groups PARSE works on written back, and the caller's buffer let go (R148). -/
def Instance.withWork (k : Nat) (x : Instance) (w : Work) : Instance :=
  { x with br := w.br.released k x.freeCount, ctx := w.ctx, hdr := w.hdr, freeCount := x.freeCount + 1 }

/-- The instance after the grammar completed: result OK, cause 0, the header as decoded. -/
def Instance.completed (k : Nat) (x : Instance) (w : Work) : Instance :=
  { Instance.withWork k x w with result := .ok, cause := .none }

/-- The instance after a failure: what was written to `BR` and `CTX` stays, `HDR` is unspecified (a free value), the result
and the cause are written, and the instance stays as live as it was (R131, R132). -/
def Instance.failed (k : Nat) (x : Instance) (c : Cause) (w : Work) : Instance :=
  { Instance.withWork k x w with hdr := Config.freeHeader k x.freeCount, result := c.result, cause := c }

/-- The map from the grammar's outcome to the result code and cause (R87). -/
def endParse (s : State) : EStateM.Result Abort Work Unit → Host.Outcome State Fault Refusal
  | .ok _ w => .next (s.done (Instance.completed s.port.target s.inst w) none)
  | .error (.raised c) w => .next (s.done (Instance.failed s.port.target s.inst c w) none)
  | .error .absent _ => .fault .absentByte

/-! ### Fetching a command -/

/-- The next command of the script, and the machine with it taken off the script and its operands on the data port. -/
def State.fetch (s : State) : Option (CommandWord × State) :=
  match s.script with
  | [] => none
  | c :: rest => some (c.word, { s with script := rest, port := c.port })

/-- The least instance number above all listed ones: an instance nobody has created. -/
def freshInst : List (Nat × Instance) → Nat
  | [] => 0
  | [(k, _)] => k + 1
  | _ :: t => freshInst t

/-- The machine with the command word `w` next on the script, its data port as it stands. A CREATE makes a NEW instance
(R85), so it is addressed to one nobody has created; any other command is addressed as the data port stands. -/
def State.withCommand (s : State) (w : CommandWord) : State :=
  let port := if w = encode .create then { s.port with target := freshInst s.insts } else s.port
  { s with script := { word := w, port := port } :: s.script }

end Sys2Proof.Machine
end

