-- ==== Sys2Proof/Machine/Operands.lean ====
section
/-! DEFINITION. The operand forms: the buffer and length on the data port (R57, R92), and the codes of the bitstream's
enumerated fields (30_encoding.md). -/

namespace Sys2Proof.Machine

/-! ### Operands on the data port -/

/-- What breaks the caller contract about the buffer (R92): no buffer with a length above 0, or fewer bytes than `len`. -/
def Port.bufferMisuse (p : Port) : Option Refusal :=
  match p.buf with
  | none => if p.len = 0 then none else some .nullBuffer
  | some m => if m.holds p.len then none else some .shortBuffer

/-- The buffer operand; with no buffer (and then length 0) nothing is bound. -/
def Port.buffer (p : Port) : Memory := p.buf.getD []

/-- A fresh reader over the operands (R77, R86). -/
def Port.reader (p : Port) : Reader := Reader.init p.buffer p.len

/-- Run `body` unless the buffer operand breaks the caller contract. -/
def withBuffer (s : State) (body : Host.Outcome State Fault Refusal) : Host.Outcome State Fault Refusal :=
  match s.port.bufferMisuse with
  | some r => .refused r
  | none => body

/-! ### Codes of the bitstream -/

/-- `frame_type`: 0 KEY, 1 INTER (R68). -/
def FrameType.ofFlag (b : Bool) : FrameType := if b then .inter else .key

/-- `color_space` codes (R69). -/
def ColorSpace.ofCode : Nat → ColorSpace
  | 0 => .unknown
  | 1 => .bt601
  | 2 => .bt709
  | 3 => .smpte170
  | 4 => .smpte240
  | 5 => .bt2020
  | 6 => .reserved
  | _ => .srgb

/-- `color_range`: 0 limited, 1 full (R70). -/
def ColorRange.ofFlag (b : Bool) : ColorRange := if b then .full else .limited

/-- `ten_or_twelve_bit`: 0 is 10 bits, 1 is 12 (R70). -/
def BitDepth.ofFlag (b : Bool) : BitDepth := if b then .twelve else .ten

/-- The number in `BIT_DEPTH` (R23). -/
def BitDepth.bits : BitDepth → Nat
  | .undecoded => 0
  | .eight => 8
  | .ten => 10
  | .twelve => 12

/-- LITERAL_TO_FILTER (R71): L = 0, 1, 2, 3 gives EIGHTTAP_SMOOTH, EIGHTTAP, EIGHTTAP_SHARP, BILINEAR. -/
def InterpFilter.ofLiteral : Nat → InterpFilter
  | 0 => .eighttapSmooth
  | 1 => .eighttap
  | 2 => .eighttapSharp
  | _ => .bilinear

/-- The enum code of a filter (R71). -/
def InterpFilter.code : InterpFilter → Nat
  | .eighttap => 0
  | .eighttapSmooth => 1
  | .eighttapSharp => 2
  | .bilinear => 3
  | .switchable => 4

/-- Reference ids (R72). -/
def RefId.ofCode : Nat → RefId
  | 0 => .intra
  | 1 => .last
  | 2 => .golden
  | _ => .altref

/-- A 3-bit slot index (R24, R40: always in range). -/
def slotOf (v : Nat) : Fin 8 := Fin.ofNat 8 v

/-- The `refresh_frame_flags` bit mask (R27). -/
def refreshMask (v : Nat) : BitVec 8 := BitVec.ofNat 8 v

end Sys2Proof.Machine
end

