-- ==== Sys2Proof/Machine/BitReader.lean ====
section
/-! DEFINITION. The meanings of the five bit-reader operations as a host issues them (40_bit_reader.md). None reads or
writes `CTX`, `HDR` or `ST`. -/

namespace Sys2Proof.Machine

/-- BR_INIT (R77): bind the buffer of the data port, the cursor at 0, answer ok(0). -/
def execBrInit (s : State) : Host.Outcome State Fault Refusal :=
  withReaderUsable s (withBuffer s (.next (s.done (s.inst.withReader s.port.reader) (some (.ok 0)))))

/-- READ_BITS (R78); a count above 32 is no command (R59). -/
def execReadBits (n : Nat) (s : State) : Host.Outcome State Fault Refusal :=
  if n ≤ Config.readMax then
    withReaderUsable s (answerRead s (fun (v : Nat) => (v : Int)) (s.inst.br.readBits n))
  else .refused .countTooWide

/-- READ_SIGNED (R80); a magnitude width above 31 is no command (R59). -/
def execReadSigned (n : Nat) (s : State) : Host.Outcome State Fault Refusal :=
  if n ≤ Config.sreadMax then
    withReaderUsable s (answerRead s (fun (v : Int) => v) (s.inst.br.readSigned n))
  else .refused .countTooWide

/-- READ_FLAG (R81). -/
def execReadFlag (s : State) : Host.Outcome State Fault Refusal :=
  withReaderUsable s (answerRead s (fun (b : Bool) => if b then 1 else 0) s.inst.br.readFlag)

/-- GET_POS (R82): answer the cursor, change nothing. -/
def execGetPos (s : State) : Host.Outcome State Fault Refusal :=
  withReaderUsable s (.next (s.done s.inst (some (.ok s.inst.br.pos))))

end Sys2Proof.Machine
end

