-- ==== Sys2Proof/Machine/HeaderFront.lean ====
section
/-! DEFINITION. The header grammar, steps 1 to 7 (42_header_front.md), one definition per rule. -/

namespace Sys2Proof.Machine

/-- Step 1 (R94): the frame marker. -/
def frameMarker : Grammar Unit := do
  let m ← f 2
  whenTrue (m != Config.frameMarker) (raise .badFrameMarker)

/-- The reserved bit after profile 3 (R95). -/
def profileReserved : Grammar Unit := do
  let r ← flag
  whenTrue r (raise .unsupportedProfile)

/-- Step 2 (R95): the profile, low bit first. -/
def profile : Grammar Unit := do
  let lo ← f 1
  let hi ← f 1
  let p := 2 * hi + lo
  whenTrue (p == 3) profileReserved
  setHdr fun h => { h with profile := p }

/-- The rest of a show-existing header (R96). -/
def shortHeader : Grammar Unit := do
  let i ← f 3
  setHdr fun h => { h with frameToShow := slotOf i }
  let pos ← getPos
  setHdr fun h => { h with headerLengthBytes := ceilDiv pos 8 }

/-- Step 3 (R96): answers whether the header ended here. -/
def showExisting : Grammar Bool := do
  let b ← flag
  setHdr fun h => { h with showExistingFrame := b }
  whenTrue b shortHeader
  pure b

/-- Step 4 (R97). -/
def frameType : Grammar Unit := do
  let t ← flag
  setHdr fun h => { h with frameType := FrameType.ofFlag t }
  let s ← flag
  setHdr fun h => { h with showFrame := s }
  let e ← flag
  setHdr fun h => { h with errorResilientMode := e }

/-- The sync-code check (R99). -/
def syncCode : Grammar Unit := do
  let s ← f 24
  whenTrue (s != Config.syncCode) (raise .badSyncCode)

/-- Write the context's colour registers (R23). -/
def setColor (g : ColorConfig → ColorConfig) : Grammar Unit := setCtx fun c => { c with color := g c.color }

/-- The bit depth of R100. -/
def bitDepth (p : Nat) : Grammar Unit :=
  if 2 ≤ p then do
    let t ← flag
    setColor fun c => { c with bitDepth := BitDepth.ofFlag t }
  else setColor fun c => { c with bitDepth := .eight }

/-- The reserved bit after the colour configuration (R100). -/
def colorReserved : Grammar Unit := do
  let r ← flag
  whenTrue r (raise .reservedBitSet)

/-- Whether a profile codes its subsampling (R100): 1 and 3. -/
def codesSubsampling (p : Nat) : Bool := p == 1 || p == 3

/-- The subsampling of a colour space other than SRGB (R100): read in profiles 1 and 3, where 4:2:0 is illegal, before the
reserved bit (R130). -/
def subsampling (p : Nat) : Grammar Unit :=
  if codesSubsampling p then do
    let x ← flag
    setColor fun c => { c with subsamplingX := x }
    let y ← flag
    setColor fun c => { c with subsamplingY := y }
    whenTrue (x && y) (raise .subsampling420InProfile13)
    colorReserved
  else setColor fun c => { c with subsamplingX := true, subsamplingY := true }

/-- SRGB (R100): full range, 4:4:4, legal in profiles 1 and 3 only. -/
def srgbColor (p : Nat) : Grammar Unit := do
  setColor fun c => { c with colorRange := .full }
  if codesSubsampling p then do
    setColor fun c => { c with subsamplingX := false, subsamplingY := false }
    colorReserved
  else raise .srgbInProfile02

/-- A colour space other than SRGB (R100). -/
def yuvColor (p : Nat) : Grammar Unit := do
  let r ← flag
  setColor fun c => { c with colorRange := ColorRange.ofFlag r }
  subsampling p

/-- The colour configuration (R100), written to the context as it is read. -/
def colorConfig : Grammar Unit := do
  let h ← getHdr
  bitDepth h.profile
  let cs ← f 3
  setColor fun c => { c with colorSpace := ColorSpace.ofCode cs }
  if ColorSpace.ofCode cs = .srgb then srgbColor h.profile else yuvColor h.profile

/-- The frame size (R101). -/
def frameSize : Grammar Unit := do
  let w ← f 16
  setHdr fun h => { h with width := w + 1 }
  let h ← f 16
  setHdr fun hd => { hd with height := h + 1 }

/-- A coded display size (R102). -/
def displaySize : Grammar Unit := do
  let w ← f 16
  setHdr fun h => { h with displayWidth := w + 1 }
  let h ← f 16
  setHdr fun hd => { hd with displayHeight := h + 1 }

/-- The render size (R102). -/
def renderSize : Grammar Unit := do
  let p ← flag
  setHdr fun h => { h with displaySizePresent := p }
  if p then displaySize
  else setHdr fun h => { h with displayWidth := h.width, displayHeight := h.height }

/-- Step 5 (R98): a key frame. -/
def keyFrame : Grammar Unit := do
  syncCode
  colorConfig
  setHdr fun h => { h with intraOnly := false, resetFrameContext := 0, refreshFrameFlags := refreshMask 0xFF }
  frameSize
  renderSize

/-- The colour configuration of an intra-only frame (R105). -/
def intraColor : Grammar Unit := do
  let h ← getHdr
  if 0 < h.profile then colorConfig
  else setColor fun _ =>
    { bitDepth := .eight, colorSpace := .bt601, colorRange := .limited, subsamplingX := true, subsamplingY := true }

/-- `HDR.REFRESH_FRAME_FLAGS <- f(8)` (R104, R106). -/
def refreshFlags : Grammar Unit := do
  let m ← f 8
  setHdr fun h => { h with refreshFrameFlags := refreshMask m }

/-- An intra-only frame (R104). -/
def intraBranch : Grammar Unit := do
  syncCode
  intraColor
  refreshFlags
  frameSize
  renderSize

/-- One reference of a non-intra inter frame (R106): the slot index, then the sign bias. -/
def refEntry (i : Fin 3) : Grammar Unit := do
  let s ← f 3
  setHdr fun h => { h with refFrameIdx := h.refFrameIdx.set i (slotOf s) }
  let b ← flag
  setHdr fun h => { h with refSignBias := h.refSignBias.set i b }

/-- Take the size from the slot reference `i` names (R107). -/
def copyRefSize (i : Fin 3) : Grammar Unit := do
  let h ← getHdr
  let c ← getCtx
  let slot := c.refs[h.refFrameIdx[i]]
  whenTrue (!slot.valid) (raise .invalidRefSlot)
  setHdr fun h => { h with width := slot.width, height := slot.height }

/-- The size-from-reference flags (R107), up to the first 1; answers whether one was 1. -/
def sizeFlags : List (Fin 3) → Grammar Bool
  | [] => pure false
  | i :: is => do
    let b ← flag
    setHdr fun h => { h with sizeFromRef := h.sizeFromRef.set i b }
    if b then do
      copyRefSize i
      pure true
    else sizeFlags is

/-- Frame size from references (R107). -/
def sizeWithRefs : Grammar Unit := do
  let found ← sizeFlags [0, 1, 2]
  whenTrue (!found) frameSize
  renderSize

/-- The interpolation filter (R108). -/
def interpFilter : Grammar Unit := do
  let sw ← flag
  if sw then setHdr fun h => { h with interpFilter := .switchable }
  else do
    let l ← f 2
    setHdr fun h => { h with interpFilter := InterpFilter.ofLiteral l }

/-- `HDR.ALLOW_HIGH_PRECISION_MV <- f(1)` (R106). -/
def highPrecisionMv : Grammar Unit := do
  let b ← flag
  setHdr fun h => { h with allowHighPrecisionMv := b }

/-- A non-intra inter frame (R106). -/
def interBranch : Grammar Unit := do
  refreshFlags
  forEach refEntry [0, 1, 2]
  sizeWithRefs
  highPrecisionMv
  interpFilter

/-- `intra_only` (R103): read when the frame is not shown. -/
def intraOnly : Grammar Unit := do
  let h ← getHdr
  if h.showFrame then setHdr fun h => { h with intraOnly := false }
  else do
    let b ← flag
    setHdr fun h => { h with intraOnly := b }

/-- `reset_frame_context` (R103): read when not error resilient. -/
def resetFrameContext : Grammar Unit := do
  let h ← getHdr
  if h.errorResilientMode then setHdr fun h => { h with resetFrameContext := 0 }
  else do
    let v ← f 2
    setHdr fun h => { h with resetFrameContext := v }

/-- Step 6 (R103): an inter frame. -/
def interFrame : Grammar Unit := do
  intraOnly
  resetFrameContext
  let h ← getHdr
  if h.intraOnly then intraBranch else interBranch

/-- After the frame-type branch (R109): the colour registers are copied to the header. -/
def colorCopy : Grammar Unit := do
  let c ← getCtx
  setHdr fun h => { h with color := c.color }

/-- The two flags of step 7 (R110): read when not error resilient, 0 and 1 otherwise. -/
def ctxFlagPair : Grammar Unit := do
  let h ← getHdr
  if h.errorResilientMode then
    setHdr fun h => { h with refreshFrameContext := false, frameParallelDecodingMode := true }
  else do
    let r ← flag
    setHdr fun h => { h with refreshFrameContext := r }
    let p ← flag
    setHdr fun h => { h with frameParallelDecodingMode := p }

/-- Step 7 (R110). -/
def ctxFlags : Grammar Unit := do
  ctxFlagPair
  let i ← f 2
  setHdr fun h => { h with frameContextIdx := i }

/-- The registers the past-independence reset writes (R111). -/
def Context.pastIndependent (c : Context) : Context :=
  { c with
    lfRefDelta := #v[1, 0, -1, -1], lfModeDelta := #v[0, 0]
    seg := Vector.replicate 8 SegFeature.zero, segAbsDelta := false }

/-- The bitstream-signalled context reset (R111). -/
def pastIndependence : Grammar Unit := do
  let h ← getHdr
  whenTrue (Config.pastIndependence && h.resetsContext) (setCtx Context.pastIndependent)

end Sys2Proof.Machine
end

