-- ==== Sys2Proof/Machine/HeaderBack.lean ====
section
/-! DEFINITION. The header grammar, steps 8 to 12 and the order of the whole (43_header_back.md, R93), one definition per
rule. -/

namespace Sys2Proof.Machine

/-! ### Step 8: loop filter -/

/-- Write loop-filter header fields. -/
def setLf (g : LoopFilterHdr → LoopFilterHdr) : Grammar Unit := setHdr fun h => { h with lf := g h.lf }

/-- One reference delta (R113): its presence flag, and when it is 1 the value, written to the context at once. -/
def refDelta (i : Fin 4) : Grammar Unit := do
  let b ← flag
  setLf fun l => { l with refDeltaUpdated := l.refDeltaUpdated.set i b }
  whenTrue b do
    let v ← su 6
    setCtx fun c => { c with lfRefDelta := c.lfRefDelta.set i v }

/-- One mode delta (R113). -/
def modeDelta (i : Fin 2) : Grammar Unit := do
  let b ← flag
  setLf fun l => { l with modeDeltaUpdated := l.modeDeltaUpdated.set i b }
  whenTrue b do
    let v ← su 6
    setCtx fun c => { c with lfModeDelta := c.lfModeDelta.set i v }

/-- The loop-filter delta update (R113). -/
def lfDeltas : Grammar Unit := do
  forEach refDelta [0, 1, 2, 3]
  forEach modeDelta [0, 1]

/-- `mode_ref_delta_update` and what it guards (R112). -/
def lfUpdate : Grammar Unit := do
  let u ← flag
  setLf fun l => { l with modeRefDeltaUpdate := u }
  whenTrue u lfDeltas

/-- The deltas in force, copied to the header (R114). -/
def lfCopy : Grammar Unit := do
  let c ← getCtx
  setLf fun l => { l with refDelta := c.lfRefDelta, modeDelta := c.lfModeDelta }

/-- Step 8 (R112). -/
def loopFilterParams : Grammar Unit := do
  let level ← f 6
  setLf fun l => { l with level := level }
  let sharpness ← f 3
  setLf fun l => { l with sharpness := sharpness }
  let enabled ← flag
  setLf fun l => { l with modeRefDeltaEnabled := enabled }
  whenTrue enabled lfUpdate
  lfCopy

/-! ### Step 9: quantization -/

/-- Write quantization header fields. -/
def setQ (g : QuantHdr → QuantHdr) : Grammar Unit := setHdr fun h => { h with q := g h.q }

/-- One quantizer delta: 0 when absent (R115). -/
def quantDelta : Grammar Int := do
  let r ← guarded (su 4) 0
  pure r.2

/-- The lossless flag, to the context and the header (R116). -/
def lossless : Grammar Unit := do
  let h ← getHdr
  setCtx fun c => { c with lossless := h.q.isLossless }
  let c ← getCtx
  setHdr fun h => { h with lossless := c.lossless }

/-- Step 9 (R115). -/
def quantizationParams : Grammar Unit := do
  let base ← f 8
  setQ fun q => { q with baseQIdx := base }
  let y ← quantDelta
  setQ fun q => { q with deltaQYDc := y }
  let uvdc ← quantDelta
  setQ fun q => { q with deltaQUvDc := uvdc }
  let uvac ← quantDelta
  setQ fun q => { q with deltaQUvAc := uvac }
  lossless

/-! ### Step 10: segmentation -/

/-- Write segmentation header fields. -/
def setSeg (g : SegHdr → SegHdr) : Grammar Unit := setHdr fun h => { h with seg := g h.seg }

/-- A probability: 8 bits when present, 255 when absent (R118). -/
def probability : Grammar (Bool × Nat) := guarded (f 8) Config.maxProb

/-- One tree probability (R118). -/
def treeProb (i : Fin 7) : Grammar Unit := do
  let r ← probability
  setSeg fun g => { g with treeProbPresent := g.treeProbPresent.set i r.1 }
  setCtx fun c => { c with segTreeProb := c.segTreeProb.set i r.2 }

/-- One prediction probability when `temporal_update` is 1 (R118). -/
def predProb (i : Fin 3) : Grammar Unit := do
  let r ← probability
  setSeg fun g => { g with predProbPresent := g.predProbPresent.set i r.1 }
  setCtx fun c => { c with segPredProb := c.segPredProb.set i r.2 }

/-- One prediction probability when `temporal_update` is 0 (R118). -/
def predProbDefault (i : Fin 3) : Grammar Unit :=
  setCtx fun c => { c with segPredProb := c.segPredProb.set i Config.maxProb }

/-- The map probabilities (R118). -/
def segMap : Grammar Unit := do
  forEach treeProb [0, 1, 2, 3, 4, 5, 6]
  let t ← flag
  setSeg fun g => { g with temporalUpdate := t }
  forEach (fun i => if t then predProb i else predProbDefault i) [0, 1, 2]

/-- Write fields of `CTX.SEG[s]`. -/
def setFeature (s : Fin 8) (g : SegFeature → SegFeature) : Grammar Unit :=
  setCtx fun c => { c with seg := c.seg.set s (g c.seg[s]) }

/-- The alternate quantizer of a segment (R119): 0 when its presence bit is 0. -/
def featureQ (s : Fin 8) : Grammar Unit := do
  let en ← flag
  setFeature s fun e => { e with qEn := en }
  let v ← readIf en (su 8) 0
  setFeature s fun e => { e with q := v }

/-- The alternate loop-filter level of a segment (R119). -/
def featureLf (s : Fin 8) : Grammar Unit := do
  let en ← flag
  setFeature s fun e => { e with lfEn := en }
  let v ← readIf en (su 6) 0
  setFeature s fun e => { e with lf := v }

/-- The reference override of a segment (R119). -/
def featureRef (s : Fin 8) : Grammar Unit := do
  let en ← flag
  setFeature s fun e => { e with refEn := en }
  let v ← readIf en (f 2) 0
  setFeature s fun e => { e with ref := RefId.ofCode v }

/-- The skip flag of a segment (R119), read whatever the reference. -/
def featureSkip (s : Fin 8) : Grammar Unit := do
  let b ← flag
  setFeature s fun e => { e with skip := b }

/-- One segment's features (R119): every field is rewritten. -/
def segFeature (s : Fin 8) : Grammar Unit := do
  featureQ s
  featureLf s
  featureRef s
  featureSkip s

/-- The segment feature data (R119), written to the context at once. -/
def segData : Grammar Unit := do
  let a ← flag
  setCtx fun c => { c with segAbsDelta := a }
  forEach segFeature [0, 1, 2, 3, 4, 5, 6, 7]

/-- The segmentation registers, copied to the header (R120). -/
def segCopy : Grammar Unit := do
  let c ← getCtx
  setSeg fun g =>
    { g with treeProb := c.segTreeProb, predProb := c.segPredProb, absDelta := c.segAbsDelta, feature := c.seg }

/-- What an enabled segmentation reads (R117). -/
def segUpdates : Grammar Unit := do
  let m ← flag
  setSeg fun g => { g with updateMap := m }
  whenTrue m segMap
  let d ← flag
  setSeg fun g => { g with updateData := d }
  whenTrue d segData

/-- Step 10 (R117). -/
def segmentationParams : Grammar Unit := do
  let e ← flag
  setSeg fun g => { g with enabled := e }
  whenTrue e segUpdates
  segCopy

/-! ### Step 11: tile info -/

/-- Write tile header fields. -/
def setTile (g : TileHdr → TileHdr) : Grammar Unit := setHdr fun h => { h with tile := g h.tile }

/-- `while (64 << k) < sb: k <- k + 1`, from `k`, for at most `fuel` rounds (R121). -/
def minLog2From (sb : Nat) : Nat → Nat → Nat
  | 0, k => k
  | fuel + 1, k => if Config.sbSize <<< k < sb then minLog2From sb fuel (k + 1) else k

/-- `while (sb >> m) >= 4: m <- m + 1`, from `m`, for at most `fuel` rounds (R121). -/
def maxLog2From (sb : Nat) : Nat → Nat → Nat
  | 0, m => m
  | fuel + 1, m => if 4 ≤ sb >>> m then maxLog2From sb fuel (m + 1) else m

/-- The width in superblocks (R121). -/
def superblocks (width : Nat) : Nat := ceilDiv width Config.sbSize

/-- MIN_LOG2_COLS of a width (R121); `sb` rounds are more than the loop takes. -/
def minLog2Cols (width : Nat) : Nat := minLog2From (superblocks width) (superblocks width) 0

/-- MAX_LOG2_COLS of a width (R121); `sb` rounds are more than the loop takes. -/
def maxLog2Cols (width : Nat) : Nat := maxLog2From (superblocks width) (superblocks width) 1 - 1

/-- `while c < max: if f(1) = 1 then c <- c + 1 else exit loop` (R122); the first argument is `max - c`. -/
def tileCols : Nat → Nat → Grammar Nat
  | 0, c => pure c
  | left + 1, c => do
    let b ← flag
    if b then tileCols left (c + 1) else pure c

/-- The tile rows (R123). -/
def tileRows : Grammar Nat := do
  let r ← f 1
  if r = 1 then do
    let more ← f 1
    pure (r + more)
  else pure r

/-- Step 11 (R121, R122, R123). -/
def tileInfo : Grammar Unit := do
  let h ← getHdr
  let lo := minLog2Cols h.width
  let hi := maxLog2Cols h.width
  setTile fun t => { t with minLog2Cols := lo, maxLog2Cols := hi }
  let c ← tileCols (hi - lo) lo
  setTile fun t => { t with log2Cols := c }
  let r ← tileRows
  setTile fun t => { t with log2Rows := r }

/-! ### Step 12 and completion -/

/-- The header length (R125). -/
def headerLength : Grammar Unit := do
  let pos ← getPos
  setHdr fun h => { h with headerLengthBytes := ceilDiv pos 8 }

/-- Step 12 (R124). -/
def headerSize : Grammar Unit := do
  let n ← f 16
  setHdr fun h => { h with firstPartitionSize := n }
  whenTrue (n == 0) (raise .zeroFirstPartition)
  headerLength

/-- One reference slot after a completed frame (R126). -/
def refreshedSlot (h : Header) (old : RefSlot) (i : Nat) : RefSlot :=
  if h.refreshFrameFlags.getLsbD i then { valid := true, width := h.width, height := h.height } else old

/-- The reference-slot table takes the frame's coded size (R126), only when the grammar completes. -/
def commitRefs : Grammar Unit := do
  let h ← getHdr
  setCtx fun c => { c with refs := c.refs.mapFinIdx fun i old _ => refreshedSlot h old i }

/-! ### The overall order (R93) -/

/-- Steps 5 or 6. -/
def frameBranch : Grammar Unit := do
  let h ← getHdr
  if h.frameType = .key then keyFrame else interFrame

/-- Steps 4 to 12, what follows a header that does not show an existing frame. -/
def fullHeader : Grammar Unit := do
  frameType
  frameBranch
  colorCopy
  ctxFlags
  pastIndependence
  loopFilterParams
  quantizationParams
  segmentationParams
  tileInfo
  headerSize
  commitRefs

/-- The fixed micro-program of PARSE (R93). -/
def uncompressedHeader : Grammar Unit := do
  frameMarker
  profile
  let short ← showExisting
  whenTrue (!short) fullHeader

end Sys2Proof.Machine
end

