-- ==== Sys2Proof/Machine/Facade.lean ====
section
/-! DEFINITION. The meanings of the three host commands (41_facade.md). -/

namespace Sys2Proof.Machine

/-- The instance CREATE makes (R85, R142): the context at its reset values and LIVE; `BR` is not touched, `HDR`,
`ST.RESULT` and `ST.CAUSE` are unspecified (free values). -/
def Instance.create (k : Nat) (x : Instance) : Instance :=
  { x with
    life := .live, ctx := Context.reset
    hdr := Config.freeHeader k x.freeCount, result := Config.freeResult k x.freeCount
    cause := Config.freeCause k x.freeCount, freeCount := x.freeCount + 1 }

/-- The instance DESTROY leaves (R91): DESTROYED, everything else released, so unspecified (free values). -/
def Instance.destroy (k : Nat) (x : Instance) : Instance :=
  { life := .destroyed
    result := Config.freeResult k x.freeCount, cause := Config.freeCause k x.freeCount
    br := Config.freeReader k x.freeCount, ctx := Config.freeContext k x.freeCount
    hdr := Config.freeHeader k x.freeCount, freeCount := x.freeCount + 1 }

/-- CREATE (R85); misuse on an instance that is not ABSENT (R92). -/
def execCreate (s : State) : Host.Outcome State Fault Refusal :=
  if s.port.overlapped then .refused .overlapped
  else if s.inst.life = .absent then .next (s.done (s.inst.create s.port.target) none)
  else .refused .notAbsent

/-- What the grammar starts from (R86): HDR zeroed, a fresh reader over the operands, the context the last PARSE left. -/
def startWork (s : State) : Work := { br := s.port.reader, ctx := s.inst.ctx, hdr := Header.zero }

/-- PARSE (R86); misuse on an instance that is not LIVE, with a missing or short buffer, or with a buffer the host changes
meanwhile (R92). -/
def execParse (s : State) : Host.Outcome State Fault Refusal :=
  if s.port.overlapped then .refused .overlapped
  else if s.inst.life = .live then
    withBuffer s
      (if s.port.bufChanged then .refused .bufferChanged
       else endParse s (uncompressedHeader (startWork s)))
  else .refused .notLive

/-- DESTROY (R91); misuse on an instance that is not LIVE (R92). -/
def execDestroy (s : State) : Host.Outcome State Fault Refusal :=
  if s.port.overlapped then .refused .overlapped
  else if s.inst.life = .live then .next (s.done (s.inst.destroy s.port.target) none)
  else .refused .notLive

end Sys2Proof.Machine
end

