-- ==== Sys2Proof/Machine/Dispatch.lean ====
section
/-! DEFINITION. One arm per operation. -/

namespace Sys2Proof.Machine

def exec (i : Instr) (s : State) : Host.Outcome State Fault Refusal :=
  match i with
  | .create => Sys2Proof.Machine.execCreate s
  | .parse => Sys2Proof.Machine.execParse s
  | .destroy => Sys2Proof.Machine.execDestroy s
  | .brInit => Sys2Proof.Machine.execBrInit s
  | .readBits n => Sys2Proof.Machine.execReadBits n s
  | .readSigned n => Sys2Proof.Machine.execReadSigned n s
  | .readFlag => Sys2Proof.Machine.execReadFlag s
  | .getPos => Sys2Proof.Machine.execGetPos s

end Sys2Proof.Machine
end

