-- ==== Sys2Proof/Machine/Step.lean ====
section
/-! DEFINITION. One step: the next command the host issues, decoded and executed; with none the block is idle. -/

namespace Sys2Proof.Machine

/-- One step. Each command is one atomic step to the host (R88, R151). With no command the block is idle and its state is
held (R140). A word that is no command is refused (R59). -/
def step (s : State) : Host.Outcome State Fault Refusal :=
  match s.fetch with
  | none => .next s
  | some (w, s') =>
    match decode w with
    | .ok i => exec i s'
    | .error e => .refused (Refusal.ofDecode e)

/-- `s` with a row of the opcode table as the command the next step takes (assumption log 7). -/
def State.withFetchWord (s : State) (nbits w : Nat) : State := s.withCommand (tableWord nbits w)

end Sys2Proof.Machine
end

