-- ==== Sys2Proof/Safety.lean ====
section
/-! DEFINITION. The terms claims are made in: the ranges of 10_state.md, the invariant every step keeps, when a command is
within the host's contract, and what a command leaves alone. -/

namespace Sys2Proof.Machine

/-! ### Ranges (10_state.md) -/

/-- A reader that is well bound: canonical buffer, a byte at every offset below `BR.LEN`, `BR.POS <= 8 * BR.LEN` (R16). -/
def Reader.wf (r : Reader) : Bool := r.buf.wf && r.buf.holds r.len && decide (r.pos ≤ 8 * r.len)

/-- `-m <= v <= m`. -/
abbrev within (m : Nat) (v : Int) : Prop := -(m : Int) ≤ v ∧ v ≤ m

/-- The ranges of R21. -/
abbrev SegFeature.inRange (e : SegFeature) : Prop := within 255 e.q ∧ within Config.maxLoopFilter e.lf

/-- The ranges of R24; a slot that is valid holds a size some frame had, at least 1 by 1 (R29, R126). -/
abbrev RefSlot.inRange (r : RefSlot) : Prop :=
  r.width ≤ 65536 ∧ r.height ≤ 65536 ∧ (r.valid = true → 1 ≤ r.width ∧ 1 ≤ r.height)

/-- The ranges of the context registers (R18, R19, R21, R24). -/
structure Context.inRange (c : Context) : Prop where
  refDelta  : ∀ i : Fin 4, within Config.maxLoopFilter c.lfRefDelta[i]
  modeDelta : ∀ i : Fin 2, within Config.maxLoopFilter c.lfModeDelta[i]
  treeProb  : ∀ i : Fin 7, c.segTreeProb[i] ≤ Config.maxProb
  predProb  : ∀ i : Fin 3, c.segPredProb[i] ≤ Config.maxProb
  seg       : ∀ i : Fin 8, c.seg[i].inRange
  refs      : ∀ i : Fin 8, c.refs[i].inRange

/-- The ranges of R32. -/
structure LoopFilterHdr.inRange (l : LoopFilterHdr) : Prop where
  level     : l.level ≤ Config.maxLoopFilter
  sharpness : l.sharpness ≤ Config.maxSharpness
  refDelta  : ∀ i : Fin 4, within Config.maxLoopFilter l.refDelta[i]
  modeDelta : ∀ i : Fin 2, within Config.maxLoopFilter l.modeDelta[i]

/-- The ranges of R33. -/
structure QuantHdr.inRange (q : QuantHdr) : Prop where
  baseQIdx   : q.baseQIdx ≤ 255
  deltaQYDc  : within 15 q.deltaQYDc
  deltaQUvDc : within 15 q.deltaQUvDc
  deltaQUvAc : within 15 q.deltaQUvAc

/-- The ranges of R34. -/
structure SegHdr.inRange (g : SegHdr) : Prop where
  treeProb : ∀ i : Fin 7, g.treeProb[i] ≤ Config.maxProb
  predProb : ∀ i : Fin 3, g.predProb[i] ≤ Config.maxProb
  feature  : ∀ i : Fin 8, g.feature[i].inRange

/-- The ranges of R35. -/
structure TileHdr.inRange (t : TileHdr) : Prop where
  minLog2Cols : t.minLog2Cols ≤ 4
  maxLog2Cols : t.maxLog2Cols ≤ 8
  log2Cols    : t.minLog2Cols ≤ t.log2Cols ∧ t.log2Cols ≤ t.maxLog2Cols
  log2Rows    : t.log2Rows ≤ 2

/-- A size read from the stream or copied from a valid slot (R29). -/
abbrev sizeInRange (v : Nat) : Prop := 1 ≤ v ∧ v ≤ 65536

/-- The ranges of a header that carries a frame (R27, R29, R31 to R36); the other fields' types are their ranges. -/
structure Header.inRange (h : Header) : Prop where
  profile       : h.profile ≤ 3
  resetFrameCtx : h.resetFrameContext ≤ 3
  width         : sizeInRange h.width
  height        : sizeInRange h.height
  displayWidth  : sizeInRange h.displayWidth
  displayHeight : sizeInRange h.displayHeight
  frameCtxIdx   : h.frameContextIdx ≤ 3
  lf            : h.lf.inRange
  q             : h.q.inRange
  seg           : h.seg.inRange
  tile          : h.tile.inRange
  partition     : 1 ≤ h.firstPartitionSize ∧ h.firstPartitionSize ≤ 65535
  length        : h.headerLengthBytes ≤ 63

/-! ### The invariant -/

/-- What holds of an instance: its reader is well bound until it is destroyed (R16), its context is in range while it is
LIVE; nothing is claimed of registers the spec calls unspecified. -/
structure Instance.Inv (x : Instance) : Prop where
  reader  : x.life ≠ .destroyed → x.br.wf = true
  context : x.life = .live → x.ctx.inRange

/-- The buffer on the data port, if there is one, is in canonical form. -/
def Port.wf (p : Port) : Bool := p.buffer.wf

/-- The invariant every step keeps. -/
structure State.Inv (s : State) : Prop where
  /-- Instance numbers strictly rise. -/
  rising  : risingFrom 0 s.insts = true
  /-- No listed instance is the one an unlisted number stands for. -/
  present : ∀ e ∈ s.insts, e.2 ≠ Instance.absent
  /-- Every instance is as `Instance.Inv` says. -/
  insts   : ∀ k, (s.get k).Inv
  /-- The data port's buffer is canonical. -/
  port    : s.port.wf = true
  /-- So is every buffer the host is going to pass. -/
  script  : ∀ c ∈ s.script, c.port.wf = true

/-! ### The host's contract (R92) -/

/-- A bit-reader operation is within the contract: no overlap, not on a destroyed instance. -/
structure State.ReaderReady (s : State) : Prop where
  alone : s.port.overlapped = false
  alive : s.inst.life ≠ .destroyed

/-- BR_INIT and PARSE: the buffer operand holds `len` bytes (with length 0 there need be none). -/
def Port.bufferGiven (p : Port) : Prop :=
  (p.buf = none ∧ p.len = 0) ∨ ∃ m, p.buf = some m ∧ ∀ a < p.len, ∃ b, lookup a m = some b

/-- PARSE is within the contract. -/
structure State.ParseReady (s : State) : Prop where
  alone  : s.port.overlapped = false
  live   : s.inst.life = .live
  buffer : s.port.bufferGiven
  fixed  : s.port.bufChanged = false

/-! ### Frames -/

/-- What every command leaves alone: the caller's buffer and the other operands on the data port, the commands still to
come, and every register of every other instance (R41, R141). -/
structure OthersKept (s t : State) : Prop where
  port   : t.port = s.port
  script : t.script = s.script
  others : ∀ k, k ≠ s.port.target → t.get k = s.get k

/-- The byte of the caller's buffer at offset `a`, as `MemRead` would give it (R42). -/
def State.bufferByte (s : State) (a : Nat) : Option Byte := s.port.reader.memRead a

/-- The `n` bits of the caller's buffer from bit position `p` as one unsigned number, most significant first (R43, R44). -/
def State.bufferField (s : State) (p n : Nat) : Option Nat := s.port.reader.bitsFrom n p 0

/-- The signed-magnitude field of the caller's buffer at bit position `p`: `n` magnitude bits, then the sign bit (R80). -/
def State.bufferSigned (s : State) (p n : Nat) : Option Int :=
  match s.bufferField p n, s.bufferField (p + n) 1 with
  | some m, some b => some (if b = 1 then -(m : Int) else m)
  | _, _ => none

/-! ### What a PARSE leaves -/

/-- `BR` after a PARSE of `s` ended in `t`: the length bound (R77) and the cursor (R131). Nothing is said of `BR.BUF`, which the
block keeps no use of (R148). -/
structure ReaderEndsAt (s t : State) (pos : Nat) : Prop where
  len : t.inst.br.len = s.port.len
  pos : t.inst.br.pos = pos

/-- A PARSE of `s` ended OK in `t`: the instance whole, but for what `ReaderEndsAt` says nothing of. -/
structure DecodedTo (s t : State) (pos : Nat) (c : Context) (h : Header) : Prop where
  life   : t.inst.life = .live
  result : t.inst.result = .ok
  cause  : t.inst.cause = .none
  reader : ReaderEndsAt s t pos
  ctx    : t.inst.ctx = c
  hdr    : t.inst.hdr = h

/-! ### What a completed PARSE says -/

/-- PARSE of `s` ended OK in `t`, with a header that carries a frame: not a show-existing header (R96). -/
structure ParsedFrame (s t : State) : Prop where
  parse : exec .parse s = .next t
  ok    : t.inst.result = .ok
  frame : t.inst.hdr.showExistingFrame = false

/-- Bits of the profile field: 3 with the reserved bit of profile 3, else 2 (R95). -/
def profileBits (p : Nat) : Nat := if p = 3 then 3 else 2

/-- The buffer starts with the frame marker and profile `p`, with profile 3's reserved bit 0 (R94, R95). -/
structure State.StartsWith (s : State) (p : Nat) : Prop where
  marker   : s.bufferField 0 2 = some Config.frameMarker
  low      : s.bufferField 2 1 = some (p % 2)
  high     : s.bufferField 3 1 = some (p / 2)
  reserved : p = 3 → s.bufferField 4 1 = some 0

/-- The legal colour configurations of R100, by profile. -/
structure ColorConfig.Legal (p : Nat) (c : ColorConfig) : Prop where
  depth : if 2 ≤ p then c.bitDepth = .ten ∨ c.bitDepth = .twelve else c.bitDepth = .eight
  srgb  : c.colorSpace = .srgb → (p = 1 ∨ p = 3) ∧ c.colorRange = .full ∧ c.subsamplingX = false ∧ c.subsamplingY = false
  yuv   : c.colorSpace ≠ .srgb →
    if p = 1 ∨ p = 3 then ¬(c.subsamplingX = true ∧ c.subsamplingY = true) else c.subsamplingX = true ∧ c.subsamplingY = true

/-- The colour of a profile-0 intra-only frame (R105). -/
def intraOnlyColor : ColorConfig :=
  { bitDepth := .eight, colorSpace := .bt601, colorRange := .limited, subsamplingX := true, subsamplingY := true }

/-- What the size-from-reference flags of a completed frame say (R107), against the slots it started from: none is 1, or
exactly one is, and the slot its reference names is valid and gave the size. -/
def SizeFlags (refs : Vector RefSlot 8) (h : Header) : Prop :=
  (∀ i : Fin 3, h.sizeFromRef[i] = false) ∨
    ∃ k : Fin 3, (∀ i : Fin 3, h.sizeFromRef[i] = decide (i = k)) ∧ (refs[h.refFrameIdx[k]]).valid = true ∧
      h.width = (refs[h.refFrameIdx[k]]).width ∧ h.height = (refs[h.refFrameIdx[k]]).height

/-- A feature whose enable bit is 0 has value 0 (R119). -/
def SegFeature.Absent0 (e : SegFeature) : Prop :=
  (e.qEn = false → e.q = 0) ∧ (e.lfEn = false → e.lf = 0) ∧ (e.refEn = false → e.ref = .intra)

/-! ### The codes of the bitstream, spelled out (R69 to R72)

The statements do not use the decoders of Machine/Operands.lean: they have the tables of 30_encoding.md as lists. -/

/-- `color_space` (R69). -/
def codedSpace (v : Nat) : ColorSpace :=
  ([.unknown, .bt601, .bt709, .smpte170, .smpte240, .bt2020, .reserved, .srgb] : List ColorSpace).getD v .srgb

/-- `color_range` (R70). -/
def codedRange (full : Bool) : ColorRange := if full then .full else .limited

/-- LITERAL_TO_FILTER (R71). -/
def codedFilter (v : Nat) : InterpFilter :=
  ([.eighttapSmooth, .eighttap, .eighttapSharp, .bilinear] : List InterpFilter).getD v .bilinear

/-- A reference id (R72). -/
def codedRef (v : Nat) : RefId := ([.intra, .last, .golden, .altref] : List RefId).getD v .altref

/-! ### Two whole frames, field by field -/

/-- The coded values of a profile-0 key frame that is not error resilient, has no render size, updates no delta, codes no
quantizer delta, has no segmentation, is at most 448 wide and has one tile row: every other field of it is free. -/
structure PlainKeyFrame where
  showFrame   : Bool
  colorSpace  : Nat
  colorRange  : Bool
  widthMinus1 : Nat
  heightMinus1 : Nat
  refreshFrameContext : Bool
  parallel    : Bool
  contextIdx  : Nat
  level       : Nat
  sharpness   : Nat
  baseQIdx    : Nat
  partition   : Nat

/-- The buffer codes the frame `k`, the fields in the order and at the places of R75. -/
structure PlainKeyFrame.At (k : PlainKeyFrame) (s : State) : Prop where
  start      : s.StartsWith 0
  existing   : s.bufferField 4 1 = some 0
  frameType  : s.bufferField 5 1 = some 0
  showFrame  : s.bufferField 6 1 = some (if k.showFrame then 1 else 0)
  resilient  : s.bufferField 7 1 = some 0
  sync       : s.bufferField 8 24 = some Config.syncCode
  colorSpace : s.bufferField 32 3 = some k.colorSpace
  notSrgb    : k.colorSpace ≠ 7
  colorRange : s.bufferField 35 1 = some (if k.colorRange then 1 else 0)
  width      : s.bufferField 36 16 = some k.widthMinus1
  narrow     : k.widthMinus1 < 448
  height     : s.bufferField 52 16 = some k.heightMinus1
  render     : s.bufferField 68 1 = some 0
  refreshCtx : s.bufferField 69 1 = some (if k.refreshFrameContext then 1 else 0)
  parallel   : s.bufferField 70 1 = some (if k.parallel then 1 else 0)
  contextIdx : s.bufferField 71 2 = some k.contextIdx
  level      : s.bufferField 73 6 = some k.level
  sharpness  : s.bufferField 79 3 = some k.sharpness
  noDeltas   : s.bufferField 82 1 = some 0
  baseQIdx   : s.bufferField 83 8 = some k.baseQIdx
  noQDeltas  : s.bufferField 91 3 = some 0
  noSeg      : s.bufferField 94 1 = some 0
  oneRow     : s.bufferField 95 1 = some 0
  partition  : s.bufferField 96 16 = some k.partition
  notEmpty   : k.partition ≠ 0

/-- The colour configuration it codes (R100). -/
def PlainKeyFrame.color (k : PlainKeyFrame) : ColorConfig :=
  { bitDepth := .eight, colorSpace := codedSpace k.colorSpace, colorRange := codedRange k.colorRange
    subsamplingX := true, subsamplingY := true }

/-- The context it leaves (R100, R111, R116, R126). -/
def PlainKeyFrame.context (k : PlainKeyFrame) (c : Context) : Context :=
  { c with
    lfRefDelta := #v[1, 0, -1, -1], lfModeDelta := #v[0, 0], segAbsDelta := false
    seg := Vector.replicate 8 SegFeature.zero, lossless := decide (k.baseQIdx = 0), color := k.color
    refs := Vector.replicate 8 { valid := true, width := k.widthMinus1 + 1, height := k.heightMinus1 + 1 } }

/-- The header it is decoded to. -/
def PlainKeyFrame.header (k : PlainKeyFrame) (c : Context) : Header :=
  { Header.zero with
    showFrame := k.showFrame, refreshFrameFlags := 0xFF, color := k.color
    width := k.widthMinus1 + 1, height := k.heightMinus1 + 1
    displayWidth := k.widthMinus1 + 1, displayHeight := k.heightMinus1 + 1
    refreshFrameContext := k.refreshFrameContext, frameParallelDecodingMode := k.parallel
    frameContextIdx := k.contextIdx
    lf := { Header.zero.lf with level := k.level, sharpness := k.sharpness, refDelta := #v[1, 0, -1, -1] }
    q := { Header.zero.q with baseQIdx := k.baseQIdx }
    lossless := decide (k.baseQIdx = 0)
    seg := { Header.zero.seg with treeProb := c.segTreeProb, predProb := c.segPredProb }
    firstPartitionSize := k.partition, headerLengthBytes := 14 }

/-- The coded values of a shown profile-0 inter frame that is not error resilient, takes its size from LAST's slot, has no
render size, switchable filters, updates no delta, codes no quantizer delta, has no segmentation and one tile row. -/
structure PlainInterFrame where
  resetFrameContext : Nat
  refreshFlags : Nat
  slots       : Vector Nat 3
  signBias    : Vector Bool 3
  highPrecision : Bool
  refreshFrameContext : Bool
  parallel    : Bool
  contextIdx  : Nat
  level       : Nat
  sharpness   : Nat
  baseQIdx    : Nat
  partition   : Nat

/-- The slot the frame takes its size from. -/
def PlainInterFrame.slot (k : PlainInterFrame) (c : Context) : RefSlot := c.refs[slotOf k.slots[0]]

/-- The buffer codes the frame `k` (R75), and the slot of LAST is valid and at most 448 wide. -/
structure PlainInterFrame.At (k : PlainInterFrame) (s : State) : Prop where
  start      : s.StartsWith 0
  existing   : s.bufferField 4 1 = some 0
  frameType  : s.bufferField 5 1 = some 1
  showFrame  : s.bufferField 6 1 = some 1
  resilient  : s.bufferField 7 1 = some 0
  resetCtx   : s.bufferField 8 2 = some k.resetFrameContext
  refresh    : s.bufferField 10 8 = some k.refreshFlags
  slots      : ∀ i : Fin 3, s.bufferField (18 + 4 * i) 3 = some k.slots[i]
  signBias   : ∀ i : Fin 3, s.bufferField (21 + 4 * i) 1 = some (if k.signBias[i] then 1 else 0)
  found      : s.bufferField 30 1 = some 1
  valid      : (k.slot s.inst.ctx).valid = true
  narrow     : (k.slot s.inst.ctx).width ≤ 448
  render     : s.bufferField 31 1 = some 0
  precision  : s.bufferField 32 1 = some (if k.highPrecision then 1 else 0)
  switchable : s.bufferField 33 1 = some 1
  refreshCtx : s.bufferField 34 1 = some (if k.refreshFrameContext then 1 else 0)
  parallel   : s.bufferField 35 1 = some (if k.parallel then 1 else 0)
  contextIdx : s.bufferField 36 2 = some k.contextIdx
  level      : s.bufferField 38 6 = some k.level
  sharpness  : s.bufferField 44 3 = some k.sharpness
  noDeltas   : s.bufferField 47 1 = some 0
  baseQIdx   : s.bufferField 48 8 = some k.baseQIdx
  noQDeltas  : s.bufferField 56 3 = some 0
  noSeg      : s.bufferField 59 1 = some 0
  oneRow     : s.bufferField 60 1 = some 0
  partition  : s.bufferField 61 16 = some k.partition
  notEmpty   : k.partition ≠ 0

/-- The context it leaves: the lossless flag, and the slots it refreshes (R116, R126). -/
def PlainInterFrame.context (k : PlainInterFrame) (c : Context) : Context :=
  { c with
    lossless := decide (k.baseQIdx = 0)
    refs := c.refs.mapFinIdx fun i old _ =>
      if (refreshMask k.refreshFlags).getLsbD i then
        { valid := true, width := (k.slot c).width, height := (k.slot c).height }
      else old }

/-- The header it is decoded to: what it does not code is reported from the context (R109, R114, R120). -/
def PlainInterFrame.header (k : PlainInterFrame) (c : Context) : Header :=
  { Header.zero with
    frameType := .inter, showFrame := true, resetFrameContext := k.resetFrameContext
    refreshFrameFlags := refreshMask k.refreshFlags, color := c.color
    width := (k.slot c).width, height := (k.slot c).height
    displayWidth := (k.slot c).width, displayHeight := (k.slot c).height
    refFrameIdx := k.slots.map slotOf, refSignBias := k.signBias, sizeFromRef := #v[true, false, false]
    allowHighPrecisionMv := k.highPrecision, interpFilter := .switchable
    refreshFrameContext := k.refreshFrameContext, frameParallelDecodingMode := k.parallel
    frameContextIdx := k.contextIdx
    lf := { Header.zero.lf with
      level := k.level, sharpness := k.sharpness, refDelta := c.lfRefDelta, modeDelta := c.lfModeDelta }
    q := { Header.zero.q with baseQIdx := k.baseQIdx }
    lossless := decide (k.baseQIdx = 0)
    seg := { Header.zero.seg with
      treeProb := c.segTreeProb, predProb := c.segPredProb, absDelta := c.segAbsDelta, feature := c.seg }
    firstPartitionSize := k.partition, headerLengthBytes := 10 }

/-! ### Two frames that code what the plain ones leave out -/

/-- The coded values of a shown, error-resilient profile-0 inter frame that codes its own size (at most 448 wide), a filter
literal, all six loop-filter deltas and all three quantizer deltas, without a render size or segmentation, with one tile row. -/
structure CodedInterFrame where
  refreshFlags : Nat
  slots       : Vector Nat 3
  signBias    : Vector Bool 3
  widthMinus1 : Nat
  heightMinus1 : Nat
  highPrecision : Bool
  literal     : Nat
  contextIdx  : Nat
  level       : Nat
  sharpness   : Nat
  refDelta    : Vector Int 4
  modeDelta   : Vector Int 2
  quant       : QuantHdr
  partition   : Nat

/-- The buffer codes the frame `k`, the fields in the order and at the places of R75. -/
structure CodedInterFrame.At (k : CodedInterFrame) (s : State) : Prop where
  start      : s.StartsWith 0
  existing   : s.bufferField 4 1 = some 0
  frameType  : s.bufferField 5 1 = some 1
  showFrame  : s.bufferField 6 1 = some 1
  resilient  : s.bufferField 7 1 = some 1
  refresh    : s.bufferField 8 8 = some k.refreshFlags
  slots      : ∀ i : Fin 3, s.bufferField (16 + 4 * i) 3 = some k.slots[i]
  signBias   : ∀ i : Fin 3, s.bufferField (19 + 4 * i) 1 = some (if k.signBias[i] then 1 else 0)
  noSizeRef  : ∀ i : Fin 3, s.bufferField (28 + i) 1 = some 0
  width      : s.bufferField 31 16 = some k.widthMinus1
  narrow     : k.widthMinus1 < 448
  height     : s.bufferField 47 16 = some k.heightMinus1
  render     : s.bufferField 63 1 = some 0
  precision  : s.bufferField 64 1 = some (if k.highPrecision then 1 else 0)
  switchable : s.bufferField 65 1 = some 0
  literal    : s.bufferField 66 2 = some k.literal
  contextIdx : s.bufferField 68 2 = some k.contextIdx
  level      : s.bufferField 70 6 = some k.level
  sharpness  : s.bufferField 76 3 = some k.sharpness
  enabled    : s.bufferField 79 1 = some 1
  update     : s.bufferField 80 1 = some 1
  refFlag    : ∀ i : Fin 4, s.bufferField (81 + 8 * i) 1 = some 1
  refDelta   : ∀ i : Fin 4, s.bufferSigned (82 + 8 * i) 6 = some k.refDelta[i]
  modeFlag   : ∀ i : Fin 2, s.bufferField (113 + 8 * i) 1 = some 1
  modeDelta  : ∀ i : Fin 2, s.bufferSigned (114 + 8 * i) 6 = some k.modeDelta[i]
  baseQIdx   : s.bufferField 129 8 = some k.quant.baseQIdx
  quantFlag  : ∀ i : Fin 3, s.bufferField (137 + 6 * i) 1 = some 1
  yDc        : s.bufferSigned 138 4 = some k.quant.deltaQYDc
  uvDc       : s.bufferSigned 144 4 = some k.quant.deltaQUvDc
  uvAc       : s.bufferSigned 150 4 = some k.quant.deltaQUvAc
  noSeg      : s.bufferField 155 1 = some 0
  oneRow     : s.bufferField 156 1 = some 0
  partition  : s.bufferField 157 16 = some k.partition
  notEmpty   : k.partition ≠ 0

/-- The context it leaves: the deltas coded, the segment features reset (R111, R113, R116, R126). -/
def CodedInterFrame.context (k : CodedInterFrame) (c : Context) : Context :=
  { c with
    lfRefDelta := k.refDelta, lfModeDelta := k.modeDelta, segAbsDelta := false
    seg := Vector.replicate 8 SegFeature.zero, lossless := k.quant.isLossless
    refs := c.refs.mapFinIdx fun i old _ =>
      if (refreshMask k.refreshFlags).getLsbD i then
        { valid := true, width := k.widthMinus1 + 1, height := k.heightMinus1 + 1 }
      else old }

/-- The header it is decoded to. -/
def CodedInterFrame.header (k : CodedInterFrame) (c : Context) : Header :=
  { Header.zero with
    frameType := .inter, showFrame := true, errorResilientMode := true
    refreshFrameFlags := refreshMask k.refreshFlags, color := c.color
    width := k.widthMinus1 + 1, height := k.heightMinus1 + 1
    displayWidth := k.widthMinus1 + 1, displayHeight := k.heightMinus1 + 1
    refFrameIdx := k.slots.map slotOf, refSignBias := k.signBias
    allowHighPrecisionMv := k.highPrecision, interpFilter := codedFilter k.literal
    frameParallelDecodingMode := true, frameContextIdx := k.contextIdx
    lf := { level := k.level, sharpness := k.sharpness, modeRefDeltaEnabled := true, modeRefDeltaUpdate := true
            refDelta := k.refDelta, modeDelta := k.modeDelta
            refDeltaUpdated := Vector.replicate 4 true, modeDeltaUpdated := Vector.replicate 2 true }
    q := k.quant, lossless := k.quant.isLossless
    seg := { Header.zero.seg with treeProb := c.segTreeProb, predProb := c.segPredProb }
    firstPartitionSize := k.partition, headerLengthBytes := 22 }

/-- The coded values of a profile-0 intra-only frame with a render size, at most 448 wide, that codes every segmentation
probability and every segment feature, not error resilient, without loop-filter or quantizer deltas, with one tile row. -/
structure CodedIntraFrame where
  resetFrameContext : Nat
  refreshFlags  : Nat
  widthMinus1   : Nat
  heightMinus1  : Nat
  displayWidthMinus1 : Nat
  displayHeightMinus1 : Nat
  refreshFrameContext : Bool
  parallel      : Bool
  contextIdx    : Nat
  level         : Nat
  sharpness     : Nat
  baseQIdx      : Nat
  treeProb      : Vector Nat 7
  predProb      : Vector Nat 3
  absDelta      : Bool
  feature       : Vector SegFeature 8
  partition     : Nat

/-- The buffer codes segment `i`'s features at bit position `p` (R119), all present. -/
structure SegFeature.At (e : SegFeature) (s : State) (p : Nat) : Prop where
  qFlag : s.bufferField p 1 = some 1
  qEn   : e.qEn = true
  q     : s.bufferSigned (p + 1) 8 = some e.q
  lfFlag : s.bufferField (p + 10) 1 = some 1
  lfEn  : e.lfEn = true
  lf    : s.bufferSigned (p + 11) 6 = some e.lf
  refFlag : s.bufferField (p + 18) 1 = some 1
  refEn : e.refEn = true
  ref   : ∃ v, s.bufferField (p + 19) 2 = some v ∧ e.ref = codedRef v
  skip  : s.bufferField (p + 21) 1 = some (if e.skip then 1 else 0)

/-- The buffer codes the frame `k`, the fields in the order and at the places of R75. -/
structure CodedIntraFrame.At (k : CodedIntraFrame) (s : State) : Prop where
  start      : s.StartsWith 0
  existing   : s.bufferField 4 1 = some 0
  frameType  : s.bufferField 5 1 = some 1
  showFrame  : s.bufferField 6 1 = some 0
  resilient  : s.bufferField 7 1 = some 0
  intraOnly  : s.bufferField 8 1 = some 1
  resetCtx   : s.bufferField 9 2 = some k.resetFrameContext
  sync       : s.bufferField 11 24 = some Config.syncCode
  refresh    : s.bufferField 35 8 = some k.refreshFlags
  width      : s.bufferField 43 16 = some k.widthMinus1
  narrow     : k.widthMinus1 < 448
  height     : s.bufferField 59 16 = some k.heightMinus1
  render     : s.bufferField 75 1 = some 1
  displayWidth : s.bufferField 76 16 = some k.displayWidthMinus1
  displayHeight : s.bufferField 92 16 = some k.displayHeightMinus1
  refreshCtx : s.bufferField 108 1 = some (if k.refreshFrameContext then 1 else 0)
  parallel   : s.bufferField 109 1 = some (if k.parallel then 1 else 0)
  contextIdx : s.bufferField 110 2 = some k.contextIdx
  level      : s.bufferField 112 6 = some k.level
  sharpness  : s.bufferField 118 3 = some k.sharpness
  noDeltas   : s.bufferField 121 1 = some 0
  baseQIdx   : s.bufferField 122 8 = some k.baseQIdx
  noQDeltas  : s.bufferField 130 3 = some 0
  segEnabled : s.bufferField 133 1 = some 1
  updateMap  : s.bufferField 134 1 = some 1
  treeFlag   : ∀ i : Fin 7, s.bufferField (135 + 9 * i) 1 = some 1
  treeProb   : ∀ i : Fin 7, s.bufferField (136 + 9 * i) 8 = some k.treeProb[i]
  temporal   : s.bufferField 198 1 = some 1
  predFlag   : ∀ i : Fin 3, s.bufferField (199 + 9 * i) 1 = some 1
  predProb   : ∀ i : Fin 3, s.bufferField (200 + 9 * i) 8 = some k.predProb[i]
  updateData : s.bufferField 226 1 = some 1
  absDelta   : s.bufferField 227 1 = some (if k.absDelta then 1 else 0)
  feature    : ∀ i : Fin 8, SegFeature.At k.feature[i] s (228 + 22 * i)
  oneRow     : s.bufferField 404 1 = some 0
  partition  : s.bufferField 405 16 = some k.partition
  notEmpty   : k.partition ≠ 0

/-- The context it leaves (R105, R111, R116, R118, R119, R126). -/
def CodedIntraFrame.context (k : CodedIntraFrame) (c : Context) : Context :=
  { lfRefDelta := #v[1, 0, -1, -1], lfModeDelta := #v[0, 0], segTreeProb := k.treeProb, segPredProb := k.predProb
    segAbsDelta := k.absDelta, seg := k.feature, lossless := decide (k.baseQIdx = 0), color := intraOnlyColor
    refs := c.refs.mapFinIdx fun i old _ =>
      if (refreshMask k.refreshFlags).getLsbD i then
        { valid := true, width := k.widthMinus1 + 1, height := k.heightMinus1 + 1 }
      else old }

/-- The header it is decoded to. -/
def CodedIntraFrame.header (k : CodedIntraFrame) : Header :=
  { Header.zero with
    frameType := .inter, intraOnly := true, resetFrameContext := k.resetFrameContext
    refreshFrameFlags := refreshMask k.refreshFlags, color := intraOnlyColor
    width := k.widthMinus1 + 1, height := k.heightMinus1 + 1, displaySizePresent := true
    displayWidth := k.displayWidthMinus1 + 1, displayHeight := k.displayHeightMinus1 + 1
    refreshFrameContext := k.refreshFrameContext, frameParallelDecodingMode := k.parallel
    frameContextIdx := k.contextIdx
    lf := { Header.zero.lf with level := k.level, sharpness := k.sharpness, refDelta := #v[1, 0, -1, -1] }
    q := { Header.zero.q with baseQIdx := k.baseQIdx }
    lossless := decide (k.baseQIdx = 0)
    seg := { enabled := true, updateMap := true, temporalUpdate := true, updateData := true
             treeProbPresent := Vector.replicate 7 true, predProbPresent := Vector.replicate 3 true
             treeProb := k.treeProb, predProb := k.predProb, absDelta := k.absDelta, feature := k.feature }
    firstPartitionSize := k.partition, headerLengthBytes := 53 }

end Sys2Proof.Machine
end

