-- ==== Sys2Proof/Coded.lean ====
section
/-! DEFINITION. The bitstream of R75 written the other way round: every header that carries a frame as data (`CodedFrame`), the
fields it is coded as in stream order, the context and header the rules give it, and the
context writes between its fields (`CodedFrame.steps`). Statements use it to say what PARSE does
with EVERY buffer that codes such a frame. -/

namespace Sys2Proof.Machine

/-! ### Fields of the stream (R62, R63) -/

/-- A field of the stream: its width in bits and its value. -/
abbrev BitField := Nat × Nat

/-- `f(1)`: a flag. -/
def flagField (b : Bool) : BitField := (1, if b then 1 else 0)

/-- The bits a list of fields takes. -/
def bitsOf : List BitField → Nat
  | [] => 0
  | x :: xs => x.1 + bitsOf xs

/-- The caller's buffer holds these fields one after the other from bit position `p`. -/
def State.codes (s : State) : Nat → List BitField → Prop
  | _, [] => True
  | p, x :: xs => s.bufferField p x.1 = some x.2 ∧ s.codes (p + x.1) xs

/-- A signed-magnitude value as it is coded: the magnitude and the sign bit, so that -0 is one too (R80). -/
structure CodedSigned where
  magnitude : Nat
  negative  : Bool

/-- `su(n)`. -/
def CodedSigned.fields (n : Nat) (v : CodedSigned) : List BitField := [(n, v.magnitude), flagField v.negative]

/-- Its value. -/
def CodedSigned.value (v : CodedSigned) : Int := if v.negative then -(v.magnitude : Int) else v.magnitude

/-- A value behind its presence flag (R63). -/
def optionalFields {α : Type} (fields : α → List BitField) : Option α → List BitField
  | none => [flagField false]
  | some v => flagField true :: fields v

/-! ### Steps 1 to 3 (R94 to R96) -/

/-- Marker, profile with its reserved bit, and `show_existing_frame` 0. -/
def frontFields (p : Nat) : List BitField :=
  [(2, Config.frameMarker), (1, p % 2), (1, p / 2)] ++ (if p = 3 then [(1, 0)] else []) ++ [(1, 0)]

/-! ### The colour configuration (R100) -/

/-- The values coded by a colour configuration; which of them are coded depends on the profile and the colour space. -/
structure ColorCode where
  twelve   : Bool
  space    : Nat
  range    : Bool
  ssX      : Bool
  ssY      : Bool
  reserved : Bool

/-- The profiles that code their subsampling (R100). -/
abbrev subsampled (p : Nat) : Prop := p = 1 ∨ p = 3

/-- The fields R100 reads, up to the check that fails, if one does. -/
def ColorCode.fields (k : ColorCode) (p : Nat) : List BitField :=
  (if 2 ≤ p then [flagField k.twelve] else []) ++ [(3, k.space)] ++
    if k.space = 7 then if subsampled p then [flagField k.reserved] else []
    else [flagField k.range] ++
      if subsampled p then
        [flagField k.ssX, flagField k.ssY] ++ if k.ssX = true ∧ k.ssY = true then [] else [flagField k.reserved]
      else []

/-- The check of R100 that fails, `none` where none does. -/
def ColorCode.cause (k : ColorCode) (p : Nat) : Cause :=
  if k.space = 7 ∧ ¬ subsampled p then .srgbInProfile02
  else if k.space ≠ 7 ∧ subsampled p ∧ k.ssX = true ∧ k.ssY = true then .subsampling420InProfile13
  else if subsampled p ∧ k.reserved = true then .reservedBitSet
  else .none

/-- The bit depth (R100, R70). -/
def ColorCode.depth (k : ColorCode) (p : Nat) : BitDepth :=
  if 2 ≤ p then if k.twelve then .twelve else .ten else .eight

/-- The colour configuration it gives (R100): SRGB is full range 4:4:4, the profiles that code no subsampling have 4:2:0. -/
def ColorCode.config (k : ColorCode) (p : Nat) : ColorConfig :=
  if k.space = 7 then
    { bitDepth := k.depth p, colorSpace := .srgb, colorRange := .full, subsamplingX := false, subsamplingY := false }
  else
    { bitDepth := k.depth p, colorSpace := codedSpace k.space, colorRange := codedRange k.range
      subsamplingX := if subsampled p then k.ssX else true, subsamplingY := if subsampled p then k.ssY else true }

/-- What a colour configuration that fails has written (R90): all of it, but that SRGB in profile 0 or 2 fails before the
subsampling is written. -/
def ColorCode.written (k : ColorCode) (p : Nat) (old : ColorConfig) : ColorConfig :=
  if k.cause p = .srgbInProfile02 then
    { k.config p with subsamplingX := old.subsamplingX, subsamplingY := old.subsamplingY }
  else k.config p

/-- Where a sync code can stand (R98, R104): in a key frame, or in an intra-only one, which is not shown. After it stands a
colour configuration, but in an intra-only frame of profile 0. -/
inductive ColorFront where
  | key (profile : Nat) (showFrame resilient : Bool)
  | intra (profile : Nat) (resilient : Bool) (resetFrameContext : Nat)

/-- The profile. -/
def ColorFront.profile : ColorFront → Nat
  | .key p _ _ => p
  | .intra p _ _ => p

/-- The profile is one that exists, and an intra-only frame of it codes its colour (R105). -/
def ColorFront.Legal : ColorFront → Prop
  | .key p _ _ => p ≤ 3
  | .intra p _ _ => 1 ≤ p ∧ p ≤ 3

/-- `intra_only` and `reset_frame_context`, read where R103 reads them. -/
def interLead (showFrame resilient intraOnly : Bool) (reset : Nat) : List BitField :=
  (if showFrame then [] else [flagField intraOnly]) ++ (if resilient then [] else [(2, reset)])

/-- All the fields before the sync code. -/
def ColorFront.lead : ColorFront → List BitField
  | .key p showFrame resilient => frontFields p ++ [(1, 0), flagField showFrame, flagField resilient]
  | .intra p resilient reset =>
    frontFields p ++ [(1, 1), (1, 0), flagField resilient] ++ interLead false resilient true reset

/-- All the fields before the colour configuration. -/
def ColorFront.fields (q : ColorFront) : List BitField := q.lead ++ [(24, Config.syncCode)]

/-! ### Sizes (R101, R102, R107) -/

/-- A width and a height, each coded minus one (R64). -/
def sizeFields (wm1 hm1 : Nat) : List BitField := [(16, wm1), (16, hm1)]

/-- The three references: slot index and sign bias of each (R106). -/
def refFields (slots : Vector Nat 3) (bias : Vector Bool 3) : List BitField :=
  [(3, slots[0]), flagField bias[0], (3, slots[1]), flagField bias[1], (3, slots[2]), flagField bias[2]]

/-- The size-from-reference flags, up to the first that is 1 (R107). -/
def foundFields (i : Fin 3) : List BitField := List.replicate i.val (1, 0) ++ [(1, 1)]

/-- A non-intra inter frame, up to a size-from-reference flag that is 1 (R103, R106, R107). -/
structure RefSizeFront where
  profile    : Nat
  showFrame  : Bool
  resilient  : Bool
  reset      : Nat
  refresh    : Nat
  slots      : Vector Nat 3
  signBias   : Vector Bool 3
  ref        : Fin 3

/-- Its fields. -/
def RefSizeFront.fields (q : RefSizeFront) : List BitField :=
  frontFields q.profile ++ [(1, 1), flagField q.showFrame, flagField q.resilient] ++
    interLead q.showFrame q.resilient false q.reset ++ [(8, q.refresh)] ++ refFields q.slots q.signBias ++
    foundFields q.ref

/-- The slot its size would come from. -/
def RefSizeFront.slot (q : RefSizeFront) (c : Context) : RefSlot := c.refs[slotOf q.slots[q.ref]]

/-! ### A whole frame -/

/-- How a non-intra inter frame codes its size (R107). -/
inductive CodedSize where
  /-- All three flags 0, then the size minus one. -/
  | own (widthMinus1 heightMinus1 : Nat)
  /-- The flag of this reference is the first that is 1. -/
  | fromRef (i : Fin 3)

/-- Its fields (R107). -/
def CodedSize.fields : CodedSize → List BitField
  | .own w h => [(1, 0), (1, 0), (1, 0)] ++ sizeFields w h
  | .fromRef i => foundFields i

/-- The size-from-reference flags. -/
def CodedSize.flags : CodedSize → Vector Bool 3
  | .own _ _ => #v[false, false, false]
  | .fromRef i => Vector.ofFn fun j => decide (j = i)

/-- The size, as a slot holding the frame; `slots` are the coded slot indices. -/
def CodedSize.slot (slots : Vector Nat 3) (c : Context) : CodedSize → RefSlot
  | .own w h => { valid := true, width := w + 1, height := h + 1 }
  | .fromRef i => { c.refs[slotOf slots[i]] with valid := true }

/-- The size comes from a slot that holds a frame (R107). -/
def CodedSize.Valid (slots : Vector Nat 3) (c : Context) : CodedSize → Prop
  | .own _ _ => True
  | .fromRef i => (c.refs[slotOf slots[i]]).valid = true

/-- How an interpolation filter is coded: the literal, or the switchable filter (R108). -/
def filterCode : Option Nat → List BitField
  | none => [(1, 1)]
  | some l => [(1, 0), (2, l)]

/-- The filter it means (R108, R71). -/
def filterOf : Option Nat → InterpFilter
  | none => .switchable
  | some l => codedFilter l

/-- What depends on the frame type (R98, R104, R106). -/
inductive CodedKind where
  | key (color : ColorCode) (widthMinus1 heightMinus1 : Nat)
  | intra (reset : Nat) (color : ColorCode) (refresh widthMinus1 heightMinus1 : Nat)
  /-- `filter` is the literal, `none` the switchable filter. -/
  | inter (reset refresh : Nat) (slots : Vector Nat 3) (signBias : Vector Bool 3) (size : CodedSize)
      (highPrecision : Bool) (filter : Option Nat)

/-- The loop-filter deltas (R112, R113): disabled, enabled and not updated, or updated, each of them or not. -/
inductive CodedDeltas where
  | disabled
  | kept
  | updated (ref : Vector (Option CodedSigned) 4) (mode : Vector (Option CodedSigned) 2)

/-- The fields, from `mode_ref_delta_enabled` (R112, R113). -/
def CodedDeltas.fields : CodedDeltas → List BitField
  | .disabled => [(1, 0)]
  | .kept => [(1, 1), (1, 0)]
  | .updated r m => [(1, 1), (1, 1)] ++ r.toList.flatMap (optionalFields (CodedSigned.fields 6)) ++
      m.toList.flatMap (optionalFields (CodedSigned.fields 6))

/-- The map probabilities (R118); `pred` is `none` without a temporal update. -/
structure CodedMap where
  tree : Vector (Option Nat) 7
  pred : Option (Vector (Option Nat) 3)

/-- One segment's features (R119). -/
structure CodedFeature where
  q    : Option CodedSigned
  lf   : Option CodedSigned
  ref  : Option Nat
  skip : Bool

/-- The segment data (R119). -/
structure CodedData where
  absDelta : Bool
  feature  : Vector CodedFeature 8

/-- Segmentation that is enabled (R117). -/
structure CodedSeg where
  map  : Option CodedMap
  data : Option CodedData

/-- Every value a header that carries a frame codes. -/
structure CodedFrame where
  profile    : Nat
  showFrame  : Bool
  resilient  : Bool
  kind       : CodedKind
  /-- The display size minus one, where one is coded. -/
  render     : Option (Nat × Nat)
  /-- Coded only when not error resilient, as is `parallel` (R110). -/
  refreshCtx : Bool
  parallel   : Bool
  contextIdx : Nat
  level      : Nat
  sharpness  : Nat
  deltas     : CodedDeltas
  baseQIdx   : Nat
  yDc        : Option CodedSigned
  uvDc       : Option CodedSigned
  uvAc       : Option CodedSigned
  seg        : Option CodedSeg
  /-- The 1 bits of R122. -/
  tileIncrements : Nat
  tileRows   : Nat
  partition  : Nat

namespace CodedFrame

/-! #### What it says (the rules of 42_header_front.md and 43_header_back.md) -/

/-- The frame type (R97). -/
def frameType (k : CodedFrame) : FrameType :=
  match k.kind with
  | .key _ _ _ => .key
  | .intra _ _ _ _ _ => .inter
  | .inter _ _ _ _ _ _ _ => .inter

/-- `intra_only` (R98, R103). -/
def intraOnly (k : CodedFrame) : Bool :=
  match k.kind with
  | .key _ _ _ => false
  | .intra _ _ _ _ _ => true
  | .inter _ _ _ _ _ _ _ => false

/-- The colour registers after the frame-type branch (R100, R105, R106). -/
def color (k : CodedFrame) (c : Context) : ColorConfig :=
  match k.kind with
  | .key col _ _ => col.config k.profile
  | .intra _ col _ _ _ => if k.profile = 0 then intraOnlyColor else col.config k.profile
  | .inter _ _ _ _ _ _ _ => c.color

/-- The coded size, as a slot holding the frame (R101, R107, R126). -/
def slot (k : CodedFrame) (c : Context) : RefSlot :=
  match k.kind with
  | .key _ w h => { valid := true, width := w + 1, height := h + 1 }
  | .intra _ _ _ w h => { valid := true, width := w + 1, height := h + 1 }
  | .inter _ _ slots _ size _ _ => size.slot slots c

/-- `refresh_frame_flags` (R98, R104, R106). -/
def refresh (k : CodedFrame) : BitVec 8 :=
  match k.kind with
  | .key _ _ _ => 0xFF
  | .intra _ _ m _ _ => BitVec.ofNat 8 m
  | .inter _ m _ _ _ _ _ => BitVec.ofNat 8 m

/-- `reset_frame_context` (R98, R103). -/
def reset (k : CodedFrame) : Nat :=
  match k.kind with
  | .key _ _ _ => 0
  | .intra r _ _ _ _ => if k.resilient then 0 else r
  | .inter r _ _ _ _ _ _ => if k.resilient then 0 else r

/-- Whether the frame triggers the past-independence reset (R111). -/
def restarts (k : CodedFrame) : Bool := decide (k.frameType = .key) || k.intraOnly || k.resilient

/-- The update of each reference delta (R113). -/
def refDelta (k : CodedFrame) (i : Fin 4) : Option CodedSigned :=
  match k.deltas with
  | .disabled => none
  | .kept => none
  | .updated r _ => r[i]

/-- The update of each mode delta (R113). -/
def modeDelta (k : CodedFrame) (i : Fin 2) : Option CodedSigned :=
  match k.deltas with
  | .disabled => none
  | .kept => none
  | .updated _ m => m[i]

/-- The map update, where there is one (R117). -/
def map (k : CodedFrame) : Option CodedMap := k.seg.bind (·.map)

/-- The data update, where there is one (R117). -/
def data (k : CodedFrame) : Option CodedData := k.seg.bind (·.data)

/-- A quantizer delta: 0 when absent (R115). -/
def delta (v : Option CodedSigned) : Int := (v.map CodedSigned.value).getD 0

/-- The quantization fields (R115). -/
def quant (k : CodedFrame) : QuantHdr :=
  { baseQIdx := k.baseQIdx, deltaQYDc := delta k.yDc, deltaQUvDc := delta k.uvDc, deltaQUvAc := delta k.uvAc }

end CodedFrame

/-- The features of one segment after a data update: an absent one is 0 (R119). -/
def CodedFeature.value (e : CodedFeature) : SegFeature :=
  { qEn := e.q.isSome, q := CodedFrame.delta e.q, lfEn := e.lf.isSome, lf := CodedFrame.delta e.lf
    refEn := e.ref.isSome, ref := codedRef (e.ref.getD 0), skip := e.skip }

namespace CodedFrame

/-- The context the deltas and the segmentation start from (R111). -/
def startContext (k : CodedFrame) (c : Context) : Context :=
  if k.restarts then
    { c with
      lfRefDelta := #v[1, 0, -1, -1], lfModeDelta := #v[0, 0]
      seg := Vector.replicate 8 SegFeature.zero, segAbsDelta := false }
  else c

/-- The context after step 12, before the reference slots are written (R90). -/
def written (k : CodedFrame) (c : Context) : Context :=
  let b := k.startContext c
  { lfRefDelta := Vector.ofFn fun i => ((k.refDelta i).map CodedSigned.value).getD b.lfRefDelta[i]
    lfModeDelta := Vector.ofFn fun i => ((k.modeDelta i).map CodedSigned.value).getD b.lfModeDelta[i]
    segTreeProb := match k.map with
      | none => b.segTreeProb
      | some m => m.tree.map (·.getD 255)
    segPredProb := match k.map with
      | none => b.segPredProb
      | some m => ((m.pred.map fun v => v.map (·.getD 255)).getD #v[255, 255, 255])
    segAbsDelta := match k.data with
      | none => b.segAbsDelta
      | some d => d.absDelta
    seg := match k.data with
      | none => b.seg
      | some d => d.feature.map CodedFeature.value
    lossless := k.quant.isLossless
    color := k.color c
    refs := c.refs }

/-- The context after the frame: the slots its refresh flags name hold it (R126). -/
def context (k : CodedFrame) (c : Context) : Context :=
  { k.written c with refs := c.refs.mapFinIdx fun i old _ => if k.refresh.getLsbD i then k.slot c else old }

/-- Zero bits of R122 that end the increments: one, unless the increments reach the maximum. -/
def tileStop (k : CodedFrame) (c : Context) : List BitField :=
  if k.tileIncrements < maxLog2Cols (k.slot c).width - minLog2Cols (k.slot c).width then [(1, 0)] else []

/-! #### How it is coded (R75) -/

/-- The render size (R102). -/
def renderFields (k : CodedFrame) : List BitField := optionalFields (fun v => sizeFields v.1 v.2) k.render

/-- Steps 5 and 6. -/
def kindFields (k : CodedFrame) : List BitField :=
  match k.kind with
  | .key col w h => [(24, Config.syncCode)] ++ col.fields k.profile ++ sizeFields w h ++ k.renderFields
  | .intra r col m w h =>
    interLead k.showFrame k.resilient true r ++ [(24, Config.syncCode)] ++
      (if k.profile = 0 then [] else col.fields k.profile) ++ [(8, m)] ++ sizeFields w h ++ k.renderFields
  | .inter r m slots bias size hp filter =>
    interLead k.showFrame k.resilient false r ++ [(8, m)] ++ refFields slots bias ++
      size.fields ++ k.renderFields ++ [flagField hp] ++ filterCode filter

/-- Step 8. -/
def filterFields (k : CodedFrame) : List BitField :=
  [(6, k.level), (3, k.sharpness)] ++ k.deltas.fields

/-- Step 9. -/
def quantFields (k : CodedFrame) : List BitField :=
  [(8, k.baseQIdx)] ++ optionalFields (CodedSigned.fields 4) k.yDc ++ optionalFields (CodedSigned.fields 4) k.uvDc ++
    optionalFields (CodedSigned.fields 4) k.uvAc

end CodedFrame

/-- A probability (R118). -/
def probFields : Option Nat → List BitField := optionalFields fun v => [(8, v)]

/-- The map probabilities (R118). -/
def CodedMap.fields (m : CodedMap) : List BitField :=
  m.tree.toList.flatMap probFields ++ optionalFields (fun v => v.toList.flatMap probFields) m.pred

/-- One segment's features (R119). -/
def CodedFeature.fields (e : CodedFeature) : List BitField :=
  optionalFields (CodedSigned.fields 8) e.q ++ optionalFields (CodedSigned.fields 6) e.lf ++
    optionalFields (fun v => [(2, v)]) e.ref ++ [flagField e.skip]

/-- The segment data (R119). -/
def CodedData.fields (d : CodedData) : List BitField := flagField d.absDelta :: d.feature.toList.flatMap CodedFeature.fields

/-- What an enabled segmentation codes (R117). -/
def CodedSeg.fields (g : CodedSeg) : List BitField := optionalFields CodedMap.fields g.map ++ optionalFields CodedData.fields g.data

namespace CodedFrame

/-- Step 11 (R122, R123). -/
def tileFields (k : CodedFrame) (c : Context) : List BitField :=
  List.replicate k.tileIncrements (1, 1) ++ k.tileStop c ++
    (if k.tileRows = 0 then [(1, 0)] else [(1, 1), (1, k.tileRows - 1)])

/-- The whole header in stream order; the tile bits depend on the width, which may be a slot's. -/
def fields (k : CodedFrame) (c : Context) : List BitField :=
  frontFields k.profile ++ [flagField (decide (k.frameType = .inter)), flagField k.showFrame, flagField k.resilient] ++
    k.kindFields ++ (if k.resilient then [] else [flagField k.refreshCtx, flagField k.parallel]) ++
    [(2, k.contextIdx)] ++ k.filterFields ++ k.quantFields ++ optionalFields CodedSeg.fields k.seg ++ k.tileFields c ++
    [(16, k.partition)]

/-- The frame is one the rules let through, against the context it is parsed in. The first partition size is left out. -/
structure Legal (k : CodedFrame) (c : Context) : Prop where
  profile : k.profile ≤ 3
  /-- No check of R100 fails. -/
  color   : match k.kind with
    | .key col _ _ => col.cause k.profile = .none
    | .intra _ col _ _ _ => k.profile = 0 ∨ col.cause k.profile = .none
    | .inter _ _ _ _ _ _ _ => True
  /-- Only a frame that is not shown codes `intra_only` (R103). -/
  hidden  : k.intraOnly = true → k.showFrame = false
  /-- A size comes from a slot that holds a frame (R107). -/
  valid   : match k.kind with
    | .key _ _ _ => True
    | .intra _ _ _ _ _ => True
    | .inter _ _ slots _ size _ _ => size.Valid slots c
  /-- The increments stay inside R121's bounds. -/
  tiles   : k.tileIncrements ≤ maxLog2Cols (k.slot c).width - minLog2Cols (k.slot c).width
  rows    : k.tileRows ≤ 2

/-- The header it is decoded to; what it does not code is 0 (R26) or reported from the context (R109, R114, R120). -/
def header (k : CodedFrame) (c : Context) : Header :=
  { profile := k.profile, showExistingFrame := false, frameToShow := 0, frameType := k.frameType
    showFrame := k.showFrame, errorResilientMode := k.resilient, intraOnly := k.intraOnly
    resetFrameContext := k.reset, refreshFrameFlags := k.refresh, color := k.color c
    width := (k.slot c).width, height := (k.slot c).height, displaySizePresent := k.render.isSome
    displayWidth := (k.render.map (·.1 + 1)).getD (k.slot c).width
    displayHeight := (k.render.map (·.2 + 1)).getD (k.slot c).height
    refFrameIdx := match k.kind with
      | .key _ _ _ => #v[0, 0, 0]
      | .intra _ _ _ _ _ => #v[0, 0, 0]
      | .inter _ _ slots _ _ _ _ => slots.map slotOf
    refSignBias := match k.kind with
      | .key _ _ _ => #v[false, false, false]
      | .intra _ _ _ _ _ => #v[false, false, false]
      | .inter _ _ _ bias _ _ _ => bias
    sizeFromRef := match k.kind with
      | .key _ _ _ => #v[false, false, false]
      | .intra _ _ _ _ _ => #v[false, false, false]
      | .inter _ _ _ _ size _ _ => size.flags
    allowHighPrecisionMv := match k.kind with
      | .key _ _ _ => false
      | .intra _ _ _ _ _ => false
      | .inter _ _ _ _ _ hp _ => hp
    interpFilter := match k.kind with
      | .key _ _ _ => .eighttap
      | .intra _ _ _ _ _ => .eighttap
      | .inter _ _ _ _ _ _ filter => filterOf filter
    refreshFrameContext := !k.resilient && k.refreshCtx
    frameParallelDecodingMode := k.resilient || k.parallel
    frameContextIdx := k.contextIdx
    lf :=
      { level := k.level, sharpness := k.sharpness
        modeRefDeltaEnabled := match k.deltas with
          | .disabled => false
          | .kept => true
          | .updated _ _ => true
        modeRefDeltaUpdate := match k.deltas with
          | .disabled => false
          | .kept => false
          | .updated _ _ => true
        refDelta := (k.written c).lfRefDelta, modeDelta := (k.written c).lfModeDelta
        refDeltaUpdated := Vector.ofFn fun i => (k.refDelta i).isSome
        modeDeltaUpdated := Vector.ofFn fun i => (k.modeDelta i).isSome }
    q := k.quant, lossless := k.quant.isLossless
    seg :=
      { enabled := k.seg.isSome, updateMap := k.map.isSome
        temporalUpdate := (k.map.bind (·.pred)).isSome, updateData := k.data.isSome
        treeProbPresent := Vector.ofFn fun i => (k.map.bind fun m => m.tree[i]).isSome
        predProbPresent := Vector.ofFn fun i => ((k.map.bind (·.pred)).bind fun v => v[i]).isSome
        treeProb := (k.written c).segTreeProb, predProb := (k.written c).segPredProb
        absDelta := (k.written c).segAbsDelta, feature := (k.written c).seg }
    tile :=
      { minLog2Cols := minLog2Cols (k.slot c).width, maxLog2Cols := maxLog2Cols (k.slot c).width
        log2Cols := minLog2Cols (k.slot c).width + k.tileIncrements, log2Rows := k.tileRows }
    firstPartitionSize := k.partition, headerLengthBytes := (bitsOf (k.fields c) + 7) / 8 }

end CodedFrame

/-! ### Where in the stream the context is written (R90)

The same frame once more, as the reads and the context writes of the rules' pseudocode in their order: what a PARSE that runs
out of data half-way has written is what stands in front of the read that fails (R131, R146). -/

/-- A read of the grammar, of one field or of a value and its sign bit together, or a context write. -/
inductive CodedStep where
  | read (fs : List BitField)
  | write (g : Context → Context)

namespace CodedStep

/-- Fields read one by one. -/
def each (fs : List BitField) : List CodedStep := fs.map fun x => .read [x]

/-- The fields read. -/
def fields : List CodedStep → List BitField
  | [] => []
  | .read fs :: rest => fs ++ fields rest
  | .write _ :: rest => fields rest

/-- The context after all of the steps. -/
def run : List CodedStep → Context → Context
  | [], c => c
  | .read _ :: rest, c => run rest c
  | .write g :: rest, c => run rest (g c)

/-- The context where the steps stop for lack of data, `n` bits being left before them. -/
def cut : List CodedStep → Nat → Context → Context
  | [], _, c => c
  | .read fs :: rest, n, c => if bitsOf fs ≤ n then cut rest (n - bitsOf fs) c else c
  | .write g :: rest, n, c => cut rest n (g c)

/-- How many of the `n` bits the steps read before the read that does not fit: a read that fails moves nothing (R79, R131). -/
def reach : List CodedStep → Nat → Nat
  | [], _ => 0
  | .read fs :: rest, n => if bitsOf fs ≤ n then bitsOf fs + reach rest (n - bitsOf fs) else 0
  | .write _ :: rest, n => reach rest n

/-- A value behind its presence flag (R63), and the reads of the value. -/
def optionalSteps {α : Type} (value : α → List CodedStep) : Option α → List CodedStep
  | none => [.read [flagField false]]
  | some v => .read [flagField true] :: value v

/-- The rounds of a loop over an array, in order. -/
def rounds {n : Nat} (body : Fin n → List CodedStep) : List CodedStep := (List.finRange n).flatMap body

/-- The colour registers are written one by one (R100). -/
def color (g : ColorConfig → ColorConfig) : CodedStep := .write fun c => { c with color := g c.color }

/-- A field of `CTX.SEG[i]` is written (R119). -/
def feature (i : Fin 8) (g : SegFeature → SegFeature) : CodedStep := .write fun c => { c with seg := c.seg.set i (g c.seg[i]) }

end CodedStep

open CodedStep

/-- A colour configuration that no check rejects (R100). -/
def ColorCode.steps (k : ColorCode) (p : Nat) : List CodedStep :=
  (if 2 ≤ p then [.read [flagField k.twelve]] else []) ++ [color fun x => { x with bitDepth := k.depth p }] ++
    [.read [(3, k.space)], color fun x => { x with colorSpace := codedSpace k.space }] ++
    if k.space = 7 then
      [color fun x => { x with colorRange := .full }, color fun x => { x with subsamplingX := false, subsamplingY := false },
        .read [flagField k.reserved]]
    else
      [.read [flagField k.range], color fun x => { x with colorRange := codedRange k.range }] ++
        if subsampled p then
          [.read [flagField k.ssX], color fun x => { x with subsamplingX := k.ssX },
            .read [flagField k.ssY], color fun x => { x with subsamplingY := k.ssY }, .read [flagField k.reserved]]
        else [color fun x => { x with subsamplingX := true, subsamplingY := true }]

/-- The loop-filter deltas (R112, R113): each delta present is written before the next flag is read. -/
def CodedDeltas.steps : CodedDeltas → List CodedStep
  | .disabled => each [(1, 0)]
  | .kept => each [(1, 1), (1, 0)]
  | .updated r m => each [(1, 1), (1, 1)] ++
      rounds (fun i : Fin 4 => optionalSteps (fun v => [.read (v.fields 6),
        .write fun c => { c with lfRefDelta := c.lfRefDelta.set i v.value }]) r[i]) ++
      rounds (fun i : Fin 2 => optionalSteps (fun v => [.read (v.fields 6),
        .write fun c => { c with lfModeDelta := c.lfModeDelta.set i v.value }]) m[i])

/-- The map probabilities (R118): an absent one is written 255; without a temporal update all prediction probabilities are. -/
def CodedMap.steps (m : CodedMap) : List CodedStep :=
  rounds (fun i : Fin 7 => optionalSteps (fun v => [.read [(8, v)]]) m.tree[i] ++
    [.write fun c => { c with segTreeProb := c.segTreeProb.set i (m.tree[i].getD 255) }]) ++
  match m.pred with
  | none => [.read [flagField false], .write fun c => { c with segPredProb := #v[255, 255, 255] }]
  | some v => .read [flagField true] :: rounds fun i : Fin 3 => optionalSteps (fun v => [.read [(8, v)]]) v[i] ++
      [.write fun c => { c with segPredProb := c.segPredProb.set i (v[i].getD 255) }]

/-- One feature of segment `i` (R119): its enable bit, and then its value, 0 when it is not enabled. -/
def CodedFeature.part {α : Type} (i : Fin 8) (o : Option α) (value : α → List BitField) (enable : Bool → SegFeature → SegFeature)
    (put : SegFeature → SegFeature) : List CodedStep :=
  [.read [flagField o.isSome], CodedStep.feature i (enable o.isSome)] ++ (o.map fun v => CodedStep.read (value v)).toList ++
    [CodedStep.feature i put]

/-- The features of segment `i` (R119). -/
def CodedFeature.steps (e : CodedFeature) (i : Fin 8) : List CodedStep :=
  part i e.q (CodedSigned.fields 8) (fun b x => { x with qEn := b }) (fun x => { x with q := CodedFrame.delta e.q }) ++
  part i e.lf (CodedSigned.fields 6) (fun b x => { x with lfEn := b }) (fun x => { x with lf := CodedFrame.delta e.lf }) ++
  part i e.ref (fun v => [(2, v)]) (fun b x => { x with refEn := b }) (fun x => { x with ref := codedRef (e.ref.getD 0) }) ++
  [.read [flagField e.skip], CodedStep.feature i fun x => { x with skip := e.skip }]

/-- The segment data (R119). -/
def CodedData.steps (d : CodedData) : List CodedStep :=
  [.read [flagField d.absDelta], .write fun c => { c with segAbsDelta := d.absDelta }] ++
    rounds fun i => (d.feature[i]).steps i

/-- What an enabled segmentation codes (R117). -/
def CodedSeg.steps (g : CodedSeg) : List CodedStep := optionalSteps CodedMap.steps g.map ++ optionalSteps CodedData.steps g.data

namespace CodedFrame

/-- Steps 5 and 6 (R98, R103, R104, R105): only the colour is written. -/
def kindSteps (k : CodedFrame) : List CodedStep :=
  match k.kind with
  | .key col w h => each [(24, Config.syncCode)] ++ col.steps k.profile ++ each (sizeFields w h ++ k.renderFields)
  | .intra r col m w h =>
    each (interLead k.showFrame k.resilient true r ++ [(24, Config.syncCode)]) ++
      (if k.profile = 0 then [CodedStep.color fun _ => intraOnlyColor] else col.steps k.profile) ++
      each ([(8, m)] ++ sizeFields w h ++ k.renderFields)
  | .inter _ _ _ _ _ _ _ => each k.kindFields

/-- The past-independence reset (R111), after the frame context index is read. -/
def resetSteps (k : CodedFrame) : List CodedStep :=
  if k.restarts then
    [.write fun c => { c with
      lfRefDelta := #v[1, 0, -1, -1], lfModeDelta := #v[0, 0]
      seg := Vector.replicate 8 SegFeature.zero, segAbsDelta := false }]
  else []

/-- Step 9 (R115, R116): the lossless flag is written when the last delta is read. -/
def quantSteps (k : CodedFrame) : List CodedStep :=
  each [(8, k.baseQIdx)] ++ optionalSteps (fun v => [.read (v.fields 4)]) k.yDc ++
    optionalSteps (fun v => [.read (v.fields 4)]) k.uvDc ++ optionalSteps (fun v => [.read (v.fields 4)]) k.uvAc ++
    [.write fun c => { c with lossless := k.quant.isLossless }]

/-- The whole header. -/
def steps (k : CodedFrame) (c : Context) : List CodedStep :=
  each (frontFields k.profile ++ [flagField (decide (k.frameType = .inter)), flagField k.showFrame, flagField k.resilient]) ++
    k.kindSteps ++ each ((if k.resilient then [] else [flagField k.refreshCtx, flagField k.parallel]) ++ [(2, k.contextIdx)]) ++
    k.resetSteps ++ each [(6, k.level), (3, k.sharpness)] ++ k.deltas.steps ++ k.quantSteps ++
    optionalSteps CodedSeg.steps k.seg ++ each (k.tileFields c ++ [(16, k.partition)])

end CodedFrame

/-- The same command on the same buffer, cut to its first `len` bytes. -/
def State.cut (s : State) (len : Nat) : State := { s with port := { s.port with len := len } }

end Sys2Proof.Machine
end

