-- ==== Sys2Proof/Certificates/Slice0/Obligations.lean ====
section
/-! DEFINITION. The statements for the provers. Each docstring names the rules it rests on. A statement about a next state says
what the addressed instance is (`t.inst`), what the data port answers, and through `OthersKept` that everything else of the
machine stays. Nothing is ever claimed of a register the spec calls unspecified. Where a statement says it rests on log 14 it
uses a value the spec marks [from general knowledge, not in source]; on log 15, a decision the spec marks as its own. -/

open Sys2Proof Sys2Proof.Machine

/-! ### The command word -/

/-- R57, R58: decoding the word of a well-formed instruction gives that instruction back, also through the opcode table's
numbering. -/
def Obligations.DecodeEncodeRoundTrip : Prop :=
  ∀ i : Instr, i.wf = true → decode (encode i) = .ok i ∧ decodeTableWord 16 (encode i).toNat = some i

/-- R57, R58: a word that decodes is the word of a well-formed instruction, so no two words mean the same instruction. -/
def Obligations.DecodedWordsEncodeBack : Prop :=
  ∀ (w : CommandWord) (i : Instr), decode w = .ok i → i.wf = true ∧ encode i = w

/-- R59: exactly the words of R59's list are refused, and the step that meets one is a refusal. -/
def Obligations.ReservedWordsAreRefused : Prop :=
  (∀ w : CommandWord,
    (decode w = .error .unassignedOpcode ↔ opcField w ∉ [0x01, 0x02, 0x03, 0x10, 0x11, 0x12, 0x13, 0x14]) ∧
    (decode w = .error .countTooWide ↔ (opcField w = 0x11 ∧ 32 < countField w) ∨ (opcField w = 0x12 ∧ 31 < countField w)) ∧
    (decode w = .error .countNotZero ↔ opcField w ∈ [0x01, 0x02, 0x03, 0x10, 0x13, 0x14] ∧ countField w ≠ 0)) ∧
  (∀ (s : State) (w : CommandWord) (p : Port) (rest : List Command) (e : DecodeError),
    s.script = { word := w, port := p } :: rest → decode w = .error e → step s = .refused (Refusal.ofDecode e)) ∧
  (∀ (s : State) (n : Nat), 32 < n → exec (.readBits n) s = .refused .countTooWide) ∧
  ∀ (s : State) (n : Nat), 31 < n → exec (.readSigned n) s = .refused .countTooWide

/-- R57, R58, R61: words written out bit by bit from the table decode to their instruction. -/
def Obligations.SampleWordsDecode : Prop :=
  decode 0b0000000100000000#16 = .ok .create ∧ decode 0b0000001000000000#16 = .ok .parse ∧
  decode 0b0000001100000000#16 = .ok .destroy ∧ decode 0b0001000000000000#16 = .ok .brInit ∧
  decode 0b0001000100011000#16 = .ok (.readBits 24) ∧ decode 0b0001001000000110#16 = .ok (.readSigned 6) ∧
  decode 0b0001001100000000#16 = .ok .readFlag ∧ decode 0b0001010000000000#16 = .ok .getPos

/-! ### The step -/

/-- R50, R51, R88: a step takes the next command off the script, puts its operands on the data port, and is `exec` of the
decoded instruction there (the script is assumption log 7). -/
def Obligations.StepRunsTheDecodedCommand : Prop :=
  ∀ (s : State) (c : Command) (rest : List Command) (i : Instr), s.script = c :: rest → decode c.word = .ok i →
    step s = exec i { s with script := rest, port := c.port }

/-- R140: with no command to run the block holds its state (assumption log 17). -/
def Obligations.IdleBlockHoldsItsState : Prop := ∀ s : State, s.script = [] → step s = .next s

/-! ### The bit reader -/

/-- R77: BR_INIT binds the buffer and the length, sets the cursor to 0 and answers ok(0); a length of 0 is legal. -/
def Obligations.BrInitBindsTheBuffer : Prop :=
  ∀ s : State, s.ReaderReady → s.port.bufferGiven →
    ∃ t, exec .brInit s = .next t ∧ OthersKept s t ∧ t.response = some (.ok 0) ∧
      t.inst = { s.inst with br := { buf := s.port.buf.getD [], len := s.port.len, pos := 0 } }

/-- R78: READ_BITS answers the next `n` bits, the first most significant, and advances the cursor by `n`; where fewer remain
it answers OutOfData and changes nothing. -/
def Obligations.ReadBitsReadsTheNextBits : Prop :=
  ∀ (s : State) (n : Nat), s.ReaderReady → s.inst.br.wf = true → n ≤ 32 →
    ∃ t : State, exec (.readBits n) s = .next t ∧ OthersKept s t ∧
      (s.inst.br.pos + n ≤ 8 * s.inst.br.len →
        ∃ v : Nat, t.response = some (.ok v) ∧ v < 2 ^ n ∧
          (∀ k < n, s.inst.br.bit (s.inst.br.pos + k) = some (v / 2 ^ (n - 1 - k) % 2)) ∧
          t.inst = { s.inst with br := { s.inst.br with pos := s.inst.br.pos + n } }) ∧
      (8 * s.inst.br.len < s.inst.br.pos + n → t.response = some .outOfData ∧ t.inst = s.inst)

/-- R79: a read fails exactly when it needs more bits than remain; then it answers OutOfData and changes nothing. No byte at
or past the length can be read. -/
def Obligations.ReadsFailExactlyWhenShortOfData : Prop :=
  ∀ (s : State) (i : Instr) (w : Nat), s.ReaderReady → s.inst.br.wf = true → i.wf = true →
    (i = .readBits w ∨ (∃ n, i = .readSigned n ∧ w = n + 1) ∨ (i = .readFlag ∧ w = 1)) →
    ∃ t, exec i s = .next t ∧ OthersKept s t ∧
      (t.response = some .outOfData ↔ 8 * s.inst.br.len < s.inst.br.pos + w) ∧
      (t.response = some .outOfData → t.inst = s.inst) ∧
      (t.response ≠ some .outOfData → t.inst = { s.inst with br := { s.inst.br with pos := s.inst.br.pos + w } }) ∧
      ∀ a, s.inst.br.len ≤ a → s.inst.br.memRead a = none

/-- R80: READ_SIGNED answers sign and magnitude, `n` magnitude bits and then the sign bit, 1 meaning negative; the whole
`n + 1` bits are checked first. -/
def Obligations.ReadSignedIsSignAndMagnitude : Prop :=
  ∀ (s : State) (n : Nat), s.ReaderReady → s.inst.br.wf = true → n ≤ 31 →
    ∃ t : State, exec (.readSigned n) s = .next t ∧ OthersKept s t ∧
      (s.inst.br.pos + n + 1 ≤ 8 * s.inst.br.len →
        ∃ m sign : Nat, s.inst.br.bitsFrom n s.inst.br.pos 0 = some m ∧ s.inst.br.bit (s.inst.br.pos + n) = some sign ∧
          t.response = some (.ok (if sign = 1 then -(m : Int) else (m : Int))) ∧ m ≤ 2 ^ n - 1 ∧ sign ≤ 1 ∧
          t.inst = { s.inst with br := { s.inst.br with pos := s.inst.br.pos + n + 1 } }) ∧
      (8 * s.inst.br.len < s.inst.br.pos + n + 1 → t.response = some .outOfData ∧ t.inst = s.inst)

/-- R81: READ_FLAG is READ_BITS 1; where a bit remains it answers that bit, otherwise OutOfData. -/
def Obligations.ReadFlagIsOneBit : Prop :=
  (∀ s : State, exec .readFlag s = exec (.readBits 1) s) ∧
  ∀ s : State, s.ReaderReady → s.inst.br.wf = true →
    ∃ t : State, exec .readFlag s = .next t ∧ OthersKept s t ∧
      (s.inst.br.pos + 1 ≤ 8 * s.inst.br.len →
        ∃ b : Nat, b ≤ 1 ∧ s.inst.br.bit s.inst.br.pos = some b ∧ t.response = some (.ok b) ∧
          t.inst = { s.inst with br := { s.inst.br with pos := s.inst.br.pos + 1 } }) ∧
      (8 * s.inst.br.len < s.inst.br.pos + 1 → t.response = some .outOfData ∧ t.inst = s.inst)

/-- R82: GET_POS answers the cursor and changes nothing. -/
def Obligations.GetPosAnswersTheCursor : Prop :=
  ∀ s : State, s.ReaderReady →
    ∃ t, exec .getPos s = .next t ∧ OthersKept s t ∧ t.response = some (.ok s.inst.br.pos) ∧ t.inst = s.inst

/-- R84, which the spec marks [derived: from rules R78, R80, R79]: a read of `a` bits and one of `b` bits give the parts of the
read of `a + b` bits; where the wide one fails so does one of the two; and READ_SIGNED has the bits of READ_BITS and READ_FLAG,
except that it checks them all at once. -/
def Obligations.ReadsCompose : Prop :=
  (∀ (s t : State) (a b : Nat), s.ReaderReady → s.inst.br.wf = true → a + b ≤ 32 → exec (.readBits (a + b)) s = .next t →
    (∀ v : Nat, t.response = some (.ok v) →
      ∃ (x y : Nat) (u t' : State), exec (.readBits a) s = .next u ∧ u.response = some (.ok x) ∧
        exec (.readBits b) u = .next t' ∧ t'.response = some (.ok y) ∧ v = x * 2 ^ b + y ∧ t'.inst = t.inst) ∧
    (t.response = some .outOfData →
      ∃ u, exec (.readBits a) s = .next u ∧
        (u.response = some .outOfData ∨ ∃ t', exec (.readBits b) u = .next t' ∧ t'.response = some .outOfData))) ∧
  ∀ (s t : State) (n : Nat) (v : Int), s.ReaderReady → s.inst.br.wf = true → n ≤ 31 →
    exec (.readSigned n) s = .next t → t.response = some (.ok v) →
      ∃ (m sign : Nat) (u t' : State), exec (.readBits n) s = .next u ∧ u.response = some (.ok m) ∧
        exec .readFlag u = .next t' ∧ t'.response = some (.ok sign) ∧
        v = (if sign = 1 then -(m : Int) else (m : Int)) ∧ t'.inst = t.inst

/-- R83 and the head of 40_bit_reader.md: a read or GET_POS keeps the buffer and its length, moves the cursor forward or not
at all, never past the end, and touches no register of `ST`, `CTX` or `HDR`. -/
def Obligations.CursorNeverMovesBack : Prop :=
  ∀ (s t : State) (i : Instr), i ∈ [.readFlag, .getPos] ∨ (∃ n, i = .readBits n) ∨ (∃ n, i = .readSigned n) →
    exec i s = .next t →
    OthersKept s t ∧ s.inst.br.pos ≤ t.inst.br.pos ∧
      (s.inst.br.pos ≤ 8 * s.inst.br.len → t.inst.br.pos ≤ 8 * s.inst.br.len) ∧
      t.inst = { s.inst with br := { s.inst.br with pos := t.inst.br.pos } }

/-! ### The facade -/

/-- R85 with R142's table: CREATE on an absent instance gives every context register its reset value and makes it LIVE; it
binds no reader. Nothing is said of `HDR`, `ST.RESULT`, `ST.CAUSE`, which are unspecified. -/
def Obligations.CreateGivesTheResetContext : Prop :=
  ∀ s : State, s.port.overlapped = false → s.inst.life = .absent →
    ∃ t, exec .create s = .next t ∧ OthersKept s t ∧ t.inst.life = .live ∧ t.inst.br = s.inst.br ∧
      t.inst.ctx.lfRefDelta = #v[0, 0, 0, 0] ∧ t.inst.ctx.lfModeDelta = #v[0, 0] ∧
      t.inst.ctx.segTreeProb = #v[255, 255, 255, 255, 255, 255, 255] ∧ t.inst.ctx.segPredProb = #v[255, 255, 255] ∧
      t.inst.ctx.segAbsDelta = false ∧
      (∀ i : Fin 8, t.inst.ctx.seg[i] =
        { qEn := false, q := 0, lfEn := false, lf := 0, refEn := false, ref := .intra, skip := false }) ∧
      t.inst.ctx.lossless = false ∧ t.inst.ctx.color.bitDepth = .undecoded ∧
      t.inst.ctx.color.colorSpace = .unknown ∧ t.inst.ctx.color.colorRange = .limited ∧
      t.inst.ctx.color.subsamplingX = false ∧ t.inst.ctx.color.subsamplingY = false ∧
      ∀ i : Fin 8, t.inst.ctx.refs[i] = { valid := false, width := 0, height := 0 }

/-- R91: DESTROY ends a LIVE instance; nothing is said of its other registers, which are released. -/
def Obligations.DestroyEndsTheInstance : Prop :=
  ∀ s : State, s.port.overlapped = false → s.inst.life = .live →
    ∃ t, exec .destroy s = .next t ∧ OthersKept s t ∧ t.inst.life = .destroyed

/-- R92: CREATE, DESTROY and PARSE are refused exactly when the host breaks its contract: a command outside its life state, a
missing or short buffer, a buffer changed meanwhile, a command that overlaps another; and any overlapping command is refused. -/
def Obligations.MisuseIsRefused : Prop :=
  (∀ s : State,
    ((∃ r, exec .create s = .refused r) ↔ s.port.overlapped = true ∨ s.inst.life ≠ .absent) ∧
    ((∃ r, exec .destroy s = .refused r) ↔ s.port.overlapped = true ∨ s.inst.life ≠ .live) ∧
    ((∃ r, exec .parse s = .refused r) ↔
      s.port.overlapped = true ∨ s.inst.life ≠ .live ∨ (s.port.buf = none ∧ 0 < s.port.len) ∨
      (∃ m, s.port.buf = some m ∧ ∃ a < s.port.len, lookup a m = none) ∨ s.port.bufChanged = true)) ∧
  ∀ (s : State) (i : Instr), s.port.overlapped = true → ∃ r, exec i s = .refused r

/-- R92 and R149 for the bit-reader operations: each is refused exactly when it overlaps another command or its instance is
destroyed, or (the model's choice, assumption log 9) when BR_INIT is given a missing or short buffer. -/
def Obligations.ReaderMisuseIsRefused : Prop :=
  ∀ s : State,
    (∀ i : Instr, i ∈ [.readFlag, .getPos] ∨ (∃ n ≤ 32, i = .readBits n) ∨ (∃ n ≤ 31, i = .readSigned n) →
      ((∃ r, exec i s = .refused r) ↔ s.port.overlapped = true ∨ s.inst.life = .destroyed)) ∧
    ((∃ r, exec .brInit s = .refused r) ↔
      s.port.overlapped = true ∨ s.inst.life = .destroyed ∨ (s.port.buf = none ∧ 0 < s.port.len) ∨
      ∃ m, s.port.buf = some m ∧ ∃ a < s.port.len, lookup a m = none)

/-- R149: no command is accepted on a destroyed instance (for the bit-reader operations see assumption log 8). -/
def Obligations.DestroyedInstanceTakesNoCommand : Prop :=
  ∀ (s : State) (i : Instr), s.inst.life = .destroyed → ∃ r, exec i s = .refused r

/-- R39: CREATE makes an ABSENT instance LIVE, DESTROY a LIVE one DESTROYED, no other command changes `ST.LIFE`, and PARSE
runs only in LIVE. -/
def Obligations.LifeChangesOnlyByCreateAndDestroy : Prop :=
  ∀ (s t : State) (i : Instr), exec i s = .next t →
    (i = .create ∧ s.inst.life = .absent ∧ t.inst.life = .live) ∨
    (i = .destroy ∧ s.inst.life = .live ∧ t.inst.life = .destroyed) ∨
    (i ≠ .create ∧ i ≠ .destroy ∧ t.inst.life = s.inst.life ∧ (i = .parse → s.inst.life = .live))

/-- R87, R131, R132: a PARSE within the contract ends in exactly one of three ways, mapped to its result and cause; the
context is as the grammar left it, completed or not, so are the reader's length and cursor, the header is the grammar's when it
completed, and the instance stays LIVE. -/
def Obligations.ParseEndsInOneOfThreeWays : Prop :=
  ∀ s : State, s.ParseReady →
    ∃ (t : State) (w : Work), exec .parse s = .next t ∧ OthersKept s t ∧ t.inst.life = .live ∧
      t.inst.ctx = w.ctx ∧ ReaderEndsAt s t w.br.pos ∧
      ((uncompressedHeader (startWork s) = .ok () w ∧ t.inst.result = .ok ∧ t.inst.cause = .none ∧ t.inst.hdr = w.hdr) ∨
       (∃ c, uncompressedHeader (startWork s) = .error (.raised c) w ∧ c ≠ .none ∧ c ≠ .outOfData ∧
          t.inst.result = .brokenData ∧ t.inst.cause = c) ∨
       (uncompressedHeader (startWork s) = .error (.raised .outOfData) w ∧
          t.inst.result = .noPacketError ∧ t.inst.cause = .outOfData))

/-! ### What PARSE checks first -/

/-- R79, R90, R129, R131, R146: a PARSE that runs out of data ends in NoPacketError with cause OUT_OF_DATA, and nothing else does.
First: length 0, the context untouched. Second: whatever a PARSE did, on a buffer cut before the bit it reached it runs out of data.
Third: a legal frame cut anywhere inside it; the cursor stays at the read that does not fit, and the context holds what the rules
write before that read (`CodedFrame.steps`, Sys2Proof/Coded.lean). Cut inside `first_partition_size` that is all the frame writes but
its reference slots. No such PARSE commits a slot. The immediate writes are the spec's decision D19 (log 15), the codes and
constants of log 14. -/
def Obligations.RunningOutOfDataIsNoPacket : Prop :=
  (∀ s : State, s.ParseReady → s.port.len = 0 →
    ∃ t, exec .parse s = .next t ∧ OthersKept s t ∧ t.inst.life = .live ∧ t.inst.result = .noPacketError ∧
      t.inst.cause = .outOfData ∧ t.inst.ctx = s.inst.ctx) ∧
  (∀ (s t : State) (len : Nat), exec .parse s = .next t → 8 * len < t.inst.br.pos →
    ∃ u, exec .parse (s.cut len) = .next u ∧ OthersKept (s.cut len) u ∧ u.inst.life = .live ∧
      u.inst.result = .noPacketError ∧ u.inst.cause = .outOfData) ∧
  (∀ (s : State) (k : CodedFrame) (len : Nat), s.ParseReady → s.codes 0 (k.fields s.inst.ctx) → k.Legal s.inst.ctx →
    8 * len < bitsOf (k.fields s.inst.ctx) →
    ∃ t, exec .parse (s.cut len) = .next t ∧ OthersKept (s.cut len) t ∧ t.inst.life = .live ∧
      t.inst.result = .noPacketError ∧ t.inst.cause = .outOfData ∧
      t.inst.ctx = CodedStep.cut (k.steps s.inst.ctx) (8 * len) s.inst.ctx ∧
      ReaderEndsAt (s.cut len) t (CodedStep.reach (k.steps s.inst.ctx) (8 * len)) ∧
      (bitsOf (k.fields s.inst.ctx) ≤ 8 * len + 16 → t.inst.ctx = k.written s.inst.ctx)) ∧
  ∀ s t : State, exec .parse s = .next t →
    (t.inst.result = .noPacketError ↔ t.inst.cause = .outOfData) ∧
    (t.inst.cause = .outOfData → t.inst.ctx.refs = s.inst.ctx.refs)

/-- R94: the first two bits must be the marker 2; any other value is BrokenData with cause BAD_FRAME_MARKER, after those two
bits, and only then is that cause reported. The value 2 is the spec's general knowledge (R65; log 14). -/
def Obligations.FrameMarkerIsChecked : Prop :=
  ∀ (s : State) (m : Nat), s.ParseReady → s.bufferField 0 2 = some m →
    (m ≠ 2 → ∃ t, exec .parse s = .next t ∧ OthersKept s t ∧ t.inst.result = .brokenData ∧
      t.inst.cause = .badFrameMarker ∧ t.inst.ctx = s.inst.ctx ∧ t.inst.br.pos = 2) ∧
    (m = 2 → ∀ t, exec .parse s = .next t → t.inst.cause ≠ .badFrameMarker)

/-- R95: the profile is `2 * hi + lo`, low bit first; profile 3 is followed by a reserved bit, and if that is 1 the result is
BrokenData with cause UNSUPPORTED_PROFILE, the only way to that cause. The reserved bit is the spec's general knowledge
(log 14). -/
def Obligations.ProfileIsLowBitFirst : Prop :=
  ∀ (s : State) (lo hi : Nat), s.ParseReady → s.bufferField 0 2 = some 2 → s.bufferField 2 1 = some lo →
    s.bufferField 3 1 = some hi →
    (2 * hi + lo = 3 → s.bufferField 4 1 = some 1 →
      ∃ t, exec .parse s = .next t ∧ OthersKept s t ∧ t.inst.result = .brokenData ∧
        t.inst.cause = .unsupportedProfile ∧ t.inst.ctx = s.inst.ctx) ∧
    (2 * hi + lo ≠ 3 ∨ s.bufferField 4 1 ≠ some 1 → ∀ t, exec .parse s = .next t → t.inst.cause ≠ .unsupportedProfile) ∧
    ∀ t, exec .parse s = .next t → t.inst.result = .ok → t.inst.hdr.profile = 2 * hi + lo

/-- R96: a show-existing header of any profile ends after its slot index: OK, only the four header fields it writes are not
0, and the context is untouched. The bit count is an inference the spec marks as its own, the length its decision D25. -/
def Obligations.ShowExistingIsAWholeHeader : Prop :=
  ∀ (s : State) (p i : Nat), s.ParseReady → p ≤ 3 → s.StartsWith p →
    s.bufferField (2 + profileBits p) 1 = some 1 → s.bufferField (3 + profileBits p) 3 = some i →
    ∃ t, exec .parse s = .next t ∧ OthersKept s t ∧
      DecodedTo s t (6 + profileBits p) s.inst.ctx { Header.zero with
        profile := p, showExistingFrame := true, frameToShow := Fin.ofNat 8 i
        headerLengthBytes := if p = 3 then 2 else 1 }

/-- R97, R98, R99, R103, R104, R128: the sync code of a key frame, and of an intra-only frame of any profile, 0 too, must be
0x498342. Another value ends the PARSE right there: BrokenData with cause BAD_SYNC_CODE, the context untouched. The right value never
ends in that cause, and that cause is reported only so. The first clause says it of a key frame by bit positions, the others of both
kinds by their fields (`ColorFront.lead`). The constant, the polarities and the intra-only sync code are the spec's general knowledge
(log 14). -/
def Obligations.SyncCodeIsChecked : Prop :=
  (∀ (s : State) (p v : Nat), s.ParseReady → p ≤ 3 → s.StartsWith p →
    s.bufferField (2 + profileBits p) 1 = some 0 → s.bufferField (3 + profileBits p) 1 = some 0 →
    s.bufferField (6 + profileBits p) 24 = some v → v ≠ 0x498342 →
    ∃ t, exec .parse s = .next t ∧ OthersKept s t ∧ t.inst.result = .brokenData ∧ t.inst.cause = .badSyncCode ∧
      t.inst.ctx = s.inst.ctx) ∧
  (∀ (s : State) (q : ColorFront) (v : Nat), s.ParseReady → s.codes 0 (q.lead ++ [(24, v)]) → v ≠ 0x498342 →
    ∃ t, exec .parse s = .next t ∧ OthersKept s t ∧ t.inst.life = .live ∧ t.inst.result = .brokenData ∧
      t.inst.cause = .badSyncCode ∧ t.inst.ctx = s.inst.ctx ∧
      ReaderEndsAt s t (bitsOf (q.lead ++ [(24, v)]))) ∧
  (∀ (s t : State) (q : ColorFront), s.codes 0 (q.lead ++ [(24, 0x498342)]) → exec .parse s = .next t →
    t.inst.cause ≠ .badSyncCode) ∧
  ∀ s t : State, exec .parse s = .next t → t.inst.cause = .badSyncCode →
    t.inst.result = .brokenData ∧ t.inst.ctx = s.inst.ctx ∧
    ∃ (q : ColorFront) (v : Nat), q.profile ≤ 3 ∧ v ≠ 0x498342 ∧ s.codes 0 (q.lead ++ [(24, v)])

/-- R133, which the spec marks [derived: from rules R93, R98, R99]: a failure of cause 1, 2 or 3, on a key frame or any other,
leaves the context unchanged. -/
def Obligations.EarlyFailuresKeepTheContext : Prop :=
  ∀ s t : State, exec .parse s = .next t → t.inst.cause ∈ [.badFrameMarker, .unsupportedProfile, .badSyncCode] →
    t.inst.result = .brokenData ∧ t.inst.ctx = s.inst.ctx

/-- R107, R144: the first size-from-reference flag that is 1 takes its reference's slot: where that slot holds no frame the
PARSE ends right there, BrokenData with cause INVALID_REF_SLOT and the context unchanged; where it holds one it never ends in
that cause; and that cause is reported only so, the empty slot being the one the reference names. The stop at the first 1 is
the spec's general knowledge (log 14), the validity check its decision D15 (log 15). -/
def Obligations.InvalidSlotNeedsAnEmptySlot : Prop :=
  (∀ (s : State) (q : RefSizeFront), s.ParseReady → s.codes 0 q.fields → (q.slot s.inst.ctx).valid = false →
    ∃ t, exec .parse s = .next t ∧ OthersKept s t ∧ t.inst.life = .live ∧ t.inst.result = .brokenData ∧
      t.inst.cause = .invalidRefSlot ∧ t.inst.ctx = s.inst.ctx ∧ ReaderEndsAt s t (bitsOf q.fields)) ∧
  (∀ (s t : State) (q : RefSizeFront), s.codes 0 q.fields → (q.slot s.inst.ctx).valid = true → exec .parse s = .next t →
    t.inst.cause ≠ .invalidRefSlot) ∧
  ∀ s t : State, exec .parse s = .next t → t.inst.cause = .invalidRefSlot →
    t.inst.result = .brokenData ∧ t.inst.ctx = s.inst.ctx ∧
    ∃ q : RefSizeFront, s.codes 0 q.fields ∧ (q.slot s.inst.ctx).valid = false

/-- R100, R128, R130, R146: where the buffer codes a colour configuration that a check of R100 rejects, in a key frame or an
intra-only frame of profile 1 to 3, the PARSE ends at that check: BrokenData with cause 4 for SRGB in profile 0 or 2, 5 for 4:2:0
in profile 1 or 3, 6 for a reserved bit of 1, checked in that order; the context then holds what was written before the check
and is otherwise as it was (for cause 4 the bit depth, SRGB and the full range). Each of the three causes is reported only so.
The SRGB rule, the 4:2:0 rule and the codes are the spec's general knowledge, the immediate write its decision (logs 14, 15). -/
def Obligations.ColourFailureKeepsWhatItWrote : Prop :=
  (∀ (s : State) (q : ColorFront) (k : ColorCode), s.ParseReady → q.Legal → s.codes 0 (q.fields ++ k.fields q.profile) →
    k.cause q.profile ≠ .none →
    ∃ t, exec .parse s = .next t ∧ OthersKept s t ∧ t.inst.life = .live ∧ t.inst.result = .brokenData ∧
      t.inst.cause = k.cause q.profile ∧
      t.inst.ctx = { s.inst.ctx with color := k.written q.profile s.inst.ctx.color } ∧
      ReaderEndsAt s t (bitsOf (q.fields ++ k.fields q.profile))) ∧
  (∀ s t : State, exec .parse s = .next t →
    t.inst.cause ∈ [.srgbInProfile02, .subsampling420InProfile13, .reservedBitSet] →
    t.inst.result = .brokenData ∧ ∃ (q : ColorFront) (k : ColorCode), q.Legal ∧
      s.codes 0 (q.fields ++ k.fields q.profile) ∧ t.inst.cause = k.cause q.profile) ∧
  ∀ s t : State, exec .parse s = .next t → t.inst.cause = .srgbInProfile02 →
    t.inst.result = .brokenData ∧ ∃ d, d ≠ .undecoded ∧ t.inst.ctx = { s.inst.ctx with
      color := { s.inst.ctx.color with bitDepth := d, colorSpace := .srgb, colorRange := .full } }

/-! ### What an OK header says -/

/-- R126: the reference slots change only when a whole header completes, and then exactly those its refresh flags name take
the frame's coded size. The bit order is the spec's general knowledge (log 14), the table its decision D15. -/
def Obligations.RefSlotsFollowTheRefreshFlags : Prop :=
  (∀ s t : State, ParsedFrame s t → ∀ i : Fin 8, t.inst.ctx.refs[i] =
    if t.inst.hdr.refreshFrameFlags.getLsbD i then
      { valid := true, width := t.inst.hdr.width, height := t.inst.hdr.height }
    else s.inst.ctx.refs[i]) ∧
  (∀ s t : State, exec .parse s = .next t → t.inst.result ≠ .ok → t.inst.ctx.refs = s.inst.ctx.refs) ∧
  ∀ s t : State, exec .parse s = .next t → t.inst.result = .ok → t.inst.hdr.showExistingFrame = true →
    t.inst.ctx = s.inst.ctx

/-- R109, R114, R120: a completed frame's header reports the colour registers, the deltas and the segmentation registers in
force. -/
def Obligations.HeaderReportsTheContext : Prop :=
  ∀ s t : State, ParsedFrame s t →
    t.inst.hdr.color = t.inst.ctx.color ∧
    t.inst.hdr.lf.refDelta = t.inst.ctx.lfRefDelta ∧ t.inst.hdr.lf.modeDelta = t.inst.ctx.lfModeDelta ∧
    t.inst.hdr.seg.treeProb = t.inst.ctx.segTreeProb ∧ t.inst.hdr.seg.predProb = t.inst.ctx.segPredProb ∧
    t.inst.hdr.seg.absDelta = t.inst.ctx.segAbsDelta ∧ t.inst.hdr.seg.feature = t.inst.ctx.seg

/-- R116: lossless exactly when the base index and all three deltas are 0. -/
def Obligations.LosslessIsAllZero : Prop :=
  ∀ s t : State, ParsedFrame s t →
    (t.inst.ctx.lossless = true ↔ t.inst.hdr.q.baseQIdx = 0 ∧ t.inst.hdr.q.deltaQYDc = 0 ∧
      t.inst.hdr.q.deltaQUvDc = 0 ∧ t.inst.hdr.q.deltaQUvAc = 0) ∧
    t.inst.hdr.lossless = t.inst.ctx.lossless

/-- R113, R114: in a frame that does not trigger the past-independence reset, a delta whose update flag is 0 keeps its value
and is reported; no flag is 1 unless the update was enabled and coded. -/
def Obligations.LoopFilterDeltasPersist : Prop :=
  ∀ s t : State, ParsedFrame s t →
    (t.inst.hdr.resetsContext = false →
      (∀ i : Fin 4, t.inst.hdr.lf.refDeltaUpdated[i] = false →
        t.inst.ctx.lfRefDelta[i] = s.inst.ctx.lfRefDelta[i] ∧ t.inst.hdr.lf.refDelta[i] = s.inst.ctx.lfRefDelta[i]) ∧
      ∀ i : Fin 2, t.inst.hdr.lf.modeDeltaUpdated[i] = false →
        t.inst.ctx.lfModeDelta[i] = s.inst.ctx.lfModeDelta[i] ∧
          t.inst.hdr.lf.modeDelta[i] = s.inst.ctx.lfModeDelta[i]) ∧
    (t.inst.hdr.lf.modeRefDeltaEnabled = false → t.inst.hdr.lf.modeRefDeltaUpdate = false) ∧
    (t.inst.hdr.lf.modeRefDeltaUpdate = false →
      (∀ i : Fin 4, t.inst.hdr.lf.refDeltaUpdated[i] = false) ∧ ∀ i : Fin 2, t.inst.hdr.lf.modeDeltaUpdated[i] = false)

/-- R111: a key, intra-only or error-resilient frame restarts the deltas, the segment features and the abs/delta flag; what
the frame then updates itself is excepted. The probabilities are not restarted. The reset's values are the spec's general
knowledge, its being enabled the spec's decision (logs 14, 15). -/
def Obligations.PastIndependenceRestartsTheContext : Prop :=
  ∀ s t : State, ParsedFrame s t →
    (t.inst.hdr.frameType = .key ∨ t.inst.hdr.intraOnly = true ∨ t.inst.hdr.errorResilientMode = true) →
    (∀ i : Fin 4, t.inst.hdr.lf.refDeltaUpdated[i] = false →
      t.inst.ctx.lfRefDelta[i] = (#v[1, 0, -1, -1] : Vector Int 4)[i]) ∧
    (∀ i : Fin 2, t.inst.hdr.lf.modeDeltaUpdated[i] = false → t.inst.ctx.lfModeDelta[i] = 0) ∧
    (t.inst.hdr.seg.updateData = false →
      (∀ i : Fin 8, t.inst.ctx.seg[i] = SegFeature.zero) ∧ t.inst.ctx.segAbsDelta = false) ∧
    (t.inst.hdr.seg.updateMap = false →
      t.inst.ctx.segTreeProb = s.inst.ctx.segTreeProb ∧ t.inst.ctx.segPredProb = s.inst.ctx.segPredProb)

/-- R21, R117, R119, R120: in a frame that does not trigger the reset and updates no data, the feature table and the abs/delta
flag persist and are reported; without a map update the probabilities persist. -/
def Obligations.SegmentationPersists : Prop :=
  ∀ s t : State, ParsedFrame s t → t.inst.hdr.resetsContext = false →
    (t.inst.hdr.seg.updateData = false →
      t.inst.ctx.seg = s.inst.ctx.seg ∧ t.inst.ctx.segAbsDelta = s.inst.ctx.segAbsDelta ∧
      t.inst.hdr.seg.feature = s.inst.ctx.seg ∧ t.inst.hdr.seg.absDelta = s.inst.ctx.segAbsDelta) ∧
    (t.inst.hdr.seg.updateMap = false →
      t.inst.ctx.segTreeProb = s.inst.ctx.segTreeProb ∧ t.inst.ctx.segPredProb = s.inst.ctx.segPredProb ∧
      t.inst.hdr.seg.treeProb = s.inst.ctx.segTreeProb ∧ t.inst.hdr.seg.predProb = s.inst.ctx.segPredProb)

/-- R117, R118: a map update sets every absent probability to 255, and all three prediction probabilities to 255 without a
temporal update (that 255 is general knowledge, log 14); a flag that is not read is 0. That a present one is the 8 bits read is
said by `CodedFrameIsDecoded`. -/
def Obligations.AbsentMapProbabilitiesAre255 : Prop :=
  ∀ s t : State, ParsedFrame s t →
    (t.inst.hdr.seg.enabled = false → t.inst.hdr.seg.updateMap = false ∧ t.inst.hdr.seg.updateData = false) ∧
    (t.inst.hdr.seg.updateMap = false → t.inst.hdr.seg.temporalUpdate = false) ∧
    (t.inst.hdr.seg.updateMap = true →
      (∀ i : Fin 7, t.inst.hdr.seg.treeProbPresent[i] = false → t.inst.ctx.segTreeProb[i] = 255) ∧
      (∀ i : Fin 3, t.inst.hdr.seg.predProbPresent[i] = false → t.inst.ctx.segPredProb[i] = 255) ∧
      (t.inst.hdr.seg.temporalUpdate = false → ∀ i : Fin 3, t.inst.ctx.segPredProb[i] = 255))

/-- R119: a data update rewrites every field of all eight segments: a feature whose presence bit is 0 has value 0
(general knowledge, log 14). -/
def Obligations.DataUpdateClearsAbsentFeatures : Prop :=
  ∀ s t : State, ParsedFrame s t → t.inst.hdr.seg.updateData = true → ∀ i : Fin 8,
    ((t.inst.hdr.seg.feature[i]).qEn = false → (t.inst.hdr.seg.feature[i]).q = 0) ∧
    ((t.inst.hdr.seg.feature[i]).lfEn = false → (t.inst.hdr.seg.feature[i]).lf = 0) ∧
    ((t.inst.hdr.seg.feature[i]).refEn = false → (t.inst.hdr.seg.feature[i]).ref = .intra)

/-- R121, R122, R123: with `sb` superblocks across, `min` is the least `k` with `64 << k >= sb`, `max + 1` the least `m >= 1`
with `sb >> m < 4`; the coded columns lie between, and the rows are 0, 1 or 2. The formulas are the spec's general knowledge
(log 14). -/
def Obligations.TileColumnsAreBounded : Prop :=
  ∀ s t : State, s.inst.ctx.inRange → ParsedFrame s t →
    let sb := (t.inst.hdr.width + 63) / 64
    let h := t.inst.hdr.tile
    (sb ≤ 64 <<< h.minLog2Cols ∧ ∀ k < h.minLog2Cols, 64 <<< k < sb) ∧
    (sb >>> (h.maxLog2Cols + 1) < 4 ∧ ∀ m, 1 ≤ m → m ≤ h.maxLog2Cols → 4 ≤ sb >>> m) ∧
    h.minLog2Cols ≤ 4 ∧ h.maxLog2Cols ≤ 8 ∧
    h.minLog2Cols ≤ h.log2Cols ∧ h.log2Cols ≤ h.maxLog2Cols ∧ h.log2Rows ≤ 2

/-- R18 to R36: from a context in range, every field of a completed frame's header, and every context register after it, is
in the range 10_state.md gives. -/
def Obligations.CompletedHeaderIsInRange : Prop :=
  ∀ s t : State, s.inst.ctx.inRange → ParsedFrame s t → t.inst.hdr.inRange ∧ t.inst.ctx.inRange

/-- R98 and R126: a key frame reports intra_only 0, no reset_frame_context and all refresh flags, triggers the
past-independence reset, and fills every slot with its own size. The flags are general knowledge (log 14). -/
def Obligations.KeyFrameRefreshesEverySlot : Prop :=
  ∀ s t : State, s.inst.ctx.inRange → ParsedFrame s t → t.inst.hdr.frameType = .key →
    t.inst.hdr.intraOnly = false ∧ t.inst.hdr.resetFrameContext = 0 ∧ t.inst.hdr.refreshFrameFlags = 0xFF ∧
    t.inst.hdr.resetsContext = true ∧
    ∀ i : Fin 8, t.inst.ctx.refs[i] = { valid := true, width := t.inst.hdr.width, height := t.inst.hdr.height }

/-- R103, R110: an error-resilient frame forces refresh_frame_context 0 and frame_parallel_decoding_mode 1, and an inter one
reset_frame_context 0; a shown inter frame is not intra-only (the values are general knowledge, log 14). -/
def Obligations.UnreadFlagsTakeTheirDefaults : Prop :=
  ∀ s t : State, s.inst.ctx.inRange → ParsedFrame s t →
    (t.inst.hdr.errorResilientMode = true →
      t.inst.hdr.refreshFrameContext = false ∧ t.inst.hdr.frameParallelDecodingMode = true ∧
      t.inst.hdr.resetFrameContext = 0) ∧
    (t.inst.hdr.showFrame = true → t.inst.hdr.intraOnly = false)

/-- R102, R107: at most one size-from-reference flag is 1, and then the slot that reference names held a frame, whose size is
the coded size; without a display size the display size is the coded size. The stop at the first flag that is 1 is the spec's
general knowledge (log 14), the validity check its decision D15 (log 15). -/
def Obligations.SizeComesFromTheNamedSlot : Prop :=
  ∀ s t : State, s.inst.ctx.inRange → ParsedFrame s t →
    SizeFlags s.inst.ctx.refs t.inst.hdr ∧
    (t.inst.hdr.displaySizePresent = false →
      t.inst.hdr.displayWidth = t.inst.hdr.width ∧ t.inst.hdr.displayHeight = t.inst.hdr.height)

/-- R100, R105, R106, R109: a key frame, and an intra-only frame of profile 1 to 3, reports a colour configuration legal for
its profile; a profile-0 intra-only frame the forced one; any other frame the one the context held (logs 14, 15). -/
def Obligations.ColourIsLegalForcedOrKept : Prop :=
  ∀ s t : State, s.inst.ctx.inRange → ParsedFrame s t →
    (t.inst.hdr.frameType = .key ∨ (t.inst.hdr.intraOnly = true ∧ 0 < t.inst.hdr.profile) →
      t.inst.hdr.color.Legal t.inst.hdr.profile) ∧
    (t.inst.hdr.frameType = .inter → t.inst.hdr.intraOnly = true → t.inst.hdr.profile = 0 →
      t.inst.hdr.color = intraOnlyColor) ∧
    (t.inst.hdr.frameType = .inter → t.inst.hdr.intraOnly = false → t.inst.hdr.color = s.inst.ctx.color)

/-- R124, R125: of a completed header the first partition size is the last 16 bits read and is not 0, and the header length is
the bits consumed, rounded up to bytes, inside the buffer. Where the 16 bits after a legal frame's fields are 0 the PARSE ends
there, BrokenData with cause ZERO_FIRST_PARTITION, all that the frame codes but the reference slots written to the context
(R90); and that cause is reported only where the last 16 bits read are 0. Codes and constants of log 14, R90's writes log 15. -/
def Obligations.HeaderEndsWithThePartitionSize : Prop :=
  (∀ s t : State, ParsedFrame s t →
    16 ≤ t.inst.br.pos ∧ s.bufferField (t.inst.br.pos - 16) 16 = some t.inst.hdr.firstPartitionSize ∧
    t.inst.hdr.firstPartitionSize ≠ 0 ∧ t.inst.hdr.headerLengthBytes = (t.inst.br.pos + 7) / 8 ∧
    t.inst.br.pos ≤ 8 * s.port.len ∧ t.inst.hdr.headerLengthBytes ≤ s.port.len) ∧
  (∀ (s : State) (k : CodedFrame), s.ParseReady → s.codes 0 (k.fields s.inst.ctx) → k.Legal s.inst.ctx → k.partition = 0 →
    ∃ t, exec .parse s = .next t ∧ OthersKept s t ∧ t.inst.life = .live ∧ t.inst.result = .brokenData ∧
      t.inst.cause = .zeroFirstPartition ∧ t.inst.ctx = k.written s.inst.ctx ∧
      ReaderEndsAt s t (bitsOf (k.fields s.inst.ctx))) ∧
  ∀ s t : State, exec .parse s = .next t → t.inst.cause = .zeroFirstPartition →
    t.inst.result = .brokenData ∧ 16 ≤ t.inst.br.pos ∧ s.bufferField (t.inst.br.pos - 16) 16 = some 0 ∧
    t.inst.ctx.refs = s.inst.ctx.refs

/-! ### How much a header reads -/

/-- R127: a PARSE that returns OK consumed at most 499 bits, so its header is at most 63 bytes long; and a buffer of 63 bytes
is never too short. -/
def Obligations.HeaderIsAtMost499Bits : Prop :=
  ∀ s t : State, s.inst.ctx.inRange → exec .parse s = .next t →
    (t.inst.result = .ok → t.inst.br.pos ≤ 499 ∧ t.inst.hdr.headerLengthBytes ≤ 63) ∧
    (63 ≤ s.port.len → t.inst.result ≠ .noPacketError)

/-- R79, R127, R130: a verdict other than NoPacketError is final: the same bytes with more after them, parsed against the same
context, give the same result, cause, context and (when OK) header. -/
def Obligations.MoreDataNeverChangesAVerdict : Prop :=
  ∀ s s' t : State, s'.ParseReady → s'.inst.ctx = s.inst.ctx → s.port.len ≤ s'.port.len →
    (∀ a < s.port.len, s'.bufferByte a = s.bufferByte a) →
    exec .parse s = .next t → t.inst.result ≠ .noPacketError →
    ∃ t', exec .parse s' = .next t' ∧ OthersKept s' t' ∧ t'.inst.result = t.inst.result ∧
      t'.inst.cause = t.inst.cause ∧ t'.inst.ctx = t.inst.ctx ∧ t'.inst.br.pos = t.inst.br.pos ∧
      (t.inst.result = .ok → t'.inst.hdr = t.inst.hdr)

/-- R25, R26, R47, R86, R147, R148. First: a PARSE depends on the context and on the bytes below the length only: not on the old
header, status or reader, not on which instance it is or what the others hold, not on bytes past the length. Second: it keeps no
reference to its buffer. Two PARSEs on the same instance number, at the same count of free values, with buffers of one length and
whatever bytes, leave the same reader where they leave the cursor at the same place, so no bit-reader operation after them can use
either buffer. What such an operation reads is a free value, the spec stating none (log 19); this holds whatever it is. -/
def Obligations.ParseDependsOnContextAndBytesOnly : Prop :=
  (∀ s s' : State, s.ParseReady → s'.ParseReady → s'.inst.ctx = s.inst.ctx → s'.port.len = s.port.len →
    (∀ a < s.port.len, s'.bufferByte a = s.bufferByte a) →
    ∃ t t', exec .parse s = .next t ∧ exec .parse s' = .next t' ∧ t'.inst.result = t.inst.result ∧
      t'.inst.cause = t.inst.cause ∧ t'.inst.ctx = t.inst.ctx ∧ t'.inst.br.pos = t.inst.br.pos ∧
      (t.inst.result = .ok → t'.inst.hdr = t.inst.hdr)) ∧
  ∀ s s' t t' : State, exec .parse s = .next t → exec .parse s' = .next t' → s'.port.target = s.port.target →
    s'.inst.freeCount = s.inst.freeCount → s'.port.len = s.port.len → t'.inst.br.pos = t.inst.br.pos →
    t'.inst.br = t.inst.br

/-! ### Whole frames, field by field -/

/-- R93 to R126: every buffer that codes a plain profile-0 key frame (not error resilient, at most 448 wide, one tile row, no
render size, delta or segmentation) parses OK to exactly that frame's header and context (codes and constants of log 14).
`CodedFrameIsDecoded` has none of these limits. -/
def Obligations.PlainKeyFrameIsDecoded : Prop :=
  ∀ (s : State) (k : PlainKeyFrame), s.ParseReady → k.At s →
    ∃ t, exec .parse s = .next t ∧ OthersKept s t ∧
      DecodedTo s t 112 (k.context s.inst.ctx) (k.header s.inst.ctx)

/-- R93 to R126: every buffer that codes a plain shown profile-0 inter frame (not error resilient, LAST's size, at most 448
wide, one tile row, switchable filters, no render size, delta or segmentation) parses OK to exactly that frame's header; the
context keeps all it does not code (codes and constants of log 14). `CodedFrameIsDecoded` has none of these limits. -/
def Obligations.PlainInterFrameIsDecoded : Prop :=
  ∀ (s : State) (k : PlainInterFrame), s.ParseReady → k.At s →
    ∃ t, exec .parse s = .next t ∧ OthersKept s t ∧
      DecodedTo s t 77 (k.context s.inst.ctx) (k.header s.inst.ctx)

/-- R102, R104, R105, R111, R117 to R120: every buffer that codes a profile-0 intra-only frame with a render size and the whole
of the segmentation, that is at most 448 wide, not error resilient, without loop-filter or quantizer deltas and with one tile
row, parses OK to exactly that frame's header and context (codes and constants of log 14). `CodedFrameIsDecoded` has none of
these limits. -/
def Obligations.CodedIntraFrameIsDecoded : Prop :=
  ∀ (s : State) (k : CodedIntraFrame), s.ParseReady → k.At s →
    ∃ t, exec .parse s = .next t ∧ OthersKept s t ∧
      DecodedTo s t 421 (k.context s.inst.ctx) k.header

/-- R103, R107, R108, R110 to R116: every buffer that codes a shown error-resilient profile-0 inter frame with its own size, a
filter literal, all loop-filter deltas and all quantizer deltas, that is at most 448 wide, without a render size or
segmentation and with one tile row, parses OK to exactly that frame's header and context (codes and constants of log 14).
`CodedFrameIsDecoded` has none of these limits. -/
def Obligations.CodedInterFrameIsDecoded : Prop :=
  ∀ (s : State) (k : CodedInterFrame), s.ParseReady → k.At s →
    ∃ t, exec .parse s = .next t ∧ OthersKept s t ∧
      DecodedTo s t 173 (k.context s.inst.ctx) (k.header s.inst.ctx)

/-! ### The whole machine -/

/-- R41, R141: no command writes the caller's buffer, the commands still to come, or a register of another instance. -/
def Obligations.CommandsKeepEverythingElse : Prop :=
  ∀ (s t : State) (i : Instr), exec i s = .next t → OthersKept s t

/-- R141: two commands on different instances, in either order, leave every instance the same. -/
def Obligations.InstancesAreIndependent : Prop :=
  ∀ (s t u : State) (p q : Port) (i j : Instr), s.Inv → p.target ≠ q.target →
    exec i { s with port := p } = .next t → exec j { t with port := q } = .next u →
    ∃ t' u', exec j { s with port := q } = .next t' ∧ exec i { t' with port := p } = .next u' ∧
      u'.insts = u.insts ∧ t'.response = u.response ∧ u'.response = t.response

/-- R17: only CREATE, PARSE and DESTROY write the context, the header and the status. -/
def Obligations.OnlyTheFacadeWritesTheContext : Prop :=
  ∀ (s t : State) (i : Instr), i ≠ .create → i ≠ .parse → i ≠ .destroy → exec i s = .next t →
    t.inst.ctx = s.inst.ctx ∧ t.inst.hdr = s.inst.hdr ∧ t.inst.result = s.inst.result ∧ t.inst.cause = s.inst.cause ∧
    t.inst.life = s.inst.life

/-- R16, R18 to R24: every step keeps the invariant. -/
def Obligations.EveryStepKeepsTheInvariant : Prop := ∀ s t : State, s.Inv → step s = .next t → t.Inv

/-- The machine after reset satisfies the invariant. That one instance exists there, and the values its reader has, are the model's
choice (assumption logs 1 and 2). -/
def Obligations.ResetSatisfiesTheInvariant : Prop := Sys2Proof.core.reset = State.reset ∧ State.reset.Inv

/-- R42: where the invariant holds no step touches a byte that is not there: the model's one fault (assumption log 18) is
never raised. -/
def Obligations.NoStepFaultsUnderTheInvariant : Prop := ∀ s : State, s.Inv → ∀ f, step s ≠ .fault f

/-- R142: CREATE is the block's reset, and the context it makes has the values of R142's table, with `ST.LIFE` LIVE. That
`State.reset` is the machine after one such CREATE, so that instance 0 is LIVE, no other exists and the host has issued nothing, is
no rule of the spec but the model's DESIGN CHOICE (assumption log 1). The values of `BR`, `HDR`, `ST.RESULT` and `ST.CAUSE` there
are the model's choice too (assumption log 2) and are not stated. -/
def Obligations.ResetIsAFreshInstance : Prop :=
  (State.reset.get 0).life = .live ∧ (State.reset.get 0).ctx = {
    lfRefDelta := #v[0, 0, 0, 0], lfModeDelta := #v[0, 0], segTreeProb := #v[255, 255, 255, 255, 255, 255, 255]
    segPredProb := #v[255, 255, 255], segAbsDelta := false
    seg := Vector.replicate 8
      { qEn := false, q := 0, lfEn := false, lf := 0, refEn := false, ref := .intra, skip := false }
    lossless := false
    color := { bitDepth := .undecoded, colorSpace := .unknown, colorRange := .limited
               subsamplingX := false, subsamplingY := false }
    refs := Vector.replicate 8 { valid := false, width := 0, height := 0 } } ∧
  State.reset.script = [] ∧ ∀ k, k ≠ 0 → (State.reset.get k).life = .absent

/-! ### Every frame -/

/-- R93 to R126: every buffer that codes a frame the rules let through, of any profile, type, size, deltas, segmentation and
tiles, parses OK to exactly that frame's header and context, after exactly its bits; and every whole header that parses OK is such a
frame, so the checks of R94 to R124 let nothing else through. `CodedFrame` (Sys2Proof/Coded.lean) says how a frame is coded and what it
decodes to, the code maps of R69 to R72 written out (`codedSpace`, `codedRange`, `codedFilter`, `codedRef`, Sys2Proof/Safety.lean).
Codes, constants and formulas of log 14, the decisions of log 15. -/
def Obligations.CodedFrameIsDecoded : Prop :=
  (∀ (s : State) (k : CodedFrame), s.ParseReady → s.codes 0 (k.fields s.inst.ctx) → k.Legal s.inst.ctx → k.partition ≠ 0 →
    ∃ t, exec .parse s = .next t ∧ OthersKept s t ∧
      DecodedTo s t (bitsOf (k.fields s.inst.ctx)) (k.context s.inst.ctx) (k.header s.inst.ctx)) ∧
  ∀ s t : State, ParsedFrame s t →
    ∃ k : CodedFrame, s.codes 0 (k.fields s.inst.ctx) ∧ k.Legal s.inst.ctx ∧ k.partition ≠ 0 ∧
      t.inst.ctx = k.context s.inst.ctx ∧ t.inst.hdr = k.header s.inst.ctx

/-- R100, R109: in every profile the colour configuration is what the buffer codes. `ten_or_twelve_bit` 0 is 10 bits and 1 is 12
(profiles 2 and 3), `subsampling_x` comes before `subsampling_y` and each is its bit (profiles 1 and 3), SRGB is full range
without subsampling, and profiles 0 and 2 have 4:2:0. A configuration that no check rejects never ends in cause 4, 5 or 6, and a
completed frame leaves it in the context and reports it. Codes and values of log 14. -/
def Obligations.ColourIsReadAsCoded : Prop :=
  ∀ (s t : State) (q : ColorFront) (k : ColorCode), q.Legal → s.codes 0 (q.fields ++ k.fields q.profile) →
    k.cause q.profile = .none → exec .parse s = .next t →
    t.inst.cause ∉ [.srgbInProfile02, .subsampling420InProfile13, .reservedBitSet] ∧
    (t.inst.result = .ok → t.inst.ctx.color = k.config q.profile ∧ t.inst.hdr.color = k.config q.profile)
end

