-- ==== Sys2Proof/Laws/Table.lean ====
section
/-! SUPPORT. The tables: reading after writing, and that every operation keeps the canonical form. -/

namespace Sys2Proof.Machine

variable {α : Type}

theorem lookup_insertAt (k j : Nat) (v : α) (t : List (Nat × α)) :
    lookup j (insertAt k v t) = if j = k then some v else lookup j t := by
  induction t with
  | nil => by_cases h : k = j <;> simp [insertAt, lookup, h, eq_comm]
  | cons e t ih =>
    obtain ⟨i, w⟩ := e
    by_cases hkj : j = k
    · subst hkj
      by_cases h1 : j < i
      · simp [insertAt, h1, lookup]
      · by_cases h2 : j = i
        · simp [insertAt, h2, lookup]
        · have : i ≠ j := fun h => h2 h.symm
          simp [insertAt, h1, h2, lookup, this, ih]
    · have hkj' : k ≠ j := fun h => hkj h.symm
      by_cases h1 : k < i
      · simp [insertAt, h1, lookup, hkj, hkj']
      · by_cases h2 : k = i
        · subst h2; simp [insertAt, lookup, hkj, hkj']
        · simp [insertAt, h1, h2, lookup, ih, hkj]

theorem lookup_eq_none_of_risingFrom {k low : Nat} {t : List (Nat × α)} (h : risingFrom low t = true)
    (hk : k < low) : lookup k t = none := by
  induction t generalizing low with
  | nil => rfl
  | cons e t ih =>
    obtain ⟨i, w⟩ := e
    simp only [risingFrom, Bool.and_eq_true, decide_eq_true_eq] at h
    have : i ≠ k := by omega
    simp [lookup, this, ih h.2 (by omega)]

theorem lookup_eraseAt (k j : Nat) (t : List (Nat × α)) :
    lookup j (eraseAt k t) = if j = k then none else lookup j t := by
  induction t with
  | nil => simp [eraseAt, lookup]
  | cons e t ih =>
    obtain ⟨i, w⟩ := e
    by_cases hik : i = k
    · subst hik
      by_cases hj : j = i
      · subst hj; simpa [eraseAt] using ih
      · have : i ≠ j := fun h => hj h.symm
        simp [eraseAt, lookup, ih, hj, this]
    · by_cases hij : i = j
      · subst hij; simp [eraseAt, hik, lookup]
      · simp [eraseAt, hik, lookup, hij, ih]

theorem risingFrom_mono {a b : Nat} {t : List (Nat × α)} (h : risingFrom b t = true) (hab : a ≤ b) :
    risingFrom a t = true := by
  cases t with
  | nil => rfl
  | cons e t =>
    simp only [risingFrom, Bool.and_eq_true, decide_eq_true_eq] at h ⊢
    exact ⟨by omega, h.2⟩

theorem risingFrom_insertAt {low k : Nat} {v : α} {t : List (Nat × α)} (h : risingFrom low t = true)
    (hk : low ≤ k) : risingFrom low (insertAt k v t) = true := by
  induction t generalizing low with
  | nil => simp [insertAt, risingFrom, hk]
  | cons e t ih =>
    obtain ⟨i, w⟩ := e
    simp only [risingFrom, Bool.and_eq_true, decide_eq_true_eq] at h
    unfold insertAt
    split
    · simp only [risingFrom, Bool.and_eq_true, decide_eq_true_eq]
      exact ⟨hk, by omega, h.2⟩
    · split
      · subst k; simp [risingFrom, h.1, h.2]
      · simp only [risingFrom, Bool.and_eq_true, decide_eq_true_eq]
        exact ⟨h.1, ih h.2 (by omega)⟩

theorem risingFrom_eraseAt {low k : Nat} {t : List (Nat × α)} (h : risingFrom low t = true) :
    risingFrom low (eraseAt k t) = true := by
  induction t generalizing low with
  | nil => rfl
  | cons e t ih =>
    obtain ⟨i, w⟩ := e
    simp only [risingFrom, Bool.and_eq_true, decide_eq_true_eq] at h
    unfold eraseAt
    split
    · exact risingFrom_mono (ih h.2) (by omega)
    · simp only [risingFrom, Bool.and_eq_true, decide_eq_true_eq]
      exact ⟨h.1, ih h.2⟩

theorem mem_insertAt {k : Nat} {v : α} {t : List (Nat × α)} {e : Nat × α} (h : e ∈ insertAt k v t) :
    e = (k, v) ∨ e ∈ t := by
  induction t with
  | nil => simpa [insertAt] using h
  | cons d t ih =>
    obtain ⟨i, w⟩ := d
    unfold insertAt at h
    split at h
    · simpa using h
    · split at h
      · simp only [List.mem_cons] at h ⊢; tauto
      · simp only [List.mem_cons] at h ⊢
        rcases h with h | h
        · tauto
        · have := ih h; tauto

theorem mem_of_mem_eraseAt {k : Nat} {t : List (Nat × α)} {e : Nat × α} (h : e ∈ eraseAt k t) : e ∈ t := by
  induction t with
  | nil => simp [eraseAt] at h
  | cons d t ih =>
    obtain ⟨i, w⟩ := d
    unfold eraseAt at h
    split at h
    · exact List.mem_cons_of_mem _ (ih h)
    · simp only [List.mem_cons] at h ⊢
      rcases h with h | h
      · tauto
      · have := ih h; tauto

/-- Two canonical tables that list the same values are the same table: equal tables are equal data. -/
theorem eq_of_lookup_eq {low : Nat} {t u : List (Nat × α)} (ht : risingFrom low t = true)
    (hu : risingFrom low u = true) (h : ∀ k, lookup k t = lookup k u) : t = u := by
  induction t generalizing low u with
  | nil =>
    cases u with
    | nil => rfl
    | cons e u => have := h e.1; simp [lookup] at this
  | cons e t ih =>
    obtain ⟨i, v⟩ := e
    cases u with
    | nil => have := h i; simp [lookup] at this
    | cons d u =>
      obtain ⟨j, w⟩ := d
      simp only [risingFrom, Bool.and_eq_true, decide_eq_true_eq] at ht hu
      have hij : i = j := by
        rcases Nat.lt_trichotomy i j with hlt | heq | hlt
        · have := h i
          rw [lookup_eq_none_of_risingFrom (t := (j, w) :: u) (low := j) (by simp [risingFrom, hu.2]) hlt] at this
          simp [lookup] at this
        · exact heq
        · have := h j
          rw [lookup_eq_none_of_risingFrom (t := (i, v) :: t) (low := i) (by simp [risingFrom, ht.2]) hlt] at this
          simp [lookup] at this
      subst hij
      have hv : v = w := by simpa [lookup] using h i
      subst hv
      congr 1
      refine ih ht.2 hu.2 fun k => ?_
      by_cases hk : i = k
      · subst hk
        rw [lookup_eq_none_of_risingFrom ht.2 (by omega), lookup_eq_none_of_risingFrom hu.2 (by omega)]
      · simpa [lookup, hk] using h k

/-! ### The caller's buffer -/

theorem risingFrom_ofBytesAt (a : Nat) (bs : List Byte) : risingFrom a (Memory.ofBytesAt a bs) = true := by
  induction bs generalizing a with
  | nil => rfl
  | cons b bs ih => simp [Memory.ofBytesAt, risingFrom, ih]

/-- A buffer written as a byte string is in canonical form. -/
theorem Memory.wf_ofBytes (bs : List Byte) : (Memory.ofBytes bs).wf = true := risingFrom_ofBytesAt 0 bs

theorem lookup_ofBytesAt (a k : Nat) (bs : List Byte) :
    lookup k (Memory.ofBytesAt a bs) = if a ≤ k then bs[k - a]? else none := by
  induction bs generalizing a with
  | nil => simp [Memory.ofBytesAt, lookup]
  | cons b bs ih =>
    rcases Nat.lt_trichotomy a k with h | h | h
    · have h1 : a ≠ k := by omega
      have h2 : a + 1 ≤ k := by omega
      have h3 : k - a = (k - (a + 1)) + 1 := by omega
      simp [Memory.ofBytesAt, lookup, h1, ih, h2, h.le, h3]
    · subst h; simp [Memory.ofBytesAt, lookup]
    · have h1 : a ≠ k := by omega
      have h2 : ¬ a + 1 ≤ k := by omega
      have h3 : ¬ a ≤ k := by omega
      simp [Memory.ofBytesAt, lookup, h1, ih, h2, h3]

/-- The byte string's byte at each offset. -/
theorem lookup_ofBytes (k : Nat) (bs : List Byte) : lookup k (Memory.ofBytes bs) = bs[k]? := by
  simp [Memory.ofBytes, lookup_ofBytesAt]

theorem Memory.holds_iff {m : Memory} {n : Nat} : m.holds n = true ↔ ∀ a < n, ∃ b, lookup a m = some b := by
  simp [Memory.holds, List.all_eq_true, Option.isSome_iff_exists]

/-! ### The table of instances -/

theorem State.get_put (s : State) (k j : Nat) (x : Instance) :
    (s.put k x).get j = if j = k then x else s.get j := by
  unfold State.get State.put putInst
  by_cases hx : x = Instance.absent
  · by_cases hj : j = k
    · subst hj; simp [hx, lookup_eraseAt]
    · simp [hx, lookup_eraseAt, hj]
  · by_cases hj : j = k <;> simp [hx, lookup_insertAt, hj]

/-- Writing an instance keeps the table canonical. -/
theorem State.put_canonical {s : State} (h : risingFrom 0 s.insts = true)
    (hp : ∀ e ∈ s.insts, e.2 ≠ Instance.absent) (k : Nat) (x : Instance) :
    risingFrom 0 (s.put k x).insts = true ∧ ∀ e ∈ (s.put k x).insts, e.2 ≠ Instance.absent := by
  unfold State.put putInst
  by_cases hx : x = Instance.absent
  · simp only [hx, if_true]
    exact ⟨risingFrom_eraseAt h, fun e he => hp e (mem_of_mem_eraseAt he)⟩
  · simp only [hx, if_false]
    refine ⟨risingFrom_insertAt h (Nat.zero_le _), fun e he => ?_⟩
    rcases mem_insertAt he with rfl | he
    · exact hx
    · exact hp e he

end Sys2Proof.Machine
end

