-- ==== Sys2Proof/Laws/State.lean ====
section
/-! SUPPORT. One lemma per field per update, so that no later proof unfolds a record update, and what writing the addressed
instance does to the machine. -/

namespace Sys2Proof.Machine

/-! ### `State.put` -/

@[simp] theorem State.put_port (s : State) (k : Nat) (x : Instance) : (s.put k x).port = s.port := rfl
@[simp] theorem State.put_response (s : State) (k : Nat) (x : Instance) : (s.put k x).response = s.response := rfl
@[simp] theorem State.put_script (s : State) (k : Nat) (x : Instance) : (s.put k x).script = s.script := rfl
@[simp] theorem State.put_insts (s : State) (k : Nat) (x : Instance) : (s.put k x).insts = putInst k x s.insts := rfl

/-! ### `State.done` -/

@[simp] theorem State.done_port (s : State) (x : Instance) (a : Option Response) : (s.done x a).port = s.port := rfl
@[simp] theorem State.done_script (s : State) (x : Instance) (a : Option Response) :
    (s.done x a).script = s.script := rfl
@[simp] theorem State.done_response (s : State) (x : Instance) (a : Option Response) :
    (s.done x a).response = a := rfl
@[simp] theorem State.done_insts (s : State) (x : Instance) (a : Option Response) :
    (s.done x a).insts = putInst s.port.target x s.insts := rfl

theorem State.get_done (s : State) (x : Instance) (a : Option Response) (j : Nat) :
    (s.done x a).get j = if j = s.port.target then x else s.get j := by
  simpa [State.get, State.done] using State.get_put s s.port.target j x

/-- After a command, the addressed instance is the one written. -/
@[simp] theorem State.inst_done (s : State) (x : Instance) (a : Option Response) : (s.done x a).inst = x := by
  simp [State.inst, State.get_done]

/-- The frame of every command that is not refused. -/
theorem othersKept_done (s : State) (x : Instance) (a : Option Response) : OthersKept s (s.done x a) where
  port := rfl
  script := rfl
  others k hk := by simp [State.get_done, hk]

theorem State.get_port (s : State) (p : Port) (k : Nat) : ({ s with port := p } : State).get k = s.get k := rfl

theorem State.get_fetched (s : State) (p : Port) (l : List Command) (k : Nat) :
    ({ s with script := l, port := p } : State).get k = s.get k := rfl

/-! ### Instances -/

@[simp] theorem Instance.withReader_life (x : Instance) (r : Reader) : (x.withReader r).life = x.life := rfl
@[simp] theorem Instance.withReader_result (x : Instance) (r : Reader) : (x.withReader r).result = x.result := rfl
@[simp] theorem Instance.withReader_cause (x : Instance) (r : Reader) : (x.withReader r).cause = x.cause := rfl
@[simp] theorem Instance.withReader_br (x : Instance) (r : Reader) : (x.withReader r).br = r := rfl
@[simp] theorem Instance.withReader_ctx (x : Instance) (r : Reader) : (x.withReader r).ctx = x.ctx := rfl
@[simp] theorem Instance.withReader_hdr (x : Instance) (r : Reader) : (x.withReader r).hdr = x.hdr := rfl
@[simp] theorem Instance.withReader_freeCount (x : Instance) (r : Reader) :
    (x.withReader r).freeCount = x.freeCount := rfl

@[simp] theorem Reader.released_len (k n : Nat) (r : Reader) : (r.released k n).len = r.len := rfl
@[simp] theorem Reader.released_pos (k n : Nat) (r : Reader) : (r.released k n).pos = r.pos := rfl

@[simp] theorem Instance.completed_life (k : Nat) (x : Instance) (w : Work) : (Instance.completed k x w).life = x.life := rfl
@[simp] theorem Instance.completed_result (k : Nat) (x : Instance) (w : Work) : (Instance.completed k x w).result = .ok := rfl
@[simp] theorem Instance.completed_cause (k : Nat) (x : Instance) (w : Work) : (Instance.completed k x w).cause = .none := rfl
@[simp] theorem Instance.completed_br (k : Nat) (x : Instance) (w : Work) :
    (Instance.completed k x w).br = w.br.released k x.freeCount := rfl
@[simp] theorem Instance.completed_ctx (k : Nat) (x : Instance) (w : Work) : (Instance.completed k x w).ctx = w.ctx := rfl
@[simp] theorem Instance.completed_hdr (k : Nat) (x : Instance) (w : Work) : (Instance.completed k x w).hdr = w.hdr := rfl
@[simp] theorem Instance.completed_freeCount (k : Nat) (x : Instance) (w : Work) :
    (Instance.completed k x w).freeCount = x.freeCount + 1 := rfl

@[simp] theorem Instance.failed_life (k : Nat) (x : Instance) (c : Cause) (w : Work) :
    (Instance.failed k x c w).life = x.life := rfl
@[simp] theorem Instance.failed_result (k : Nat) (x : Instance) (c : Cause) (w : Work) :
    (Instance.failed k x c w).result = c.result := rfl
@[simp] theorem Instance.failed_cause (k : Nat) (x : Instance) (c : Cause) (w : Work) :
    (Instance.failed k x c w).cause = c := rfl
@[simp] theorem Instance.failed_br (k : Nat) (x : Instance) (c : Cause) (w : Work) :
    (Instance.failed k x c w).br = w.br.released k x.freeCount := rfl
@[simp] theorem Instance.failed_ctx (k : Nat) (x : Instance) (c : Cause) (w : Work) :
    (Instance.failed k x c w).ctx = w.ctx := rfl
@[simp] theorem Instance.failed_freeCount (k : Nat) (x : Instance) (c : Cause) (w : Work) :
    (Instance.failed k x c w).freeCount = x.freeCount + 1 := rfl

@[simp] theorem Instance.create_life (k : Nat) (x : Instance) : (x.create k).life = .live := rfl
@[simp] theorem Instance.create_br (k : Nat) (x : Instance) : (x.create k).br = x.br := rfl
@[simp] theorem Instance.create_ctx (k : Nat) (x : Instance) : (x.create k).ctx = Context.reset := rfl
@[simp] theorem Instance.destroy_life (k : Nat) (x : Instance) : (x.destroy k).life = .destroyed := rfl

/-! ### The host's contract, as the meanings check it -/

theorem Port.bufferMisuse_eq_none {p : Port} : p.bufferMisuse = none ↔ p.bufferGiven := by
  unfold Port.bufferMisuse Port.bufferGiven
  cases hb : p.buf with
  | none => by_cases hl : p.len = 0 <;> simp [hl]
  | some m =>
    by_cases hh : m.holds p.len = true
    · simpa [hh] using Memory.holds_iff.mp hh
    · have : ¬ ∀ a < p.len, ∃ b, lookup a m = some b := fun h => hh (Memory.holds_iff.mpr h)
      simpa [hh] using this

/-- A buffer within the contract has a byte at every offset below the length. -/
theorem Port.holds_of_bufferGiven {p : Port} (h : p.bufferGiven) : p.buffer.holds p.len = true := by
  rcases h with ⟨hb, hl⟩ | ⟨m, hb, hm⟩
  · simp [Port.buffer, hb, hl, Memory.holds]
  · simpa [Port.buffer, hb] using Memory.holds_iff.mpr hm

theorem withReaderUsable_of_ready {s : State} (h : s.ReaderReady) (body : Host.Outcome State Fault Refusal) :
    withReaderUsable s body = body := by
  simp [withReaderUsable, h.alone, h.alive]

theorem withBuffer_of_given {s : State} (h : s.port.bufferGiven) (body : Host.Outcome State Fault Refusal) :
    withBuffer s body = body := by
  simp [withBuffer, Port.bufferMisuse_eq_none.mpr h]

/-- Inside the contract PARSE is its grammar and the map of its outcome (R86, R87). -/
theorem execParse_of_ready {s : State} (h : s.ParseReady) :
    execParse s = endParse s (uncompressedHeader (startWork s)) := by
  simp [execParse, h.alone, h.live, withBuffer_of_given h.buffer, h.fixed]

/-- A bit-reader operation that is not refused ran within the contract. -/
theorem withReaderUsable_next {s t : State} {body : Host.Outcome State Fault Refusal}
    (h : withReaderUsable s body = .next t) : s.ReaderReady ∧ body = .next t := by
  unfold withReaderUsable at h
  by_cases ho : s.port.overlapped = true
  · simp [ho] at h
  · by_cases hd : s.inst.life = .destroyed
    · simp [ho, hd] at h
    · simp only [ho, hd, if_false, Bool.false_eq_true] at h
      exact ⟨⟨by simpa using ho, hd⟩, h⟩

/-- A PARSE that is not refused ran within the contract. -/
theorem execParse_next {s t : State} (h : execParse s = .next t) :
    s.ParseReady ∧ endParse s (uncompressedHeader (startWork s)) = .next t := by
  unfold execParse at h
  by_cases ho : s.port.overlapped = true
  · simp [ho] at h
  · by_cases hl : s.inst.life = .live
    · by_cases hb : s.port.bufferGiven
      · by_cases hc : s.port.bufChanged = true
        · simp [ho, hl, withBuffer_of_given hb, hc] at h
        · simp only [ho, hl, withBuffer_of_given hb, hc, if_false, if_true, Bool.false_eq_true] at h
          exact ⟨⟨by simpa using ho, hl, hb, by simpa using hc⟩, h⟩
      · have : s.port.bufferMisuse ≠ none := fun hn => hb (Port.bufferMisuse_eq_none.mp hn)
        cases hm : s.port.bufferMisuse with
        | none => exact absurd hm this
        | some r => simp [ho, hl, withBuffer, hm] at h
    · simp [ho, hl] at h

end Sys2Proof.Machine
end

