-- ==== Sys2Proof/Laws/Reader.lean ====
section
/-! SUPPORT. The bit reader: what a read answers, and what it answers it from. -/

namespace Sys2Proof.Machine

theorem Reader.wf_iff {r : Reader} :
    r.wf = true ↔ r.buf.wf = true ∧ (∀ a < r.len, ∃ b, lookup a r.buf = some b) ∧ r.pos ≤ 8 * r.len := by
  simp [Reader.wf, Memory.holds_iff, and_assoc]

/-- A byte stands at every offset below `BR.LEN`. -/
def Reader.Full (r : Reader) : Prop := ∀ a < r.len, ∃ b, lookup a r.buf = some b

theorem Reader.Full.of_wf {r : Reader} (h : r.wf = true) : r.Full := (Reader.wf_iff.mp h).2.1

/-- What a PARSE leaves is well bound again (R16), though to no buffer of the host's. -/
theorem Reader.wf_released (k n : Nat) {r : Reader} (h : r.pos ≤ 8 * r.len) : (r.released k n).wf = true := by
  refine Reader.wf_iff.mpr ⟨Memory.wf_ofBytes _, fun a ha => ?_, h⟩
  exact ⟨Config.freeByte k n a, by simp [Reader.released, lookup_ofBytes, show a < r.len from ha]⟩

theorem Reader.bit_le_one {r : Reader} {p b : Nat} (h : r.bit p = some b) : b ≤ 1 := by
  unfold Reader.bit at h
  split at h
  · simp only [Option.some.injEq] at h
    rw [← h, Nat.and_one_is_mod]; omega
  · simp at h

/-- In a well bound reader every bit position below the end has a bit (R43, R47). -/
theorem Reader.Full.bit {r : Reader} (h : r.Full) {p : Nat} (hp : p < 8 * r.len) : ∃ b, r.bit p = some b := by
  have hq : p >>> 3 < r.len := by rw [Nat.shiftRight_eq_div_pow]; omega
  obtain ⟨b, hb⟩ := h _ hq
  exact ⟨(b.toNat >>> (7 - p % 8)) &&& 1, by simp [Reader.bit, Reader.memRead, hq, hb]⟩

/-- The bit at a position depends only on the buffer and the length, not on the cursor. -/
theorem Reader.bit_pos (r : Reader) (q p : Nat) : ({ r with pos := q } : Reader).bit p = r.bit p := rfl

theorem Reader.bitsFrom_pos (r : Reader) (q n p v : Nat) :
    ({ r with pos := q } : Reader).bitsFrom n p v = r.bitsFrom n p v := by
  induction n generalizing p v with
  | zero => rfl
  | succ n ih => simp only [Reader.bitsFrom, Reader.bit_pos, ih]

/-- The accumulator is the more significant part. -/
theorem Reader.bitsFrom_acc (r : Reader) (n p v : Nat) :
    r.bitsFrom n p v = (r.bitsFrom n p 0).map fun x => v * 2 ^ n + x := by
  induction n generalizing p v with
  | zero => simp [Reader.bitsFrom]
  | succ n ih =>
    simp only [Reader.bitsFrom]
    cases r.bit p with
    | none => rfl
    | some b =>
      simp only
      rw [ih, ih (p + 1) (2 * 0 + b), Option.map_map]
      congr 1
      funext x
      simp only [Function.comp_apply, Nat.pow_succ]
      ring

/-- Reading `a` then `b` bits is reading `a + b` bits (R84). -/
theorem Reader.bitsFrom_add (r : Reader) (a b p v : Nat) :
    r.bitsFrom (a + b) p v = (r.bitsFrom a p v).bind fun x => r.bitsFrom b (p + a) x := by
  induction a generalizing p v with
  | zero => simp [Reader.bitsFrom]
  | succ a ih =>
    rw [Nat.succ_add]
    simp only [Reader.bitsFrom]
    cases r.bit p with
    | none => rfl
    | some c => simp only [ih]; congr 1; funext x; congr 1; omega

theorem Reader.bitsFrom_lt {r : Reader} {n p v x : Nat} (h : r.bitsFrom n p v = some x) :
    x < (v + 1) * 2 ^ n := by
  induction n generalizing p v with
  | zero => simp only [Reader.bitsFrom, Option.some.injEq] at h; omega
  | succ n ih =>
    simp only [Reader.bitsFrom] at h
    split at h
    · rename_i b hb
      have h1 := ih h
      have h2 := Reader.bit_le_one hb
      calc x < (2 * v + b + 1) * 2 ^ n := h1
        _ ≤ (2 * (v + 1)) * 2 ^ n := Nat.mul_le_mul_right _ (by omega)
        _ = (v + 1) * 2 ^ (n + 1) := by rw [Nat.pow_succ]; ring
    · simp at h

/-- An `n`-bit field is below `2 ^ n` (R78). -/
theorem Reader.field_lt {r : Reader} {n p x : Nat} (h : r.bitsFrom n p 0 = some x) : x < 2 ^ n := by
  simpa using Reader.bitsFrom_lt h

theorem Reader.Full.bitsFrom {r : Reader} (h : r.Full) (n p v : Nat) (hp : p + n ≤ 8 * r.len) :
    ∃ x, r.bitsFrom n p v = some x := by
  induction n generalizing p v with
  | zero => exact ⟨v, rfl⟩
  | succ n ih =>
    obtain ⟨b, hb⟩ := h.bit (p := p) (by omega)
    simp only [Reader.bitsFrom, hb]
    exact ih (p + 1) _ (by omega)

/-- The `n`-bit field at `p` has the stream's bits, the first most significant (R43, R78). -/
theorem Reader.field_bits {r : Reader} {n p x : Nat} (h : r.bitsFrom n p 0 = some x) {k : Nat} (hk : k < n) :
    r.bit (p + k) = some (x / 2 ^ (n - 1 - k) % 2) := by
  induction n generalizing p x k with
  | zero => omega
  | succ n ih =>
    rw [show n + 1 = 1 + n by omega, Reader.bitsFrom_add] at h
    cases hb : r.bit p with
    | none => simp [Reader.bitsFrom, hb] at h
    | some b =>
      simp only [Reader.bitsFrom, hb, Option.bind_some] at h
      rw [Reader.bitsFrom_acc] at h
      cases hy : r.bitsFrom n (p + 1) 0 with
      | none => simp [hy] at h
      | some y =>
        simp only [hy, Option.map_some, Option.some.injEq] at h
        have hyl := Reader.field_lt hy
        have hbl := Reader.bit_le_one hb
        cases k with
        | zero =>
          simp only [Nat.add_zero, hb, Option.some.injEq, Nat.add_sub_cancel, Nat.sub_zero]
          rw [← h, show (2 * 0 + b) * 2 ^ n + y = y + 2 ^ n * b by ring,
            Nat.add_mul_div_left _ _ (Nat.two_pow_pos n), Nat.div_eq_of_lt hyl]
          omega
        | succ k =>
          have h1 := ih (k := k) hy (by omega)
          rw [show p + (k + 1) = p + 1 + k by omega, h1]
          congr 1
          rw [← h, show n + 1 - 1 - (k + 1) = n - 1 - k by omega]
          have he : 2 ^ n = 2 ^ (n - 1 - k) * (2 * 2 ^ k) := by
            rw [← Nat.pow_succ', ← Nat.pow_add]; congr 1; omega
          rw [he, show (2 * 0 + b) * (2 ^ (n - 1 - k) * (2 * 2 ^ k)) + y
              = y + 2 ^ (n - 1 - k) * (2 * (b * 2 ^ k)) by ring,
            Nat.add_mul_div_left _ _ (Nat.two_pow_pos _)]
          omega

/-! ### Reads -/

variable {α : Type}

/-- Everything a read can answer (R79). -/
theorem Reader.read_cases (r : Reader) (w : Nat) (value : Reader → Option α) :
    (8 * r.len < r.pos + w ∧ r.read w value = .outOfData) ∨
    (r.pos + w ≤ 8 * r.len ∧ ∃ v, value r = some v ∧ r.read w value = .ok v { r with pos := r.pos + w }) ∨
    (r.pos + w ≤ 8 * r.len ∧ value r = none ∧ r.read w value = .absent) := by
  unfold Reader.read
  by_cases h : r.pos + w > 8 * r.len
  · exact .inl ⟨h, by simp [h]⟩
  · cases hv : value r with
    | none => exact .inr (.inr ⟨by omega, rfl, by simp [h]⟩)
    | some v => exact .inr (.inl ⟨by omega, v, rfl, by simp [h]⟩)

theorem Reader.Full.signedAt {r : Reader} (h : r.Full) {n : Nat} (hp : r.pos + (n + 1) ≤ 8 * r.len) :
    ∃ m s, r.bitsFrom n r.pos 0 = some m ∧ r.bit (r.pos + n) = some s ∧ r.signedAt n = some (signMagnitude m s) := by
  obtain ⟨m, hm⟩ := h.bitsFrom n r.pos 0 (by omega)
  obtain ⟨s, hs⟩ := h.bit (p := r.pos + n) (by omega)
  exact ⟨m, s, hm, hs, by simp [Reader.signedAt, hm, hs]⟩

theorem Reader.signedAt_within {r : Reader} {n : Nat} {v : Int} (h : r.signedAt n = some v) :
    within (2 ^ n - 1) v := by
  unfold Reader.signedAt at h
  split at h
  · rename_i m s hm hs
    simp only [Option.some.injEq] at h
    have := Reader.field_lt hm
    subst h
    have hm' : (m : Int) ≤ ((2 ^ n - 1 : Nat) : Int) := by omega
    unfold signMagnitude
    split <;> constructor <;> omega
  · simp at h

theorem Reader.Full.flagAt {r : Reader} (h : r.Full) (hp : r.pos + 1 ≤ 8 * r.len) :
    ∃ b, r.bit r.pos = some b ∧ r.flagAt = some (decide (b = 1)) := by
  obtain ⟨b, hb⟩ := h.bit (p := r.pos) (by omega)
  exact ⟨b, hb, by simp [Reader.flagAt, hb]⟩

/-- READ_FLAG is READ_BITS 1 with the result taken as a boolean (R81). -/
theorem Reader.readFlag_eq (r : Reader) :
    r.readBits 1 = match r.readFlag with
      | .ok b r' => .ok (if b then 1 else 0) r'
      | .outOfData => .outOfData
      | .absent => .absent := by
  unfold Reader.readBits Reader.readFlag Reader.read Reader.flagAt
  by_cases h : r.pos + 1 > 8 * r.len
  · simp [h]
  · cases hb : r.bit r.pos with
    | none => simp [h, Reader.bitsFrom, hb]
    | some b =>
      have := Reader.bit_le_one hb
      have : b = 0 ∨ b = 1 := by omega
      rcases this with rfl | rfl <;> simp [h, Reader.bitsFrom, hb]

end Sys2Proof.Machine
end

