-- ==== Sys2Proof/Laws/Grammar.lean ====
section
/-! SUPPORT. Reasoning about grammar steps: what sequencing does, and three properties that sequencing keeps: `Same` (what a
step leaves alone, whether it completes or fails), `Reads` (how far it moves the cursor, and that it fails for lack of
data only near the end), `Yields` (what value it answers). Every primitive has its lemma for each. -/

namespace Sys2Proof.Machine

variable {α β γ ι : Type}

/-! ### Sequencing -/

/-- `m` run from `w` ends in `Q` when it completes and in `E` when it ends the PARSE. -/
def Sat (m : Grammar α) (w : Work) (Q : α → Work → Prop) (E : Abort → Work → Prop) : Prop :=
  match m w with
  | .ok a w' => Q a w'
  | .error e w' => E e w'

theorem Sat.ok {m : Grammar α} {w w' : Work} {Q : α → Work → Prop} {E : Abort → Work → Prop} {a : α}
    (h : Sat m w Q E) (hm : m w = .ok a w') : Q a w' := by simpa [Sat, hm] using h

theorem Sat.error {m : Grammar α} {w w' : Work} {Q : α → Work → Prop} {E : Abort → Work → Prop} {e : Abort}
    (h : Sat m w Q E) (hm : m w = .error e w') : E e w' := by simpa [Sat, hm] using h

theorem Sat.of_cases {m : Grammar α} {w : Work} {Q : α → Work → Prop} {E : Abort → Work → Prop}
    (hok : ∀ a w', m w = .ok a w' → Q a w') (herr : ∀ e w', m w = .error e w' → E e w') : Sat m w Q E := by
  unfold Sat
  cases hm : m w with
  | ok a w' => exact hok a w' hm
  | error e w' => exact herr e w' hm

theorem bind_run (m : Grammar α) (k : α → Grammar β) (w : Work) :
    (m >>= k) w = match m w with
      | .ok a w' => k a w'
      | .error e w' => .error e w' := by
  show EStateM.bind m k w = _
  unfold EStateM.bind
  cases m w <;> rfl

theorem Sat.bind {m : Grammar α} {k : α → Grammar β} {w : Work} {Q : β → Work → Prop} {E : Abort → Work → Prop}
    (h : Sat m w (fun a w' => Sat (k a) w' Q E) E) : Sat (m >>= k) w Q E := by
  unfold Sat at h ⊢
  rw [bind_run]
  cases hm : m w with
  | ok a w' => simpa [hm] using h
  | error e w' => simpa [hm] using h

/-- A sequence completes exactly when its parts do, one after the other. -/
theorem bind_ok {m : Grammar α} {k : α → Grammar β} {w w'' : Work} {b : β} :
    (m >>= k) w = .ok b w'' ↔ ∃ a w', m w = .ok a w' ∧ k a w' = .ok b w'' := by
  rw [bind_run]
  cases hm : m w with
  | ok a w' =>
    constructor
    · intro h; exact ⟨a, w', rfl, h⟩
    · rintro ⟨a', w1, h1, h2⟩; cases h1; exact h2
  | error e w' =>
    constructor
    · intro h; cases h
    · rintro ⟨a', w1, h1, h2⟩; cases h1

/-- A sequence fails exactly when its first part does, or the first completes and the second fails. -/
theorem bind_error {m : Grammar α} {k : α → Grammar β} {w w'' : Work} {e : Abort} :
    (m >>= k) w = .error e w'' ↔
      m w = .error e w'' ∨ ∃ a w', m w = .ok a w' ∧ k a w' = .error e w'' := by
  rw [bind_run]
  cases hm : m w with
  | ok a w' =>
    constructor
    · intro h; exact .inr ⟨a, w', rfl, h⟩
    · rintro (h | ⟨a', w1, h1, h2⟩)
      · cases h
      · cases h1; exact h2
  | error e' w' =>
    constructor
    · intro h; cases h; exact .inl rfl
    · rintro (h | ⟨a', w1, h1, h2⟩)
      · cases h; rfl
      · cases h1

@[simp] theorem pure_run (a : α) (w : Work) : (pure a : Grammar α) w = .ok a w := rfl
@[simp] theorem getPos_run (w : Work) : getPos w = .ok w.br.pos w := rfl
@[simp] theorem getHdr_run (w : Work) : getHdr w = .ok w.hdr w := rfl
@[simp] theorem getCtx_run (w : Work) : getCtx w = .ok w.ctx w := rfl
@[simp] theorem setHdr_run (g : Header → Header) (w : Work) : setHdr g w = .ok () { w with hdr := g w.hdr } := rfl
@[simp] theorem setCtx_run (g : Context → Context) (w : Work) : setCtx g w = .ok () { w with ctx := g w.ctx } := rfl
@[simp] theorem raise_run (c : Cause) (w : Work) : (raise c : Grammar α) w = .error (.raised c) w := rfl
@[simp] theorem whenTrue_true (m : Grammar Unit) : whenTrue true m = m := rfl
@[simp] theorem whenTrue_false (m : Grammar Unit) : whenTrue false m = pure () := rfl

/-! ### What a step leaves alone -/

/-- `m` leaves `π` of the registers alone, whether it completes or fails. -/
def Same (π : Work → γ) (m : Grammar α) : Prop :=
  ∀ w, Sat m w (fun _ w' => π w' = π w) (fun _ w' => π w' = π w)

theorem Same.ok {π : Work → γ} {m : Grammar α} (h : Same π m) {w w' : Work} {a : α} (hm : m w = .ok a w') :
    π w' = π w := (h w).ok hm

theorem Same.error {π : Work → γ} {m : Grammar α} (h : Same π m) {w w' : Work} {e : Abort}
    (hm : m w = .error e w') : π w' = π w := (h w).error hm

theorem Same.map {π : Work → γ} {δ : Type} {m : Grammar α} (h : Same π m) (g : γ → δ) :
    Same (fun w => g (π w)) m := fun _ =>
  Sat.of_cases (fun _ _ hm => congrArg g (h.ok hm)) (fun _ _ hm => congrArg g (h.error hm))

theorem same_pure (π : Work → γ) (a : α) : Same π (pure a : Grammar α) := fun _ => rfl

theorem same_bind {π : Work → γ} {m : Grammar α} {k : α → Grammar β} (h1 : Same π m) (h2 : ∀ a, Same π (k a)) :
    Same π (m >>= k) := fun _ =>
  Sat.bind (Sat.of_cases
    (fun a _ hm => Sat.of_cases (fun _ _ hk => ((h2 a).ok hk).trans (h1.ok hm))
      (fun _ _ hk => ((h2 a).error hk).trans (h1.ok hm)))
    (fun _ _ hm => h1.error hm))

theorem same_receive {π : Work → γ} (hπ : ∀ w r, π { w with br := r } = π w) (read : Reader → ReadOut α) :
    Same π (receive read) := fun w => by
  unfold Sat receive
  cases h : read w.br with
  | ok v r => exact hπ w r
  | outOfData => rfl
  | absent => rfl

theorem same_raise (π : Work → γ) (c : Cause) : Same π (raise c : Grammar α) := fun _ => rfl
theorem same_getPos (π : Work → γ) : Same π getPos := fun _ => rfl
theorem same_getHdr (π : Work → γ) : Same π getHdr := fun _ => rfl
theorem same_getCtx (π : Work → γ) : Same π getCtx := fun _ => rfl

theorem same_setHdr {π : Work → γ} {g : Header → Header} (h : ∀ w, π { w with hdr := g w.hdr } = π w) :
    Same π (setHdr g) := fun w => h w

theorem same_setCtx {π : Work → γ} {g : Context → Context} (h : ∀ w, π { w with ctx := g w.ctx } = π w) :
    Same π (setCtx g) := fun w => h w

theorem same_ite {π : Work → γ} {c : Prop} {_ : Decidable c} {m n : Grammar α} (h1 : Same π m) (h2 : Same π n) :
    Same π (if c then m else n) := by split <;> assumption

theorem same_whenTrue {π : Work → γ} {c : Bool} {m : Grammar Unit} (h : Same π m) : Same π (whenTrue c m) := by
  cases c
  · exact same_pure π ()
  · exact h

theorem same_forEach {π : Work → γ} {body : ι → Grammar Unit} (h : ∀ i, Same π (body i)) (is : List ι) :
    Same π (forEach body is) := by
  induction is with
  | nil => exact same_pure π ()
  | cons i is ih => exact same_bind (h i) fun _ => ih

theorem same_readIf {π : Work → γ} {read : Grammar α} (h : Same π read) (c : Bool) (d : α) :
    Same π (readIf c read d) := same_ite h (same_pure π d)

theorem same_guarded {π : Work → γ} (hπ : ∀ w r, π { w with br := r } = π w) {read : Grammar α}
    (h : Same π read) (d : α) : Same π (guarded read d) :=
  same_bind (same_receive hπ _) fun _ => same_bind (same_readIf h _ _) fun _ => same_pure π _

/-! ### How far a step reads -/

/-- `w'` is `w` with the cursor at most `n` bits further on, in the same buffer and inside it. -/
structure Advanced (n : Nat) (w w' : Work) : Prop where
  buf    : w'.br.buf = w.br.buf
  len    : w'.br.len = w.br.len
  back   : w.br.pos ≤ w'.br.pos
  far    : w'.br.pos ≤ w.br.pos + n
  inside : w'.br.pos ≤ 8 * w'.br.len

/-- `m` reads at most `n` bits of a full buffer. It never misses a byte, and it runs out of data only when fewer than `n`
bits remain. -/
def Reads (n : Nat) (m : Grammar α) : Prop :=
  ∀ w, w.br.Full → w.br.pos ≤ 8 * w.br.len →
    Sat m w (fun _ w' => Advanced n w w')
      (fun e w' => Advanced n w w' ∧ e ≠ .absent ∧ (e = .raised .outOfData → 8 * w.br.len < w.br.pos + n))

theorem Advanced.refl {n : Nat} {w : Work} (h : w.br.pos ≤ 8 * w.br.len) : Advanced n w w :=
  ⟨rfl, rfl, le_refl _, Nat.le_add_right _ _, h⟩

theorem Advanced.trans {n k : Nat} {w w' w'' : Work} (h1 : Advanced n w w') (h2 : Advanced k w' w'') :
    Advanced (n + k) w w'' where
  buf := h2.buf.trans h1.buf
  len := h2.len.trans h1.len
  back := le_trans h1.back h2.back
  far := by have := h1.far; have := h2.far; omega
  inside := h2.inside

theorem Advanced.mono {n k : Nat} {w w' : Work} (h : Advanced n w w') (hn : n ≤ k) : Advanced k w w' :=
  { h with far := by have := h.far; omega }

theorem Advanced.full {n : Nat} {w w' : Work} (h : Advanced n w w') (hf : w.br.Full) : w'.br.Full := by
  intro a ha
  rw [h.buf]
  exact hf a (by rw [← h.len]; exact ha)

theorem Reads.mono {n k : Nat} {m : Grammar α} (h : Reads n m) (hn : n ≤ k) : Reads k m := fun w hf hp =>
  Sat.of_cases (fun _ _ hm => ((h w hf hp).ok hm).mono hn) fun _ _ hm =>
    have hs := (h w hf hp).error hm
    ⟨hs.1.mono hn, hs.2.1, fun he => by have := hs.2.2 he; omega⟩

theorem reads_pure (a : α) : Reads 0 (pure a : Grammar α) := fun _ _ hp => Advanced.refl hp
theorem reads_getPos : Reads 0 getPos := fun _ _ hp => Advanced.refl hp
theorem reads_getHdr : Reads 0 getHdr := fun _ _ hp => Advanced.refl hp
theorem reads_getCtx : Reads 0 getCtx := fun _ _ hp => Advanced.refl hp
theorem reads_setHdr (g : Header → Header) : Reads 0 (setHdr g) := fun _ _ hp =>
  ⟨rfl, rfl, le_refl _, Nat.le_add_right _ _, hp⟩
theorem reads_setCtx (g : Context → Context) : Reads 0 (setCtx g) := fun _ _ hp =>
  ⟨rfl, rfl, le_refl _, Nat.le_add_right _ _, hp⟩

theorem reads_raise {c : Cause} (hc : c ≠ .outOfData) : Reads 0 (raise c : Grammar α) := fun _ _ hp =>
  ⟨Advanced.refl hp, by simp, by simp [hc]⟩

theorem Reads.bind_of {n k : Nat} {m : Grammar α} {g : α → Grammar β} {V : α → Work → Prop} (h1 : Reads n m)
    (hV : ∀ w a w', m w = .ok a w' → V a w')
    (h2 : ∀ a w, V a w → w.br.Full → w.br.pos ≤ 8 * w.br.len →
      Sat (g a) w (fun _ w' => Advanced k w w')
        (fun e w' => Advanced k w w' ∧ e ≠ .absent ∧ (e = .raised .outOfData → 8 * w.br.len < w.br.pos + k))) :
    Reads (n + k) (m >>= g) := fun w hf hp => by
  refine Sat.bind (Sat.of_cases (fun a w' hm => ?_) (fun e w' hm => ?_))
  · have s1 := (h1 w hf hp).ok hm
    have s2 := h2 a w' (hV w a w' hm) (s1.full hf) s1.inside
    refine Sat.of_cases (fun b w'' hk => s1.trans (s2.ok hk)) (fun e w'' hk => ?_)
    have s3 := s2.error hk
    refine ⟨s1.trans s3.1, s3.2.1, fun he => ?_⟩
    have := s3.2.2 he
    have := s1.far
    have := s1.len
    omega
  · have s1 := (h1 w hf hp).error hm
    exact ⟨s1.1.mono (Nat.le_add_right _ _), s1.2.1, fun he => by have := s1.2.2 he; omega⟩

theorem reads_bind {n k : Nat} {m : Grammar α} {g : α → Grammar β} (h1 : Reads n m) (h2 : ∀ a, Reads k (g a)) :
    Reads (n + k) (m >>= g) :=
  Reads.bind_of (V := fun _ _ => True) h1 (fun _ _ _ _ => trivial) fun a w _ => h2 a w

theorem reads_ite {n : Nat} {c : Prop} {_ : Decidable c} {m k : Grammar α} (h1 : Reads n m) (h2 : Reads n k) :
    Reads n (if c then m else k) := by split <;> assumption

theorem reads_whenTrue {n : Nat} {c : Bool} {m : Grammar Unit} (h : Reads n m) : Reads n (whenTrue c m) := by
  cases c
  · exact (reads_pure ()).mono (Nat.zero_le _)
  · exact h

theorem reads_forEach {n : Nat} {body : ι → Grammar Unit} (h : ∀ i, Reads n (body i)) (is : List ι) :
    Reads (is.length * n) (forEach body is) := by
  induction is with
  | nil => exact (reads_pure ()).mono (Nat.zero_le _)
  | cons i is ih =>
    have := reads_bind (h i) fun _ => ih
    rw [List.length_cons, Nat.succ_mul, Nat.add_comm]
    exact this

theorem reads_receive {n : Nat} {value : Reader → Option α}
    (hv : ∀ r : Reader, r.Full → r.pos + n ≤ 8 * r.len → ∃ v, value r = some v) :
    Reads n (receive fun r => r.read n value) := fun w hf hp => by
  unfold Sat receive
  rcases Reader.read_cases w.br n value with ⟨hlt, heq⟩ | ⟨hle, v, _, heq⟩ | ⟨hle, hn, _⟩
  · simp only [heq]
    exact ⟨Advanced.refl hp, by simp, fun _ => hlt⟩
  · simp only [heq]
    exact ⟨rfl, rfl, Nat.le_add_right _ _, le_refl _, hle⟩
  · obtain ⟨v, hv⟩ := hv w.br hf hle
    simp [hn] at hv

theorem reads_f (n : Nat) : Reads n (f n) := reads_receive fun r hf hp => hf.bitsFrom n r.pos 0 (by omega)

theorem reads_flag : Reads 1 flag := reads_receive fun r hf hp => by
  obtain ⟨b, _, h⟩ := hf.flagAt hp; exact ⟨_, h⟩

theorem reads_su (n : Nat) : Reads (n + 1) (su n) := reads_receive fun r hf hp => by
  obtain ⟨m, s, _, _, h⟩ := hf.signedAt hp; exact ⟨_, h⟩

theorem reads_readIf {n : Nat} {read : Grammar α} (h : Reads n read) (c : Bool) (d : α) :
    Reads n (readIf c read d) := reads_ite h ((reads_pure d).mono (Nat.zero_le _))

theorem reads_guarded {n : Nat} {read : Grammar α} (h : Reads n read) (d : α) : Reads (n + 1) (guarded read d) := by
  rw [Nat.add_comm]
  exact reads_bind reads_flag fun _ => reads_bind (reads_readIf h _ _) fun _ => reads_pure _

/-! ### What a step answers -/

/-- Whenever `m` completes, its answer satisfies `V`. -/
def Yields (V : α → Prop) (m : Grammar α) : Prop := ∀ w a w', m w = .ok a w' → V a

theorem receive_ok {read : Reader → ReadOut α} {w w' : Work} {a : α} (h : receive read w = .ok a w') :
    ∃ r, read w.br = .ok a r ∧ w' = { w with br := r } := by
  unfold receive at h
  cases hr : read w.br with
  | ok v r => simp only [hr, EStateM.Result.ok.injEq] at h; exact ⟨r, by rw [h.1], h.2.symm⟩
  | outOfData => simp [hr] at h
  | absent => simp [hr] at h

/-- A completed read answered the value at the cursor and moved the cursor by its width (R78 to R81). -/
theorem receive_read_ok {n : Nat} {value : Reader → Option α} {w w' : Work} {a : α}
    (h : receive (fun r => r.read n value) w = .ok a w') :
    value w.br = some a ∧ w.br.pos + n ≤ 8 * w.br.len ∧
      w' = { w with br := { w.br with pos := w.br.pos + n } } := by
  obtain ⟨r, hr, hw⟩ := receive_ok h
  rcases Reader.read_cases w.br n value with ⟨_, heq⟩ | ⟨hle, v, hv, heq⟩ | ⟨_, _, heq⟩
  · rw [heq] at hr; cases hr
  · rw [heq] at hr; cases hr; exact ⟨hv, hle, hw⟩
  · rw [heq] at hr; cases hr

theorem f_ok {n : Nat} {w w' : Work} {a : Nat} (h : f n w = .ok a w') :
    w.br.bitsFrom n w.br.pos 0 = some a ∧ w.br.pos + n ≤ 8 * w.br.len ∧
      w' = { w with br := { w.br with pos := w.br.pos + n } } := receive_read_ok h

theorem flag_ok {w w' : Work} {b : Bool} (h : flag w = .ok b w') :
    w.br.flagAt = some b ∧ w.br.pos + 1 ≤ 8 * w.br.len ∧
      w' = { w with br := { w.br with pos := w.br.pos + 1 } } := receive_read_ok h

theorem su_ok {n : Nat} {w w' : Work} {v : Int} (h : su n w = .ok v w') :
    w.br.signedAt n = some v ∧ w.br.pos + (n + 1) ≤ 8 * w.br.len ∧
      w' = { w with br := { w.br with pos := w.br.pos + (n + 1) } } := receive_read_ok h

theorem yields_f (n : Nat) : Yields (fun v => v < 2 ^ n) (f n) := fun _ _ _ h => Reader.field_lt (f_ok h).1

theorem yields_su (n : Nat) : Yields (within (2 ^ n - 1)) (su n) := fun _ _ _ h => Reader.signedAt_within (su_ok h).1

theorem yields_pure {V : α → Prop} {a : α} (h : V a) : Yields V (pure a) := by
  intro w b w' hb
  simp only [pure_run, EStateM.Result.ok.injEq] at hb
  exact hb.1 ▸ h

theorem yields_bind {V : β → Prop} {m : Grammar α} {k : α → Grammar β} (h : ∀ a, Yields V (k a)) :
    Yields V (m >>= k) := by
  intro w b w' hb
  obtain ⟨a, w1, _, hk⟩ := bind_ok.mp hb
  exact h a w1 b w' hk

theorem yields_bind_of {U : α → Prop} {V : β → Prop} {m : Grammar α} {k : α → Grammar β} (hm : Yields U m)
    (h : ∀ a, U a → Yields V (k a)) : Yields V (m >>= k) := by
  intro w b w' hb
  obtain ⟨a, w1, ha, hk⟩ := bind_ok.mp hb
  exact h a (hm w a w1 ha) w1 b w' hk

theorem yields_ite {V : α → Prop} {c : Prop} {_ : Decidable c} {m n : Grammar α} (h1 : Yields V m) (h2 : Yields V n) :
    Yields V (if c then m else n) := by split <;> assumption

theorem yields_readIf {V : α → Prop} {read : Grammar α} {d : α} (hr : Yields V read) (hd : V d) (c : Bool) :
    Yields (fun v => V v ∧ (c = false → v = d)) (readIf c read d) := by
  cases c
  · exact yields_pure ⟨hd, fun _ => rfl⟩
  · exact fun w a w' h => ⟨hr w a w' h, by simp⟩

/-- A guarded value is the one read, or the default (R63). -/
theorem yields_guarded {V : α → Prop} {read : Grammar α} {d : α} (hr : Yields V read) (hd : V d) :
    Yields (fun r : Bool × α => V r.2 ∧ (r.1 = false → r.2 = d)) (guarded read d) :=
  yields_bind fun b => yields_bind_of (yields_readIf hr hd b) fun _ hv => yields_pure hv

end Sys2Proof.Machine
end

