-- ==== Sys2Proof/Laws/Footprint.lean ====
section
/-! SUPPORT. The footprint of every step of the grammar: what it writes, said as what is left alone. `outside…` is all of the
context and the header but the named fields. -/

namespace Sys2Proof.Machine

/-- Everything but `BR`. -/
def outsideReader (w : Work) : Context × Header := (w.ctx, w.hdr)

/-- Everything but `HDR.PROFILE`. -/
def outsideProfile (w : Work) : Context × Header := (w.ctx, { w.hdr with profile := 0 })

/-- Everything but what a show-existing header writes. -/
def outsideShow (w : Work) : Context × Header :=
  (w.ctx, { w.hdr with showExistingFrame := false, frameToShow := 0, headerLengthBytes := 0 })

/-- Everything but the three fields of step 4. -/
def outsideType (w : Work) : Context × Header :=
  (w.ctx, { w.hdr with frameType := .key, showFrame := false, errorResilientMode := false })

/-- Everything but the colour registers. -/
def outsideColor (w : Work) : Context × Header := ({ w.ctx with color := ColorConfig.zero }, w.hdr)

/-- Everything but the sizes. -/
def outsideSize (w : Work) : Context × Header :=
  (w.ctx, { w.hdr with width := 0, height := 0, displaySizePresent := false, displayWidth := 0, displayHeight := 0 })

/-- Everything but the sizes and the size-from-reference flags. -/
def outsideRefSize (w : Work) : Context × Header :=
  (w.ctx, { w.hdr with
    width := 0, height := 0, displaySizePresent := false, displayWidth := 0, displayHeight := 0
    sizeFromRef := Vector.replicate 3 false })

/-- Everything but what steps 5 and 6 write. -/
def outsideFrame (w : Work) : Context × Header :=
  ({ w.ctx with color := ColorConfig.zero }, { w.hdr with
    intraOnly := false, resetFrameContext := 0, refreshFrameFlags := 0, width := 0, height := 0
    displaySizePresent := false, displayWidth := 0, displayHeight := 0, refFrameIdx := Vector.replicate 3 0
    refSignBias := Vector.replicate 3 false, sizeFromRef := Vector.replicate 3 false
    allowHighPrecisionMv := false, interpFilter := .eighttap })

/-- Everything but the header's colour fields. -/
def outsideHdrColor (w : Work) : Context × Header := (w.ctx, { w.hdr with color := ColorConfig.zero })

/-- Everything but the three fields of step 7. -/
def outsideCtxFlags (w : Work) : Context × Header :=
  (w.ctx, { w.hdr with refreshFrameContext := false, frameParallelDecodingMode := false, frameContextIdx := 0 })

/-- Everything but what the past-independence reset writes. -/
def outsideReset (w : Work) : Context × Header :=
  ({ w.ctx with
      lfRefDelta := Vector.replicate 4 0, lfModeDelta := Vector.replicate 2 0
      seg := Vector.replicate 8 SegFeature.zero, segAbsDelta := false }, w.hdr)

/-- Everything but the loop-filter fields and deltas. -/
def outsideLf (w : Work) : Context × Header :=
  ({ w.ctx with lfRefDelta := Vector.replicate 4 0, lfModeDelta := Vector.replicate 2 0 },
   { w.hdr with lf := Header.zero.lf })

/-- Everything but the quantization fields and the lossless flag. -/
def outsideQuant (w : Work) : Context × Header :=
  ({ w.ctx with lossless := false }, { w.hdr with q := Header.zero.q, lossless := false })

/-- Everything but the segmentation fields and registers. -/
def outsideSeg (w : Work) : Context × Header :=
  ({ w.ctx with
      segTreeProb := Vector.replicate 7 0, segPredProb := Vector.replicate 3 0, segAbsDelta := false
      seg := Vector.replicate 8 SegFeature.zero },
   { w.hdr with seg := Header.zero.seg })

/-- Everything but the tile fields. -/
def outsideTile (w : Work) : Context × Header := (w.ctx, { w.hdr with tile := Header.zero.tile })

/-- Everything but the two lengths. -/
def outsideLength (w : Work) : Context × Header := (w.ctx, { w.hdr with firstPartitionSize := 0, headerLengthBytes := 0 })

/-- Everything but the reference slots. -/
def outsideRefs (w : Work) : Context × Header :=
  ({ w.ctx with refs := Vector.replicate 8 RefSlot.empty }, w.hdr)

theorem same_frameMarker : Same outsideReader frameMarker := by
  unfold frameMarker
  repeat
    first
    | exact same_pure _ _
    | exact same_raise _ _
    | exact same_getHdr _
    | exact same_getCtx _
    | exact same_getPos _
    | exact same_receive (fun _ _ => rfl) _
    | exact same_setHdr fun _ => rfl
    | exact same_setCtx fun _ => rfl
    | refine same_bind ?_ fun _ => ?_
    | refine same_whenTrue ?_
    | refine same_readIf ?_ _ _
    | refine same_guarded (fun _ _ => rfl) ?_ _
    | refine same_forEach (fun _ => ?_) _
    | refine same_ite ?_ ?_

theorem same_profile : Same outsideProfile profile := by
  unfold profile profileReserved
  repeat
    first
    | exact same_pure _ _
    | exact same_raise _ _
    | exact same_getHdr _
    | exact same_getCtx _
    | exact same_getPos _
    | exact same_receive (fun _ _ => rfl) _
    | exact same_setHdr fun _ => rfl
    | exact same_setCtx fun _ => rfl
    | refine same_bind ?_ fun _ => ?_
    | refine same_whenTrue ?_
    | refine same_readIf ?_ _ _
    | refine same_guarded (fun _ _ => rfl) ?_ _
    | refine same_forEach (fun _ => ?_) _
    | refine same_ite ?_ ?_

theorem same_showExisting : Same outsideShow showExisting := by
  unfold showExisting shortHeader
  repeat
    first
    | exact same_pure _ _
    | exact same_raise _ _
    | exact same_getHdr _
    | exact same_getCtx _
    | exact same_getPos _
    | exact same_receive (fun _ _ => rfl) _
    | exact same_setHdr fun _ => rfl
    | exact same_setCtx fun _ => rfl
    | refine same_bind ?_ fun _ => ?_
    | refine same_whenTrue ?_
    | refine same_readIf ?_ _ _
    | refine same_guarded (fun _ _ => rfl) ?_ _
    | refine same_forEach (fun _ => ?_) _
    | refine same_ite ?_ ?_

theorem same_frameType : Same outsideType frameType := by
  unfold frameType
  repeat
    first
    | exact same_pure _ _
    | exact same_raise _ _
    | exact same_getHdr _
    | exact same_getCtx _
    | exact same_getPos _
    | exact same_receive (fun _ _ => rfl) _
    | exact same_setHdr fun _ => rfl
    | exact same_setCtx fun _ => rfl
    | refine same_bind ?_ fun _ => ?_
    | refine same_whenTrue ?_
    | refine same_readIf ?_ _ _
    | refine same_guarded (fun _ _ => rfl) ?_ _
    | refine same_forEach (fun _ => ?_) _
    | refine same_ite ?_ ?_

theorem same_syncCode : Same outsideReader syncCode := by
  unfold syncCode
  repeat
    first
    | exact same_pure _ _
    | exact same_raise _ _
    | exact same_getHdr _
    | exact same_getCtx _
    | exact same_getPos _
    | exact same_receive (fun _ _ => rfl) _
    | exact same_setHdr fun _ => rfl
    | exact same_setCtx fun _ => rfl
    | refine same_bind ?_ fun _ => ?_
    | refine same_whenTrue ?_
    | refine same_readIf ?_ _ _
    | refine same_guarded (fun _ _ => rfl) ?_ _
    | refine same_forEach (fun _ => ?_) _
    | refine same_ite ?_ ?_

theorem same_colorConfig : Same outsideColor colorConfig := by
  unfold colorConfig bitDepth srgbColor yuvColor subsampling colorReserved setColor
  repeat
    first
    | exact same_pure _ _
    | exact same_raise _ _
    | exact same_getHdr _
    | exact same_getCtx _
    | exact same_getPos _
    | exact same_receive (fun _ _ => rfl) _
    | exact same_setHdr fun _ => rfl
    | exact same_setCtx fun _ => rfl
    | refine same_bind ?_ fun _ => ?_
    | refine same_whenTrue ?_
    | refine same_readIf ?_ _ _
    | refine same_guarded (fun _ _ => rfl) ?_ _
    | refine same_forEach (fun _ => ?_) _
    | refine same_ite ?_ ?_

theorem same_intraColor : Same outsideColor intraColor := by
  unfold intraColor setColor
  repeat
    first
    | exact same_pure _ _
    | exact same_raise _ _
    | exact same_getHdr _
    | exact same_getCtx _
    | exact same_getPos _
    | exact same_receive (fun _ _ => rfl) _
    | exact same_setHdr fun _ => rfl
    | exact same_setCtx fun _ => rfl
    | exact same_colorConfig
    | refine same_bind ?_ fun _ => ?_
    | refine same_whenTrue ?_
    | refine same_readIf ?_ _ _
    | refine same_guarded (fun _ _ => rfl) ?_ _
    | refine same_forEach (fun _ => ?_) _
    | refine same_ite ?_ ?_

theorem same_frameSize : Same outsideSize frameSize := by
  unfold frameSize
  repeat
    first
    | exact same_pure _ _
    | exact same_raise _ _
    | exact same_getHdr _
    | exact same_getCtx _
    | exact same_getPos _
    | exact same_receive (fun _ _ => rfl) _
    | exact same_setHdr fun _ => rfl
    | exact same_setCtx fun _ => rfl
    | refine same_bind ?_ fun _ => ?_
    | refine same_whenTrue ?_
    | refine same_readIf ?_ _ _
    | refine same_guarded (fun _ _ => rfl) ?_ _
    | refine same_forEach (fun _ => ?_) _
    | refine same_ite ?_ ?_

theorem same_renderSize : Same outsideSize renderSize := by
  unfold renderSize displaySize
  repeat
    first
    | exact same_pure _ _
    | exact same_raise _ _
    | exact same_getHdr _
    | exact same_getCtx _
    | exact same_getPos _
    | exact same_receive (fun _ _ => rfl) _
    | exact same_setHdr fun _ => rfl
    | exact same_setCtx fun _ => rfl
    | refine same_bind ?_ fun _ => ?_
    | refine same_whenTrue ?_
    | refine same_readIf ?_ _ _
    | refine same_guarded (fun _ _ => rfl) ?_ _
    | refine same_forEach (fun _ => ?_) _
    | refine same_ite ?_ ?_

/-- A property kept on a larger footprint is kept on a smaller one. -/
theorem Same.weaken {α γ δ : Type} {π : Work → γ} {ρ : Work → δ} {m : Grammar α} (h : Same π m) (g : γ → δ)
    (hg : ∀ w, ρ w = g (π w)) : Same ρ m := by
  have : ρ = fun w => g (π w) := funext hg
  rw [this]; exact h.map g

theorem same_copyRefSize (i : Fin 3) : Same outsideRefSize (copyRefSize i) := by
  unfold copyRefSize
  exact same_bind (same_getHdr _) fun _ => same_bind (same_getCtx _) fun _ =>
    same_bind (same_whenTrue (same_raise _ _)) fun _ => same_setHdr fun _ => rfl

theorem same_sizeFlags (is : List (Fin 3)) : Same outsideRefSize (sizeFlags is) := by
  induction is with
  | nil => exact same_pure _ _
  | cons i is ih =>
    exact same_bind (same_receive (fun _ _ => rfl) _) fun _ => same_bind (same_setHdr fun _ => rfl) fun _ =>
      same_ite (same_bind (same_copyRefSize i) fun _ => same_pure _ _) ih

/-- The size footprint lies in the reference-size footprint. -/
theorem Same.sizeToRefSize {m : Grammar Unit} (h : Same outsideSize m) : Same outsideRefSize m :=
  h.weaken (fun p => (p.1, { p.2 with sizeFromRef := Vector.replicate 3 false })) fun _ => rfl

theorem same_sizeWithRefs : Same outsideRefSize sizeWithRefs := by
  unfold sizeWithRefs
  exact same_bind (same_sizeFlags _) fun _ =>
    same_bind (same_whenTrue same_frameSize.sizeToRefSize) fun _ => same_renderSize.sizeToRefSize

theorem Same.sizeToFrame {m : Grammar Unit} (h : Same outsideRefSize m) : Same outsideFrame m :=
  h.weaken (fun p => ({ p.1 with color := ColorConfig.zero }, { p.2 with
    intraOnly := false, resetFrameContext := 0, refreshFrameFlags := 0, refFrameIdx := Vector.replicate 3 0
    refSignBias := Vector.replicate 3 false, allowHighPrecisionMv := false, interpFilter := .eighttap })) fun _ => rfl

theorem Same.colorToFrame {m : Grammar Unit} (h : Same outsideColor m) : Same outsideFrame m :=
  h.weaken (fun p => ({ p.1 with color := ColorConfig.zero }, { p.2 with
    intraOnly := false, resetFrameContext := 0, refreshFrameFlags := 0, width := 0, height := 0
    displaySizePresent := false, displayWidth := 0, displayHeight := 0, refFrameIdx := Vector.replicate 3 0
    refSignBias := Vector.replicate 3 false, sizeFromRef := Vector.replicate 3 false
    allowHighPrecisionMv := false, interpFilter := .eighttap })) fun _ => rfl

theorem same_keyFrame : Same outsideFrame keyFrame := by
  unfold keyFrame syncCode
  repeat
    first
    | exact same_pure _ _
    | exact same_raise _ _
    | exact same_getHdr _
    | exact same_getCtx _
    | exact same_getPos _
    | exact same_receive (fun _ _ => rfl) _
    | exact same_setHdr fun _ => rfl
    | exact same_setCtx fun _ => rfl
    | exact same_frameSize.sizeToRefSize.sizeToFrame
    | exact same_renderSize.sizeToRefSize.sizeToFrame
    | exact same_colorConfig.colorToFrame
    | exact same_intraColor.colorToFrame
    | exact same_sizeWithRefs.sizeToFrame
    | refine same_bind ?_ fun _ => ?_
    | refine same_whenTrue ?_
    | refine same_readIf ?_ _ _
    | refine same_guarded (fun _ _ => rfl) ?_ _
    | refine same_forEach (fun _ => ?_) _
    | refine same_ite ?_ ?_

theorem same_interFrame : Same outsideFrame interFrame := by
  unfold interFrame intraOnly resetFrameContext intraBranch interBranch refreshFlags refEntry highPrecisionMv interpFilter syncCode
  repeat
    first
    | exact same_pure _ _
    | exact same_raise _ _
    | exact same_getHdr _
    | exact same_getCtx _
    | exact same_getPos _
    | exact same_receive (fun _ _ => rfl) _
    | exact same_setHdr fun _ => rfl
    | exact same_setCtx fun _ => rfl
    | exact same_frameSize.sizeToRefSize.sizeToFrame
    | exact same_renderSize.sizeToRefSize.sizeToFrame
    | exact same_colorConfig.colorToFrame
    | exact same_intraColor.colorToFrame
    | exact same_sizeWithRefs.sizeToFrame
    | refine same_bind ?_ fun _ => ?_
    | refine same_whenTrue ?_
    | refine same_readIf ?_ _ _
    | refine same_guarded (fun _ _ => rfl) ?_ _
    | refine same_forEach (fun _ => ?_) _
    | refine same_ite ?_ ?_

theorem same_frameBranch : Same outsideFrame frameBranch := by
  unfold frameBranch
  repeat
    first
    | exact same_pure _ _
    | exact same_raise _ _
    | exact same_getHdr _
    | exact same_getCtx _
    | exact same_getPos _
    | exact same_receive (fun _ _ => rfl) _
    | exact same_setHdr fun _ => rfl
    | exact same_setCtx fun _ => rfl
    | exact same_keyFrame
    | exact same_interFrame
    | refine same_bind ?_ fun _ => ?_
    | refine same_whenTrue ?_
    | refine same_readIf ?_ _ _
    | refine same_guarded (fun _ _ => rfl) ?_ _
    | refine same_forEach (fun _ => ?_) _
    | refine same_ite ?_ ?_

theorem same_colorCopy : Same outsideHdrColor colorCopy := by
  unfold colorCopy
  repeat
    first
    | exact same_pure _ _
    | exact same_raise _ _
    | exact same_getHdr _
    | exact same_getCtx _
    | exact same_getPos _
    | exact same_receive (fun _ _ => rfl) _
    | exact same_setHdr fun _ => rfl
    | exact same_setCtx fun _ => rfl
    | refine same_bind ?_ fun _ => ?_
    | refine same_whenTrue ?_
    | refine same_readIf ?_ _ _
    | refine same_guarded (fun _ _ => rfl) ?_ _
    | refine same_forEach (fun _ => ?_) _
    | refine same_ite ?_ ?_

theorem same_ctxFlags : Same outsideCtxFlags ctxFlags := by
  unfold ctxFlags ctxFlagPair
  repeat
    first
    | exact same_pure _ _
    | exact same_raise _ _
    | exact same_getHdr _
    | exact same_getCtx _
    | exact same_getPos _
    | exact same_receive (fun _ _ => rfl) _
    | exact same_setHdr fun _ => rfl
    | exact same_setCtx fun _ => rfl
    | refine same_bind ?_ fun _ => ?_
    | refine same_whenTrue ?_
    | refine same_readIf ?_ _ _
    | refine same_guarded (fun _ _ => rfl) ?_ _
    | refine same_forEach (fun _ => ?_) _
    | refine same_ite ?_ ?_

theorem same_pastIndependence : Same outsideReset pastIndependence := by
  unfold pastIndependence Context.pastIndependent
  repeat
    first
    | exact same_pure _ _
    | exact same_raise _ _
    | exact same_getHdr _
    | exact same_getCtx _
    | exact same_getPos _
    | exact same_receive (fun _ _ => rfl) _
    | exact same_setHdr fun _ => rfl
    | exact same_setCtx fun _ => rfl
    | refine same_bind ?_ fun _ => ?_
    | refine same_whenTrue ?_
    | refine same_readIf ?_ _ _
    | refine same_guarded (fun _ _ => rfl) ?_ _
    | refine same_forEach (fun _ => ?_) _
    | refine same_ite ?_ ?_

theorem same_loopFilterParams : Same outsideLf loopFilterParams := by
  unfold loopFilterParams lfUpdate lfDeltas refDelta modeDelta lfCopy setLf
  repeat
    first
    | exact same_pure _ _
    | exact same_raise _ _
    | exact same_getHdr _
    | exact same_getCtx _
    | exact same_getPos _
    | exact same_receive (fun _ _ => rfl) _
    | exact same_setHdr fun _ => rfl
    | exact same_setCtx fun _ => rfl
    | refine same_bind ?_ fun _ => ?_
    | refine same_whenTrue ?_
    | refine same_readIf ?_ _ _
    | refine same_guarded (fun _ _ => rfl) ?_ _
    | refine same_forEach (fun _ => ?_) _
    | refine same_ite ?_ ?_

theorem same_quantizationParams : Same outsideQuant quantizationParams := by
  unfold quantizationParams quantDelta lossless setQ
  repeat
    first
    | exact same_pure _ _
    | exact same_raise _ _
    | exact same_getHdr _
    | exact same_getCtx _
    | exact same_getPos _
    | exact same_receive (fun _ _ => rfl) _
    | exact same_setHdr fun _ => rfl
    | exact same_setCtx fun _ => rfl
    | refine same_bind ?_ fun _ => ?_
    | refine same_whenTrue ?_
    | refine same_readIf ?_ _ _
    | refine same_guarded (fun _ _ => rfl) ?_ _
    | refine same_forEach (fun _ => ?_) _
    | refine same_ite ?_ ?_

theorem same_segmentationParams : Same outsideSeg segmentationParams := by
  unfold segmentationParams segUpdates segMap segData segCopy treeProb predProb predProbDefault probability segFeature featureQ featureLf featureRef featureSkip setFeature setSeg
  repeat
    first
    | exact same_pure _ _
    | exact same_raise _ _
    | exact same_getHdr _
    | exact same_getCtx _
    | exact same_getPos _
    | exact same_receive (fun _ _ => rfl) _
    | exact same_setHdr fun _ => rfl
    | exact same_setCtx fun _ => rfl
    | refine same_bind ?_ fun _ => ?_
    | refine same_whenTrue ?_
    | refine same_readIf ?_ _ _
    | refine same_guarded (fun _ _ => rfl) ?_ _
    | refine same_forEach (fun _ => ?_) _
    | refine same_ite ?_ ?_

theorem same_tileCols {γ : Type} {π : Work → γ} (hπ : ∀ w r, π { w with br := r } = π w) (left c : Nat) :
    Same π (tileCols left c) := by
  induction left generalizing c with
  | zero => exact same_pure _ _
  | succ left ih => exact same_bind (same_receive hπ _) fun _ => same_ite (ih _) (same_pure _ _)

theorem same_tileInfo : Same outsideTile tileInfo := by
  unfold tileInfo tileRows setTile
  repeat
    first
    | exact same_pure _ _
    | exact same_raise _ _
    | exact same_getHdr _
    | exact same_getCtx _
    | exact same_getPos _
    | exact same_receive (fun _ _ => rfl) _
    | exact same_setHdr fun _ => rfl
    | exact same_setCtx fun _ => rfl
    | exact same_tileCols (fun _ _ => rfl) _ _
    | refine same_bind ?_ fun _ => ?_
    | refine same_whenTrue ?_
    | refine same_readIf ?_ _ _
    | refine same_guarded (fun _ _ => rfl) ?_ _
    | refine same_forEach (fun _ => ?_) _
    | refine same_ite ?_ ?_

theorem same_headerSize : Same outsideLength headerSize := by
  unfold headerSize headerLength
  repeat
    first
    | exact same_pure _ _
    | exact same_raise _ _
    | exact same_getHdr _
    | exact same_getCtx _
    | exact same_getPos _
    | exact same_receive (fun _ _ => rfl) _
    | exact same_setHdr fun _ => rfl
    | exact same_setCtx fun _ => rfl
    | refine same_bind ?_ fun _ => ?_
    | refine same_whenTrue ?_
    | refine same_readIf ?_ _ _
    | refine same_guarded (fun _ _ => rfl) ?_ _
    | refine same_forEach (fun _ => ?_) _
    | refine same_ite ?_ ?_

theorem same_commitRefs : Same outsideRefs commitRefs := by
  unfold commitRefs
  repeat
    first
    | exact same_pure _ _
    | exact same_raise _ _
    | exact same_getHdr _
    | exact same_getCtx _
    | exact same_getPos _
    | exact same_receive (fun _ _ => rfl) _
    | exact same_setHdr fun _ => rfl
    | exact same_setCtx fun _ => rfl
    | refine same_bind ?_ fun _ => ?_
    | refine same_whenTrue ?_
    | refine same_readIf ?_ _ _
    | refine same_guarded (fun _ _ => rfl) ?_ _
    | refine same_forEach (fun _ => ?_) _
    | refine same_ite ?_ ?_

end Sys2Proof.Machine
end

