-- ==== Sys2Proof/Laws/ReadBound.lean ====
section
/-! SUPPORT. How many bits each step of the grammar reads at most, in the terms of R127's sum, and the arithmetic of the
tile-column bounds (R121) that the sum rests on. -/

namespace Sys2Proof.Machine

/-! ### Steps 1 to 4: 9 bits -/

theorem reads_frameMarker : Reads 2 frameMarker :=
  reads_bind (reads_f 2) fun _ => reads_whenTrue (reads_raise (by decide))

theorem reads_profile : Reads 3 profile :=
  reads_bind (n := 1) (k := 2) (reads_f 1) fun _ => reads_bind (n := 1) (k := 1) (reads_f 1) fun _ =>
    reads_bind (n := 1) (k := 0)
      (reads_whenTrue (reads_bind (k := 0) reads_flag fun _ => reads_whenTrue (reads_raise (by decide))))
      fun _ => reads_setHdr _

theorem reads_shortHeader : Reads 3 shortHeader :=
  reads_bind (reads_f 3) fun _ => reads_bind (n := 0) (k := 0) (reads_setHdr _) fun _ =>
    reads_bind (n := 0) (k := 0) reads_getPos fun _ => reads_setHdr _

theorem reads_frameType : Reads 3 frameType :=
  reads_bind (n := 1) (k := 2) reads_flag fun _ => reads_bind (n := 0) (k := 2) (reads_setHdr _) fun _ =>
    reads_bind (n := 1) (k := 1) reads_flag fun _ => reads_bind (n := 0) (k := 1) (reads_setHdr _) fun _ =>
      reads_bind (n := 1) (k := 0) reads_flag fun _ => reads_setHdr _

/-! ### Steps 5 and 6: at most 108 bits -/

theorem reads_syncCode : Reads 24 syncCode :=
  reads_bind (k := 0) (reads_f 24) fun _ => reads_whenTrue (reads_raise (by decide))

theorem reads_setColor (g : ColorConfig → ColorConfig) : Reads 0 (setColor g) := reads_setCtx _

theorem reads_bitDepth (p : Nat) : Reads 1 (bitDepth p) :=
  reads_ite (reads_bind (k := 0) reads_flag fun _ => reads_setColor _) ((reads_setColor _).mono (by decide))

theorem reads_colorReserved : Reads 1 colorReserved :=
  reads_bind (k := 0) reads_flag fun _ => reads_whenTrue (reads_raise (by decide))

theorem reads_subsampling (p : Nat) : Reads 3 (subsampling p) :=
  reads_ite
    (reads_bind (n := 1) (k := 2) reads_flag fun _ => reads_bind (n := 0) (k := 2) (reads_setColor _) fun _ =>
      reads_bind (n := 1) (k := 1) reads_flag fun _ => reads_bind (n := 0) (k := 1) (reads_setColor _) fun _ =>
        reads_bind (n := 0) (k := 1) (reads_whenTrue (reads_raise (by decide))) fun _ => reads_colorReserved)
    ((reads_setColor _).mono (by decide))

theorem reads_yuvColor (p : Nat) : Reads 4 (yuvColor p) :=
  reads_bind (n := 1) (k := 3) reads_flag fun _ => reads_bind (n := 0) (k := 3) (reads_setColor _) fun _ =>
    reads_subsampling p

theorem reads_srgbColor (p : Nat) : Reads 1 (srgbColor p) :=
  reads_bind (n := 0) (k := 1) (reads_setColor _) fun _ =>
    reads_ite (reads_bind (n := 0) (k := 1) (reads_setColor _) fun _ => reads_colorReserved)
      ((reads_raise (by decide)).mono (by decide))

theorem reads_colorConfig : Reads 8 colorConfig :=
  reads_bind (n := 0) (k := 8) reads_getHdr fun _ => reads_bind (n := 1) (k := 7) (reads_bitDepth _) fun _ =>
    reads_bind (n := 3) (k := 4) (reads_f 3) fun _ => reads_bind (n := 0) (k := 4) (reads_setColor _) fun _ =>
      reads_ite ((reads_srgbColor _).mono (by decide)) (reads_yuvColor _)

theorem reads_frameSize : Reads 32 frameSize :=
  reads_bind (n := 16) (k := 16) (reads_f 16) fun _ => reads_bind (n := 0) (k := 16) (reads_setHdr _) fun _ =>
    reads_bind (n := 16) (k := 0) (reads_f 16) fun _ => reads_setHdr _

theorem reads_displaySize : Reads 32 displaySize :=
  reads_bind (n := 16) (k := 16) (reads_f 16) fun _ => reads_bind (n := 0) (k := 16) (reads_setHdr _) fun _ =>
    reads_bind (n := 16) (k := 0) (reads_f 16) fun _ => reads_setHdr _

theorem reads_renderSize : Reads 33 renderSize :=
  reads_bind (n := 1) (k := 32) reads_flag fun _ => reads_bind (n := 0) (k := 32) (reads_setHdr _) fun _ =>
    reads_ite reads_displaySize ((reads_setHdr _).mono (by decide))

theorem reads_keyFrame : Reads 97 keyFrame :=
  reads_bind (n := 24) (k := 73) reads_syncCode fun _ => reads_bind (n := 8) (k := 65) reads_colorConfig fun _ =>
    reads_bind (n := 0) (k := 65) (reads_setHdr _) fun _ => reads_bind (n := 32) (k := 33) reads_frameSize fun _ =>
      reads_renderSize

theorem reads_intraColor : Reads 8 intraColor :=
  reads_bind (n := 0) (k := 8) reads_getHdr fun _ =>
    reads_ite reads_colorConfig ((reads_setColor _).mono (by decide))

theorem reads_refreshFlags : Reads 8 refreshFlags := reads_bind (k := 0) (reads_f 8) fun _ => reads_setHdr _

theorem reads_intraBranch : Reads 105 intraBranch :=
  reads_bind (n := 24) (k := 81) reads_syncCode fun _ => reads_bind (n := 8) (k := 73) reads_intraColor fun _ =>
    reads_bind (n := 8) (k := 65) reads_refreshFlags fun _ => reads_bind (n := 32) (k := 33) reads_frameSize fun _ =>
      reads_renderSize

theorem reads_refEntry (i : Fin 3) : Reads 4 (refEntry i) :=
  reads_bind (n := 3) (k := 1) (reads_f 3) fun _ => reads_bind (n := 0) (k := 1) (reads_setHdr _) fun _ =>
    reads_bind (n := 1) (k := 0) reads_flag fun _ => reads_setHdr _

theorem reads_copyRefSize (i : Fin 3) : Reads 0 (copyRefSize i) :=
  reads_bind (n := 0) (k := 0) reads_getHdr fun _ => reads_bind (n := 0) (k := 0) reads_getCtx fun _ =>
    reads_bind (n := 0) (k := 0) (reads_whenTrue (reads_raise (by decide))) fun _ => reads_setHdr _

theorem reads_sizeFlags (is : List (Fin 3)) : Reads is.length (sizeFlags is) := by
  induction is with
  | nil => exact reads_pure _
  | cons i is ih =>
    rw [List.length_cons, Nat.add_comm]
    refine reads_bind reads_flag fun _ => ?_
    rw [show is.length = 0 + is.length by omega]
    refine reads_bind (reads_setHdr _) fun _ => reads_ite ?_ ih
    exact (reads_bind (n := 0) (k := 0) (reads_copyRefSize i) fun _ => reads_pure _).mono (Nat.zero_le _)

theorem reads_sizeWithRefs : Reads 68 sizeWithRefs :=
  reads_bind (n := 3) (k := 65) (reads_sizeFlags _) fun _ =>
    reads_bind (n := 32) (k := 33) (reads_whenTrue reads_frameSize) fun _ => reads_renderSize

theorem reads_interpFilter : Reads 3 interpFilter :=
  reads_bind (n := 1) (k := 2) reads_flag fun _ =>
    reads_ite ((reads_setHdr _).mono (by decide)) (reads_bind (n := 2) (k := 0) (reads_f 2) fun _ => reads_setHdr _)

theorem reads_highPrecisionMv : Reads 1 highPrecisionMv := reads_bind (k := 0) reads_flag fun _ => reads_setHdr _

theorem reads_interBranch : Reads 92 interBranch :=
  reads_bind (n := 8) (k := 84) reads_refreshFlags fun _ =>
    reads_bind (n := 12) (k := 72) (reads_forEach reads_refEntry [0, 1, 2]) fun _ =>
      reads_bind (n := 68) (k := 4) reads_sizeWithRefs fun _ =>
        reads_bind (n := 1) (k := 3) reads_highPrecisionMv fun _ => reads_interpFilter

theorem reads_intraOnly : Reads 1 intraOnly :=
  reads_bind (n := 0) (k := 1) reads_getHdr fun _ =>
    reads_ite ((reads_setHdr _).mono (by decide)) (reads_bind (n := 1) (k := 0) reads_flag fun _ => reads_setHdr _)

theorem reads_resetFrameContext : Reads 2 resetFrameContext :=
  reads_bind (n := 0) (k := 2) reads_getHdr fun _ =>
    reads_ite ((reads_setHdr _).mono (by decide)) (reads_bind (n := 2) (k := 0) (reads_f 2) fun _ => reads_setHdr _)

theorem reads_interFrame : Reads 108 interFrame :=
  reads_bind (n := 1) (k := 107) reads_intraOnly fun _ =>
    reads_bind (n := 2) (k := 105) reads_resetFrameContext fun _ => reads_bind (n := 0) (k := 105) reads_getHdr fun _ =>
      reads_ite reads_intraBranch (reads_interBranch.mono (by decide))

theorem reads_frameBranch : Reads 108 frameBranch :=
  reads_bind (n := 0) (k := 108) reads_getHdr fun _ => reads_ite (reads_keyFrame.mono (by decide)) reads_interFrame

/-! ### Step 7: 4 bits -/

theorem reads_colorCopy : Reads 0 colorCopy :=
  reads_bind (n := 0) (k := 0) reads_getCtx fun _ => reads_setHdr _

theorem reads_ctxFlags : Reads 4 ctxFlags :=
  reads_bind (n := 2) (k := 2)
    (reads_bind (n := 0) (k := 2) reads_getHdr fun _ =>
      reads_ite ((reads_setHdr _).mono (by decide))
        (reads_bind (n := 1) (k := 1) reads_flag fun _ => reads_bind (n := 0) (k := 1) (reads_setHdr _) fun _ =>
          reads_bind (n := 1) (k := 0) reads_flag fun _ => reads_setHdr _))
    fun _ => reads_bind (n := 2) (k := 0) (reads_f 2) fun _ => reads_setHdr _

theorem reads_pastIndependence : Reads 0 pastIndependence :=
  reads_bind (n := 0) (k := 0) reads_getHdr fun _ => reads_whenTrue (reads_setCtx _)

/-! ### Step 8: 59 bits -/

theorem reads_setLf (g : LoopFilterHdr → LoopFilterHdr) : Reads 0 (setLf g) := reads_setHdr _

theorem reads_refDelta (i : Fin 4) : Reads 8 (refDelta i) :=
  reads_bind (n := 1) (k := 7) reads_flag fun _ => reads_bind (n := 0) (k := 7) (reads_setLf _) fun _ =>
    reads_whenTrue (reads_bind (n := 7) (k := 0) (reads_su 6) fun _ => reads_setCtx _)

theorem reads_modeDelta (i : Fin 2) : Reads 8 (modeDelta i) :=
  reads_bind (n := 1) (k := 7) reads_flag fun _ => reads_bind (n := 0) (k := 7) (reads_setLf _) fun _ =>
    reads_whenTrue (reads_bind (n := 7) (k := 0) (reads_su 6) fun _ => reads_setCtx _)

theorem reads_lfUpdate : Reads 49 lfUpdate :=
  reads_bind (n := 1) (k := 48) reads_flag fun _ => reads_bind (n := 0) (k := 48) (reads_setLf _) fun _ =>
    reads_whenTrue (reads_bind (n := 32) (k := 16) (reads_forEach reads_refDelta [0, 1, 2, 3]) fun _ =>
      reads_forEach reads_modeDelta [0, 1])

theorem reads_loopFilterParams : Reads 59 loopFilterParams :=
  reads_bind (n := 6) (k := 53) (reads_f 6) fun _ => reads_bind (n := 0) (k := 53) (reads_setLf _) fun _ =>
    reads_bind (n := 3) (k := 50) (reads_f 3) fun _ => reads_bind (n := 0) (k := 50) (reads_setLf _) fun _ =>
      reads_bind (n := 1) (k := 49) reads_flag fun _ => reads_bind (n := 0) (k := 49) (reads_setLf _) fun _ =>
        reads_bind (n := 49) (k := 0) (reads_whenTrue reads_lfUpdate) fun _ =>
          reads_bind (n := 0) (k := 0) reads_getCtx fun _ => reads_setLf _

/-! ### Step 9: 26 bits -/

theorem reads_setQ (g : QuantHdr → QuantHdr) : Reads 0 (setQ g) := reads_setHdr _

theorem reads_quantDelta : Reads 6 quantDelta :=
  reads_bind (n := 6) (k := 0) (reads_guarded (reads_su 4) 0) fun _ => reads_pure _

theorem reads_lossless : Reads 0 lossless :=
  reads_bind (n := 0) (k := 0) reads_getHdr fun _ => reads_bind (n := 0) (k := 0) (reads_setCtx _) fun _ =>
    reads_bind (n := 0) (k := 0) reads_getCtx fun _ => reads_setHdr _

theorem reads_quantizationParams : Reads 26 quantizationParams :=
  reads_bind (n := 8) (k := 18) (reads_f 8) fun _ => reads_bind (n := 0) (k := 18) (reads_setQ _) fun _ =>
    reads_bind (n := 6) (k := 12) reads_quantDelta fun _ => reads_bind (n := 0) (k := 12) (reads_setQ _) fun _ =>
      reads_bind (n := 6) (k := 6) reads_quantDelta fun _ => reads_bind (n := 0) (k := 6) (reads_setQ _) fun _ =>
        reads_bind (n := 6) (k := 0) reads_quantDelta fun _ => reads_bind (n := 0) (k := 0) (reads_setQ _) fun _ =>
          reads_lossless

/-! ### Step 10: 271 bits -/

theorem reads_setSeg (g : SegHdr → SegHdr) : Reads 0 (setSeg g) := reads_setHdr _

theorem reads_probability : Reads 9 probability := reads_guarded (reads_f 8) _

theorem reads_treeProb (i : Fin 7) : Reads 9 (treeProb i) :=
  reads_bind (n := 9) (k := 0) reads_probability fun _ => reads_bind (n := 0) (k := 0) (reads_setSeg _) fun _ =>
    reads_setCtx _

theorem reads_predProb (i : Fin 3) : Reads 9 (predProb i) :=
  reads_bind (n := 9) (k := 0) reads_probability fun _ => reads_bind (n := 0) (k := 0) (reads_setSeg _) fun _ =>
    reads_setCtx _

theorem reads_segMap : Reads 91 segMap :=
  reads_bind (n := 63) (k := 28) (reads_forEach reads_treeProb _) fun _ =>
    reads_bind (n := 1) (k := 27) reads_flag fun _ => reads_bind (n := 0) (k := 27) (reads_setSeg _) fun _ =>
      reads_forEach (n := 9) (fun i => reads_ite (reads_predProb i) ((reads_setCtx _).mono (by decide))) [0, 1, 2]

theorem reads_setFeature (s : Fin 8) (g : SegFeature → SegFeature) : Reads 0 (setFeature s g) := reads_setCtx _

theorem reads_segFeature (s : Fin 8) : Reads 22 (segFeature s) :=
  reads_bind (n := 10) (k := 12)
    (reads_bind (n := 1) (k := 9) reads_flag fun _ => reads_bind (n := 0) (k := 9) (reads_setFeature s _) fun _ =>
      reads_bind (n := 9) (k := 0) (reads_readIf (reads_su 8) _ _) fun _ => reads_setFeature s _) fun _ =>
  reads_bind (n := 8) (k := 4)
    (reads_bind (n := 1) (k := 7) reads_flag fun _ => reads_bind (n := 0) (k := 7) (reads_setFeature s _) fun _ =>
      reads_bind (n := 7) (k := 0) (reads_readIf (reads_su 6) _ _) fun _ => reads_setFeature s _) fun _ =>
  reads_bind (n := 3) (k := 1)
    (reads_bind (n := 1) (k := 2) reads_flag fun _ => reads_bind (n := 0) (k := 2) (reads_setFeature s _) fun _ =>
      reads_bind (n := 2) (k := 0) (reads_readIf (reads_f 2) _ _) fun _ => reads_setFeature s _) fun _ =>
  reads_bind (n := 1) (k := 0) reads_flag fun _ => reads_setFeature s _

theorem reads_segData : Reads 177 segData :=
  reads_bind (n := 1) (k := 176) reads_flag fun _ => reads_bind (n := 0) (k := 176) (reads_setCtx _) fun _ =>
    reads_forEach reads_segFeature [0, 1, 2, 3, 4, 5, 6, 7]

theorem reads_segmentationParams : Reads 271 segmentationParams :=
  reads_bind (n := 1) (k := 270) reads_flag fun _ => reads_bind (n := 0) (k := 270) (reads_setSeg _) fun _ =>
    reads_bind (n := 270) (k := 0)
      (reads_whenTrue
        (reads_bind (n := 1) (k := 269) reads_flag fun _ => reads_bind (n := 0) (k := 269) (reads_setSeg _) fun _ =>
          reads_bind (n := 91) (k := 178) (reads_whenTrue reads_segMap) fun _ =>
            reads_bind (n := 1) (k := 177) reads_flag fun _ => reads_bind (n := 0) (k := 177) (reads_setSeg _) fun _ =>
              reads_whenTrue reads_segData))
      fun _ => reads_bind (n := 0) (k := 0) reads_getCtx fun _ => reads_setSeg _

/-! ### Step 11: `max - min + 2` bits, and `max - min <= 4` -/

theorem reads_tileCols (left c : Nat) : Reads left (tileCols left c) := by
  induction left generalizing c with
  | zero => exact reads_pure _
  | succ left ih =>
    have h : Reads (1 + left) (tileCols (left + 1) c) :=
      reads_bind reads_flag fun _ => reads_ite (ih _) ((reads_pure _).mono (Nat.zero_le _))
    exact h.mono (by omega)

theorem reads_tileRows : Reads 2 tileRows :=
  reads_bind (n := 1) (k := 1) (reads_f 1) fun _ =>
    reads_ite (reads_bind (n := 1) (k := 0) (reads_f 1) fun _ => reads_pure _) ((reads_pure _).mono (by decide))

theorem shiftLeft_eq (a k : Nat) : a <<< k = a * 2 ^ k := Nat.shiftLeft_eq a k

/-- The loop of R121 finds the least `k` with `64 << k >= sb`, given rounds enough. -/
theorem minLog2From_spec (sb fuel k : Nat) (hf : sb ≤ 64 * 2 ^ (k + fuel)) (hk : ∀ j < k, 64 * 2 ^ j < sb) :
    sb ≤ 64 * 2 ^ minLog2From sb fuel k ∧ ∀ j < minLog2From sb fuel k, 64 * 2 ^ j < sb := by
  induction fuel generalizing k with
  | zero => exact ⟨hf, hk⟩
  | succ fuel ih =>
    unfold minLog2From
    by_cases h : Config.sbSize <<< k < sb
    · rw [if_pos h]
      have h' : 64 * 2 ^ k < sb := by rw [Nat.shiftLeft_eq] at h; exact h
      refine ih (k + 1) (by rw [show k + 1 + fuel = k + (fuel + 1) by omega]; exact hf) fun j hj => ?_
      rcases Nat.lt_succ_iff_lt_or_eq.mp hj with hj | rfl
      · exact hk j hj
      · exact h'
    · rw [if_neg h]
      rw [Nat.shiftLeft_eq] at h
      exact ⟨Nat.le_of_not_lt h, hk⟩

/-- The loop of R121 stops at the first `m` with `sb >> m < 4`, given rounds enough. -/
theorem maxLog2From_spec (sb fuel m : Nat) (hf : sb / 2 ^ (m + fuel) < 4) (hm : ∀ j, 1 ≤ j → j < m → 4 ≤ sb / 2 ^ j)
    (h1 : 1 ≤ m) :
    1 ≤ maxLog2From sb fuel m ∧ sb / 2 ^ maxLog2From sb fuel m < 4 ∧
      ∀ j, 1 ≤ j → j < maxLog2From sb fuel m → 4 ≤ sb / 2 ^ j := by
  induction fuel generalizing m with
  | zero => exact ⟨h1, hf, hm⟩
  | succ fuel ih =>
    unfold maxLog2From
    by_cases h : 4 ≤ sb >>> m
    · rw [if_pos h]
      rw [Nat.shiftRight_eq_div_pow] at h
      refine ih (m + 1) (by rw [show m + 1 + fuel = m + (fuel + 1) by omega]; exact hf) (fun j h1 hj => ?_) (by omega)
      rcases Nat.lt_succ_iff_lt_or_eq.mp hj with hj | rfl
      · exact hm j h1 hj
      · exact h
    · rw [if_neg h]
      rw [Nat.shiftRight_eq_div_pow] at h
      exact ⟨h1, Nat.lt_of_not_le h, hm⟩

/-- MIN_LOG2_COLS is the least `k` with `64 << k >= sb` (R121). -/
theorem minLog2Cols_spec (width : Nat) :
    superblocks width ≤ 64 * 2 ^ minLog2Cols width ∧ ∀ k < minLog2Cols width, 64 * 2 ^ k < superblocks width := by
  refine minLog2From_spec _ _ _ ?_ (by simp)
  have := Nat.lt_two_pow_self (n := superblocks width)
  rw [Nat.zero_add]; omega

/-- MAX_LOG2_COLS + 1 is the least `m >= 1` with `sb >> m < 4` (R121). -/
theorem maxLog2Cols_spec (width : Nat) :
    superblocks width / 2 ^ (maxLog2Cols width + 1) < 4 ∧
      ∀ m, 1 ≤ m → m ≤ maxLog2Cols width → 4 ≤ superblocks width / 2 ^ m := by
  have h := maxLog2From_spec (superblocks width) (superblocks width) 1 (by
    have h1 := Nat.lt_two_pow_self (n := superblocks width)
    have : superblocks width / 2 ^ (1 + superblocks width) = 0 :=
      Nat.div_eq_of_lt (lt_of_lt_of_le h1 (Nat.pow_le_pow_right (by omega) (by omega)))
    omega) (by omega) (le_refl 1)
  unfold maxLog2Cols
  refine ⟨by rw [Nat.sub_add_cancel h.1]; exact h.2.1, fun m h1 hm => h.2.2 m h1 (by omega)⟩

theorem superblocks_le {width : Nat} (h : width ≤ 65536) : superblocks width ≤ 1024 := by
  unfold superblocks ceilDiv Config.sbSize; omega

/-- MIN_LOG2_COLS is at most 4 for every legal width (R121). -/
theorem minLog2Cols_le {width : Nat} (h : width ≤ 65536) : minLog2Cols width ≤ 4 := by
  by_contra hc
  have := (minLog2Cols_spec width).2 4 (by omega)
  have := superblocks_le h
  omega

/-- MAX_LOG2_COLS is at most 8 for every legal width (R121). -/
theorem maxLog2Cols_le {width : Nat} (h : width ≤ 65536) : maxLog2Cols width ≤ 8 := by
  by_contra hc
  have := (maxLog2Cols_spec width).2 9 (by omega) (by omega)
  have := superblocks_le h
  omega

/-- `min <= max` (R121). -/
theorem minLog2Cols_le_maxLog2Cols (width : Nat) : minLog2Cols width ≤ maxLog2Cols width := by
  by_contra hc
  have hmax := (maxLog2Cols_spec width).1
  have hmin := (minLog2Cols_spec width).2 (maxLog2Cols width) (by omega)
  have : superblocks width < 4 * 2 ^ (maxLog2Cols width + 1) := by
    rwa [Nat.div_lt_iff_lt_mul (Nat.two_pow_pos _)] at hmax
  rw [Nat.pow_succ] at this
  omega

/-- At most 4 column flags are read (R122). -/
theorem tileFlags_le {width : Nat} (h : width ≤ 65536) : maxLog2Cols width - minLog2Cols width ≤ 4 := by
  by_contra hc
  have hmax := (maxLog2Cols_spec width).2 (maxLog2Cols width) (by omega) (by omega)
  have hmin := (minLog2Cols_spec width).1
  have hsb := superblocks_le h
  have h8 := maxLog2Cols_le h
  have h1 : 4 * 2 ^ maxLog2Cols width ≤ superblocks width := (Nat.le_div_iff_mul_le (Nat.two_pow_pos _)).mp hmax
  have h2 : 2 ^ (minLog2Cols width + 5) ≤ 2 ^ maxLog2Cols width := Nat.pow_le_pow_right (by omega) (by omega)
  rw [Nat.pow_add] at h2
  have h3 := Nat.two_pow_pos (minLog2Cols width)
  omega

theorem reads_tileInfo_of (w : Work) (hw : w.hdr.width ≤ 65536) (hf : w.br.Full) (hp : w.br.pos ≤ 8 * w.br.len) :
    Sat tileInfo w (fun _ w' => Advanced 6 w w')
      (fun e w' => Advanced 6 w w' ∧ e ≠ .absent ∧ (e = .raised .outOfData → 8 * w.br.len < w.br.pos + 6)) := by
  have hr : Reads 6 (do
      setTile fun t => { t with minLog2Cols := minLog2Cols w.hdr.width, maxLog2Cols := maxLog2Cols w.hdr.width }
      let c ← tileCols (maxLog2Cols w.hdr.width - minLog2Cols w.hdr.width) (minLog2Cols w.hdr.width)
      setTile fun t => { t with log2Cols := c }
      let r ← tileRows
      setTile fun t => { t with log2Rows := r }) :=
    reads_bind (n := 0) (k := 6) (reads_setHdr _) fun _ =>
      reads_bind (n := 4) (k := 2) ((reads_tileCols _ _).mono (tileFlags_le hw)) fun _ =>
        reads_bind (n := 0) (k := 2) (reads_setHdr _) fun _ => reads_bind (n := 2) (k := 0) reads_tileRows fun _ =>
          reads_setHdr _
  exact hr w hf hp

/-! ### Step 12: 16 bits -/

theorem reads_headerLength : Reads 0 headerLength :=
  reads_bind (n := 0) (k := 0) reads_getPos fun _ => reads_setHdr _

theorem reads_headerSize : Reads 16 headerSize :=
  reads_bind (n := 16) (k := 0) (reads_f 16) fun _ => reads_bind (n := 0) (k := 0) (reads_setHdr _) fun _ =>
    reads_bind (n := 0) (k := 0) (reads_whenTrue (reads_raise (by decide))) fun _ => reads_headerLength

theorem reads_commitRefs : Reads 0 commitRefs :=
  reads_bind (n := 0) (k := 0) reads_getHdr fun _ => reads_setCtx _

end Sys2Proof.Machine
end

