-- ==== Sys2Proof/Laws/Ranges.lean ====
section
/-! SUPPORT. The ranges of 10_state.md: every step of the grammar keeps the context registers in range and every header field
under its upper bound, whether it completes or fails. -/

namespace Sys2Proof.Machine

variable {α β ι : Type}

/-- `m` keeps `I`, whether it completes or fails. -/
def Keeps (I : Work → Prop) (m : Grammar α) : Prop := ∀ w, I w → Sat m w (fun _ w' => I w') (fun _ w' => I w')

theorem Keeps.ok {I : Work → Prop} {m : Grammar α} (h : Keeps I m) {w w' : Work} {a : α} (hw : I w)
    (hm : m w = .ok a w') : I w' := (h w hw).ok hm

theorem Keeps.error {I : Work → Prop} {m : Grammar α} (h : Keeps I m) {w w' : Work} {e : Abort} (hw : I w)
    (hm : m w = .error e w') : I w' := (h w hw).error hm

/-- What depends only on registers a step leaves alone is kept. -/
theorem Same.keeps {γ : Type} {π : Work → γ} {m : Grammar α} (h : Same π m) {P : γ → Prop} :
    Keeps (fun w => P (π w)) m := fun _ hw =>
  Sat.of_cases (fun _ _ hm => by show P _; rw [h.ok hm]; exact hw)
    (fun _ _ hm => by show P _; rw [h.error hm]; exact hw)

theorem keeps_pure (I : Work → Prop) (a : α) : Keeps I (pure a : Grammar α) := fun _ h => h
theorem keeps_raise (I : Work → Prop) (c : Cause) : Keeps I (raise c : Grammar α) := fun _ h => h
theorem keeps_getPos (I : Work → Prop) : Keeps I getPos := fun _ h => h
theorem keeps_getHdr (I : Work → Prop) : Keeps I getHdr := fun _ h => h
theorem keeps_getCtx (I : Work → Prop) : Keeps I getCtx := fun _ h => h

theorem keeps_setHdr {I : Work → Prop} {g : Header → Header} (h : ∀ w, I w → I { w with hdr := g w.hdr }) :
    Keeps I (setHdr g) := fun w hw => h w hw

theorem keeps_setCtx {I : Work → Prop} {g : Context → Context} (h : ∀ w, I w → I { w with ctx := g w.ctx }) :
    Keeps I (setCtx g) := fun w hw => h w hw

theorem keeps_bind_of {I : Work → Prop} {m : Grammar α} {k : α → Grammar β} {V : α → Prop} (hm : Yields V m)
    (h1 : Keeps I m) (h2 : ∀ a, V a → Keeps I (k a)) : Keeps I (m >>= k) := fun w hw =>
  Sat.bind (Sat.of_cases (fun a w' h => h2 a (hm w a w' h) w' (h1.ok hw h)) (fun _ _ h => h1.error hw h))

theorem keeps_bind {I : Work → Prop} {m : Grammar α} {k : α → Grammar β} (h1 : Keeps I m) (h2 : ∀ a, Keeps I (k a)) :
    Keeps I (m >>= k) := keeps_bind_of (V := fun _ => True) (fun _ _ _ _ => trivial) h1 fun a _ => h2 a

theorem keeps_ite {I : Work → Prop} {c : Prop} {_ : Decidable c} {m n : Grammar α} (h1 : Keeps I m) (h2 : Keeps I n) :
    Keeps I (if c then m else n) := by split <;> assumption

theorem keeps_whenTrue {I : Work → Prop} {c : Bool} {m : Grammar Unit} (h : Keeps I m) : Keeps I (whenTrue c m) := by
  cases c
  · exact keeps_pure I ()
  · exact h

theorem keeps_readIf {I : Work → Prop} {read : Grammar α} (h : Keeps I read) (c : Bool) (d : α) :
    Keeps I (readIf c read d) := keeps_ite h (keeps_pure I d)

theorem keeps_forEach {I : Work → Prop} {body : ι → Grammar Unit} (h : ∀ i, Keeps I (body i)) (is : List ι) :
    Keeps I (forEach body is) := by
  induction is with
  | nil => exact keeps_pure I ()
  | cons i is ih => exact keeps_bind (h i) fun _ => ih

/-! ### The ranges -/

/-- The upper bounds of the header fields, which the zeroed header satisfies (the tile fields are `tileInfo`'s own). -/
structure Header.Upper (h : Header) : Prop where
  profile       : h.profile ≤ 3
  resetFrameCtx : h.resetFrameContext ≤ 3
  width         : h.width ≤ 65536
  height        : h.height ≤ 65536
  displayWidth  : h.displayWidth ≤ 65536
  displayHeight : h.displayHeight ≤ 65536
  frameCtxIdx   : h.frameContextIdx ≤ 3
  lf            : h.lf.inRange
  q             : h.q.inRange
  seg           : h.seg.inRange
  log2Rows      : h.tile.log2Rows ≤ 2
  partition     : h.firstPartitionSize ≤ 65535

/-- Context and header in range. -/
structure Work.InRange (w : Work) : Prop where
  ctx : w.ctx.inRange
  hdr : w.hdr.Upper

theorem Context.reset_inRange : Context.reset.inRange := by constructor <;> decide

theorem Header.zero_upper : Header.zero.Upper := by
  constructor <;> first | decide | (constructor <;> decide)

theorem keeps_receive (read : Reader → ReadOut α) : Keeps Work.InRange (receive read) := fun w hw => by
  unfold Sat receive
  cases read w.br with
  | ok v r => exact ⟨hw.ctx, hw.hdr⟩
  | outOfData => exact hw
  | absent => exact hw

theorem keeps_frameMarker : Keeps Work.InRange frameMarker :=
  keeps_bind (keeps_receive _) fun _ => keeps_whenTrue (keeps_raise _ _)

theorem keeps_profile : Keeps Work.InRange profile :=
  keeps_bind_of (yields_f 1) (keeps_receive _) fun lo hlo => keeps_bind_of (yields_f 1) (keeps_receive _) fun hi hhi =>
    keeps_bind (keeps_whenTrue (keeps_bind (keeps_receive _) fun _ => keeps_whenTrue (keeps_raise _ _))) fun _ =>
      keeps_setHdr fun _ h => ⟨h.ctx, { h.hdr with profile := by show 2 * hi + lo ≤ 3; omega }⟩

theorem keeps_showExisting : Keeps Work.InRange showExisting :=
  keeps_bind (keeps_receive _) fun _ => keeps_bind (keeps_setHdr fun _ h => ⟨h.ctx, { h.hdr with }⟩) fun _ =>
    keeps_bind (keeps_whenTrue (keeps_bind (keeps_receive _) fun _ =>
      keeps_bind (keeps_setHdr fun _ h => ⟨h.ctx, { h.hdr with }⟩) fun _ => keeps_bind (keeps_getPos _) fun _ =>
        keeps_setHdr fun _ h => ⟨h.ctx, { h.hdr with }⟩)) fun _ => keeps_pure _ _

theorem keeps_frameType : Keeps Work.InRange frameType :=
  keeps_bind (keeps_receive _) fun _ => keeps_bind (keeps_setHdr fun _ h => ⟨h.ctx, { h.hdr with }⟩) fun _ =>
    keeps_bind (keeps_receive _) fun _ => keeps_bind (keeps_setHdr fun _ h => ⟨h.ctx, { h.hdr with }⟩) fun _ =>
      keeps_bind (keeps_receive _) fun _ => keeps_setHdr fun _ h => ⟨h.ctx, { h.hdr with }⟩

theorem keeps_syncCode : Keeps Work.InRange syncCode :=
  keeps_bind (keeps_receive _) fun _ => keeps_whenTrue (keeps_raise _ _)

/-- The colour configuration touches nothing that has a range. -/
theorem keeps_of_outsideColor {m : Grammar Unit} (h : Same outsideColor m) : Keeps Work.InRange m := fun w hw =>
  have key : ∀ w' : Work, outsideColor w' = outsideColor w → w'.InRange := fun w' e => by
    have e1 := congrArg Prod.fst e
    have e2 := congrArg Prod.snd e
    simp only [outsideColor] at e1 e2
    refine ⟨?_, e2 ▸ hw.hdr⟩
    have h1 : ({ w.ctx with color := ColorConfig.zero } : Context).inRange := { hw.ctx with }
    rw [← e1] at h1
    exact { h1 with }
  Sat.of_cases (fun _ _ hm => key _ (h.ok hm)) (fun _ _ hm => key _ (h.error hm))

theorem keeps_frameSize : Keeps Work.InRange frameSize :=
  keeps_bind_of (yields_f 16) (keeps_receive _) fun v hv =>
    keeps_bind (keeps_setHdr fun _ h => ⟨h.ctx, { h.hdr with width := by show v + 1 ≤ 65536; omega }⟩) fun _ =>
      keeps_bind_of (yields_f 16) (keeps_receive _) fun u hu =>
        keeps_setHdr fun _ h => ⟨h.ctx, { h.hdr with height := by show u + 1 ≤ 65536; omega }⟩

theorem keeps_renderSize : Keeps Work.InRange renderSize :=
  keeps_bind (keeps_receive _) fun _ => keeps_bind (keeps_setHdr fun _ h => ⟨h.ctx, { h.hdr with }⟩) fun _ =>
    keeps_ite
      (keeps_bind_of (yields_f 16) (keeps_receive _) fun v hv =>
        keeps_bind (keeps_setHdr fun _ h => ⟨h.ctx, { h.hdr with displayWidth := by show v + 1 ≤ 65536; omega }⟩)
          fun _ => keeps_bind_of (yields_f 16) (keeps_receive _) fun u hu =>
            keeps_setHdr fun _ h => ⟨h.ctx, { h.hdr with displayHeight := by show u + 1 ≤ 65536; omega }⟩)
      (keeps_setHdr fun _ h => ⟨h.ctx, { h.hdr with displayWidth := h.hdr.width, displayHeight := h.hdr.height }⟩)

theorem keeps_keyFrame : Keeps Work.InRange keyFrame :=
  keeps_bind keeps_syncCode fun _ => keeps_bind (keeps_of_outsideColor same_colorConfig) fun _ =>
    keeps_bind (keeps_setHdr fun _ h => ⟨h.ctx, { h.hdr with resetFrameCtx := Nat.zero_le _ }⟩) fun _ =>
      keeps_bind keeps_frameSize fun _ => keeps_renderSize

theorem keeps_refreshFlags : Keeps Work.InRange refreshFlags :=
  keeps_bind (keeps_receive _) fun _ => keeps_setHdr fun _ h => ⟨h.ctx, { h.hdr with }⟩

theorem keeps_intraBranch : Keeps Work.InRange intraBranch :=
  keeps_bind keeps_syncCode fun _ => keeps_bind (keeps_of_outsideColor same_intraColor) fun _ =>
    keeps_bind keeps_refreshFlags fun _ => keeps_bind keeps_frameSize fun _ => keeps_renderSize

theorem keeps_refEntry (i : Fin 3) : Keeps Work.InRange (refEntry i) :=
  keeps_bind (keeps_receive _) fun _ => keeps_bind (keeps_setHdr fun _ h => ⟨h.ctx, { h.hdr with }⟩) fun _ =>
    keeps_bind (keeps_receive _) fun _ => keeps_setHdr fun _ h => ⟨h.ctx, { h.hdr with }⟩

theorem copyRefSize_run (i : Fin 3) (w : Work) :
    copyRefSize i w =
      if (w.ctx.refs[w.hdr.refFrameIdx[i]]).valid then
        .ok () { w with hdr := { w.hdr with
          width := (w.ctx.refs[w.hdr.refFrameIdx[i]]).width, height := (w.ctx.refs[w.hdr.refFrameIdx[i]]).height } }
      else .error (.raised .invalidRefSlot) w := by
  unfold copyRefSize
  simp only [bind_run, getHdr_run, getCtx_run]
  cases h : (w.ctx.refs[w.hdr.refFrameIdx[i]]).valid <;> simp

theorem keeps_copyRefSize (i : Fin 3) : Keeps Work.InRange (copyRefSize i) := fun w hw => by
  unfold Sat
  rw [copyRefSize_run]
  have hr := hw.ctx.refs (w.hdr.refFrameIdx[i])
  split
  · rename_i h; split at h
    · cases h; exact ⟨hw.ctx, { hw.hdr with width := hr.1, height := hr.2.1 }⟩
    · cases h
  · rename_i h; split at h
    · cases h
    · cases h; exact hw

theorem keeps_sizeFlags (is : List (Fin 3)) : Keeps Work.InRange (sizeFlags is) := by
  induction is with
  | nil => exact keeps_pure _ _
  | cons i is ih =>
    exact keeps_bind (keeps_receive _) fun _ => keeps_bind (keeps_setHdr fun _ h => ⟨h.ctx, { h.hdr with }⟩) fun _ =>
      keeps_ite (keeps_bind (keeps_copyRefSize i) fun _ => keeps_pure _ _) ih

theorem keeps_interBranch : Keeps Work.InRange interBranch :=
  keeps_bind keeps_refreshFlags fun _ => keeps_bind (keeps_forEach keeps_refEntry _) fun _ =>
    keeps_bind (keeps_bind (keeps_sizeFlags _) fun _ => keeps_bind (keeps_whenTrue keeps_frameSize) fun _ =>
      keeps_renderSize) fun _ =>
      keeps_bind (keeps_bind (keeps_receive _) fun _ => keeps_setHdr fun _ h => ⟨h.ctx, { h.hdr with }⟩) fun _ =>
        keeps_bind (keeps_receive _) fun _ => keeps_ite (keeps_setHdr fun _ h => ⟨h.ctx, { h.hdr with }⟩)
          (keeps_bind (keeps_receive _) fun _ => keeps_setHdr fun _ h => ⟨h.ctx, { h.hdr with }⟩)

theorem keeps_interFrame : Keeps Work.InRange interFrame :=
  keeps_bind
    (keeps_bind (keeps_getHdr _) fun _ => keeps_ite (keeps_setHdr fun _ h => ⟨h.ctx, { h.hdr with }⟩)
      (keeps_bind (keeps_receive _) fun _ => keeps_setHdr fun _ h => ⟨h.ctx, { h.hdr with }⟩)) fun _ =>
    keeps_bind
      (keeps_bind (keeps_getHdr _) fun _ =>
        keeps_ite (keeps_setHdr fun _ h => ⟨h.ctx, { h.hdr with resetFrameCtx := Nat.zero_le _ }⟩)
          (keeps_bind_of (yields_f 2) (keeps_receive _) fun v hv =>
            keeps_setHdr fun _ h => ⟨h.ctx, { h.hdr with resetFrameCtx := by show v ≤ 3; omega }⟩)) fun _ =>
      keeps_bind (keeps_getHdr _) fun _ => keeps_ite keeps_intraBranch keeps_interBranch

theorem keeps_frameBranch : Keeps Work.InRange frameBranch :=
  keeps_bind (keeps_getHdr _) fun _ => keeps_ite keeps_keyFrame keeps_interFrame

theorem keeps_colorCopy : Keeps Work.InRange colorCopy :=
  keeps_bind (keeps_getCtx _) fun _ => keeps_setHdr fun _ h => ⟨h.ctx, { h.hdr with }⟩

theorem keeps_ctxFlags : Keeps Work.InRange ctxFlags :=
  keeps_bind
    (keeps_bind (keeps_getHdr _) fun _ => keeps_ite (keeps_setHdr fun _ h => ⟨h.ctx, { h.hdr with }⟩)
      (keeps_bind (keeps_receive _) fun _ => keeps_bind (keeps_setHdr fun _ h => ⟨h.ctx, { h.hdr with }⟩) fun _ =>
        keeps_bind (keeps_receive _) fun _ => keeps_setHdr fun _ h => ⟨h.ctx, { h.hdr with }⟩)) fun _ =>
    keeps_bind_of (yields_f 2) (keeps_receive _) fun v hv =>
      keeps_setHdr fun _ h => ⟨h.ctx, { h.hdr with frameCtxIdx := by show v ≤ 3; omega }⟩

theorem Context.pastIndependent_inRange {c : Context} (h : c.inRange) : c.pastIndependent.inRange :=
  { h with
    refDelta := (by decide : ∀ i : Fin 4, within Config.maxLoopFilter Context.reset.pastIndependent.lfRefDelta[i])
    modeDelta := (by decide : ∀ i : Fin 2, within Config.maxLoopFilter Context.reset.pastIndependent.lfModeDelta[i])
    seg := (by decide : ∀ i : Fin 8, (Context.reset.pastIndependent.seg[i]).inRange) }

theorem keeps_pastIndependence : Keeps Work.InRange pastIndependence :=
  keeps_bind (keeps_getHdr _) fun _ =>
    keeps_whenTrue (keeps_setCtx fun _ h => ⟨Context.pastIndependent_inRange h.ctx, h.hdr⟩)

/-! ### Vectors -/

theorem vector_set_forall {δ : Type} {n : Nat} {P : δ → Prop} {v : Vector δ n} (h : ∀ i : Fin n, P v[i]) (j : Fin n)
    {x : δ} (hx : P x) : ∀ i : Fin n, P (v.set j x)[i] := by
  intro i
  by_cases hij : (j : Nat) = i
  · simpa [Vector.getElem_set, hij] using hx
  · simpa [Vector.getElem_set, hij] using h i

theorem vector_get_set {δ : Type} {n : Nat} (v : Vector δ n) (i j : Fin n) (x : δ) :
    (v.set j x)[i] = if j = i then x else v[i] := by
  by_cases h : j = i
  · subst h; simp
  · have h' : (j : Nat) ≠ i := fun e => h (Fin.ext e)
    simp [h, h']

theorem keeps_refDelta (i : Fin 4) : Keeps Work.InRange (refDelta i) :=
  keeps_bind (keeps_receive _) fun _ =>
    keeps_bind (keeps_setHdr fun _ h => ⟨h.ctx, { h.hdr with lf := { h.hdr.lf with } }⟩) fun _ =>
      keeps_whenTrue (keeps_bind_of (yields_su 6) (keeps_receive _) fun _ hv =>
        keeps_setCtx fun _ h => ⟨{ h.ctx with refDelta := vector_set_forall h.ctx.refDelta i hv }, h.hdr⟩)

theorem keeps_modeDelta (i : Fin 2) : Keeps Work.InRange (modeDelta i) :=
  keeps_bind (keeps_receive _) fun _ =>
    keeps_bind (keeps_setHdr fun _ h => ⟨h.ctx, { h.hdr with lf := { h.hdr.lf with } }⟩) fun _ =>
      keeps_whenTrue (keeps_bind_of (yields_su 6) (keeps_receive _) fun _ hv =>
        keeps_setCtx fun _ h => ⟨{ h.ctx with modeDelta := vector_set_forall h.ctx.modeDelta i hv }, h.hdr⟩)

theorem lfCopy_run (w : Work) : lfCopy w = .ok () { w with hdr := { w.hdr with
    lf := { w.hdr.lf with refDelta := w.ctx.lfRefDelta, modeDelta := w.ctx.lfModeDelta } } } := rfl

theorem keeps_lfCopy : Keeps Work.InRange lfCopy := fun _ h =>
  ⟨h.ctx, { h.hdr with lf := { h.hdr.lf with refDelta := h.ctx.refDelta, modeDelta := h.ctx.modeDelta } }⟩

theorem keeps_loopFilterParams : Keeps Work.InRange loopFilterParams :=
  keeps_bind_of (yields_f 6) (keeps_receive _) fun v hv =>
    keeps_bind (keeps_setHdr fun _ h =>
      ⟨h.ctx, { h.hdr with lf := { h.hdr.lf with level := by show v ≤ 63; omega } }⟩) fun _ =>
    keeps_bind_of (yields_f 3) (keeps_receive _) fun u hu =>
      keeps_bind (keeps_setHdr fun _ h =>
        ⟨h.ctx, { h.hdr with lf := { h.hdr.lf with sharpness := by show u ≤ 7; omega } }⟩) fun _ =>
      keeps_bind (keeps_receive _) fun _ =>
        keeps_bind (keeps_setHdr fun _ h => ⟨h.ctx, { h.hdr with lf := { h.hdr.lf with } }⟩) fun _ =>
          keeps_bind (keeps_whenTrue (keeps_bind (keeps_receive _) fun _ =>
            keeps_bind (keeps_setHdr fun _ h => ⟨h.ctx, { h.hdr with lf := { h.hdr.lf with } }⟩) fun _ =>
              keeps_whenTrue (keeps_bind (keeps_forEach keeps_refDelta _) fun _ => keeps_forEach keeps_modeDelta _)))
            fun _ => keeps_lfCopy

theorem yields_quantDelta : Yields (within 15) quantDelta :=
  yields_bind_of (yields_guarded (yields_su 4) (by decide)) fun _ h => yields_pure h.1

theorem keeps_guarded {read : Grammar α} (h : Keeps Work.InRange read) (d : α) :
    Keeps Work.InRange (guarded read d) :=
  keeps_bind (keeps_receive _) fun _ => keeps_bind (keeps_readIf h _ _) fun _ => keeps_pure _ _

theorem keeps_quantDelta : Keeps Work.InRange quantDelta :=
  keeps_bind (keeps_guarded (keeps_receive _) _) fun _ => keeps_pure _ _

theorem lossless_run (w : Work) : lossless w = .ok () { w with
    ctx := { w.ctx with lossless := w.hdr.q.isLossless }, hdr := { w.hdr with lossless := w.hdr.q.isLossless } } := rfl

theorem keeps_quantizationParams : Keeps Work.InRange quantizationParams :=
  keeps_bind_of (yields_f 8) (keeps_receive _) fun v hv =>
    keeps_bind (keeps_setHdr fun _ h =>
      ⟨h.ctx, { h.hdr with q := { h.hdr.q with baseQIdx := by show v ≤ 255; omega } }⟩) fun _ =>
    keeps_bind_of yields_quantDelta keeps_quantDelta fun _ h1 =>
      keeps_bind (keeps_setHdr fun _ h => ⟨h.ctx, { h.hdr with q := { h.hdr.q with deltaQYDc := h1 } }⟩)
        fun _ =>
      keeps_bind_of yields_quantDelta keeps_quantDelta fun _ h2 =>
        keeps_bind (keeps_setHdr fun _ h => ⟨h.ctx, { h.hdr with q := { h.hdr.q with deltaQUvDc := h2 } }⟩)
          fun _ =>
        keeps_bind_of yields_quantDelta keeps_quantDelta fun _ h3 =>
          keeps_bind (keeps_setHdr fun _ h => ⟨h.ctx, { h.hdr with q := { h.hdr.q with deltaQUvAc := h3 } }⟩)
            fun _ => fun _ h => ⟨{ h.ctx with }, { h.hdr with }⟩

theorem yields_probability : Yields (fun r => r.2 ≤ Config.maxProb) probability := fun w a w' h =>
  (yields_guarded (V := fun v => v ≤ Config.maxProb)
    (fun w a w' h => by have := yields_f 8 w a w' h; unfold Config.maxProb; omega) (le_refl _) w a w' h).1

theorem keeps_probability : Keeps Work.InRange probability := keeps_guarded (keeps_receive _) _

theorem keeps_treeProb (i : Fin 7) : Keeps Work.InRange (treeProb i) :=
  keeps_bind_of yields_probability keeps_probability fun _ hv =>
    keeps_bind (keeps_setHdr fun _ h => ⟨h.ctx, { h.hdr with seg := { h.hdr.seg with } }⟩) fun _ =>
      keeps_setCtx fun _ h =>
        ⟨{ h.ctx with treeProb := vector_set_forall (P := fun v => v ≤ Config.maxProb) h.ctx.treeProb i hv }, h.hdr⟩

theorem keeps_predProb (i : Fin 3) : Keeps Work.InRange (predProb i) :=
  keeps_bind_of yields_probability keeps_probability fun _ hv =>
    keeps_bind (keeps_setHdr fun _ h => ⟨h.ctx, { h.hdr with seg := { h.hdr.seg with } }⟩) fun _ =>
      keeps_setCtx fun _ h =>
        ⟨{ h.ctx with predProb := vector_set_forall (P := fun v => v ≤ Config.maxProb) h.ctx.predProb i hv }, h.hdr⟩

theorem keeps_predProbDefault (i : Fin 3) : Keeps Work.InRange (predProbDefault i) :=
  keeps_setCtx fun _ h =>
    ⟨{ h.ctx with
        predProb := vector_set_forall (P := fun v => v ≤ Config.maxProb) h.ctx.predProb i (le_refl Config.maxProb) },
      h.hdr⟩

theorem keeps_segMap : Keeps Work.InRange segMap :=
  keeps_bind (keeps_forEach keeps_treeProb _) fun _ => keeps_bind (keeps_receive _) fun _ =>
    keeps_bind (keeps_setHdr fun _ h => ⟨h.ctx, { h.hdr with seg := { h.hdr.seg with } }⟩) fun _ =>
      keeps_forEach (fun i => keeps_ite (keeps_predProb i) (keeps_predProbDefault i)) _

theorem keeps_setFeature (s : Fin 8) {g : SegFeature → SegFeature} (hg : ∀ e, e.inRange → (g e).inRange) :
    Keeps Work.InRange (setFeature s g) :=
  keeps_setCtx fun _ h => ⟨{ h.ctx with
    seg := vector_set_forall (P := SegFeature.inRange) h.ctx.seg s (hg _ (h.ctx.seg s)) }, h.hdr⟩

theorem keeps_segFeature (s : Fin 8) : Keeps Work.InRange (segFeature s) :=
  keeps_bind
    (keeps_bind (keeps_receive _) fun b => keeps_bind (keeps_setFeature s fun _ h => h) fun _ =>
      keeps_bind_of (yields_readIf (yields_su 8) (by decide) b) (keeps_readIf (keeps_receive _) _ _) fun _ hv =>
        keeps_setFeature s fun _ h => ⟨hv.1, h.2⟩) fun _ =>
  keeps_bind
    (keeps_bind (keeps_receive _) fun b => keeps_bind (keeps_setFeature s fun _ h => h) fun _ =>
      keeps_bind_of (yields_readIf (yields_su 6) (by decide) b) (keeps_readIf (keeps_receive _) _ _) fun _ hv =>
        keeps_setFeature s fun _ h => ⟨h.1, hv.1⟩) fun _ =>
  keeps_bind
    (keeps_bind (keeps_receive _) fun _ => keeps_bind (keeps_setFeature s fun _ h => h) fun _ =>
      keeps_bind (keeps_readIf (keeps_receive _) _ _) fun _ => keeps_setFeature s fun _ h => h) fun _ =>
  keeps_bind (keeps_receive _) fun _ => keeps_setFeature s fun _ h => h

theorem keeps_segmentationParams : Keeps Work.InRange segmentationParams :=
  keeps_bind (keeps_receive _) fun _ => keeps_bind (keeps_setHdr fun _ h => ⟨h.ctx, { h.hdr with seg := { h.hdr.seg with } }⟩) fun _ =>
    keeps_bind
      (keeps_whenTrue (keeps_bind (keeps_receive _) fun _ =>
        keeps_bind (keeps_setHdr fun _ h => ⟨h.ctx, { h.hdr with seg := { h.hdr.seg with } }⟩) fun _ =>
          keeps_bind (keeps_whenTrue keeps_segMap) fun _ => keeps_bind (keeps_receive _) fun _ =>
            keeps_bind (keeps_setHdr fun _ h => ⟨h.ctx, { h.hdr with seg := { h.hdr.seg with } }⟩) fun _ =>
              keeps_whenTrue (keeps_bind (keeps_receive _) fun _ =>
                keeps_bind (keeps_setCtx fun _ h => ⟨{ h.ctx with }, h.hdr⟩) fun _ =>
                  keeps_forEach keeps_segFeature _)))
      fun _ => fun _ h =>
        ⟨h.ctx, { h.hdr with seg := { treeProb := h.ctx.treeProb, predProb := h.ctx.predProb, feature := h.ctx.seg } }⟩

theorem keeps_tileCols (left c : Nat) : Keeps Work.InRange (tileCols left c) := by
  induction left generalizing c with
  | zero => exact keeps_pure _ _
  | succ left ih => exact keeps_bind (keeps_receive _) fun _ => keeps_ite (ih _) (keeps_pure _ _)

/-- `tileCols` stops between its start and the maximum (R122). -/
theorem yields_tileCols (left c : Nat) : Yields (fun v => c ≤ v ∧ v ≤ c + left) (tileCols left c) := by
  induction left generalizing c with
  | zero => exact yields_pure ⟨le_refl _, le_refl _⟩
  | succ left ih =>
    exact yields_bind fun _ => yields_ite
      (fun w a w' h => by have := ih (c + 1) w a w' h; omega) (yields_pure ⟨le_refl _, by omega⟩)

/-- 0, 1 or 2 (R123). -/
theorem yields_tileRows : Yields (fun v => v ≤ 2) tileRows :=
  yields_bind_of (yields_f 1) fun r hr =>
    yields_ite (yields_bind_of (yields_f 1) fun m hm => yields_pure (by omega)) (yields_pure (by omega))

theorem keeps_tileRows : Keeps Work.InRange tileRows :=
  keeps_bind (keeps_receive _) fun _ => keeps_ite (keeps_bind (keeps_receive _) fun _ => keeps_pure _ _) (keeps_pure _ _)

theorem keeps_tileInfo : Keeps Work.InRange tileInfo :=
  keeps_bind (keeps_getHdr _) fun _ => keeps_bind (keeps_setHdr fun _ h => ⟨h.ctx, { h.hdr with }⟩) fun _ =>
    keeps_bind (keeps_tileCols _ _) fun _ => keeps_bind (keeps_setHdr fun _ h => ⟨h.ctx, { h.hdr with }⟩) fun _ =>
      keeps_bind_of yields_tileRows keeps_tileRows fun _ hr =>
        keeps_setHdr fun _ h => ⟨h.ctx, { h.hdr with log2Rows := hr }⟩

theorem keeps_headerSize : Keeps Work.InRange headerSize :=
  keeps_bind_of (yields_f 16) (keeps_receive _) fun v hv =>
    keeps_bind (keeps_setHdr fun _ h => ⟨h.ctx, { h.hdr with partition := by show v ≤ 65535; omega }⟩) fun _ =>
      keeps_bind (keeps_whenTrue (keeps_raise _ _)) fun _ => keeps_bind (keeps_getPos _) fun _ =>
        keeps_setHdr fun _ h => ⟨h.ctx, { h.hdr with }⟩

end Sys2Proof.Machine
end

