-- ==== Sys2Proof/Laws/Whole.lean ====
section
/-! SUPPORT. The whole grammar: it keeps the ranges, reads at most 499 bits and never misses a byte (R127), and what its
completion says about the steps it went through (R93). -/

namespace Sys2Proof.Machine

variable {α β : Type}

/-! ### Ranges -/

theorem keeps_commitRefs {w w' : Work} (h : commitRefs w = .ok () w') :
    w'.ctx.refs = w.ctx.refs.mapFinIdx (fun i old _ => refreshedSlot w.hdr old i) ∧ w'.br = w.br ∧ w'.hdr = w.hdr ∧
      w'.ctx = { w.ctx with refs := w'.ctx.refs } := by
  cases h; exact ⟨rfl, rfl, rfl, rfl⟩

/-! ### How far the whole grammar reads -/

/-- As `Reads`, from registers in range. -/
def ReadsIn (n : Nat) (m : Grammar α) : Prop :=
  ∀ w, w.InRange → w.br.Full → w.br.pos ≤ 8 * w.br.len →
    Sat m w (fun _ w' => Advanced n w w')
      (fun e w' => Advanced n w w' ∧ e ≠ .absent ∧ (e = .raised .outOfData → 8 * w.br.len < w.br.pos + n))

theorem Reads.within {n : Nat} {m : Grammar α} (h : Reads n m) : ReadsIn n m := fun w _ => h w

theorem readsIn_bind {n k : Nat} {m : Grammar α} {g : α → Grammar β} (h1 : ReadsIn n m) (hk : Keeps Work.InRange m)
    (h2 : ∀ a, ReadsIn k (g a)) : ReadsIn (n + k) (m >>= g) := fun w hr hf hp => by
  refine Sat.bind (Sat.of_cases (fun a w' hm => ?_) (fun e w' hm => ?_))
  · have s1 := (h1 w hr hf hp).ok hm
    have s2 := h2 a w' (hk.ok hr hm) (s1.full hf) s1.inside
    refine Sat.of_cases (fun b w'' hb => s1.trans (s2.ok hb)) (fun e w'' hb => ?_)
    have s3 := s2.error hb
    refine ⟨s1.trans s3.1, s3.2.1, fun he => ?_⟩
    have := s3.2.2 he
    have := s1.far
    have := s1.len
    omega
  · have s1 := (h1 w hr hf hp).error hm
    exact ⟨s1.1.mono (Nat.le_add_right _ _), s1.2.1, fun he => by have := s1.2.2 he; omega⟩

theorem readsIn_tileInfo : ReadsIn 6 tileInfo := fun w hr hf hp => reads_tileInfo_of w hr.hdr.width hf hp

/-- Steps 4 to 12 read at most 493 bits: with the 6 before them, R127's 499. -/
theorem readsIn_fullHeader : ReadsIn 493 fullHeader :=
  readsIn_bind (n := 3) (k := 490) reads_frameType.within keeps_frameType fun _ =>
  readsIn_bind (n := 108) (k := 382) reads_frameBranch.within keeps_frameBranch fun _ =>
  readsIn_bind (n := 0) (k := 382) reads_colorCopy.within keeps_colorCopy fun _ =>
  readsIn_bind (n := 4) (k := 378) reads_ctxFlags.within keeps_ctxFlags fun _ =>
  readsIn_bind (n := 0) (k := 378) reads_pastIndependence.within keeps_pastIndependence fun _ =>
  readsIn_bind (n := 59) (k := 319) reads_loopFilterParams.within keeps_loopFilterParams fun _ =>
  readsIn_bind (n := 26) (k := 293) reads_quantizationParams.within keeps_quantizationParams fun _ =>
  readsIn_bind (n := 271) (k := 22) reads_segmentationParams.within keeps_segmentationParams fun _ =>
  readsIn_bind (n := 6) (k := 16) readsIn_tileInfo keeps_tileInfo fun _ =>
  readsIn_bind (n := 16) (k := 0) reads_headerSize.within keeps_headerSize fun _ => reads_commitRefs.within

theorem reads_showExisting : Reads 4 showExisting :=
  reads_bind (n := 1) (k := 3) reads_flag fun _ => reads_bind (n := 0) (k := 3) (reads_setHdr _) fun _ =>
    reads_bind (n := 3) (k := 0) (reads_whenTrue reads_shortHeader) fun _ => reads_pure _

/-- `showExisting` reads one bit when it answers that the header goes on. -/
theorem showExisting_ok {w w' : Work} {b : Bool} (h : showExisting w = .ok b w') :
    w.br.flagAt = some b ∧ w.br.pos + 1 ≤ 8 * w.br.len ∧
      (b = false → w' = { w with
        br := { w.br with pos := w.br.pos + 1 }, hdr := { w.hdr with showExistingFrame := false } }) ∧
      (b = true → ∃ i, w.br.bitsFrom 3 (w.br.pos + 1) 0 = some i ∧ w.br.pos + 4 ≤ 8 * w.br.len ∧
        w' = { w with
          br := { w.br with pos := w.br.pos + 4 }
          hdr := { w.hdr with
            showExistingFrame := true, frameToShow := slotOf i
            headerLengthBytes := ceilDiv (w.br.pos + 4) 8 } }) := by
  unfold showExisting at h
  obtain ⟨c, w1, h1, h⟩ := bind_ok.mp h
  obtain ⟨hb, hle, rfl⟩ := flag_ok h1
  obtain ⟨_, w2, h2, h⟩ := bind_ok.mp h
  cases h2
  cases c with
  | false => cases h; exact ⟨hb, hle, fun _ => rfl, (fun h => by cases h)⟩
  | true =>
    obtain ⟨_, w3, h3, h⟩ := bind_ok.mp h
    cases h
    simp only [whenTrue_true] at h3
    unfold shortHeader at h3
    obtain ⟨i, w4, h4, h3⟩ := bind_ok.mp h3
    obtain ⟨hi, hle', rfl⟩ := f_ok h4
    cases h3
    refine ⟨hb, hle, (fun h => by cases h), fun _ => ⟨i, ?_, by simpa using hle', ?_⟩⟩
    · rw [Reader.bitsFrom_pos] at hi; exact hi
    · simp [Nat.add_assoc]

theorem readsIn_uncompressedHeader : ReadsIn 499 uncompressedHeader := by
  refine readsIn_bind (n := 2) (k := 497) reads_frameMarker.within keeps_frameMarker fun _ => ?_
  refine readsIn_bind (n := 3) (k := 494) reads_profile.within keeps_profile fun _ => ?_
  intro w hr hf hp
  refine Sat.bind (Sat.of_cases (fun b w' hm => ?_) (fun e w' hm => ?_))
  · have hr' := keeps_showExisting.ok hr hm
    have s1 := (reads_showExisting w hf hp).ok hm
    have hb := showExisting_ok hm
    cases b with
    | true => exact s1.mono (by decide)
    | false =>
      have hw := hb.2.2.1 rfl
      have s2 := readsIn_fullHeader w' hr' (s1.full hf) s1.inside
      have hp' : w'.br.pos = w.br.pos + 1 := by rw [hw]
      have hl' : w'.br.len = w.br.len := by rw [hw]
      have a1 : Advanced 1 w w' := { s1 with far := by omega }
      refine Sat.of_cases (fun c w'' hc => a1.trans (s2.ok hc)) (fun e w'' hc => ?_)
      have s3 := s2.error hc
      refine ⟨a1.trans s3.1, s3.2.1, fun he => ?_⟩
      have := s3.2.2 he
      omega
  · have s1 := (reads_showExisting w hf hp).error hm
    exact ⟨s1.1.mono (by decide), s1.2.1, fun he => by have := s1.2.2 he; omega⟩

/-! ### The registers stay in range -/

theorem inRange_commitRefs {w w' : Work} (hw : w.InRange) (h1 : 1 ≤ w.hdr.width) (h2 : 1 ≤ w.hdr.height)
    (h : commitRefs w = .ok () w') : w'.InRange := by
  cases h
  refine ⟨{ hw.ctx with refs := fun i => ?_ }, hw.hdr⟩
  have hi := hw.ctx.refs i
  show RefSlot.inRange ((w.ctx.refs.mapFinIdx fun i old _ => refreshedSlot w.hdr old i)[i])
  rw [show (w.ctx.refs.mapFinIdx fun i old _ => refreshedSlot w.hdr old i)[i] = refreshedSlot w.hdr w.ctx.refs[i] i by
    simp]
  unfold refreshedSlot
  split
  · exact ⟨hw.hdr.width, hw.hdr.height, fun _ => ⟨h1, h2⟩⟩
  · exact hi

/-- The frame has a size: what steps 5 and 6 leave. -/
def Work.Sized (w : Work) : Prop :=
  1 ≤ w.hdr.width ∧ 1 ≤ w.hdr.height ∧ 1 ≤ w.hdr.displayWidth ∧ 1 ≤ w.hdr.displayHeight ∧
    (w.hdr.displaySizePresent = false → w.hdr.displayWidth = w.hdr.width ∧ w.hdr.displayHeight = w.hdr.height)

/-- The coded size alone. -/
def Work.Coded (w : Work) : Prop := 1 ≤ w.hdr.width ∧ 1 ≤ w.hdr.height

theorem frameSize_ok {w w' : Work} (h : frameSize w = .ok () w') :
    ∃ a b, w.br.bitsFrom 16 w.br.pos 0 = some a ∧ w.br.bitsFrom 16 (w.br.pos + 16) 0 = some b ∧
      w' = { w with
        br := { w.br with pos := w.br.pos + 32 }, hdr := { w.hdr with width := a + 1, height := b + 1 } } := by
  unfold frameSize at h
  obtain ⟨a, w1, h1, h⟩ := bind_ok.mp h
  obtain ⟨ha, _, rfl⟩ := f_ok h1
  obtain ⟨_, w2, h2, h⟩ := bind_ok.mp h
  cases h2
  obtain ⟨b, w3, h3, h⟩ := bind_ok.mp h
  obtain ⟨hb, _, rfl⟩ := f_ok h3
  cases h
  rw [Reader.bitsFrom_pos] at hb
  exact ⟨a, b, ha, hb, rfl⟩

/-- The display size is the one coded, or the frame's (R102). -/
theorem renderSize_ok {w w' : Work} (h : renderSize w = .ok () w') :
    ∃ p : Bool, w.br.flagAt = some p ∧
      (p = false → w' = { w with
        br := { w.br with pos := w.br.pos + 1 }
        hdr := { w.hdr with
          displaySizePresent := false, displayWidth := w.hdr.width, displayHeight := w.hdr.height } }) ∧
      (p = true → ∃ a b, w.br.bitsFrom 16 (w.br.pos + 1) 0 = some a ∧ w.br.bitsFrom 16 (w.br.pos + 17) 0 = some b ∧
        w' = { w with
          br := { w.br with pos := w.br.pos + 33 }
          hdr := { w.hdr with displaySizePresent := true, displayWidth := a + 1, displayHeight := b + 1 } }) := by
  unfold renderSize at h
  obtain ⟨p, w1, h1, h⟩ := bind_ok.mp h
  obtain ⟨hp, _, rfl⟩ := flag_ok h1
  obtain ⟨_, w2, h2, h⟩ := bind_ok.mp h
  cases h2
  cases p with
  | false => cases h; exact ⟨false, hp, fun _ => rfl, fun h => by cases h⟩
  | true =>
    simp only [if_true] at h
    unfold displaySize at h
    obtain ⟨a, w3, h3, h⟩ := bind_ok.mp h
    obtain ⟨ha, _, rfl⟩ := f_ok h3
    obtain ⟨_, w4, h4, h⟩ := bind_ok.mp h
    cases h4
    obtain ⟨b, w5, h5, h⟩ := bind_ok.mp h
    obtain ⟨hb, _, rfl⟩ := f_ok h5
    cases h
    rw [Reader.bitsFrom_pos] at ha hb
    exact ⟨true, hp, (fun h => by cases h), fun _ => ⟨a, b, ha, hb, rfl⟩⟩

theorem frameSize_coded {w w' : Work} (h : frameSize w = .ok () w') : w'.Coded := by
  obtain ⟨a, b, _, _, rfl⟩ := frameSize_ok h
  exact ⟨Nat.le_add_left _ _, Nat.le_add_left _ _⟩

theorem renderSize_sized {w w' : Work} (hw : w.Coded) (h : renderSize w = .ok () w') : w'.Sized := by
  obtain ⟨p, _, h0, h1⟩ := renderSize_ok h
  cases p with
  | false => rw [h0 rfl]; exact ⟨hw.1, hw.2, hw.1, hw.2, fun _ => ⟨rfl, rfl⟩⟩
  | true =>
    obtain ⟨a, b, _, _, rfl⟩ := h1 rfl
    exact ⟨hw.1, hw.2, Nat.le_add_left _ _, Nat.le_add_left _ _, fun h => by cases h⟩

end Sys2Proof.Machine
end

