-- ==== Sys2Proof/Laws/Completed.lean ====
section
/-! SUPPORT. What the completion of the grammar says: the steps it went through, and which step each part of the final header
and context comes from. -/

namespace Sys2Proof.Machine

/-- The registers after each of the steps 4 to 12 of a completed header (R93). -/
structure FullRun (w w' : Work) where
  typed     : Work
  framed    : Work
  colored   : Work
  flagged   : Work
  restarted : Work
  filtered  : Work
  quantized : Work
  segmented : Work
  tiled     : Work
  measured  : Work
  frameType   : frameType w = .ok () typed
  frameBranch : frameBranch typed = .ok () framed
  colorCopy   : colorCopy framed = .ok () colored
  ctxFlags    : ctxFlags colored = .ok () flagged
  restart     : pastIndependence flagged = .ok () restarted
  loopFilter  : loopFilterParams restarted = .ok () filtered
  quantize    : quantizationParams filtered = .ok () quantized
  segment     : segmentationParams quantized = .ok () segmented
  tile        : tileInfo segmented = .ok () tiled
  measure     : headerSize tiled = .ok () measured
  commit      : commitRefs measured = .ok () w'

theorem fullHeader_ok {w w' : Work} (h : fullHeader w = .ok () w') : Nonempty (FullRun w w') := by
  unfold fullHeader at h
  obtain ⟨⟨⟩, w1, h1, h⟩ := bind_ok.mp h
  obtain ⟨⟨⟩, w2, h2, h⟩ := bind_ok.mp h
  obtain ⟨⟨⟩, w3, h3, h⟩ := bind_ok.mp h
  obtain ⟨⟨⟩, w4, h4, h⟩ := bind_ok.mp h
  obtain ⟨⟨⟩, w5, h5, h⟩ := bind_ok.mp h
  obtain ⟨⟨⟩, w6, h6, h⟩ := bind_ok.mp h
  obtain ⟨⟨⟩, w7, h7, h⟩ := bind_ok.mp h
  obtain ⟨⟨⟩, w8, h8, h⟩ := bind_ok.mp h
  obtain ⟨⟨⟩, w9, h9, h⟩ := bind_ok.mp h
  obtain ⟨⟨⟩, w10, h10, h11⟩ := bind_ok.mp h
  exact ⟨⟨w1, w2, w3, w4, w5, w6, w7, w8, w9, w10, h1, h2, h3, h4, h5, h6, h7, h8, h9, h10, h11⟩⟩

/-- A completed header went through the marker, the profile and the show-existing flag; then it ended, or the full header
followed. -/
theorem uncompressedHeader_ok {w w' : Work} (h : uncompressedHeader w = .ok () w') :
    ∃ w1 w2 w3 b, frameMarker w = .ok () w1 ∧ profile w1 = .ok () w2 ∧ showExisting w2 = .ok b w3 ∧
      ((b = true ∧ w' = w3) ∨ (b = false ∧ fullHeader w3 = .ok () w')) := by
  unfold uncompressedHeader at h
  obtain ⟨⟨⟩, w1, h1, h⟩ := bind_ok.mp h
  obtain ⟨⟨⟩, w2, h2, h⟩ := bind_ok.mp h
  obtain ⟨b, w3, h3, h⟩ := bind_ok.mp h
  refine ⟨w1, w2, w3, b, h1, h2, h3, ?_⟩
  cases b with
  | true => cases h; exact .inl ⟨rfl, rfl⟩
  | false => exact .inr ⟨rfl, h⟩

theorem frameMarker_ok {w w' : Work} (h : frameMarker w = .ok () w') :
    w.br.bitsFrom 2 w.br.pos 0 = some Config.frameMarker ∧ w' = { w with br := { w.br with pos := w.br.pos + 2 } } := by
  unfold frameMarker at h
  obtain ⟨m, w1, h1, h⟩ := bind_ok.mp h
  obtain ⟨hm, _, rfl⟩ := f_ok h1
  by_cases hc : m = Config.frameMarker
  · subst hc; cases h; exact ⟨hm, rfl⟩
  · have : (m != Config.frameMarker) = true := by simpa using hc
    rw [this] at h; cases h

theorem profile_ok {w w' : Work} (h : profile w = .ok () w') :
    ∃ lo hi, w.br.bitsFrom 1 w.br.pos 0 = some lo ∧ w.br.bitsFrom 1 (w.br.pos + 1) 0 = some hi ∧
      (2 * hi + lo = 3 → w.br.bitsFrom 1 (w.br.pos + 2) 0 = some 0) ∧
      w' = { w with
        br := { w.br with pos := w.br.pos + profileBits (2 * hi + lo) }
        hdr := { w.hdr with profile := 2 * hi + lo } } := by
  unfold profile at h
  obtain ⟨lo, w1, h1, h⟩ := bind_ok.mp h
  obtain ⟨hlo, _, rfl⟩ := f_ok h1
  obtain ⟨hi, w2, h2, h⟩ := bind_ok.mp h
  obtain ⟨hhi, _, rfl⟩ := f_ok h2
  rw [Reader.bitsFrom_pos] at hhi
  refine ⟨lo, hi, hlo, hhi, ?_⟩
  by_cases h3 : 2 * hi + lo = 3
  · have h3' : (2 * hi + lo == 3) = true := by simpa using h3
    simp only [h3', whenTrue_true] at h
    obtain ⟨⟨⟩, w3, h4, h⟩ := bind_ok.mp h
    unfold profileReserved at h4
    obtain ⟨r, w4, h5, h4⟩ := bind_ok.mp h4
    obtain ⟨hr, _, rfl⟩ := flag_ok h5
    cases r with
    | true => cases h4
    | false =>
      cases h4; cases h
      refine ⟨fun _ => ?_, by simp [profileBits, h3, Nat.add_assoc]⟩
      simp only [Reader.flagAt, Reader.bit_pos, Nat.add_assoc] at hr
      simp only [Reader.bitsFrom]
      cases hb : w.br.bit (w.br.pos + 2) with
      | none => simp [hb] at hr
      | some b =>
        have := Reader.bit_le_one hb
        simp only [hb, Option.some.injEq, decide_eq_false_iff_not] at hr
        simp; omega
  · have h3' : (2 * hi + lo == 3) = false := by simpa using h3
    simp only [h3', whenTrue_false] at h
    obtain ⟨⟨⟩, w3, h4, h⟩ := bind_ok.mp h
    cases h4; cases h
    exact ⟨fun h => absurd h h3, by simp [profileBits, h3, Nat.add_assoc]⟩

theorem commitRefs_eq {w w' : Work} (h : commitRefs w = .ok () w') : w' = { w with ctx := { w.ctx with
    refs := w.ctx.refs.mapFinIdx fun i old _ => refreshedSlot w.hdr old i } } := by cases h; rfl

theorem colorCopy_eq {w w' : Work} (h : colorCopy w = .ok () w') :
    w' = { w with hdr := { w.hdr with color := w.ctx.color } } := by cases h; rfl

theorem pastIndependence_eq {w w' : Work} (h : pastIndependence w = .ok () w') :
    w' = if w.hdr.resetsContext then { w with ctx := w.ctx.pastIndependent } else w := by
  unfold pastIndependence at h
  simp only [Config.pastIndependence, Bool.true_and, bind_run, getHdr_run] at h
  cases hr : w.hdr.resetsContext <;> simp only [hr] at h <;> cases h <;> rfl

namespace FullRun

variable {w w' : Work} (r : FullRun w w')

include r

/-! ### Where the final registers come from -/

theorem eq_commit : w' = { r.measured with ctx := { r.measured.ctx with
    refs := r.measured.ctx.refs.mapFinIdx fun i old _ => refreshedSlot r.measured.hdr old i } } :=
  commitRefs_eq r.commit

theorem br_measured : w'.br = r.measured.br := (congrArg Work.br r.eq_commit :)
theorem hdr_measured : w'.hdr = r.measured.hdr := (congrArg Work.hdr r.eq_commit :)

theorem out_type : outsideType r.typed = outsideType w := same_frameType.ok r.frameType
theorem out_frame : outsideFrame r.framed = outsideFrame r.typed := same_frameBranch.ok r.frameBranch
theorem out_color : outsideHdrColor r.colored = outsideHdrColor r.framed := same_colorCopy.ok r.colorCopy
theorem out_flags : outsideCtxFlags r.flagged = outsideCtxFlags r.colored := same_ctxFlags.ok r.ctxFlags
theorem out_restart : outsideReset r.restarted = outsideReset r.flagged := same_pastIndependence.ok r.restart
theorem out_lf : outsideLf r.filtered = outsideLf r.restarted := same_loopFilterParams.ok r.loopFilter
theorem out_quant : outsideQuant r.quantized = outsideQuant r.filtered := same_quantizationParams.ok r.quantize
theorem out_seg : outsideSeg r.segmented = outsideSeg r.quantized := same_segmentationParams.ok r.segment
theorem out_tile : outsideTile r.tiled = outsideTile r.segmented := same_tileInfo.ok r.tile
theorem out_length : outsideLength r.measured = outsideLength r.tiled := same_headerSize.ok r.measure

theorem ctx_length : r.measured.ctx = r.tiled.ctx := congrArg Prod.fst r.out_length
theorem ctx_tile : r.tiled.ctx = r.segmented.ctx := congrArg Prod.fst r.out_tile

/-- Steps 4 to 12 leave to the end what only steps 1 to 3 write. -/
theorem hdr_front : w'.hdr.profile = w.hdr.profile ∧ w'.hdr.showExistingFrame = w.hdr.showExistingFrame ∧
    w'.hdr.frameToShow = w.hdr.frameToShow := by
  rw [r.hdr_measured]
  refine ⟨?_, ?_, ?_⟩
  · exact (congrArg (fun p => p.2.profile) r.out_length).trans <| (congrArg (fun p => p.2.profile) r.out_tile).trans <|
      (congrArg (fun p => p.2.profile) r.out_seg).trans <| (congrArg (fun p => p.2.profile) r.out_quant).trans <|
      (congrArg (fun p => p.2.profile) r.out_lf).trans <| (congrArg (fun p => p.2.profile) r.out_restart).trans <|
      (congrArg (fun p => p.2.profile) r.out_flags).trans <| (congrArg (fun p => p.2.profile) r.out_color).trans <|
      (congrArg (fun p => p.2.profile) r.out_frame).trans <| congrArg (fun p => p.2.profile) r.out_type
  · exact (congrArg (fun p => p.2.showExistingFrame) r.out_length).trans <|
      (congrArg (fun p => p.2.showExistingFrame) r.out_tile).trans <|
      (congrArg (fun p => p.2.showExistingFrame) r.out_seg).trans <|
      (congrArg (fun p => p.2.showExistingFrame) r.out_quant).trans <|
      (congrArg (fun p => p.2.showExistingFrame) r.out_lf).trans <|
      (congrArg (fun p => p.2.showExistingFrame) r.out_restart).trans <|
      (congrArg (fun p => p.2.showExistingFrame) r.out_flags).trans <|
      (congrArg (fun p => p.2.showExistingFrame) r.out_color).trans <|
      (congrArg (fun p => p.2.showExistingFrame) r.out_frame).trans <|
      congrArg (fun p => p.2.showExistingFrame) r.out_type
  · exact (congrArg (fun p => p.2.frameToShow) r.out_length).trans <|
      (congrArg (fun p => p.2.frameToShow) r.out_tile).trans <|
      (congrArg (fun p => p.2.frameToShow) r.out_seg).trans <|
      (congrArg (fun p => p.2.frameToShow) r.out_quant).trans <|
      (congrArg (fun p => p.2.frameToShow) r.out_lf).trans <|
      (congrArg (fun p => p.2.frameToShow) r.out_restart).trans <|
      (congrArg (fun p => p.2.frameToShow) r.out_flags).trans <|
      (congrArg (fun p => p.2.frameToShow) r.out_color).trans <|
      (congrArg (fun p => p.2.frameToShow) r.out_frame).trans <| congrArg (fun p => p.2.frameToShow) r.out_type

/-- What every step after step 6 leaves alone of the header. -/
def frameFields (h : Header) :=
  (h.frameType, h.showFrame, h.errorResilientMode, h.intraOnly, h.resetFrameContext, h.refreshFrameFlags, h.width,
    h.height, h.displaySizePresent, h.displayWidth, h.displayHeight, h.refFrameIdx, h.refSignBias, h.sizeFromRef,
    h.allowHighPrecisionMv, h.interpFilter, h.profile)

theorem framed_colored : frameFields r.colored.hdr = frameFields r.framed.hdr :=
  congrArg (fun p => frameFields p.2) r.out_color

theorem colored_flagged : frameFields r.flagged.hdr = frameFields r.colored.hdr :=
  congrArg (fun p => frameFields p.2) r.out_flags

theorem flagged_restarted : frameFields r.restarted.hdr = frameFields r.flagged.hdr :=
  congrArg (fun p => frameFields p.2) r.out_restart

theorem restarted_filtered : frameFields r.filtered.hdr = frameFields r.restarted.hdr :=
  congrArg (fun p => frameFields p.2) r.out_lf

theorem filtered_quantized : frameFields r.quantized.hdr = frameFields r.filtered.hdr :=
  congrArg (fun p => frameFields p.2) r.out_quant

theorem quantized_segmented : frameFields r.segmented.hdr = frameFields r.quantized.hdr :=
  congrArg (fun p => frameFields p.2) r.out_seg

theorem segmented_tiled : frameFields r.tiled.hdr = frameFields r.segmented.hdr :=
  congrArg (fun p => frameFields p.2) r.out_tile

theorem tiled_measured : frameFields r.measured.hdr = frameFields r.tiled.hdr :=
  congrArg (fun p => frameFields p.2) r.out_length

/-- The final header's frame fields are those of `segmented` and of `framed`. -/
theorem fields_segmented : frameFields w'.hdr = frameFields r.segmented.hdr := by
  rw [r.hdr_measured, r.tiled_measured, r.segmented_tiled]

theorem fields_flagged : frameFields w'.hdr = frameFields r.flagged.hdr := by
  rw [r.fields_segmented, r.quantized_segmented, r.filtered_quantized, r.restarted_filtered, r.flagged_restarted]

theorem fields_framed : frameFields w'.hdr = frameFields r.framed.hdr := by
  rw [r.fields_flagged, r.colored_flagged, r.framed_colored]

/-- Step 4's fields are not written again. -/
theorem fields_typed : w'.hdr.frameType = r.typed.hdr.frameType ∧ w'.hdr.showFrame = r.typed.hdr.showFrame ∧
    w'.hdr.errorResilientMode = r.typed.hdr.errorResilientMode :=
  ⟨(congrArg (fun p => p.1) r.fields_framed).trans (congrArg (fun p => p.2.frameType) r.out_frame),
   (congrArg (fun p => p.2.1) r.fields_framed).trans (congrArg (fun p => p.2.showFrame) r.out_frame),
   (congrArg (fun p => p.2.2.1) r.fields_framed).trans (congrArg (fun p => p.2.errorResilientMode) r.out_frame)⟩

/-! ### The context -/

/-- Up to the past-independence reset only the colour registers change. -/
theorem ctx_flagged : r.flagged.ctx = { w.ctx with color := r.flagged.ctx.color } := by
  have h1 : r.typed.ctx = w.ctx := congrArg Prod.fst r.out_type
  have h2 : ({ r.framed.ctx with color := ColorConfig.zero } : Context) = { r.typed.ctx with color := ColorConfig.zero } :=
    congrArg Prod.fst r.out_frame
  have h3 : r.colored.ctx = r.framed.ctx := congrArg Prod.fst r.out_color
  have h4 : r.flagged.ctx = r.colored.ctx := congrArg Prod.fst r.out_flags
  rw [h4, h3]
  rw [h1] at h2
  have := congrArg (fun c : Context => { c with color := r.framed.ctx.color }) h2
  exact this

theorem ctx_framed : r.flagged.ctx = r.framed.ctx :=
  (congrArg Prod.fst r.out_flags).trans (congrArg Prod.fst r.out_color)

/-- The colour registers are final after step 6. -/
theorem color_framed : w'.ctx.color = r.framed.ctx.color := by
  have h1 : w'.ctx.color = r.measured.ctx.color := congrArg (fun w => w.ctx.color) r.eq_commit
  rw [h1, r.ctx_length, r.ctx_tile]
  exact (congrArg (fun p => p.1.color) r.out_seg).trans <| (congrArg (fun p => p.1.color) r.out_quant).trans <|
    (congrArg (fun p => p.1.color) r.out_lf).trans <| (congrArg (fun p => p.1.color) r.out_restart).trans <|
    congrArg Context.color r.ctx_framed

/-- The header's colour fields are final after the copy. -/
theorem hdr_color : w'.hdr.color = r.framed.ctx.color := by
  have h1 : r.colored.hdr.color = r.framed.ctx.color :=
    congrArg (fun w => w.hdr.color) (colorCopy_eq r.colorCopy)
  rw [r.hdr_measured, ← h1]
  exact (congrArg (fun p => p.2.color) r.out_length).trans <| (congrArg (fun p => p.2.color) r.out_tile).trans <|
    (congrArg (fun p => p.2.color) r.out_seg).trans <| (congrArg (fun p => p.2.color) r.out_quant).trans <|
    (congrArg (fun p => p.2.color) r.out_lf).trans <| (congrArg (fun p => p.2.color) r.out_restart).trans <|
    congrArg (fun p => p.2.color) r.out_flags

/-- Step 7's fields are not written again. -/
theorem hdr_ctxFlags : w'.hdr.refreshFrameContext = r.flagged.hdr.refreshFrameContext ∧
    w'.hdr.frameParallelDecodingMode = r.flagged.hdr.frameParallelDecodingMode ∧
    w'.hdr.frameContextIdx = r.flagged.hdr.frameContextIdx := by
  rw [r.hdr_measured]
  refine ⟨?_, ?_, ?_⟩
  · exact (congrArg (fun p => p.2.refreshFrameContext) r.out_length).trans <|
      (congrArg (fun p => p.2.refreshFrameContext) r.out_tile).trans <|
      (congrArg (fun p => p.2.refreshFrameContext) r.out_seg).trans <|
      (congrArg (fun p => p.2.refreshFrameContext) r.out_quant).trans <|
      (congrArg (fun p => p.2.refreshFrameContext) r.out_lf).trans <|
      congrArg (fun p => p.2.refreshFrameContext) r.out_restart
  · exact (congrArg (fun p => p.2.frameParallelDecodingMode) r.out_length).trans <|
      (congrArg (fun p => p.2.frameParallelDecodingMode) r.out_tile).trans <|
      (congrArg (fun p => p.2.frameParallelDecodingMode) r.out_seg).trans <|
      (congrArg (fun p => p.2.frameParallelDecodingMode) r.out_quant).trans <|
      (congrArg (fun p => p.2.frameParallelDecodingMode) r.out_lf).trans <|
      congrArg (fun p => p.2.frameParallelDecodingMode) r.out_restart
  · exact (congrArg (fun p => p.2.frameContextIdx) r.out_length).trans <|
      (congrArg (fun p => p.2.frameContextIdx) r.out_tile).trans <|
      (congrArg (fun p => p.2.frameContextIdx) r.out_seg).trans <|
      (congrArg (fun p => p.2.frameContextIdx) r.out_quant).trans <|
      (congrArg (fun p => p.2.frameContextIdx) r.out_lf).trans <|
      congrArg (fun p => p.2.frameContextIdx) r.out_restart

theorem hdr_lf : w'.hdr.lf = r.filtered.hdr.lf := by
  rw [r.hdr_measured]
  exact (congrArg (fun p => p.2.lf) r.out_length).trans <| (congrArg (fun p => p.2.lf) r.out_tile).trans <|
    (congrArg (fun p => p.2.lf) r.out_seg).trans <| congrArg (fun p => p.2.lf) r.out_quant

theorem hdr_q : w'.hdr.q = r.quantized.hdr.q ∧ w'.hdr.lossless = r.quantized.hdr.lossless := by
  rw [r.hdr_measured]
  exact ⟨(congrArg (fun p => p.2.q) r.out_length).trans <| (congrArg (fun p => p.2.q) r.out_tile).trans <|
      congrArg (fun p => p.2.q) r.out_seg,
    (congrArg (fun p => p.2.lossless) r.out_length).trans <| (congrArg (fun p => p.2.lossless) r.out_tile).trans <|
      congrArg (fun p => p.2.lossless) r.out_seg⟩

theorem hdr_seg : w'.hdr.seg = r.segmented.hdr.seg := by
  rw [r.hdr_measured]
  exact (congrArg (fun p => p.2.seg) r.out_length).trans <| congrArg (fun p => p.2.seg) r.out_tile

theorem hdr_tile : w'.hdr.tile = r.tiled.hdr.tile := by
  rw [r.hdr_measured]
  exact congrArg (fun p => p.2.tile) r.out_length

/-- The loop-filter deltas are final after step 8. -/
theorem ctx_lf : w'.ctx.lfRefDelta = r.filtered.ctx.lfRefDelta ∧ w'.ctx.lfModeDelta = r.filtered.ctx.lfModeDelta := by
  have h1 : w'.ctx.lfRefDelta = r.measured.ctx.lfRefDelta ∧ w'.ctx.lfModeDelta = r.measured.ctx.lfModeDelta :=
    ⟨congrArg (fun w => w.ctx.lfRefDelta) r.eq_commit, congrArg (fun w => w.ctx.lfModeDelta) r.eq_commit⟩
  rw [h1.1, h1.2, r.ctx_length, r.ctx_tile]
  exact ⟨(congrArg (fun p => p.1.lfRefDelta) r.out_seg).trans (congrArg (fun p => p.1.lfRefDelta) r.out_quant),
    (congrArg (fun p => p.1.lfModeDelta) r.out_seg).trans (congrArg (fun p => p.1.lfModeDelta) r.out_quant)⟩

/-- The lossless flag is final after step 9. -/
theorem ctx_lossless : w'.ctx.lossless = r.quantized.ctx.lossless := by
  have h1 : w'.ctx.lossless = r.measured.ctx.lossless := congrArg (fun w => w.ctx.lossless) r.eq_commit
  rw [h1, r.ctx_length, r.ctx_tile]
  exact congrArg (fun p => p.1.lossless) r.out_seg

/-- The segmentation registers. -/
def segRegs (c : Context) := (c.segTreeProb, c.segPredProb, c.segAbsDelta, c.seg)

/-- They are final after step 10. -/
theorem ctx_seg : segRegs w'.ctx = segRegs r.segmented.ctx := by
  have h1 : segRegs w'.ctx = segRegs r.measured.ctx := congrArg (fun w => segRegs w.ctx) r.eq_commit
  rw [h1, r.ctx_length, r.ctx_tile]

/-- Steps 8 and 9 leave them alone. -/
theorem seg_quantized : segRegs r.quantized.ctx = segRegs r.restarted.ctx :=
  (congrArg (fun p => segRegs p.1) r.out_quant).trans (congrArg (fun p => segRegs p.1) r.out_lf)

/-- The reference slots change only at the end (R126). -/
theorem ctx_refs : w'.ctx.refs = w.ctx.refs.mapFinIdx fun i old _ => refreshedSlot w'.hdr old i := by
  have h0 : w'.ctx.refs = r.measured.ctx.refs.mapFinIdx fun i old _ => refreshedSlot r.measured.hdr old i :=
    congrArg (fun w => w.ctx.refs) r.eq_commit
  have h1 : r.measured.ctx.refs = w.ctx.refs := by
    rw [r.ctx_length, r.ctx_tile]
    exact (congrArg (fun p => p.1.refs) r.out_seg).trans <| (congrArg (fun p => p.1.refs) r.out_quant).trans <|
      (congrArg (fun p => p.1.refs) r.out_lf).trans <| (congrArg (fun p => p.1.refs) r.out_restart).trans <|
      congrArg Context.refs r.ctx_flagged
  rw [h0, h1, r.hdr_measured]

end FullRun

end Sys2Proof.Machine
end

