-- ==== Sys2Proof/Laws/Steps.lean ====
section
/-! SUPPORT. What each step of a completed header leaves in the registers it writes. -/

namespace Sys2Proof.Machine

variable {ι : Type}

/-- A loop over distinct indices: what its body does for its own index is still there at the end. -/
theorem forEach_ok {P Q : ι → Work → Prop} {body : ι → Grammar Unit}
    (hP : ∀ i w w', Q i w → body i w = .ok () w' → P i w')
    (kP : ∀ i j w w', i ≠ j → body i w = .ok () w' → P j w → P j w')
    (kQ : ∀ i j w w', i ≠ j → body i w = .ok () w' → Q j w → Q j w')
    {is : List ι} (hn : is.Nodup) {w w' : Work} (hQ : ∀ i ∈ is, Q i w) (h : forEach body is w = .ok () w') :
    ∀ i ∈ is, P i w' := by
  induction is generalizing w with
  | nil => intro i hi; cases hi
  | cons i is ih =>
    obtain ⟨⟨⟩, w1, h1, h2⟩ := bind_ok.mp h
    have hni : i ∉ is := (List.nodup_cons.mp hn).1
    intro j hj
    rcases List.mem_cons.mp hj with rfl | hj
    · have hp := hP j w w1 (hQ j (List.mem_cons_self ..)) h1
      clear ih h hQ
      clear h1
      induction is generalizing w1 with
      | nil => cases h2; exact hp
      | cons k ks ihk =>
        obtain ⟨⟨⟩, w2, h3, h4⟩ := bind_ok.mp h2
        have hjk : k ≠ j := fun e => hni (e ▸ List.mem_cons_self ..)
        have hnd : (j :: ks).Nodup := by
          have := List.nodup_cons.mp hn
          exact List.nodup_cons.mpr
            ⟨fun hm => this.1 (List.mem_cons_of_mem _ hm), (List.nodup_cons.mp this.2).2⟩
        exact ihk w2 h4 hnd (fun hm => hni (List.mem_cons_of_mem _ hm)) (List.mem_cons_self ..) (kP k j w1 w2 hjk h3 hp)
    · exact ih (List.nodup_cons.mp hn).2
        (fun k hk => kQ i k w w1 (fun e => hni (e ▸ hk)) h1 (hQ k (List.mem_cons_of_mem _ hk))) h2 j hj

/-! ### Step 4 -/

theorem frameType_ok {w w' : Work} (h : frameType w = .ok () w') :
    ∃ t s e : Bool, w.br.flagAt = some t ∧ ({ w.br with pos := w.br.pos + 1 } : Reader).flagAt = some s ∧
      ({ w.br with pos := w.br.pos + 2 } : Reader).flagAt = some e ∧
      w' = { w with
        br := { w.br with pos := w.br.pos + 3 }
        hdr := { w.hdr with frameType := FrameType.ofFlag t, showFrame := s, errorResilientMode := e } } := by
  unfold frameType at h
  obtain ⟨t, w1, h1, h⟩ := bind_ok.mp h
  obtain ⟨ht, _, rfl⟩ := flag_ok h1
  obtain ⟨⟨⟩, w2, h2, h⟩ := bind_ok.mp h
  cases h2
  obtain ⟨s, w3, h3, h⟩ := bind_ok.mp h
  obtain ⟨hs, _, rfl⟩ := flag_ok h3
  obtain ⟨⟨⟩, w4, h4, h⟩ := bind_ok.mp h
  cases h4
  obtain ⟨e, w5, h5, h⟩ := bind_ok.mp h
  obtain ⟨he, _, rfl⟩ := flag_ok h5
  cases h
  exact ⟨t, s, e, ht, hs, he, rfl⟩

/-! ### Colour -/

theorem codesSubsampling_iff {p : Nat} : codesSubsampling p = true ↔ p = 1 ∨ p = 3 := by simp [codesSubsampling]

theorem bitDepth_ok {p : Nat} {w w' : Work} (h : bitDepth p w = .ok () w') :
    ∃ d, (if 2 ≤ p then d = .ten ∨ d = .twelve else d = .eight) ∧ w'.hdr = w.hdr ∧
      w'.ctx = { w.ctx with color := { w.ctx.color with bitDepth := d } } := by
  unfold bitDepth at h
  by_cases hp : 2 ≤ p
  · simp only [hp, if_true] at h
    obtain ⟨t, w1, h1, h⟩ := bind_ok.mp h
    obtain ⟨_, _, rfl⟩ := flag_ok h1
    cases h
    refine ⟨BitDepth.ofFlag t, ?_, rfl, rfl⟩
    cases t <;> simp [hp, BitDepth.ofFlag]
  · simp only [hp, if_false] at h
    cases h
    exact ⟨.eight, by simp [hp], rfl, rfl⟩

theorem colorReserved_ok {w w' : Work} (h : colorReserved w = .ok () w') : w'.ctx = w.ctx ∧ w'.hdr = w.hdr := by
  unfold colorReserved at h
  obtain ⟨r, w1, h1, h⟩ := bind_ok.mp h
  obtain ⟨_, _, rfl⟩ := flag_ok h1
  cases r with
  | true => cases h
  | false => cases h; exact ⟨rfl, rfl⟩

theorem subsampling_ok {p : Nat} {w w' : Work} (h : subsampling p w = .ok () w') :
    ∃ x y : Bool, (if p = 1 ∨ p = 3 then ¬(x = true ∧ y = true) else x = true ∧ y = true) ∧
      w'.ctx = { w.ctx with color := { w.ctx.color with subsamplingX := x, subsamplingY := y } } ∧ w'.hdr = w.hdr := by
  unfold subsampling at h
  by_cases hp : codesSubsampling p = true
  · simp only [hp, if_true] at h
    obtain ⟨x, w1, h1, h⟩ := bind_ok.mp h
    obtain ⟨_, _, rfl⟩ := flag_ok h1
    obtain ⟨⟨⟩, w2, h2, h⟩ := bind_ok.mp h
    cases h2
    obtain ⟨y, w3, h3, h⟩ := bind_ok.mp h
    obtain ⟨_, _, rfl⟩ := flag_ok h3
    obtain ⟨⟨⟩, w4, h4, h⟩ := bind_ok.mp h
    cases h4
    obtain ⟨⟨⟩, w5, h5, h⟩ := bind_ok.mp h
    cases hxy : (x && y) with
    | true => rw [hxy] at h5; cases h5
    | false =>
      rw [hxy] at h5; cases h5
      obtain ⟨hc, hh⟩ := colorReserved_ok h
      refine ⟨x, y, ?_, hc, hh⟩
      rw [if_pos (codesSubsampling_iff.mp hp)]
      rintro ⟨rfl, rfl⟩; cases hxy
  · have hp' : ¬(p = 1 ∨ p = 3) := fun e => hp (codesSubsampling_iff.mpr e)
    simp only [hp, if_false, Bool.false_eq_true] at h
    cases h
    exact ⟨true, true, by rw [if_neg hp']; exact ⟨rfl, rfl⟩, rfl, rfl⟩

theorem colorConfig_ok {w w' : Work} (h : colorConfig w = .ok () w') : w'.ctx.color.Legal w.hdr.profile := by
  unfold colorConfig at h
  obtain ⟨hd, w0, h0, h⟩ := bind_ok.mp h
  cases h0
  obtain ⟨⟨⟩, w1, h1, h⟩ := bind_ok.mp h
  obtain ⟨d, hd, _, hc1⟩ := bitDepth_ok h1
  obtain ⟨cs, w2, h2, h⟩ := bind_ok.mp h
  obtain ⟨_, _, rfl⟩ := f_ok h2
  obtain ⟨⟨⟩, w3, h3, h⟩ := bind_ok.mp h
  cases h3
  by_cases hs : ColorSpace.ofCode cs = .srgb
  · simp only [hs, if_true] at h
    unfold srgbColor at h
    obtain ⟨⟨⟩, w4, h4, h⟩ := bind_ok.mp h
    cases h4
    by_cases hp : codesSubsampling w.hdr.profile = true
    · simp only [hp, if_true] at h
      obtain ⟨⟨⟩, w5, h5, h⟩ := bind_ok.mp h
      cases h5
      obtain ⟨hc, _⟩ := colorReserved_ok h
      rw [hc]
      exact ⟨by simpa [hc1] using hd, fun _ => ⟨codesSubsampling_iff.mp hp, rfl, rfl, rfl⟩, fun hne => absurd rfl hne⟩
    · simp only [hp, if_false, Bool.false_eq_true] at h
      cases h
  · simp only [hs, if_false] at h
    unfold yuvColor at h
    obtain ⟨rg, w4, h4, h⟩ := bind_ok.mp h
    obtain ⟨_, _, rfl⟩ := flag_ok h4
    obtain ⟨⟨⟩, w5, h5, h⟩ := bind_ok.mp h
    cases h5
    obtain ⟨x, y, hxy, hc, _⟩ := subsampling_ok h
    rw [hc]
    exact ⟨by simpa [hc1] using hd, fun he => absurd he hs, fun _ => hxy⟩

theorem intraColor_ok {w w' : Work} (h : intraColor w = .ok () w') :
    if 0 < w.hdr.profile then w'.ctx.color.Legal w.hdr.profile else w'.ctx.color = intraOnlyColor := by
  unfold intraColor at h
  obtain ⟨hd, w0, h0, h⟩ := bind_ok.mp h
  cases h0
  by_cases hp : 0 < w.hdr.profile
  · simp only [hp, if_true] at h ⊢
    exact colorConfig_ok h
  · simp only [hp, if_false] at h ⊢
    cases h; rfl

theorem syncCode_ok {w w' : Work} (h : syncCode w = .ok () w') :
    w.br.bitsFrom 24 w.br.pos 0 = some Config.syncCode ∧
      w' = { w with br := { w.br with pos := w.br.pos + 24 } } := by
  unfold syncCode at h
  obtain ⟨m, w1, h1, h⟩ := bind_ok.mp h
  obtain ⟨hm, _, rfl⟩ := f_ok h1
  by_cases hc : m = Config.syncCode
  · subst hc; cases h; exact ⟨hm, rfl⟩
  · have : (m != Config.syncCode) = true := by simpa using hc
    rw [this] at h; cases h

/-! ### Step 5 -/

theorem keyFrame_ok {w w' : Work} (h : keyFrame w = .ok () w') :
    w'.ctx.color.Legal w.hdr.profile ∧ w'.hdr.intraOnly = false ∧ w'.hdr.resetFrameContext = 0 ∧
      w'.hdr.refreshFrameFlags = 0xFF ∧ w'.Sized := by
  unfold keyFrame at h
  obtain ⟨⟨⟩, w1, h1, h⟩ := bind_ok.mp h
  obtain ⟨_, rfl⟩ := syncCode_ok h1
  obtain ⟨⟨⟩, w2, h2, h⟩ := bind_ok.mp h
  have hc := colorConfig_ok h2
  obtain ⟨⟨⟩, w3, h3, h⟩ := bind_ok.mp h
  cases h3
  obtain ⟨⟨⟩, w4, h4, h⟩ := bind_ok.mp h
  have e4 := same_frameSize.ok h4
  have e5 := same_renderSize.ok h
  have ec : w'.ctx = w2.ctx := (congrArg Prod.fst e5).trans (congrArg Prod.fst e4)
  refine ⟨by rw [ec]; exact hc, ?_, ?_, ?_, renderSize_sized (frameSize_coded h4) h⟩
  · exact (congrArg (fun p => p.2.intraOnly) e5).trans (congrArg (fun p => p.2.intraOnly) e4)
  · exact (congrArg (fun p => p.2.resetFrameContext) e5).trans (congrArg (fun p => p.2.resetFrameContext) e4)
  · exact (congrArg (fun p => p.2.refreshFrameFlags) e5).trans (congrArg (fun p => p.2.refreshFrameFlags) e4)

/-! ### Step 6 -/

theorem intraOnly_ok {w w' : Work} (h : intraOnly w = .ok () w') :
    (w.hdr.showFrame = true → w'.hdr.intraOnly = false) ∧ w'.ctx = w.ctx ∧
      w'.hdr = { w.hdr with intraOnly := w'.hdr.intraOnly } := by
  unfold intraOnly at h
  obtain ⟨hd, w0, h0, h⟩ := bind_ok.mp h
  cases h0
  by_cases hs : w.hdr.showFrame = true
  · simp only [hs, if_true] at h
    cases h; exact ⟨fun _ => rfl, rfl, rfl⟩
  · simp only [hs, if_false, Bool.false_eq_true] at h
    obtain ⟨b, w1, h1, h⟩ := bind_ok.mp h
    obtain ⟨_, _, rfl⟩ := flag_ok h1
    cases h; exact ⟨fun he => absurd he hs, rfl, rfl⟩

theorem resetFrameContext_ok {w w' : Work} (h : resetFrameContext w = .ok () w') :
    (w.hdr.errorResilientMode = true → w'.hdr.resetFrameContext = 0) ∧ w'.ctx = w.ctx ∧
      w'.hdr = { w.hdr with resetFrameContext := w'.hdr.resetFrameContext } := by
  unfold resetFrameContext at h
  obtain ⟨hd, w0, h0, h⟩ := bind_ok.mp h
  cases h0
  by_cases hs : w.hdr.errorResilientMode = true
  · simp only [hs, if_true] at h
    cases h; exact ⟨fun _ => rfl, rfl, rfl⟩
  · simp only [hs, if_false, Bool.false_eq_true] at h
    obtain ⟨b, w1, h1, h⟩ := bind_ok.mp h
    obtain ⟨_, _, rfl⟩ := f_ok h1
    cases h; exact ⟨fun he => absurd he hs, rfl, rfl⟩

theorem refreshFlags_ok {w w' : Work} (h : refreshFlags w = .ok () w') :
    ∃ m, w.br.bitsFrom 8 w.br.pos 0 = some m ∧ w' = { w with
      br := { w.br with pos := w.br.pos + 8 }, hdr := { w.hdr with refreshFrameFlags := refreshMask m } } := by
  unfold refreshFlags at h
  obtain ⟨m, w1, h1, h⟩ := bind_ok.mp h
  obtain ⟨hm, _, rfl⟩ := f_ok h1
  cases h; exact ⟨m, hm, rfl⟩

theorem intraBranch_ok {w w' : Work} (h : intraBranch w = .ok () w') :
    (if 0 < w.hdr.profile then w'.ctx.color.Legal w.hdr.profile else w'.ctx.color = intraOnlyColor) ∧ w'.Sized ∧
      w'.hdr.intraOnly = w.hdr.intraOnly ∧ w'.hdr.resetFrameContext = w.hdr.resetFrameContext ∧
      w'.hdr.sizeFromRef = w.hdr.sizeFromRef := by
  unfold intraBranch at h
  obtain ⟨⟨⟩, w1, h1, h⟩ := bind_ok.mp h
  obtain ⟨_, rfl⟩ := syncCode_ok h1
  obtain ⟨⟨⟩, w2, h2, h⟩ := bind_ok.mp h
  have hc := intraColor_ok h2
  have e2 : w2.hdr = w.hdr := congrArg Prod.snd (same_intraColor.ok h2)
  obtain ⟨⟨⟩, w3, h3, h⟩ := bind_ok.mp h
  obtain ⟨m, _, rfl⟩ := refreshFlags_ok h3
  obtain ⟨⟨⟩, w4, h4, h⟩ := bind_ok.mp h
  have e4 := same_frameSize.ok h4
  have e5 := same_renderSize.ok h
  have ec : w'.ctx = w2.ctx := (congrArg Prod.fst e5).trans (congrArg Prod.fst e4)
  refine ⟨by rw [ec]; exact hc, renderSize_sized (frameSize_coded h4) h, ?_, ?_, ?_⟩
  · exact (congrArg (fun p => p.2.intraOnly) e5).trans ((congrArg (fun p => p.2.intraOnly) e4).trans
      (congrArg Header.intraOnly e2))
  · exact (congrArg (fun p => p.2.resetFrameContext) e5).trans ((congrArg (fun p => p.2.resetFrameContext) e4).trans
      (congrArg Header.resetFrameContext e2))
  · exact (congrArg (fun p => p.2.sizeFromRef) e5).trans ((congrArg (fun p => p.2.sizeFromRef) e4).trans
      (congrArg Header.sizeFromRef e2))

theorem refEntry_ok {i : Fin 3} {w w' : Work} (h : refEntry i w = .ok () w') :
    ∃ s b, w.br.bitsFrom 3 w.br.pos 0 = some s ∧ ({ w.br with pos := w.br.pos + 3 } : Reader).flagAt = some b ∧
      w' = { w with
        br := { w.br with pos := w.br.pos + 4 }
        hdr := { w.hdr with
          refFrameIdx := w.hdr.refFrameIdx.set i (slotOf s), refSignBias := w.hdr.refSignBias.set i b } } := by
  unfold refEntry at h
  obtain ⟨s, w1, h1, h⟩ := bind_ok.mp h
  obtain ⟨hs, _, rfl⟩ := f_ok h1
  obtain ⟨⟨⟩, w2, h2, h⟩ := bind_ok.mp h
  cases h2
  obtain ⟨b, w3, h3, h⟩ := bind_ok.mp h
  obtain ⟨hb, _, rfl⟩ := flag_ok h3
  cases h
  exact ⟨s, b, hs, hb, rfl⟩

theorem copyRefSize_ok {i : Fin 3} {w w' : Work} (h : copyRefSize i w = .ok () w') :
    (w.ctx.refs[w.hdr.refFrameIdx[i]]).valid = true ∧ w' = { w with hdr := { w.hdr with
      width := (w.ctx.refs[w.hdr.refFrameIdx[i]]).width, height := (w.ctx.refs[w.hdr.refFrameIdx[i]]).height } } := by
  rw [copyRefSize_run] at h
  split at h
  · rename_i hv; cases h; exact ⟨hv, rfl⟩
  · cases h

/-- The size-from-reference flags (R107): none was 1, or exactly one was and its slot gave the size. -/
theorem sizeFlags_ok {is : List (Fin 3)} (hn : is.Nodup) {w w' : Work} {b : Bool} (h : sizeFlags is w = .ok b w')
    (hz : ∀ i : Fin 3, w.hdr.sizeFromRef[i] = false) :
    w'.ctx = w.ctx ∧ w'.hdr.refFrameIdx = w.hdr.refFrameIdx ∧
      (b = false → (∀ i : Fin 3, w'.hdr.sizeFromRef[i] = false) ∧ w'.hdr.width = w.hdr.width ∧
        w'.hdr.height = w.hdr.height) ∧
      (b = true → ∃ k ∈ is, (∀ i : Fin 3, w'.hdr.sizeFromRef[i] = decide (i = k)) ∧
        (w.ctx.refs[w.hdr.refFrameIdx[k]]).valid = true ∧
        w'.hdr.width = (w.ctx.refs[w.hdr.refFrameIdx[k]]).width ∧
        w'.hdr.height = (w.ctx.refs[w.hdr.refFrameIdx[k]]).height) := by
  induction is generalizing w with
  | nil => cases h; exact ⟨rfl, rfl, fun _ => ⟨hz, rfl, rfl⟩, fun h => by cases h⟩
  | cons i is ih =>
    unfold sizeFlags at h
    obtain ⟨c, w1, h1, h⟩ := bind_ok.mp h
    obtain ⟨_, _, rfl⟩ := flag_ok h1
    obtain ⟨⟨⟩, w2, h2, h⟩ := bind_ok.mp h
    cases h2
    cases c with
    | true =>
      simp only [if_true] at h
      obtain ⟨⟨⟩, w3, h3, h⟩ := bind_ok.mp h
      obtain ⟨hv, rfl⟩ := copyRefSize_ok h3
      cases h
      refine ⟨rfl, rfl, (fun h => by cases h), fun _ => ⟨i, List.mem_cons_self .., fun j => ?_, hv, rfl, rfl⟩⟩
      show (w.hdr.sizeFromRef.set i true)[j] = _
      rw [vector_get_set]
      by_cases hij : i = j
      · simp [hij]
      · have : ¬ j = i := fun e => hij e.symm
        simp [hij, this]; exact hz j
    | false =>
      simp only [if_false, Bool.false_eq_true] at h
      obtain ⟨hc, hi, h0, h1⟩ := ih (List.nodup_cons.mp hn).2 h (fun j => by
        show (w.hdr.sizeFromRef.set i false)[j] = false
        rw [vector_get_set]; split
        · rfl
        · exact hz j)
      refine ⟨hc, hi, h0, fun hb => ?_⟩
      obtain ⟨k, hk, rest⟩ := h1 hb
      exact ⟨k, List.mem_cons_of_mem _ hk, rest⟩

/-- The frame size of a non-intra inter frame (R107). -/
theorem sizeWithRefs_ok {w w' : Work} (h : sizeWithRefs w = .ok () w')
    (hz : ∀ i : Fin 3, w.hdr.sizeFromRef[i] = false)
    (hr : ∀ i : Fin 8, w.ctx.refs[i].inRange) :
    w'.Sized ∧ w'.ctx = w.ctx ∧ w'.hdr.refFrameIdx = w.hdr.refFrameIdx ∧ w'.hdr.intraOnly = w.hdr.intraOnly ∧
      w'.hdr.resetFrameContext = w.hdr.resetFrameContext ∧
      ((∀ i : Fin 3, w'.hdr.sizeFromRef[i] = false) ∨
        ∃ k, (∀ i : Fin 3, w'.hdr.sizeFromRef[i] = decide (i = k)) ∧
          (w.ctx.refs[w.hdr.refFrameIdx[k]]).valid = true ∧
          w'.hdr.width = (w.ctx.refs[w.hdr.refFrameIdx[k]]).width ∧
          w'.hdr.height = (w.ctx.refs[w.hdr.refFrameIdx[k]]).height) := by
  unfold sizeWithRefs at h
  obtain ⟨b, w1, h1, h⟩ := bind_ok.mp h
  obtain ⟨hc, hi, h0, hb⟩ := sizeFlags_ok (by decide) h1 hz
  have e1 := (same_sizeFlags _).ok h1
  obtain ⟨⟨⟩, w2, h2, h3⟩ := bind_ok.mp h
  have e3 := same_renderSize.ok h3
  have k3 : w'.hdr.sizeFromRef = w2.hdr.sizeFromRef := congrArg (fun p => p.2.sizeFromRef) e3
  have kw : w'.hdr.width = w2.hdr.width ∧ w'.hdr.height = w2.hdr.height := by
    obtain ⟨p, _, hp0, hp1⟩ := renderSize_ok h3
    cases p with
    | false => rw [hp0 rfl]; exact ⟨rfl, rfl⟩
    | true => obtain ⟨_, _, _, _, rfl⟩ := hp1 rfl; exact ⟨rfl, rfl⟩
  have e2 : outsideSize w2 = outsideSize w1 := (same_whenTrue same_frameSize).ok h2
  have kctx : w'.ctx = w.ctx := (congrArg Prod.fst e3).trans ((congrArg Prod.fst e2).trans hc)
  have kidx : w'.hdr.refFrameIdx = w.hdr.refFrameIdx :=
    (congrArg (fun p => p.2.refFrameIdx) e3).trans ((congrArg (fun p => p.2.refFrameIdx) e2).trans hi)
  have kio : w'.hdr.intraOnly = w.hdr.intraOnly :=
    (congrArg (fun p => p.2.intraOnly) e3).trans ((congrArg (fun p => p.2.intraOnly) e2).trans
      (congrArg (fun p => p.2.intraOnly) e1))
  have kre : w'.hdr.resetFrameContext = w.hdr.resetFrameContext :=
    (congrArg (fun p => p.2.resetFrameContext) e3).trans ((congrArg (fun p => p.2.resetFrameContext) e2).trans
      (congrArg (fun p => p.2.resetFrameContext) e1))
  cases b with
  | false =>
    simp only [Bool.not_false, whenTrue_true] at h2
    obtain ⟨hf, _, _⟩ := h0 rfl
    have k2 : w2.hdr.sizeFromRef = w1.hdr.sizeFromRef := congrArg (fun p => p.2.sizeFromRef) e2
    exact ⟨renderSize_sized (frameSize_coded h2) h3, kctx, kidx, kio, kre, .inl fun i => by rw [k3, k2]; exact hf i⟩
  | true =>
    simp only [Bool.not_true, whenTrue_false] at h2
    cases h2
    obtain ⟨k, _, hs, hv, hw, hh⟩ := hb rfl
    have := (hr (w.hdr.refFrameIdx[k])).2.2 hv
    refine ⟨renderSize_sized ⟨?_, ?_⟩ h3, kctx, kidx, kio, kre, .inr ⟨k, fun i => by rw [k3]; exact hs i, hv, ?_, ?_⟩⟩
    · rw [hw]; exact this.1
    · rw [hh]; exact this.2
    · rw [kw.1]; exact hw
    · rw [kw.2]; exact hh

end Sys2Proof.Machine
end

