-- ==== Sys2Proof/Laws/Params.lean ====
section
/-! SUPPORT. What the rest of step 6 and the steps 7 to 12 of a completed header leave in the registers they write. -/

namespace Sys2Proof.Machine

/-! ### Step 6, whole -/

theorem interBranch_ok {w w' : Work} (h : interBranch w = .ok () w')
    (hz : ∀ i : Fin 3, w.hdr.sizeFromRef[i] = false) (hr : ∀ i : Fin 8, w.ctx.refs[i].inRange) :
    w'.Sized ∧ w'.ctx = w.ctx ∧ w'.hdr.intraOnly = w.hdr.intraOnly ∧
      w'.hdr.resetFrameContext = w.hdr.resetFrameContext ∧ SizeFlags w.ctx.refs w'.hdr := by
  unfold interBranch at h
  obtain ⟨⟨⟩, w1, h1, h⟩ := bind_ok.mp h
  obtain ⟨m, _, rfl⟩ := refreshFlags_ok h1
  obtain ⟨⟨⟩, w2, h2, h⟩ := bind_ok.mp h
  have e2 : (w2.ctx, { w2.hdr with refFrameIdx := w.hdr.refFrameIdx, refSignBias := w.hdr.refSignBias }) =
      (w.ctx, { w.hdr with refreshFrameFlags := refreshMask m }) := by
    have hs : Same (fun v => (v.ctx, ({ v.hdr with
        refFrameIdx := w.hdr.refFrameIdx, refSignBias := w.hdr.refSignBias } : Header))) (forEach refEntry [0, 1, 2]) :=
      same_forEach (fun i => by
        unfold refEntry
        exact same_bind (same_receive (fun _ _ => rfl) _) fun _ => same_bind (same_setHdr fun _ => rfl) fun _ =>
          same_bind (same_receive (fun _ _ => rfl) _) fun _ => same_setHdr fun _ => rfl) _
    exact hs.ok h2
  have c2 : w2.ctx = w.ctx := congrArg Prod.fst e2
  obtain ⟨⟨⟩, w3, h3, h⟩ := bind_ok.mp h
  obtain ⟨hsz, c3, i3, o3, r3, f3⟩ := sizeWithRefs_ok h3
    (fun i => by rw [show w2.hdr.sizeFromRef = w.hdr.sizeFromRef from congrArg (fun p => p.2.sizeFromRef) e2]; exact hz i)
    (fun i => by rw [c2]; exact hr i)
  obtain ⟨⟨⟩, w4, h4, h⟩ := bind_ok.mp h
  have k4 : w4.ctx = w3.ctx ∧ w4.hdr = { w3.hdr with allowHighPrecisionMv := w4.hdr.allowHighPrecisionMv } := by
    unfold highPrecisionMv at h4
    obtain ⟨b, w5, h5, h4⟩ := bind_ok.mp h4
    obtain ⟨_, _, rfl⟩ := flag_ok h5
    cases h4; exact ⟨rfl, rfl⟩
  have k5 : w'.ctx = w4.ctx ∧ w'.hdr = { w4.hdr with interpFilter := w'.hdr.interpFilter } := by
    unfold interpFilter at h
    obtain ⟨b, w5, h5, h⟩ := bind_ok.mp h
    obtain ⟨_, _, rfl⟩ := flag_ok h5
    cases b with
    | true => cases h; exact ⟨rfl, rfl⟩
    | false =>
      simp only [if_false, Bool.false_eq_true] at h
      obtain ⟨l, w6, h6, h⟩ := bind_ok.mp h
      obtain ⟨_, _, rfl⟩ := f_ok h6
      cases h; exact ⟨rfl, rfl⟩
  have hh : w'.hdr = { w3.hdr with
      allowHighPrecisionMv := w4.hdr.allowHighPrecisionMv, interpFilter := w'.hdr.interpFilter } := by
    conv_lhs => rw [k5.2, k4.2]
  refine ⟨?_, by rw [k5.1, k4.1, c3, c2], ?_, ?_, ?_⟩
  · unfold Work.Sized; rw [hh]; exact hsz
  · rw [hh]; exact o3.trans (congrArg (fun p => p.2.intraOnly) e2)
  · rw [hh]; exact r3.trans (congrArg (fun p => p.2.resetFrameContext) e2)
  · unfold SizeFlags
    rw [hh]
    show (∀ i : Fin 3, w3.hdr.sizeFromRef[i] = false) ∨ ∃ k : Fin 3, (∀ i : Fin 3, w3.hdr.sizeFromRef[i] = decide (i = k)) ∧
      (w.ctx.refs[w3.hdr.refFrameIdx[k]]).valid = true ∧ w3.hdr.width = (w.ctx.refs[w3.hdr.refFrameIdx[k]]).width ∧
      w3.hdr.height = (w.ctx.refs[w3.hdr.refFrameIdx[k]]).height
    simp only [i3]
    rw [c2] at f3
    exact f3

/-- What step 5 or 6 leaves (R98, R100, R103 to R107). -/
structure FrameOk (w w' : Work) : Prop where
  sized : w'.Sized
  flags : SizeFlags w.ctx.refs w'.hdr
  key   : w.hdr.frameType = .key →
    w'.hdr.intraOnly = false ∧ w'.hdr.resetFrameContext = 0 ∧ w'.hdr.refreshFrameFlags = 0xFF
  shown : w.hdr.frameType = .inter → w.hdr.showFrame = true → w'.hdr.intraOnly = false
  resilient : w.hdr.frameType = .inter → w.hdr.errorResilientMode = true → w'.hdr.resetFrameContext = 0
  coded : w.hdr.frameType = .key ∨ (w'.hdr.intraOnly = true ∧ 0 < w.hdr.profile) → w'.ctx.color.Legal w.hdr.profile
  forced : w.hdr.frameType = .inter → w'.hdr.intraOnly = true → w.hdr.profile = 0 → w'.ctx.color = intraOnlyColor
  kept : w.hdr.frameType = .inter → w'.hdr.intraOnly = false → w'.ctx = w.ctx

theorem frameBranch_ok {w w' : Work} (h : frameBranch w = .ok () w')
    (hz : ∀ i : Fin 3, w.hdr.sizeFromRef[i] = false) (hr : ∀ i : Fin 8, w.ctx.refs[i].inRange) : FrameOk w w' := by
  unfold frameBranch at h
  obtain ⟨hd, w0, h0, h⟩ := bind_ok.mp h
  cases h0
  by_cases hk : w.hdr.frameType = .key
  · simp only [hk, if_true] at h
    obtain ⟨hc, hio, hrs, hrf, hsz⟩ := keyFrame_ok h
    have hs : w'.hdr.sizeFromRef = w.hdr.sizeFromRef := by
      have hsame : Same (fun v => v.hdr.sizeFromRef) keyFrame := by
        unfold keyFrame
        exact same_bind (same_syncCode.map fun p => p.2.sizeFromRef) fun _ =>
          same_bind (same_colorConfig.map fun p => p.2.sizeFromRef) fun _ => same_bind (same_setHdr fun _ => rfl) fun _ =>
            same_bind (same_frameSize.map fun p => p.2.sizeFromRef) fun _ => same_renderSize.map fun p => p.2.sizeFromRef
      exact hsame.ok h
    exact {
      sized := hsz
      flags := .inl fun i => by rw [hs]; exact hz i
      key := fun _ => ⟨hio, hrs, hrf⟩
      shown := fun e => by rw [hk] at e; cases e
      resilient := fun e => by rw [hk] at e; cases e
      coded := fun _ => hc
      forced := fun e => by rw [hk] at e; cases e
      kept := fun e => by rw [hk] at e; cases e }
  · simp only [hk, if_false] at h
    unfold interFrame at h
    obtain ⟨⟨⟩, w1, h1, h⟩ := bind_ok.mp h
    obtain ⟨s1, c1, e1⟩ := intraOnly_ok h1
    obtain ⟨⟨⟩, w2, h2, h⟩ := bind_ok.mp h
    obtain ⟨s2, c2, e2⟩ := resetFrameContext_ok h2
    obtain ⟨hd, w3, h3, h⟩ := bind_ok.mp h
    cases h3
    have he : w1.hdr.errorResilientMode = w.hdr.errorResilientMode := by rw [e1]
    have hio : w2.hdr.intraOnly = w1.hdr.intraOnly := by rw [e2]
    have hp : w2.hdr.profile = w.hdr.profile := by rw [e2, e1]
    have hsf : w2.hdr.sizeFromRef = w.hdr.sizeFromRef := by rw [e2, e1]
    have hc : w2.ctx = w.ctx := by rw [c2, c1]
    by_cases hi : w2.hdr.intraOnly = true
    · simp only [hi, if_true] at h
      obtain ⟨hcol, hsz, hio', hrs', hsf'⟩ := intraBranch_ok h
      rw [hp] at hcol
      exact {
        sized := hsz
        flags := .inl fun i => by rw [hsf', hsf]; exact hz i
        key := fun e => absurd e hk
        shown := fun _ hs => by rw [hio', hio]; exact s1 hs
        resilient := fun _ hs => by rw [hrs']; exact s2 (by rw [he]; exact hs)
        coded := fun e => by
          rcases e with e | ⟨_, hpos⟩
          · exact absurd e hk
          · rw [if_pos hpos] at hcol; exact hcol
        forced := fun _ _ hp0 => by rw [if_neg (by omega)] at hcol; exact hcol
        kept := fun _ hf => by rw [hio'] at hf; rw [hi] at hf; cases hf }
    · simp only [hi, if_false, Bool.false_eq_true] at h
      obtain ⟨hsz, hcx, hio', hrs', hfl⟩ := interBranch_ok h (fun i => by rw [hsf]; exact hz i)
        (fun i => by rw [hc]; exact hr i)
      rw [hc] at hfl
      have hif : w'.hdr.intraOnly = false := by rw [hio']; simpa using hi
      exact {
        sized := hsz
        flags := hfl
        key := fun e => absurd e hk
        shown := fun _ _ => hif
        resilient := fun _ hs => by rw [hrs']; exact s2 (by rw [he]; exact hs)
        coded := fun e => by
          rcases e with e | ⟨hi', _⟩
          · exact absurd e hk
          · rw [hif] at hi'; cases hi'
        forced := fun _ hi' => by rw [hif] at hi'; cases hi'
        kept := fun _ _ => by rw [hcx, hc] }

/-! ### Step 7 -/

theorem ctxFlags_ok {w w' : Work} (h : ctxFlags w = .ok () w') :
    w.hdr.errorResilientMode = true →
      w'.hdr.refreshFrameContext = false ∧ w'.hdr.frameParallelDecodingMode = true := by
  intro he
  unfold ctxFlags at h
  obtain ⟨⟨⟩, w1, h1, h⟩ := bind_ok.mp h
  obtain ⟨i, w2, h2, h⟩ := bind_ok.mp h
  obtain ⟨_, _, rfl⟩ := f_ok h2
  cases h
  unfold ctxFlagPair at h1
  obtain ⟨hd, w0, h0, h1⟩ := bind_ok.mp h1
  cases h0
  simp only [he, if_true] at h1
  cases h1
  exact ⟨rfl, rfl⟩

/-! ### Step 8 -/

theorem refDelta_ok {i : Fin 4} {w w' : Work} (h : refDelta i w = .ok () w') :
    ∃ b v, w'.hdr.lf = { w.hdr.lf with refDeltaUpdated := w.hdr.lf.refDeltaUpdated.set i b } ∧
      w'.ctx = { w.ctx with lfRefDelta := if b then w.ctx.lfRefDelta.set i v else w.ctx.lfRefDelta } := by
  unfold refDelta at h
  obtain ⟨b, w1, h1, h⟩ := bind_ok.mp h
  obtain ⟨_, _, rfl⟩ := flag_ok h1
  obtain ⟨⟨⟩, w2, h2, h⟩ := bind_ok.mp h
  cases h2
  cases b with
  | false => cases h; exact ⟨false, 0, rfl, rfl⟩
  | true =>
    simp only [whenTrue_true] at h
    obtain ⟨v, w3, h3, h⟩ := bind_ok.mp h
    obtain ⟨_, _, rfl⟩ := su_ok h3
    cases h; exact ⟨true, v, rfl, rfl⟩

theorem modeDelta_ok {i : Fin 2} {w w' : Work} (h : modeDelta i w = .ok () w') :
    ∃ b v, w'.hdr.lf = { w.hdr.lf with modeDeltaUpdated := w.hdr.lf.modeDeltaUpdated.set i b } ∧
      w'.ctx = { w.ctx with lfModeDelta := if b then w.ctx.lfModeDelta.set i v else w.ctx.lfModeDelta } := by
  unfold modeDelta at h
  obtain ⟨b, w1, h1, h⟩ := bind_ok.mp h
  obtain ⟨_, _, rfl⟩ := flag_ok h1
  obtain ⟨⟨⟩, w2, h2, h⟩ := bind_ok.mp h
  cases h2
  cases b with
  | false => cases h; exact ⟨false, 0, rfl, rfl⟩
  | true =>
    simp only [whenTrue_true] at h
    obtain ⟨v, w3, h3, h⟩ := bind_ok.mp h
    obtain ⟨_, _, rfl⟩ := su_ok h3
    cases h; exact ⟨true, v, rfl, rfl⟩

/-- Both delta arrays, with their update flags. -/
def deltaRegs (w : Work) :=
  (w.ctx.lfRefDelta, w.ctx.lfModeDelta, w.hdr.lf.refDeltaUpdated, w.hdr.lf.modeDeltaUpdated)

/-- Deltas whose update flag is 0 keep their value through the update (R113). -/
theorem lfDeltas_ok {w w' : Work} (h : lfDeltas w = .ok () w') :
    (∀ i : Fin 4, w'.hdr.lf.refDeltaUpdated[i] = false → w'.ctx.lfRefDelta[i] = w.ctx.lfRefDelta[i]) ∧
      ∀ i : Fin 2, w'.hdr.lf.modeDeltaUpdated[i] = false → w'.ctx.lfModeDelta[i] = w.ctx.lfModeDelta[i] := by
  unfold lfDeltas at h
  obtain ⟨⟨⟩, w1, h1, h2⟩ := bind_ok.mp h
  have a1 := forEach_ok (body := refDelta)
    (P := fun (i : Fin 4) v => v.hdr.lf.refDeltaUpdated[i] = false → v.ctx.lfRefDelta[i] = w.ctx.lfRefDelta[i])
    (Q := fun (i : Fin 4) v => v.ctx.lfRefDelta[i] = w.ctx.lfRefDelta[i])
    (fun i v v' hq hv => by
      obtain ⟨b, x, hl, hc⟩ := refDelta_ok hv
      rw [hl, hc]
      cases b with
      | false => intro _; exact hq
      | true => intro hf; simp at hf)
    (fun i j v v' hij hv hp => by
      obtain ⟨b, x, hl, hc⟩ := refDelta_ok hv
      rw [hl, hc]
      intro hf
      have hf' : v.hdr.lf.refDeltaUpdated[j] = false := by
        rw [show (v.hdr.lf.refDeltaUpdated.set i b)[j] = v.hdr.lf.refDeltaUpdated[j] by
          rw [vector_get_set, if_neg hij]] at hf
        exact hf
      have := hp hf'
      cases b with
      | false => exact this
      | true =>
        show (v.ctx.lfRefDelta.set i x)[j] = _
        rw [vector_get_set, if_neg hij]; exact this)
    (fun i j v v' hij hv hp => by
      obtain ⟨b, x, hl, hc⟩ := refDelta_ok hv
      rw [hc]
      cases b with
      | false => exact hp
      | true =>
        show (v.ctx.lfRefDelta.set i x)[j] = _
        rw [vector_get_set, if_neg hij]; exact hp)
    (is := [0, 1, 2, 3]) (by decide) (fun i _ => rfl) h1
  have m1 : w1.ctx.lfModeDelta = w.ctx.lfModeDelta :=
    (show Same (fun v => v.ctx.lfModeDelta) (forEach refDelta [0, 1, 2, 3]) from same_forEach (fun i => by
      unfold refDelta
      exact same_bind (same_receive (fun _ _ => rfl) _) fun _ => same_bind (same_setHdr fun _ => rfl) fun _ =>
        same_whenTrue (same_bind (same_receive (fun _ _ => rfl) _) fun _ => same_setCtx fun _ => rfl)) _).ok h1
  have r2 : (w'.ctx.lfRefDelta, w'.hdr.lf.refDeltaUpdated) = (w1.ctx.lfRefDelta, w1.hdr.lf.refDeltaUpdated) :=
    (show Same (fun v => (v.ctx.lfRefDelta, v.hdr.lf.refDeltaUpdated)) (forEach modeDelta [0, 1]) from
      same_forEach (fun i => by
        unfold modeDelta
        exact same_bind (same_receive (fun _ _ => rfl) _) fun _ => same_bind (same_setHdr fun _ => rfl) fun _ =>
          same_whenTrue (same_bind (same_receive (fun _ _ => rfl) _) fun _ => same_setCtx fun _ => rfl)) _).ok h2
  have a2 := forEach_ok (body := modeDelta)
    (P := fun (i : Fin 2) v => v.hdr.lf.modeDeltaUpdated[i] = false → v.ctx.lfModeDelta[i] = w.ctx.lfModeDelta[i])
    (Q := fun (i : Fin 2) v => v.ctx.lfModeDelta[i] = w.ctx.lfModeDelta[i])
    (fun i v v' hq hv => by
      obtain ⟨b, x, hl, hc⟩ := modeDelta_ok hv
      rw [hl, hc]
      cases b with
      | false => intro _; exact hq
      | true => intro hf; simp at hf)
    (fun i j v v' hij hv hp => by
      obtain ⟨b, x, hl, hc⟩ := modeDelta_ok hv
      rw [hl, hc]
      intro hf
      have hf' : v.hdr.lf.modeDeltaUpdated[j] = false := by
        rw [show (v.hdr.lf.modeDeltaUpdated.set i b)[j] = v.hdr.lf.modeDeltaUpdated[j] by
          rw [vector_get_set, if_neg hij]] at hf
        exact hf
      have := hp hf'
      cases b with
      | false => exact this
      | true =>
        show (v.ctx.lfModeDelta.set i x)[j] = _
        rw [vector_get_set, if_neg hij]; exact this)
    (fun i j v v' hij hv hp => by
      obtain ⟨b, x, hl, hc⟩ := modeDelta_ok hv
      rw [hc]
      cases b with
      | false => exact hp
      | true =>
        show (v.ctx.lfModeDelta.set i x)[j] = _
        rw [vector_get_set, if_neg hij]; exact hp)
    (is := [0, 1]) (by decide) (fun i _ => by rw [m1]) h2
  refine ⟨fun i hf => ?_, fun i => a2 i ((by decide : ∀ i : Fin 2, i ∈ [0, 1]) i)⟩
  have hr : w'.ctx.lfRefDelta = w1.ctx.lfRefDelta := congrArg Prod.fst r2
  have hu : w'.hdr.lf.refDeltaUpdated = w1.hdr.lf.refDeltaUpdated := congrArg Prod.snd r2
  rw [hr]
  rw [hu] at hf
  exact a1 i ((by decide : ∀ i : Fin 4, i ∈ [0, 1, 2, 3]) i) hf

theorem zero_refDeltaUpdated : ∀ i : Fin 4, Header.zero.lf.refDeltaUpdated[i] = false := by decide
theorem zero_modeDeltaUpdated : ∀ i : Fin 2, Header.zero.lf.modeDeltaUpdated[i] = false := by decide

/-- Step 8 of a header whose loop-filter fields were still 0: the header reports the deltas in force, and a delta whose
update flag is 0 kept its value (R112 to R114). -/
theorem loopFilterParams_ok {w w' : Work} (h : loopFilterParams w = .ok () w') (hz : w.hdr.lf = Header.zero.lf) :
    w'.hdr.lf.refDelta = w'.ctx.lfRefDelta ∧ w'.hdr.lf.modeDelta = w'.ctx.lfModeDelta ∧
      (∀ i : Fin 4, w'.hdr.lf.refDeltaUpdated[i] = false → w'.ctx.lfRefDelta[i] = w.ctx.lfRefDelta[i]) ∧
      (∀ i : Fin 2, w'.hdr.lf.modeDeltaUpdated[i] = false → w'.ctx.lfModeDelta[i] = w.ctx.lfModeDelta[i]) ∧
      (w'.hdr.lf.modeRefDeltaEnabled = false → w'.hdr.lf.modeRefDeltaUpdate = false) ∧
      (w'.hdr.lf.modeRefDeltaUpdate = false →
        (∀ i : Fin 4, w'.hdr.lf.refDeltaUpdated[i] = false) ∧ ∀ i : Fin 2, w'.hdr.lf.modeDeltaUpdated[i] = false) := by
  unfold loopFilterParams at h
  obtain ⟨l, w1, h1, h⟩ := bind_ok.mp h
  obtain ⟨_, _, rfl⟩ := f_ok h1
  obtain ⟨⟨⟩, w2, h2, h⟩ := bind_ok.mp h
  cases h2
  obtain ⟨sh, w3, h3, h⟩ := bind_ok.mp h
  obtain ⟨_, _, rfl⟩ := f_ok h3
  obtain ⟨⟨⟩, w4, h4, h⟩ := bind_ok.mp h
  cases h4
  obtain ⟨en, w5, h5, h⟩ := bind_ok.mp h
  obtain ⟨_, _, rfl⟩ := flag_ok h5
  obtain ⟨⟨⟩, w6, h6, h⟩ := bind_ok.mp h
  cases h6
  obtain ⟨⟨⟩, w7, h7, h⟩ := bind_ok.mp h
  cases h
  have hzu : ∀ i : Fin 4, w.hdr.lf.refDeltaUpdated[i] = false := fun i => by
    rw [hz]; exact zero_refDeltaUpdated i
  have hzm : ∀ i : Fin 2, w.hdr.lf.modeDeltaUpdated[i] = false := fun i => by
    rw [hz]; exact zero_modeDeltaUpdated i
  have hzr : w.hdr.lf.modeRefDeltaUpdate = false := by rw [hz]; rfl
  cases en with
  | false =>
    cases h7
    exact ⟨rfl, rfl, fun _ _ => rfl, fun _ _ => rfl, fun _ => hzr, fun _ => ⟨hzu, hzm⟩⟩
  | true =>
    simp only [whenTrue_true] at h7
    unfold lfUpdate at h7
    obtain ⟨u, w8, h8, h7⟩ := bind_ok.mp h7
    obtain ⟨_, _, rfl⟩ := flag_ok h8
    obtain ⟨⟨⟩, w9, h9, h7⟩ := bind_ok.mp h7
    cases h9
    cases u with
    | false =>
      cases h7
      exact ⟨rfl, rfl, fun _ _ => rfl, fun _ _ => rfl, fun _ => rfl, fun _ => ⟨hzu, hzm⟩⟩
    | true =>
      simp only [whenTrue_true] at h7
      obtain ⟨hrd, hmd⟩ := lfDeltas_ok h7
      have hf : (w7.hdr.lf.modeRefDeltaEnabled, w7.hdr.lf.modeRefDeltaUpdate) = (true, true) := by
        have hs : Same (fun v => (v.hdr.lf.modeRefDeltaEnabled, v.hdr.lf.modeRefDeltaUpdate)) lfDeltas := by
          unfold lfDeltas
          refine same_bind (same_forEach (fun i => ?_) _) fun _ => same_forEach (fun i => ?_) _
          · unfold refDelta
            exact same_bind (same_receive (fun _ _ => rfl) _) fun _ => same_bind (same_setHdr fun _ => rfl) fun _ =>
              same_whenTrue (same_bind (same_receive (fun _ _ => rfl) _) fun _ => same_setCtx fun _ => rfl)
          · unfold modeDelta
            exact same_bind (same_receive (fun _ _ => rfl) _) fun _ => same_bind (same_setHdr fun _ => rfl) fun _ =>
              same_whenTrue (same_bind (same_receive (fun _ _ => rfl) _) fun _ => same_setCtx fun _ => rfl)
        exact hs.ok h7
      have hf1 : w7.hdr.lf.modeRefDeltaEnabled = true := congrArg Prod.fst hf
      have hf2 : w7.hdr.lf.modeRefDeltaUpdate = true := congrArg Prod.snd hf
      refine ⟨rfl, rfl, hrd, hmd, fun he => ?_, fun he => ?_⟩
      · have he' : w7.hdr.lf.modeRefDeltaEnabled = false := he
        rw [hf1] at he'; cases he'
      · have he' : w7.hdr.lf.modeRefDeltaUpdate = false := he
        rw [hf2] at he'; cases he'

/-! ### Step 9 -/

theorem quantizationParams_ok {w w' : Work} (h : quantizationParams w = .ok () w') :
    w'.hdr.lossless = w'.hdr.q.isLossless ∧ w'.ctx.lossless = w'.hdr.q.isLossless := by
  unfold quantizationParams at h
  obtain ⟨_, w1, _, h⟩ := bind_ok.mp h
  obtain ⟨_, w2, _, h⟩ := bind_ok.mp h
  obtain ⟨_, w3, _, h⟩ := bind_ok.mp h
  obtain ⟨_, w4, _, h⟩ := bind_ok.mp h
  obtain ⟨_, w5, _, h⟩ := bind_ok.mp h
  obtain ⟨_, w6, _, h⟩ := bind_ok.mp h
  obtain ⟨_, w7, _, h⟩ := bind_ok.mp h
  obtain ⟨_, w8, _, h⟩ := bind_ok.mp h
  rw [lossless_run] at h
  cases h
  exact ⟨rfl, rfl⟩

/-! ### Steps 11 and 12 -/

theorem tileInfo_ok {w w' : Work} (h : tileInfo w = .ok () w') :
    w'.hdr.tile.minLog2Cols = minLog2Cols w.hdr.width ∧ w'.hdr.tile.maxLog2Cols = maxLog2Cols w.hdr.width ∧
      minLog2Cols w.hdr.width ≤ w'.hdr.tile.log2Cols ∧ w'.hdr.tile.log2Cols ≤ maxLog2Cols w.hdr.width ∧
      w'.hdr.tile.log2Rows ≤ 2 := by
  unfold tileInfo at h
  obtain ⟨hd, w1, h1, h⟩ := bind_ok.mp h
  cases h1
  obtain ⟨⟨⟩, w2, h2, h⟩ := bind_ok.mp h
  cases h2
  obtain ⟨c, w3, h3, h⟩ := bind_ok.mp h
  have hc := yields_tileCols _ _ _ _ _ h3
  have e3 := (same_tileCols (π := fun v => v.hdr) (fun _ _ => rfl) _ _).ok h3
  obtain ⟨⟨⟩, w4, h4, h⟩ := bind_ok.mp h
  cases h4
  obtain ⟨r, w5, h5, h⟩ := bind_ok.mp h
  have hr := yields_tileRows _ _ _ h5
  have e5 : w5.hdr = { w3.hdr with tile := { w3.hdr.tile with log2Cols := c } } := by
    have hs : Same (fun v => v.hdr) tileRows := by
      unfold tileRows
      exact same_bind (same_receive (fun _ _ => rfl) _) fun _ =>
        same_ite (same_bind (same_receive (fun _ _ => rfl) _) fun _ => same_pure _ _) (same_pure _ _)
    exact hs.ok h5
  cases h
  have hmm := minLog2Cols_le_maxLog2Cols w.hdr.width
  rw [e5, e3]
  exact ⟨rfl, rfl, hc.1, by show c ≤ _; omega, hr⟩

theorem headerSize_ok {w w' : Work} (h : headerSize w = .ok () w') :
    ∃ n, n ≠ 0 ∧ w.br.bitsFrom 16 w.br.pos 0 = some n ∧ w'.ctx = w.ctx ∧
      w'.br = { w.br with pos := w.br.pos + 16 } ∧ w'.hdr = { w.hdr with
        firstPartitionSize := n, headerLengthBytes := ceilDiv (w.br.pos + 16) 8 } := by
  unfold headerSize at h
  obtain ⟨n, w1, h1, h⟩ := bind_ok.mp h
  obtain ⟨hn, _, rfl⟩ := f_ok h1
  obtain ⟨⟨⟩, w2, h2, h⟩ := bind_ok.mp h
  cases h2
  obtain ⟨⟨⟩, w3, h3, h⟩ := bind_ok.mp h
  by_cases h0 : n = 0
  · subst h0; cases h3
  · have : (n == 0) = false := by simpa using h0
    rw [this] at h3
    cases h3
    cases h
    exact ⟨n, h0, hn, rfl, rfl, rfl⟩

end Sys2Proof.Machine
end

