-- ==== Sys2Proof/Laws/Segmentation.lean ====
section
/-! SUPPORT. What step 10 of a completed header leaves (R117 to R120). -/

namespace Sys2Proof.Machine

theorem probability_ok {w w' : Work} {r : Bool × Nat} (h : probability w = .ok r w') :
    w'.ctx = w.ctx ∧ w'.hdr = w.hdr ∧ (r.1 = false → r.2 = Config.maxProb) := by
  have e : (w'.ctx, w'.hdr) = (w.ctx, w.hdr) :=
    (same_guarded (π := fun v => (v.ctx, v.hdr)) (fun _ _ => rfl) (same_receive (fun _ _ => rfl) _) _).ok h
  exact ⟨congrArg Prod.fst e, congrArg Prod.snd e,
    (yields_guarded (V := fun _ => True) (fun _ _ _ _ => trivial) trivial _ _ _ h).2⟩

theorem treeProb_ok {i : Fin 7} {w w' : Work} (h : treeProb i w = .ok () w') :
    ∃ (b : Bool) (v : Nat), (b = false → v = Config.maxProb) ∧
      w'.hdr = { w.hdr with seg := { w.hdr.seg with treeProbPresent := w.hdr.seg.treeProbPresent.set i b } } ∧
      w'.ctx = { w.ctx with segTreeProb := w.ctx.segTreeProb.set i v } := by
  unfold treeProb at h
  obtain ⟨r, w1, h1, h⟩ := bind_ok.mp h
  obtain ⟨hc, hh, hd⟩ := probability_ok h1
  cases h
  rw [hc, hh]
  exact ⟨r.1, r.2, hd, rfl, rfl⟩

theorem predProb_ok {i : Fin 3} {w w' : Work} (h : predProb i w = .ok () w') :
    ∃ (b : Bool) (v : Nat), (b = false → v = Config.maxProb) ∧
      w'.hdr = { w.hdr with seg := { w.hdr.seg with predProbPresent := w.hdr.seg.predProbPresent.set i b } } ∧
      w'.ctx = { w.ctx with segPredProb := w.ctx.segPredProb.set i v } := by
  unfold predProb at h
  obtain ⟨r, w1, h1, h⟩ := bind_ok.mp h
  obtain ⟨hc, hh, hd⟩ := probability_ok h1
  cases h
  rw [hc, hh]
  exact ⟨r.1, r.2, hd, rfl, rfl⟩

/-- What the map probabilities are after the update (R118). -/
structure MapOk (w' : Work) : Prop where
  tree : ∀ i : Fin 7, w'.hdr.seg.treeProbPresent[i] = false → w'.ctx.segTreeProb[i] = Config.maxProb
  pred : ∀ i : Fin 3, w'.hdr.seg.predProbPresent[i] = false → w'.ctx.segPredProb[i] = Config.maxProb
  still : w'.hdr.seg.temporalUpdate = false → ∀ i : Fin 3, w'.ctx.segPredProb[i] = Config.maxProb

theorem segMap_ok {w w' : Work} (h : segMap w = .ok () w') : MapOk w' := by
  unfold segMap at h
  obtain ⟨⟨⟩, w1, h1, h⟩ := bind_ok.mp h
  have a1 := forEach_ok (body := treeProb)
    (P := fun (i : Fin 7) v => v.hdr.seg.treeProbPresent[i] = false → v.ctx.segTreeProb[i] = Config.maxProb)
    (Q := fun _ _ => True)
    (fun i v v' _ hv => by
      obtain ⟨b, x, hd, hh, hc⟩ := treeProb_ok hv
      rw [hh, hc]
      intro hf
      have hb : b = false := by simpa using hf
      simpa using hd hb)
    (fun i j v v' hij hv hp => by
      obtain ⟨b, x, _, hh, hc⟩ := treeProb_ok hv
      rw [hh, hc]
      show (v.hdr.seg.treeProbPresent.set i b)[j] = false → (v.ctx.segTreeProb.set i x)[j] = _
      rw [vector_get_set, vector_get_set, if_neg hij, if_neg hij]
      exact hp)
    (fun _ _ _ _ _ _ _ => trivial) (is := [0, 1, 2, 3, 4, 5, 6]) (by decide) (fun _ _ => trivial) h1
  have all7 : ∀ i : Fin 7, i ∈ ([0, 1, 2, 3, 4, 5, 6] : List (Fin 7)) := by decide
  have all3 : ∀ i : Fin 3, i ∈ ([0, 1, 2] : List (Fin 3)) := by decide
  obtain ⟨t, w2, h2, h⟩ := bind_ok.mp h
  obtain ⟨_, _, rfl⟩ := flag_ok h2
  obtain ⟨⟨⟩, w3, h3, h⟩ := bind_ok.mp h
  cases h3
  have kept : (w'.hdr.seg.treeProbPresent, w'.ctx.segTreeProb, w'.hdr.seg.temporalUpdate) =
      (w1.hdr.seg.treeProbPresent, w1.ctx.segTreeProb, t) := by
    have hs : Same (fun v => (v.hdr.seg.treeProbPresent, v.ctx.segTreeProb, v.hdr.seg.temporalUpdate))
        (forEach (fun i => if t then predProb i else predProbDefault i) [0, 1, 2]) := by
      refine same_forEach (fun i => same_ite ?_ ?_) _
      · unfold predProb probability
        exact same_bind (same_guarded (fun _ _ => rfl) (same_receive (fun _ _ => rfl) _) _) fun _ =>
          same_bind (same_setHdr fun _ => rfl) fun _ => same_setCtx fun _ => rfl
      · exact same_setCtx fun _ => rfl
    exact hs.ok h
  have kp : w'.hdr.seg.treeProbPresent = w1.hdr.seg.treeProbPresent := congrArg (fun p => p.1) kept
  have kt : w'.ctx.segTreeProb = w1.ctx.segTreeProb := congrArg (fun p => p.2.1) kept
  have ku : w'.hdr.seg.temporalUpdate = t := congrArg (fun p => p.2.2) kept
  have tree : ∀ i : Fin 7, w'.hdr.seg.treeProbPresent[i] = false → w'.ctx.segTreeProb[i] = Config.maxProb := by
    rw [kp, kt]; exact fun i => a1 i (all7 i)
  cases t with
  | true =>
    simp only [if_true] at h
    have a2 := forEach_ok (body := predProb)
      (P := fun (i : Fin 3) v => v.hdr.seg.predProbPresent[i] = false → v.ctx.segPredProb[i] = Config.maxProb)
      (Q := fun _ _ => True)
      (fun i v v' _ hv => by
        obtain ⟨b, x, hd, hh, hc⟩ := predProb_ok hv
        rw [hh, hc]
        intro hf
        have hb : b = false := by simpa using hf
        simpa using hd hb)
      (fun i j v v' hij hv hp => by
        obtain ⟨b, x, _, hh, hc⟩ := predProb_ok hv
        rw [hh, hc]
        show (v.hdr.seg.predProbPresent.set i b)[j] = false → (v.ctx.segPredProb.set i x)[j] = _
        rw [vector_get_set, vector_get_set, if_neg hij, if_neg hij]
        exact hp)
      (fun _ _ _ _ _ _ _ => trivial) (is := [0, 1, 2]) (by decide) (fun _ _ => trivial) h
    exact ⟨tree, fun i => a2 i (all3 i), fun hf => by rw [ku] at hf; cases hf⟩
  | false =>
    simp only [if_false, Bool.false_eq_true] at h
    have a2 := forEach_ok (body := predProbDefault)
      (P := fun (i : Fin 3) v => v.ctx.segPredProb[i] = Config.maxProb) (Q := fun _ _ => True)
      (fun i v v' _ hv => by
        cases hv
        show (v.ctx.segPredProb.set i Config.maxProb)[i] = _
        rw [vector_get_set, if_pos rfl])
      (fun i j v v' hij hv hp => by
        cases hv
        show (v.ctx.segPredProb.set i Config.maxProb)[j] = _
        rw [vector_get_set, if_neg hij]; exact hp)
      (fun _ _ _ _ _ _ _ => trivial) (is := [0, 1, 2]) (by decide) (fun _ _ => trivial) h
    exact ⟨tree, fun i _ => a2 i (all3 i), fun _ i => a2 i (all3 i)⟩

theorem setFeature_eq {s : Fin 8} {g : SegFeature → SegFeature} {w w' : Work} (h : setFeature s g w = .ok () w') :
    w' = { w with ctx := { w.ctx with seg := w.ctx.seg.set s (g w.ctx.seg[s]) } } := by cases h; rfl

theorem readIf_ok {α : Type} {read : Grammar α} {c : Bool} {d v : α} {w w' : Work} (h : readIf c read d w = .ok v w') :
    c = false → v = d := by
  rintro rfl; cases h; rfl

/-- One enable bit and its value: only entry `s` changes, and there only the two fields. -/
theorem feature_ok {α : Type} {s : Fin 8} {read : Bool → Grammar α} {d : α} {en : Bool → SegFeature → SegFeature}
    {put : α → SegFeature → SegFeature} (hr : ∀ b, Same (fun v => v.ctx) (read b))
    (hd : ∀ b w w' v, read b w = .ok v w' → b = false → v = d) {w w' : Work}
    (h : (flag >>= fun b => setFeature s (en b) >>= fun _ => read b >>= fun v => setFeature s (put v)) w = .ok () w') :
    ∃ b v, (b = false → v = d) ∧ w'.ctx = { w.ctx with seg := w.ctx.seg.set s (put v (en b w.ctx.seg[s])) } := by
  obtain ⟨b, w1, h1, h⟩ := bind_ok.mp h
  obtain ⟨_, _, rfl⟩ := flag_ok h1
  obtain ⟨⟨⟩, w2, h2, h⟩ := bind_ok.mp h
  have e2 := setFeature_eq h2
  obtain ⟨v, w3, h3, h⟩ := bind_ok.mp h
  have e3 : w3.ctx = w2.ctx := (hr b).ok h3
  have e4 := setFeature_eq h
  refine ⟨b, v, hd b _ _ _ h3, ?_⟩
  rw [e4, e3, e2]
  simp

theorem segFeature_ok {s : Fin 8} {w w' : Work} (h : segFeature s w = .ok () w') :
    ∃ e : SegFeature, e.Absent0 ∧ w'.ctx = { w.ctx with seg := w.ctx.seg.set s e } := by
  unfold segFeature at h
  obtain ⟨⟨⟩, w1, h1, h⟩ := bind_ok.mp h
  obtain ⟨b1, v1, d1, c1⟩ := feature_ok (read := fun b => readIf b (su 8) 0) (d := 0)
    (en := fun b e => { e with qEn := b }) (put := fun v e => { e with q := v })
    (fun b => same_readIf (same_receive (fun _ _ => rfl) _) b _) (fun _ _ _ _ hv => readIf_ok hv) h1
  obtain ⟨⟨⟩, w2, h2, h⟩ := bind_ok.mp h
  obtain ⟨b2, v2, d2, c2⟩ := feature_ok (read := fun b => readIf b (su 6) 0) (d := 0)
    (en := fun b e => { e with lfEn := b }) (put := fun v e => { e with lf := v })
    (fun b => same_readIf (same_receive (fun _ _ => rfl) _) b _) (fun _ _ _ _ hv => readIf_ok hv) h2
  obtain ⟨⟨⟩, w3, h3, h⟩ := bind_ok.mp h
  obtain ⟨b3, v3, d3, c3⟩ := feature_ok (read := fun b => readIf b (f 2) 0) (d := 0)
    (en := fun b e => { e with refEn := b }) (put := fun v e => { e with ref := RefId.ofCode v })
    (fun b => same_readIf (same_receive (fun _ _ => rfl) _) b _) (fun _ _ _ _ hv => readIf_ok hv) h3
  unfold featureSkip at h
  obtain ⟨b4, w4, h4, h⟩ := bind_ok.mp h
  obtain ⟨_, _, rfl⟩ := flag_ok h4
  have e5 := setFeature_eq h
  refine ⟨{ qEn := b1, q := v1, lfEn := b2, lf := v2, refEn := b3, ref := RefId.ofCode v3, skip := b4 },
    ⟨d1, d2, fun hf => by show RefId.ofCode v3 = _; rw [d3 hf]; rfl⟩, ?_⟩
  rw [e5]
  show ({ w3.ctx with seg := _ } : Context) = _
  rw [c3, c2, c1]
  simp

theorem segData_ok {w w' : Work} (h : segData w = .ok () w') : ∀ s : Fin 8, (w'.ctx.seg[s]).Absent0 := by
  unfold segData at h
  obtain ⟨a, w1, h1, h⟩ := bind_ok.mp h
  obtain ⟨_, _, rfl⟩ := flag_ok h1
  obtain ⟨⟨⟩, w2, h2, h⟩ := bind_ok.mp h
  cases h2
  have a1 := forEach_ok (body := segFeature) (P := fun (s : Fin 8) v => (v.ctx.seg[s]).Absent0) (Q := fun _ _ => True)
    (fun i v v' _ hv => by
      obtain ⟨e, he, hc⟩ := segFeature_ok hv
      rw [hc]
      show ((v.ctx.seg.set i e)[i]).Absent0
      rw [vector_get_set, if_pos rfl]; exact he)
    (fun i j v v' hij hv hp => by
      obtain ⟨e, he, hc⟩ := segFeature_ok hv
      rw [hc]
      show ((v.ctx.seg.set i e)[j]).Absent0
      rw [vector_get_set, if_neg hij]; exact hp)
    (fun _ _ _ _ _ _ _ => trivial) (is := [0, 1, 2, 3, 4, 5, 6, 7]) (by decide) (fun _ _ => trivial) h
  exact fun s => a1 s ((by decide : ∀ s : Fin 8, s ∈ [0, 1, 2, 3, 4, 5, 6, 7]) s)

/-- What step 10 leaves, from a header whose segmentation fields were still 0. -/
structure SegOk (w w' : Work) : Prop where
  copied : w'.hdr.seg.treeProb = w'.ctx.segTreeProb ∧ w'.hdr.seg.predProb = w'.ctx.segPredProb ∧
    w'.hdr.seg.absDelta = w'.ctx.segAbsDelta ∧ w'.hdr.seg.feature = w'.ctx.seg
  off    : w'.hdr.seg.enabled = false → w'.hdr.seg.updateMap = false ∧ w'.hdr.seg.updateData = false
  mapOff : w'.hdr.seg.updateMap = false → w'.hdr.seg.temporalUpdate = false ∧
    w'.ctx.segTreeProb = w.ctx.segTreeProb ∧ w'.ctx.segPredProb = w.ctx.segPredProb
  mapOn  : w'.hdr.seg.updateMap = true → MapOk w'
  dataOff : w'.hdr.seg.updateData = false → w'.ctx.seg = w.ctx.seg ∧ w'.ctx.segAbsDelta = w.ctx.segAbsDelta
  dataOn : w'.hdr.seg.updateData = true → ∀ s : Fin 8, (w'.ctx.seg[s]).Absent0

theorem segCopy_run (w : Work) : segCopy w = .ok () { w with hdr := { w.hdr with seg := { w.hdr.seg with
    treeProb := w.ctx.segTreeProb, predProb := w.ctx.segPredProb, absDelta := w.ctx.segAbsDelta
    feature := w.ctx.seg } } } := rfl

theorem segmentationParams_ok {w w' : Work} (h : segmentationParams w = .ok () w')
    (hz : w.hdr.seg = Header.zero.seg) : SegOk w w' := by
  unfold segmentationParams at h
  obtain ⟨e, w1, h1, h⟩ := bind_ok.mp h
  obtain ⟨_, _, rfl⟩ := flag_ok h1
  obtain ⟨⟨⟩, w2, h2, h⟩ := bind_ok.mp h
  cases h2
  obtain ⟨⟨⟩, w3, h3, h⟩ := bind_ok.mp h
  rw [segCopy_run] at h
  cases h
  have zm : w.hdr.seg.updateMap = false := by rw [hz]; rfl
  have zd : w.hdr.seg.updateData = false := by rw [hz]; rfl
  have zt : w.hdr.seg.temporalUpdate = false := by rw [hz]; rfl
  cases e with
  | false =>
    cases h3
    exact {
      copied := ⟨rfl, rfl, rfl, rfl⟩
      off := fun _ => ⟨zm, zd⟩
      mapOff := fun _ => ⟨zt, rfl, rfl⟩
      mapOn := fun (hm : w.hdr.seg.updateMap = true) => by rw [zm] at hm; cases hm
      dataOff := fun _ => ⟨rfl, rfl⟩
      dataOn := fun (hm : w.hdr.seg.updateData = true) => by rw [zd] at hm; cases hm }
  | true =>
    simp only [whenTrue_true] at h3
    unfold segUpdates at h3
    obtain ⟨m, w4, h4, h3⟩ := bind_ok.mp h3
    obtain ⟨_, _, rfl⟩ := flag_ok h4
    obtain ⟨⟨⟩, w5, h5, h3⟩ := bind_ok.mp h3
    cases h5
    obtain ⟨⟨⟩, w6, h6, h3⟩ := bind_ok.mp h3
    obtain ⟨d, w7, h7, h3⟩ := bind_ok.mp h3
    obtain ⟨_, _, rfl⟩ := flag_ok h7
    obtain ⟨⟨⟩, w8, h8, h3⟩ := bind_ok.mp h3
    cases h8
    -- what the map update leaves alone, and the data update after it
    have sm : Same (fun v => (v.ctx.seg, v.ctx.segAbsDelta, v.hdr.seg.enabled, v.hdr.seg.updateMap)) segMap := by
      unfold segMap
      refine same_bind (same_forEach (fun i => ?_) _) fun _ => same_bind (same_receive (fun _ _ => rfl) _) fun t =>
        same_bind (same_setHdr fun _ => rfl) fun _ => same_forEach (fun i => same_ite ?_ ?_) _
      · unfold treeProb probability
        exact same_bind (same_guarded (fun _ _ => rfl) (same_receive (fun _ _ => rfl) _) _) fun _ =>
          same_bind (same_setHdr fun _ => rfl) fun _ => same_setCtx fun _ => rfl
      · unfold predProb probability
        exact same_bind (same_guarded (fun _ _ => rfl) (same_receive (fun _ _ => rfl) _) _) fun _ =>
          same_bind (same_setHdr fun _ => rfl) fun _ => same_setCtx fun _ => rfl
      · exact same_setCtx fun _ => rfl
    have sd : Same (fun v => (v.hdr, v.ctx.segTreeProb, v.ctx.segPredProb)) segData := by
      unfold segData segFeature featureQ featureLf featureRef featureSkip
      refine same_bind (same_receive (fun _ _ => rfl) _) fun _ => same_bind (same_setCtx fun _ => rfl) fun _ =>
        same_forEach (fun i => ?_) _
      refine same_bind ?_ fun _ => same_bind ?_ fun _ => same_bind ?_ fun _ => ?_
      · exact same_bind (same_receive (fun _ _ => rfl) _) fun _ => same_bind (same_setCtx fun _ => rfl) fun _ =>
          same_bind (same_readIf (same_receive (fun _ _ => rfl) _) _ _) fun _ => same_setCtx fun _ => rfl
      · exact same_bind (same_receive (fun _ _ => rfl) _) fun _ => same_bind (same_setCtx fun _ => rfl) fun _ =>
          same_bind (same_readIf (same_receive (fun _ _ => rfl) _) _ _) fun _ => same_setCtx fun _ => rfl
      · exact same_bind (same_receive (fun _ _ => rfl) _) fun _ => same_bind (same_setCtx fun _ => rfl) fun _ =>
          same_bind (same_readIf (same_receive (fun _ _ => rfl) _) _ _) fun _ => same_setCtx fun _ => rfl
      · exact same_bind (same_receive (fun _ _ => rfl) _) fun _ => same_setCtx fun _ => rfl
    have e6 := (same_whenTrue (c := m) sm).ok h6
    have e3 := (same_whenTrue (c := d) sd).ok h3
    have hh : w3.hdr = { w6.hdr with seg := { w6.hdr.seg with updateData := d } } := congrArg (fun p => p.1) e3
    have ht : w3.ctx.segTreeProb = w6.ctx.segTreeProb := congrArg (fun p => p.2.1) e3
    have hp : w3.ctx.segPredProb = w6.ctx.segPredProb := congrArg (fun p => p.2.2) e3
    have hs : w6.ctx.seg = w.ctx.seg := congrArg (fun p => p.1) e6
    have ha : w6.ctx.segAbsDelta = w.ctx.segAbsDelta := congrArg (fun p => p.2.1) e6
    have hen : w6.hdr.seg.enabled = true := congrArg (fun p => p.2.2.1) e6
    have hum : w6.hdr.seg.updateMap = m := congrArg (fun p => p.2.2.2) e6
    have gm : w3.hdr.seg.updateMap = m := by rw [hh]; exact hum
    have gd : w3.hdr.seg.updateData = d := by rw [hh]
    refine {
      copied := ⟨rfl, rfl, rfl, rfl⟩
      off := fun (hf : w3.hdr.seg.enabled = false) => ?_
      mapOff := fun (hf : w3.hdr.seg.updateMap = false) => ?_
      mapOn := fun (hf : w3.hdr.seg.updateMap = true) => ?_
      dataOff := fun (hf : w3.hdr.seg.updateData = false) => ?_
      dataOn := fun (hf : w3.hdr.seg.updateData = true) => ?_ }
    · rw [hh] at hf
      have hf' : w6.hdr.seg.enabled = false := hf
      rw [hen] at hf'; cases hf'
    · rw [gm] at hf
      subst hf
      cases h6
      exact ⟨by show w3.hdr.seg.temporalUpdate = false; rw [hh]; exact zt, ht, hp⟩
    · rw [gm] at hf
      subst hf
      have mo := segMap_ok h6
      exact {
        tree := fun i => by
          show w3.hdr.seg.treeProbPresent[i] = false → w3.ctx.segTreeProb[i] = _
          rw [hh, ht]; exact mo.tree i
        pred := fun i => by
          show w3.hdr.seg.predProbPresent[i] = false → w3.ctx.segPredProb[i] = _
          rw [hh, hp]; exact mo.pred i
        still := by
          show w3.hdr.seg.temporalUpdate = false → ∀ i : Fin 3, w3.ctx.segPredProb[i] = _
          rw [hh, hp]; exact mo.still }
    · rw [gd] at hf
      subst hf
      cases h3
      exact ⟨hs, ha⟩
    · rw [gd] at hf
      subst hf
      rw [whenTrue_true] at h3
      have := segData_ok h3
      exact this

end Sys2Proof.Machine
end

