-- ==== Sys2Proof/Laws/Causes.lean ====
section
/-! SUPPORT. Which causes each step of the grammar can raise beside OUT_OF_DATA (R128), and that no step misses a byte of a
full buffer. -/

namespace Sys2Proof.Machine

variable {α β ι : Type}

/-- `m` raises OUT_OF_DATA or a cause of `C`, nothing else. -/
def Raises (C : List Cause) (m : Grammar α) : Prop :=
  ∀ w c w', m w = .error (.raised c) w' → c = .outOfData ∨ c ∈ C

theorem raises_pure (C : List Cause) (a : α) : Raises C (pure a : Grammar α) := fun _ _ _ h => by cases h
theorem raises_getPos (C : List Cause) : Raises C getPos := fun _ _ _ h => by cases h
theorem raises_getHdr (C : List Cause) : Raises C getHdr := fun _ _ _ h => by cases h
theorem raises_getCtx (C : List Cause) : Raises C getCtx := fun _ _ _ h => by cases h
theorem raises_setHdr (C : List Cause) (g : Header → Header) : Raises C (setHdr g) := fun _ _ _ h => by cases h
theorem raises_setCtx (C : List Cause) (g : Context → Context) : Raises C (setCtx g) := fun _ _ _ h => by cases h

theorem raises_receive (C : List Cause) (read : Reader → ReadOut α) : Raises C (receive read) := fun w c w' h => by
  unfold receive at h
  cases hr : read w.br with
  | ok v r => simp [hr] at h
  | outOfData => simp only [hr] at h; cases h; exact .inl rfl
  | absent => simp [hr] at h

theorem raises_raise {C : List Cause} {c : Cause} (h : c ∈ C) : Raises C (raise c : Grammar α) :=
  fun _ _ _ he => by cases he; exact .inr h

theorem raises_bind {C : List Cause} {m : Grammar α} {k : α → Grammar β} (h1 : Raises C m) (h2 : ∀ a, Raises C (k a)) :
    Raises C (m >>= k) := fun w c w' h => by
  rcases bind_error.mp h with h | ⟨a, w1, _, h⟩
  · exact h1 _ _ _ h
  · exact h2 a _ _ _ h

theorem raises_ite {C : List Cause} {c : Prop} {_ : Decidable c} {m n : Grammar α} (h1 : Raises C m) (h2 : Raises C n) :
    Raises C (if c then m else n) := by split <;> assumption

theorem raises_whenTrue {C : List Cause} {c : Bool} {m : Grammar Unit} (h : Raises C m) : Raises C (whenTrue c m) := by
  cases c
  · exact raises_pure C ()
  · exact h

theorem raises_readIf {C : List Cause} {read : Grammar α} (h : Raises C read) (c : Bool) (d : α) :
    Raises C (readIf c read d) := raises_ite h (raises_pure C d)

theorem raises_guarded {C : List Cause} {read : Grammar α} (h : Raises C read) (d : α) : Raises C (guarded read d) :=
  raises_bind (raises_receive C _) fun _ => raises_bind (raises_readIf h _ _) fun _ => raises_pure C _

theorem raises_forEach {C : List Cause} {body : ι → Grammar Unit} (h : ∀ i, Raises C (body i)) (is : List ι) :
    Raises C (forEach body is) := by
  induction is with
  | nil => exact raises_pure C ()
  | cons i is ih => exact raises_bind (h i) fun _ => ih

theorem Raises.mono {C D : List Cause} {m : Grammar α} (h : Raises C m) (hs : ∀ c ∈ C, c ∈ D) : Raises D m :=
  fun w c w' he => (h w c w' he).imp_right (hs c)

theorem raises_frameMarker : Raises [.badFrameMarker] frameMarker :=
  raises_bind (raises_receive _ _) fun _ => raises_whenTrue (raises_raise (by decide))

theorem raises_profile : Raises [.unsupportedProfile] profile :=
  raises_bind (raises_receive _ _) fun _ => raises_bind (raises_receive _ _) fun _ =>
    raises_bind (raises_whenTrue (raises_bind (raises_receive _ _) fun _ => raises_whenTrue (raises_raise (by decide))))
      fun _ => raises_setHdr _ _

theorem raises_showExisting : Raises [] showExisting :=
  raises_bind (raises_receive _ _) fun _ => raises_bind (raises_setHdr _ _) fun _ =>
    raises_bind (raises_whenTrue (raises_bind (raises_receive _ _) fun _ => raises_bind (raises_setHdr _ _) fun _ =>
      raises_bind (raises_getPos _) fun _ => raises_setHdr _ _)) fun _ => raises_pure _ _

theorem raises_frameType : Raises [] frameType :=
  raises_bind (raises_receive _ _) fun _ => raises_bind (raises_setHdr _ _) fun _ =>
    raises_bind (raises_receive _ _) fun _ => raises_bind (raises_setHdr _ _) fun _ =>
      raises_bind (raises_receive _ _) fun _ => raises_setHdr _ _

theorem raises_syncCode : Raises [.badSyncCode] syncCode :=
  raises_bind (raises_receive _ _) fun _ => raises_whenTrue (raises_raise (by decide))

/-- The causes of the colour configuration (R100). -/
def colorCauses : List Cause := [.srgbInProfile02, .subsampling420InProfile13, .reservedBitSet]

theorem raises_colorReserved : Raises colorCauses colorReserved :=
  raises_bind (raises_receive _ _) fun _ => raises_whenTrue (raises_raise (by decide))

theorem raises_colorConfig : Raises colorCauses colorConfig :=
  raises_bind (raises_getHdr _) fun _ =>
    raises_bind (raises_ite (raises_bind (raises_receive _ _) fun _ => raises_setCtx _ _) (raises_setCtx _ _)) fun _ =>
    raises_bind (raises_receive _ _) fun _ => raises_bind (raises_setCtx _ _) fun _ =>
      raises_ite
        (raises_bind (raises_setCtx _ _) fun _ =>
          raises_ite (raises_bind (raises_setCtx _ _) fun _ => raises_colorReserved) (raises_raise (by decide)))
        (raises_bind (raises_receive _ _) fun _ => raises_bind (raises_setCtx _ _) fun _ =>
          raises_ite
            (raises_bind (raises_receive _ _) fun _ => raises_bind (raises_setCtx _ _) fun _ =>
              raises_bind (raises_receive _ _) fun _ => raises_bind (raises_setCtx _ _) fun _ =>
                raises_bind (raises_whenTrue (raises_raise (by decide))) fun _ => raises_colorReserved)
            (raises_setCtx _ _))

theorem raises_frameSize (C : List Cause) : Raises C frameSize :=
  raises_bind (raises_receive _ _) fun _ => raises_bind (raises_setHdr _ _) fun _ =>
    raises_bind (raises_receive _ _) fun _ => raises_setHdr _ _

theorem raises_renderSize (C : List Cause) : Raises C renderSize :=
  raises_bind (raises_receive _ _) fun _ => raises_bind (raises_setHdr _ _) fun _ =>
    raises_ite
      (raises_bind (raises_receive _ _) fun _ => raises_bind (raises_setHdr _ _) fun _ =>
        raises_bind (raises_receive _ _) fun _ => raises_setHdr _ _)
      (raises_setHdr _ _)

/-- The causes of steps 5 and 6. -/
def frameCauses : List Cause := [.badSyncCode, .srgbInProfile02, .subsampling420InProfile13, .reservedBitSet, .invalidRefSlot]

theorem raises_keyFrame : Raises frameCauses keyFrame :=
  raises_bind (raises_syncCode.mono (by decide)) fun _ => raises_bind (raises_colorConfig.mono (by decide)) fun _ =>
    raises_bind (raises_setHdr _ _) fun _ => raises_bind (raises_frameSize _) fun _ => raises_renderSize _

theorem raises_refreshFlags (C : List Cause) : Raises C refreshFlags :=
  raises_bind (raises_receive _ _) fun _ => raises_setHdr _ _

theorem raises_intraBranch : Raises frameCauses intraBranch :=
  raises_bind (raises_syncCode.mono (by decide)) fun _ =>
    raises_bind (raises_bind (raises_getHdr _) fun _ =>
      raises_ite (raises_colorConfig.mono (by decide)) (raises_setCtx _ _)) fun _ =>
    raises_bind (raises_refreshFlags _) fun _ => raises_bind (raises_frameSize _) fun _ => raises_renderSize _

theorem raises_copyRefSize (i : Fin 3) : Raises [.invalidRefSlot] (copyRefSize i) :=
  raises_bind (raises_getHdr _) fun _ => raises_bind (raises_getCtx _) fun _ =>
    raises_bind (raises_whenTrue (raises_raise (by decide))) fun _ => raises_setHdr _ _

theorem raises_sizeFlags (is : List (Fin 3)) : Raises [.invalidRefSlot] (sizeFlags is) := by
  induction is with
  | nil => exact raises_pure _ _
  | cons i is ih =>
    exact raises_bind (raises_receive _ _) fun _ => raises_bind (raises_setHdr _ _) fun _ =>
      raises_ite (raises_bind (raises_copyRefSize i) fun _ => raises_pure _ _) ih

theorem raises_interBranch : Raises [.invalidRefSlot] interBranch :=
  raises_bind (raises_refreshFlags _) fun _ =>
    raises_bind (raises_forEach (fun _ => raises_bind (raises_receive _ _) fun _ => raises_bind (raises_setHdr _ _)
      fun _ => raises_bind (raises_receive _ _) fun _ => raises_setHdr _ _) _) fun _ =>
    raises_bind (raises_bind (raises_sizeFlags _) fun _ => raises_bind (raises_whenTrue (raises_frameSize _)) fun _ =>
      raises_renderSize _) fun _ =>
    raises_bind (raises_bind (raises_receive _ _) fun _ => raises_setHdr _ _) fun _ =>
      raises_bind (raises_receive _ _) fun _ => raises_ite (raises_setHdr _ _)
        (raises_bind (raises_receive _ _) fun _ => raises_setHdr _ _)

theorem raises_interFrame : Raises frameCauses interFrame :=
  raises_bind (raises_bind (raises_getHdr _) fun _ => raises_ite (raises_setHdr _ _)
    (raises_bind (raises_receive _ _) fun _ => raises_setHdr _ _)) fun _ =>
  raises_bind (raises_bind (raises_getHdr _) fun _ => raises_ite (raises_setHdr _ _)
    (raises_bind (raises_receive _ _) fun _ => raises_setHdr _ _)) fun _ =>
  raises_bind (raises_getHdr _) fun _ => raises_ite raises_intraBranch (raises_interBranch.mono (by decide))

theorem raises_frameBranch : Raises frameCauses frameBranch :=
  raises_bind (raises_getHdr _) fun _ => raises_ite raises_keyFrame raises_interFrame

theorem raises_headerSize : Raises [.zeroFirstPartition] headerSize :=
  raises_bind (raises_receive _ _) fun _ => raises_bind (raises_setHdr _ _) fun _ =>
    raises_bind (raises_whenTrue (raises_raise (by decide))) fun _ =>
      raises_bind (raises_getPos _) fun _ => raises_setHdr _ _

theorem raises_colorCopy (C : List Cause) : Raises C colorCopy :=
  raises_bind (raises_getCtx _) fun _ => raises_setHdr _ _

theorem raises_ctxFlags (C : List Cause) : Raises C ctxFlags :=
  raises_bind (raises_bind (raises_getHdr _) fun _ => raises_ite (raises_setHdr _ _)
    (raises_bind (raises_receive _ _) fun _ => raises_bind (raises_setHdr _ _) fun _ =>
      raises_bind (raises_receive _ _) fun _ => raises_setHdr _ _)) fun _ =>
  raises_bind (raises_receive _ _) fun _ => raises_setHdr _ _

theorem raises_pastIndependence (C : List Cause) : Raises C pastIndependence :=
  raises_bind (raises_getHdr _) fun _ => raises_whenTrue (raises_setCtx _ _)

theorem raises_loopFilterParams (C : List Cause) : Raises C loopFilterParams := by
  refine raises_bind (raises_receive _ _) fun _ => raises_bind (raises_setHdr _ _) fun _ =>
    raises_bind (raises_receive _ _) fun _ => raises_bind (raises_setHdr _ _) fun _ =>
    raises_bind (raises_receive _ _) fun _ => raises_bind (raises_setHdr _ _) fun _ =>
    raises_bind (raises_whenTrue (raises_bind (raises_receive _ _) fun _ => raises_bind (raises_setHdr _ _) fun _ =>
      raises_whenTrue (raises_bind (raises_forEach (fun i => ?_) _) fun _ => raises_forEach (fun i => ?_) _))) fun _ =>
    raises_bind (raises_getCtx _) fun _ => raises_setHdr _ _
  · exact raises_bind (raises_receive _ _) fun _ => raises_bind (raises_setHdr _ _) fun _ =>
      raises_whenTrue (raises_bind (raises_receive _ _) fun _ => raises_setCtx _ _)
  · exact raises_bind (raises_receive _ _) fun _ => raises_bind (raises_setHdr _ _) fun _ =>
      raises_whenTrue (raises_bind (raises_receive _ _) fun _ => raises_setCtx _ _)

theorem raises_quantDelta (C : List Cause) : Raises C quantDelta :=
  raises_bind (raises_guarded (raises_receive _ _) _) fun _ => raises_pure _ _

theorem raises_quantizationParams (C : List Cause) : Raises C quantizationParams :=
  raises_bind (raises_receive _ _) fun _ => raises_bind (raises_setHdr _ _) fun _ =>
    raises_bind (raises_quantDelta _) fun _ => raises_bind (raises_setHdr _ _) fun _ =>
    raises_bind (raises_quantDelta _) fun _ => raises_bind (raises_setHdr _ _) fun _ =>
    raises_bind (raises_quantDelta _) fun _ => raises_bind (raises_setHdr _ _) fun _ =>
    raises_bind (raises_getHdr _) fun _ => raises_bind (raises_setCtx _ _) fun _ =>
    raises_bind (raises_getCtx _) fun _ => raises_setHdr _ _

theorem raises_segmentationParams (C : List Cause) : Raises C segmentationParams := by
  refine raises_bind (raises_receive _ _) fun _ => raises_bind (raises_setHdr _ _) fun _ =>
    raises_bind (raises_whenTrue (raises_bind (raises_receive _ _) fun _ => raises_bind (raises_setHdr _ _) fun _ =>
      raises_bind (raises_whenTrue (raises_bind (raises_forEach (fun i => ?_) _) fun _ =>
        raises_bind (raises_receive _ _) fun _ => raises_bind (raises_setHdr _ _) fun _ =>
        raises_forEach (fun i => raises_ite ?_ (raises_setCtx _ _)) _)) fun _ =>
      raises_bind (raises_receive _ _) fun _ => raises_bind (raises_setHdr _ _) fun _ =>
      raises_whenTrue (raises_bind (raises_receive _ _) fun _ => raises_bind (raises_setCtx _ _) fun _ =>
        raises_forEach (fun s => ?_) _))) fun _ =>
    raises_bind (raises_getCtx _) fun _ => raises_setHdr _ _
  · exact raises_bind (raises_guarded (raises_receive _ _) _) fun _ => raises_bind (raises_setHdr _ _) fun _ =>
      raises_setCtx _ _
  · exact raises_bind (raises_guarded (raises_receive _ _) _) fun _ => raises_bind (raises_setHdr _ _) fun _ =>
      raises_setCtx _ _
  · have part : ∀ (read : Bool → Grammar Nat) (g : Bool → SegFeature → SegFeature) (p : Nat → SegFeature → SegFeature),
        (∀ b, Raises C (read b)) → Raises C (flag >>= fun b => setFeature s (g b) >>= fun _ => read b >>= fun v =>
          setFeature s (p v)) := fun read g p hr =>
      raises_bind (raises_receive _ _) fun b => raises_bind (raises_setCtx _ _) fun _ => raises_bind (hr b) fun _ =>
        raises_setCtx _ _
    have partI : ∀ (read : Bool → Grammar Int) (g : Bool → SegFeature → SegFeature) (p : Int → SegFeature → SegFeature),
        (∀ b, Raises C (read b)) → Raises C (flag >>= fun b => setFeature s (g b) >>= fun _ => read b >>= fun v =>
          setFeature s (p v)) := fun read g p hr =>
      raises_bind (raises_receive _ _) fun b => raises_bind (raises_setCtx _ _) fun _ => raises_bind (hr b) fun _ =>
        raises_setCtx _ _
    exact raises_bind (partI _ _ _ fun b => raises_readIf (raises_receive _ _) b _) fun _ =>
      raises_bind (partI _ _ _ fun b => raises_readIf (raises_receive _ _) b _) fun _ =>
      raises_bind (part _ _ _ fun b => raises_readIf (raises_receive _ _) b _) fun _ =>
      raises_bind (raises_receive _ _) fun _ => raises_setCtx _ _

theorem raises_tileCols (C : List Cause) (left c : Nat) : Raises C (tileCols left c) := by
  induction left generalizing c with
  | zero => exact raises_pure _ _
  | succ left ih => exact raises_bind (raises_receive _ _) fun _ => raises_ite (ih _) (raises_pure _ _)

theorem raises_tileInfo (C : List Cause) : Raises C tileInfo :=
  raises_bind (raises_getHdr _) fun _ => raises_bind (raises_setHdr _ _) fun _ =>
    raises_bind (raises_tileCols _ _ _) fun _ => raises_bind (raises_setHdr _ _) fun _ =>
    raises_bind (raises_bind (raises_receive _ _) fun _ =>
      raises_ite (raises_bind (raises_receive _ _) fun _ => raises_pure _ _) (raises_pure _ _)) fun _ => raises_setHdr _ _

/-- Everything steps 7 to 12 can raise is cause 8. -/
theorem raises_tail : Raises [.zeroFirstPartition] (do
    colorCopy
    ctxFlags
    pastIndependence
    loopFilterParams
    quantizationParams
    segmentationParams
    tileInfo
    headerSize
    commitRefs) :=
  raises_bind (raises_colorCopy _) fun _ => raises_bind (raises_ctxFlags _) fun _ =>
    raises_bind (raises_pastIndependence _) fun _ => raises_bind (raises_loopFilterParams _) fun _ =>
    raises_bind (raises_quantizationParams _) fun _ => raises_bind (raises_segmentationParams _) fun _ =>
    raises_bind (raises_tileInfo _) fun _ => raises_bind raises_headerSize fun _ =>
    raises_bind (raises_getHdr _) fun _ => raises_setCtx _ _

/-- The causes of steps 4 to 12. -/
def fullCauses : List Cause := .zeroFirstPartition :: frameCauses

theorem raises_fullHeader : Raises fullCauses fullHeader :=
  raises_bind (raises_frameType.mono (by decide)) fun _ => raises_bind (raises_frameBranch.mono (by decide)) fun _ =>
    raises_tail.mono (by decide)

/-- All nine failure causes (R128), and nothing else. -/
theorem raises_uncompressedHeader : Raises (.badFrameMarker :: .unsupportedProfile :: fullCauses) uncompressedHeader :=
  raises_bind (raises_frameMarker.mono (by decide)) fun _ => raises_bind (raises_profile.mono (by decide)) fun _ =>
    raises_bind (raises_showExisting.mono (by decide)) fun _ => raises_whenTrue (raises_fullHeader.mono (by decide))

/-- A PARSE never raises cause 0. -/
theorem uncompressedHeader_raises_ne_none {w w' : Work} {c : Cause} (h : uncompressedHeader w = .error (.raised c) w') :
    c ≠ .none := by
  rcases raises_uncompressedHeader _ _ _ h with rfl | hc
  · decide
  · rintro rfl; revert hc; decide

/-! ### No byte is missed -/

/-- From a full buffer `m` never misses a byte, and leaves the buffer bound. -/
def Safe (m : Grammar α) : Prop :=
  ∀ w, w.br.Full → w.br.pos ≤ 8 * w.br.len →
    Sat m w (fun _ w' => ∃ n, Advanced n w w') (fun e w' => (∃ n, Advanced n w w') ∧ e ≠ .absent)

theorem Reads.safe {n : Nat} {m : Grammar α} (h : Reads n m) : Safe m := fun w hf hp =>
  Sat.of_cases (fun _ _ hm => ⟨n, (h w hf hp).ok hm⟩)
    (fun _ _ hm => ⟨⟨n, ((h w hf hp).error hm).1⟩, ((h w hf hp).error hm).2.1⟩)

theorem safe_bind {m : Grammar α} {k : α → Grammar β} (h1 : Safe m) (h2 : ∀ a, Safe (k a)) : Safe (m >>= k) :=
  fun w hf hp => Sat.bind (Sat.of_cases
    (fun a w' hm => by
      obtain ⟨n, s1⟩ := (h1 w hf hp).ok hm
      have s2 := h2 a w' (s1.full hf) s1.inside
      refine Sat.of_cases (fun b w'' hb => ?_) (fun e w'' hb => ?_)
      · obtain ⟨k, s3⟩ := s2.ok hb; exact ⟨_, s1.trans s3⟩
      · obtain ⟨⟨k, s3⟩, he⟩ := s2.error hb; exact ⟨⟨_, s1.trans s3⟩, he⟩)
    (fun _ _ hm => (h1 w hf hp).error hm))

theorem safe_tileInfo : Safe tileInfo :=
  safe_bind reads_getHdr.safe fun _ => safe_bind (reads_setHdr _).safe fun _ => safe_bind (reads_tileCols _ _).safe
    fun _ => safe_bind (reads_setHdr _).safe fun _ => safe_bind reads_tileRows.safe fun _ => (reads_setHdr _).safe

theorem safe_uncompressedHeader : Safe uncompressedHeader := by
  refine safe_bind reads_frameMarker.safe fun _ => safe_bind reads_profile.safe fun _ =>
    safe_bind reads_showExisting.safe fun b => ?_
  cases b with
  | true => exact (reads_pure ()).safe
  | false =>
    exact safe_bind reads_frameType.safe fun _ => safe_bind reads_frameBranch.safe fun _ =>
      safe_bind reads_colorCopy.safe fun _ => safe_bind reads_ctxFlags.safe fun _ =>
      safe_bind reads_pastIndependence.safe fun _ => safe_bind reads_loopFilterParams.safe fun _ =>
      safe_bind reads_quantizationParams.safe fun _ => safe_bind reads_segmentationParams.safe fun _ =>
      safe_bind safe_tileInfo fun _ => safe_bind reads_headerSize.safe fun _ => reads_commitRefs.safe

end Sys2Proof.Machine
end

