-- ==== Sys2Proof/Laws/Codec.lean ====
section
/-! SUPPORT. The command word: its two fields rebuild it, and what well-formedness says of a count. -/

namespace Sys2Proof

@[simp] theorem Instr.wf_readBits {n : Nat} : (Instr.readBits n).wf = true ↔ n ≤ 32 := decide_eq_true_iff

@[simp] theorem Instr.wf_readSigned {n : Nat} : (Instr.readSigned n).wf = true ↔ n ≤ 31 := decide_eq_true_iff

theorem fields_rebuild (w : CommandWord) : 256 * opcField w + countField w = w.toNat := by
  unfold opcField countField; omega

/-- The word with the fields of `w` is `w`. -/
theorem commandWord_fields (w : CommandWord) : commandWord (opcField w) (countField w) = w := by
  unfold commandWord
  rw [fields_rebuild]
  simp

theorem opcField_commandWord {o n : Nat} (ho : o < 256) (hn : n < 256) : opcField (commandWord o n) = o := by
  unfold opcField commandWord
  rw [BitVec.toNat_ofNat]
  omega

theorem countField_commandWord {o n : Nat} (hn : n < 256) : countField (commandWord o n) = n := by
  unfold countField commandWord
  rw [BitVec.toNat_ofNat]
  omega

theorem plainOp_ok {i j : Instr} {n : Nat} (h : plainOp i n = .ok j) : j = i ∧ n = 0 := by
  unfold plainOp at h
  split at h
  · rename_i h0; cases h; exact ⟨rfl, h0⟩
  · cases h

theorem countedOp_ok {i j : Instr} (h : countedOp i = .ok j) : j = i ∧ i.wf = true := by
  unfold countedOp at h
  split at h
  · rename_i h0; cases h; exact ⟨rfl, h0⟩
  · cases h

end Sys2Proof
end

