-- ==== Sys2Proof/Laws/Prefix.lean ====
section
/-! SUPPORT. What a step of the grammar can learn of its buffer: the bytes below the length, up to the point where it stops.
`Built` says a step is made of the primitives; what holds of every such step is proved by induction on it. -/

namespace Sys2Proof.Machine

/-- `r'` has at least the bytes of `r`, bound at the same cursor; with `eq` it has the same length. -/
structure Reader.Extends (eq : Bool) (r r' : Reader) : Prop where
  pos   : r'.pos = r.pos
  len   : r.len ≤ r'.len
  same  : eq = true → r'.len = r.len
  bytes : ∀ a < r.len, lookup a r'.buf = lookup a r.buf

/-- As `Reader.Extends`, with the same context and header. -/
structure Work.Extends (eq : Bool) (w v : Work) : Prop where
  br  : w.br.Extends eq v.br
  ctx : v.ctx = w.ctx
  hdr : v.hdr = w.hdr

theorem Reader.Extends.bit {eq : Bool} {r r' : Reader} (h : r.Extends eq r') {p : Nat} (hp : p < 8 * r.len) :
    r'.bit p = r.bit p := by
  have hq : p >>> 3 < r.len := by rw [Nat.shiftRight_eq_div_pow]; omega
  have hq' : p >>> 3 < r'.len := Nat.lt_of_lt_of_le hq h.len
  simp [Reader.bit, Reader.memRead, hq, hq', h.bytes _ hq]

theorem Reader.Extends.bitsFrom {eq : Bool} {r r' : Reader} (h : r.Extends eq r') (n p v : Nat)
    (hp : p + n ≤ 8 * r.len) : r'.bitsFrom n p v = r.bitsFrom n p v := by
  induction n generalizing p v with
  | zero => rfl
  | succ n ih =>
    simp only [Reader.bitsFrom]
    rw [h.bit (by omega)]
    cases r.bit p with
    | none => rfl
    | some b => exact ih (p + 1) _ (by omega)

/-- The value of a read of width `n` depends on the `n` bits at the cursor only. -/
def LocalValue {α : Type} (n : Nat) (value : Reader → Option α) : Prop :=
  ∀ eq r r', Reader.Extends eq r r' → r.pos + n ≤ 8 * r.len → value r' = value r

theorem localValue_bits (n : Nat) : LocalValue n fun r => r.bitsFrom n r.pos 0 := fun _ r r' h hp => by
  simp only [h.pos]; exact h.bitsFrom n r.pos 0 (by omega)

theorem localValue_signed (n : Nat) : LocalValue (n + 1) fun r => r.signedAt n := fun _ r r' h hp => by
  simp only [Reader.signedAt, h.pos, h.bitsFrom n r.pos 0 (by omega), h.bit (p := r.pos + n) (by omega)]

theorem localValue_flag : LocalValue 1 Reader.flagAt := fun _ r r' h hp => by
  simp only [Reader.flagAt, h.pos, h.bit (p := r.pos) (by omega)]

/-- A step made of the primitives. -/
inductive Built : {α : Type} → Grammar α → Prop
  | pure {α : Type} (a : α) : Built (pure a : Grammar α)
  | read {α : Type} (n : Nat) (value : Reader → Option α) (h : LocalValue n value) :
      Built (receive fun r => r.read n value)
  | getPos : Built getPos
  | getHdr : Built getHdr
  | getCtx : Built getCtx
  | setHdr (g : Header → Header) : Built (setHdr g)
  | setCtx (g : Context → Context) : Built (setCtx g)
  | raise {α : Type} (c : Cause) : c ≠ .outOfData → Built (raise c : Grammar α)
  | bind {α β : Type} {m : Grammar α} {k : α → Grammar β} : Built m → (∀ a, Built (k a)) → Built (m >>= k)

theorem built_f (n : Nat) : Built (f n) := .read n _ (localValue_bits n)
theorem built_flag : Built flag := .read 1 _ localValue_flag
theorem built_su (n : Nat) : Built (su n) := .read (n + 1) _ (localValue_signed n)

theorem built_ite {α : Type} {c : Prop} {_ : Decidable c} {m n : Grammar α} (h1 : Built m) (h2 : Built n) :
    Built (if c then m else n) := by split <;> assumption

theorem built_whenTrue {c : Bool} {m : Grammar Unit} (h : Built m) : Built (whenTrue c m) := by
  cases c
  · exact .pure ()
  · exact h

theorem built_readIf {α : Type} {read : Grammar α} (h : Built read) (c : Bool) (d : α) : Built (readIf c read d) :=
  built_ite h (.pure d)

theorem built_guarded {α : Type} {read : Grammar α} (h : Built read) (d : α) : Built (guarded read d) :=
  .bind built_flag fun _ => .bind (built_readIf h _ _) fun _ => .pure _

theorem built_forEach {ι : Type} {body : ι → Grammar Unit} (h : ∀ i, Built (body i)) (is : List ι) :
    Built (forEach body is) := by
  induction is with
  | nil => exact .pure ()
  | cons i is ih => exact .bind (h i) fun _ => ih

theorem built_frameMarker : Built frameMarker := .bind (built_f _) fun _ => built_whenTrue (.raise _ (by decide))

theorem built_profile : Built profile :=
  .bind (built_f _) fun _ => .bind (built_f _) fun _ =>
    .bind (built_whenTrue (.bind built_flag fun _ => built_whenTrue (.raise _ (by decide)))) fun _ => .setHdr _

theorem built_showExisting : Built showExisting :=
  .bind built_flag fun _ => .bind (.setHdr _) fun _ =>
    .bind (built_whenTrue (.bind (built_f _) fun _ => .bind (.setHdr _) fun _ => .bind .getPos fun _ => .setHdr _))
      fun _ => .pure _

theorem built_frameType : Built frameType :=
  .bind built_flag fun _ => .bind (.setHdr _) fun _ => .bind built_flag fun _ => .bind (.setHdr _) fun _ =>
    .bind built_flag fun _ => .setHdr _

theorem built_syncCode : Built syncCode := .bind (built_f _) fun _ => built_whenTrue (.raise _ (by decide))

theorem built_colorReserved : Built colorReserved := .bind built_flag fun _ => built_whenTrue (.raise _ (by decide))

theorem built_colorConfig : Built colorConfig :=
  .bind .getHdr fun _ => .bind (built_ite (.bind built_flag fun _ => .setCtx _) (.setCtx _)) fun _ =>
    .bind (built_f _) fun _ => .bind (.setCtx _) fun _ =>
      built_ite
        (.bind (.setCtx _) fun _ => built_ite (.bind (.setCtx _) fun _ => built_colorReserved) (.raise _ (by decide)))
        (.bind built_flag fun _ => .bind (.setCtx _) fun _ =>
          built_ite
            (.bind built_flag fun _ => .bind (.setCtx _) fun _ => .bind built_flag fun _ => .bind (.setCtx _) fun _ =>
              .bind (built_whenTrue (.raise _ (by decide))) fun _ => built_colorReserved)
            (.setCtx _))

theorem built_frameSize : Built frameSize :=
  .bind (built_f _) fun _ => .bind (.setHdr _) fun _ => .bind (built_f _) fun _ => .setHdr _

theorem built_renderSize : Built renderSize :=
  .bind built_flag fun _ => .bind (.setHdr _) fun _ =>
    built_ite (.bind (built_f _) fun _ => .bind (.setHdr _) fun _ => .bind (built_f _) fun _ => .setHdr _) (.setHdr _)

theorem built_refreshFlags : Built refreshFlags := .bind (built_f _) fun _ => .setHdr _

theorem built_copyRefSize (i : Fin 3) : Built (copyRefSize i) :=
  .bind .getHdr fun _ => .bind .getCtx fun _ => .bind (built_whenTrue (.raise _ (by decide))) fun _ => .setHdr _

theorem built_sizeFlags (is : List (Fin 3)) : Built (sizeFlags is) := by
  induction is with
  | nil => exact .pure _
  | cons i is ih =>
    exact .bind built_flag fun _ => .bind (.setHdr _) fun _ =>
      built_ite (.bind (built_copyRefSize i) fun _ => .pure _) ih

theorem built_keyFrame : Built keyFrame :=
  .bind built_syncCode fun _ => .bind built_colorConfig fun _ => .bind (.setHdr _) fun _ =>
    .bind built_frameSize fun _ => built_renderSize

theorem built_intraBranch : Built intraBranch :=
  .bind built_syncCode fun _ => .bind (.bind .getHdr fun _ => built_ite built_colorConfig (.setCtx _)) fun _ =>
    .bind built_refreshFlags fun _ => .bind built_frameSize fun _ => built_renderSize

theorem built_interBranch : Built interBranch :=
  .bind built_refreshFlags fun _ =>
    .bind (built_forEach (fun _ => .bind (built_f _) fun _ => .bind (.setHdr _) fun _ => .bind built_flag fun _ =>
      .setHdr _) _) fun _ =>
    .bind (.bind (built_sizeFlags _) fun _ => .bind (built_whenTrue built_frameSize) fun _ => built_renderSize) fun _ =>
    .bind (.bind built_flag fun _ => .setHdr _) fun _ =>
      .bind built_flag fun _ => built_ite (.setHdr _) (.bind (built_f _) fun _ => .setHdr _)

theorem built_interFrame : Built interFrame :=
  .bind (.bind .getHdr fun _ => built_ite (.setHdr _) (.bind built_flag fun _ => .setHdr _)) fun _ =>
    .bind (.bind .getHdr fun _ => built_ite (.setHdr _) (.bind (built_f _) fun _ => .setHdr _)) fun _ =>
    .bind .getHdr fun _ => built_ite built_intraBranch built_interBranch

theorem built_ctxFlags : Built ctxFlags :=
  .bind (.bind .getHdr fun _ => built_ite (.setHdr _)
    (.bind built_flag fun _ => .bind (.setHdr _) fun _ => .bind built_flag fun _ => .setHdr _)) fun _ =>
  .bind (built_f _) fun _ => .setHdr _

theorem built_refDelta (i : Fin 4) : Built (refDelta i) :=
  .bind built_flag fun _ => .bind (.setHdr _) fun _ => built_whenTrue (.bind (built_su _) fun _ => .setCtx _)

theorem built_modeDelta (i : Fin 2) : Built (modeDelta i) :=
  .bind built_flag fun _ => .bind (.setHdr _) fun _ => built_whenTrue (.bind (built_su _) fun _ => .setCtx _)

theorem built_loopFilterParams : Built loopFilterParams :=
  .bind (built_f _) fun _ => .bind (.setHdr _) fun _ => .bind (built_f _) fun _ => .bind (.setHdr _) fun _ =>
    .bind built_flag fun _ => .bind (.setHdr _) fun _ =>
    .bind (built_whenTrue (.bind built_flag fun _ => .bind (.setHdr _) fun _ =>
      built_whenTrue (.bind (built_forEach built_refDelta _) fun _ => built_forEach built_modeDelta _))) fun _ =>
    .bind .getCtx fun _ => .setHdr _

theorem built_quantDelta : Built quantDelta := .bind (built_guarded (built_su _) _) fun _ => .pure _

theorem built_quantizationParams : Built quantizationParams :=
  .bind (built_f _) fun _ => .bind (.setHdr _) fun _ => .bind built_quantDelta fun _ => .bind (.setHdr _) fun _ =>
    .bind built_quantDelta fun _ => .bind (.setHdr _) fun _ => .bind built_quantDelta fun _ => .bind (.setHdr _) fun _ =>
    .bind .getHdr fun _ => .bind (.setCtx _) fun _ => .bind .getCtx fun _ => .setHdr _

theorem built_segMap : Built segMap :=
  .bind (built_forEach (fun _ => .bind (built_guarded (built_f _) _) fun _ => .bind (.setHdr _) fun _ => .setCtx _) _)
    fun _ => .bind built_flag fun _ => .bind (.setHdr _) fun _ =>
    built_forEach (fun _ => built_ite
      (.bind (built_guarded (built_f _) _) fun _ => .bind (.setHdr _) fun _ => .setCtx _) (.setCtx _)) _

theorem built_segFeature (s : Fin 8) : Built (segFeature s) :=
  .bind (.bind built_flag fun _ => .bind (.setCtx _) fun _ => .bind (built_readIf (built_su _) _ _) fun _ => .setCtx _)
    fun _ =>
  .bind (.bind built_flag fun _ => .bind (.setCtx _) fun _ => .bind (built_readIf (built_su _) _ _) fun _ => .setCtx _)
    fun _ =>
  .bind (.bind built_flag fun _ => .bind (.setCtx _) fun _ => .bind (built_readIf (built_f _) _ _) fun _ => .setCtx _)
    fun _ => .bind built_flag fun _ => .setCtx _

theorem built_segmentationParams : Built segmentationParams :=
  .bind built_flag fun _ => .bind (.setHdr _) fun _ =>
    .bind (built_whenTrue (.bind built_flag fun _ => .bind (.setHdr _) fun _ => .bind (built_whenTrue built_segMap) fun _ =>
      .bind built_flag fun _ => .bind (.setHdr _) fun _ =>
      built_whenTrue (.bind built_flag fun _ => .bind (.setCtx _) fun _ => built_forEach built_segFeature _))) fun _ =>
    .bind .getCtx fun _ => .setHdr _

theorem built_tileCols (left c : Nat) : Built (tileCols left c) := by
  induction left generalizing c with
  | zero => exact .pure _
  | succ left ih => exact .bind built_flag fun _ => built_ite (ih _) (.pure _)

theorem built_tileInfo : Built tileInfo :=
  .bind .getHdr fun _ => .bind (.setHdr _) fun _ => .bind (built_tileCols _ _) fun _ => .bind (.setHdr _) fun _ =>
    .bind (.bind (built_f _) fun _ => built_ite (.bind (built_f _) fun _ => .pure _) (.pure _)) fun _ => .setHdr _

theorem built_headerSize : Built headerSize :=
  .bind (built_f _) fun _ => .bind (.setHdr _) fun _ => .bind (built_whenTrue (.raise _ (by decide))) fun _ =>
    .bind .getPos fun _ => .setHdr _

theorem built_fullHeader : Built fullHeader :=
  .bind built_frameType fun _ => .bind (.bind .getHdr fun _ => built_ite built_keyFrame built_interFrame) fun _ =>
    .bind (.bind .getCtx fun _ => .setHdr _) fun _ => .bind built_ctxFlags fun _ =>
    .bind (.bind .getHdr fun _ => built_whenTrue (.setCtx _)) fun _ => .bind built_loopFilterParams fun _ =>
    .bind built_quantizationParams fun _ => .bind built_segmentationParams fun _ => .bind built_tileInfo fun _ =>
    .bind built_headerSize fun _ => .bind .getHdr fun _ => .setCtx _

theorem built_uncompressedHeader : Built uncompressedHeader :=
  .bind built_frameMarker fun _ => .bind built_profile fun _ => .bind built_showExisting fun _ =>
    built_whenTrue built_fullHeader

/-! ### A longer buffer -/

/-- Run on a buffer that extends the one it was run on, a step does the same, unless it ran out of data on the shorter one. -/
theorem Built.extends {α : Type} {m : Grammar α} (hb : Built m) (eq : Bool) : ∀ w v, Work.Extends eq w v →
    (∀ a w', m w = .ok a w' → ∃ v', m v = .ok a v' ∧ Work.Extends eq w' v') ∧
    (∀ c w', m w = .error (.raised c) w' → c ≠ .outOfData ∨ eq = true →
      ∃ v', m v = .error (.raised c) v' ∧ Work.Extends eq w' v') := by
  induction hb with
  | pure a => intro w v h; exact ⟨fun b w' e => by cases e; exact ⟨v, rfl, h⟩, fun c w' e => by cases e⟩
  | read n value hl =>
    intro w v h
    refine ⟨fun a w' e => ?_, fun c w' e hc => ?_⟩
    · obtain ⟨hv, hle, rfl⟩ := receive_read_ok e
      have hv' : value v.br = some a := by rw [hl eq _ _ h.br hle]; exact hv
      have hn : ¬ v.br.pos + n > 8 * v.br.len := by have := h.br.pos; have := h.br.len; omega
      refine ⟨{ v with br := { v.br with pos := v.br.pos + n } }, by simp [receive, Reader.read, hn, hv'], ?_⟩
      exact ⟨⟨by show v.br.pos + n = w.br.pos + n; rw [h.br.pos], h.br.len, h.br.same, h.br.bytes⟩, h.ctx, h.hdr⟩
    · unfold receive at e
      rcases Reader.read_cases w.br n value with ⟨hlt, heq⟩ | ⟨_, x, _, heq⟩ | ⟨_, _, heq⟩
      · simp only [heq] at e
        cases e
        rcases hc with hc | hc
        · exact absurd rfl hc
        · have hn : v.br.pos + n > 8 * v.br.len := by have := h.br.pos; have := h.br.same hc; omega
          exact ⟨v, by simp [receive, Reader.read, hn], h⟩
      · simp [heq] at e
      · simp [heq] at e
  | getPos =>
    intro w v h
    exact ⟨fun b w' e => by cases e; exact ⟨v, by simp [h.br.pos], h⟩, fun c w' e => by cases e⟩
  | getHdr =>
    intro w v h
    exact ⟨fun b w' e => by cases e; exact ⟨v, by simp [h.hdr], h⟩, fun c w' e => by cases e⟩
  | getCtx =>
    intro w v h
    exact ⟨fun b w' e => by cases e; exact ⟨v, by simp [h.ctx], h⟩, fun c w' e => by cases e⟩
  | setHdr g =>
    intro w v h
    exact ⟨fun b w' e => by cases e; exact ⟨_, rfl, ⟨h.br, h.ctx, congrArg g h.hdr⟩⟩, fun c w' e => by cases e⟩
  | setCtx g =>
    intro w v h
    exact ⟨fun b w' e => by cases e; exact ⟨_, rfl, ⟨h.br, congrArg g h.ctx, h.hdr⟩⟩, fun c w' e => by cases e⟩
  | raise c hc =>
    intro w v h
    exact ⟨(fun b w' e => by cases e), fun d w' e _ => by cases e; exact ⟨v, rfl, h⟩⟩
  | bind _ _ ihm ihk =>
    intro w v h
    obtain ⟨m1, m2⟩ := ihm w v h
    refine ⟨fun b w' e => ?_, fun c w' e hc => ?_⟩
    · obtain ⟨a, w1, e1, e2⟩ := bind_ok.mp e
      obtain ⟨v1, f1, h1⟩ := m1 a w1 e1
      obtain ⟨v2, f2, h2⟩ := (ihk a w1 v1 h1).1 b w' e2
      exact ⟨v2, bind_ok.mpr ⟨a, v1, f1, f2⟩, h2⟩
    · rcases bind_error.mp e with e1 | ⟨a, w1, e1, e2⟩
      · obtain ⟨v1, f1, h1⟩ := m2 c w' e1 hc
        exact ⟨v1, bind_error.mpr (.inl f1), h1⟩
      · obtain ⟨v1, f1, h1⟩ := m1 a w1 e1
        obtain ⟨v2, f2, h2⟩ := (ihk a w1 v1 h1).2 c w' e2 hc
        exact ⟨v2, bind_error.mpr (.inr ⟨a, v1, f1, f2⟩), h2⟩

/-! ### A shorter buffer -/

/-- `v` is what a run on the shorter buffer has instead of `w'`: the same outcome inside that buffer, or it ran out of data. -/
def Shorter {α : Type} (len : Nat) : EStateM.Result Abort Work α → EStateM.Result Abort Work α → Prop
  | .ok a v, .ok b w => a = b ∧ Work.Extends false w v ∧ w.br.len = len ∧ w.br.pos ≤ 8 * len
  | .error (.raised c) v, .error (.raised e) w =>
    e = .outOfData ∨ (c = e ∧ Work.Extends false w v ∧ w.br.len = len ∧ w.br.pos ≤ 8 * len)
  | .ok _ _, .error e _ => e = .raised .outOfData
  | .error .absent _, _ => True
  | .error (.raised _) _, .ok _ _ => False
  | .error (.raised _) _, .error .absent _ => False

/-- Run on a buffer that is a part of the one it was run on, a step does the same inside it, or runs out of data. -/
theorem Built.shorter {α : Type} {m : Grammar α} (hb : Built m) : ∀ w v, Work.Extends false w v →
    w.br.pos ≤ 8 * w.br.len → Shorter w.br.len (m v) (m w) := by
  induction hb with
  | pure a => intro w v h hp; exact ⟨rfl, h, rfl, hp⟩
  | read n value hl =>
    intro w v h hp
    have hpos := h.br.pos
    have hlen := h.br.len
    rcases Reader.read_cases w.br n value with ⟨hlt, heq⟩ | ⟨hle, x, hx, heq⟩ | ⟨hle, hx, heq⟩
    · have e : receive (fun r => r.read n value) w = .error (.raised .outOfData) w := by simp only [receive, heq]
      rw [e]
      rcases Reader.read_cases v.br n value with ⟨_, heq'⟩ | ⟨_, y, _, heq'⟩ | ⟨_, _, heq'⟩ <;>
        simp only [receive, heq', Shorter, true_or]
    · have hno : ¬ v.br.pos + n > 8 * v.br.len := by omega
      have hv : value v.br = some x := by rw [hl false _ _ h.br hle]; exact hx
      have hno' : ¬ w.br.pos + n > 8 * w.br.len := by omega
      simp only [receive, Reader.read, hno, hno', if_false, hv, hx]
      exact ⟨rfl, ⟨⟨by rw [hpos], h.br.len, h.br.same, h.br.bytes⟩, h.ctx, h.hdr⟩, rfl, hle⟩
    · have hno : ¬ v.br.pos + n > 8 * v.br.len := by omega
      have hv : value v.br = none := by rw [hl false _ _ h.br hle]; exact hx
      simp only [receive, Reader.read, hno, if_false, hv, Shorter]
  | getPos => intro w v h hp; exact ⟨h.br.pos, h, rfl, hp⟩
  | getHdr => intro w v h hp; exact ⟨h.hdr, h, rfl, hp⟩
  | getCtx => intro w v h hp; exact ⟨h.ctx, h, rfl, hp⟩
  | setHdr g => intro w v h hp; exact ⟨rfl, ⟨h.br, h.ctx, congrArg g h.hdr⟩, rfl, hp⟩
  | setCtx g => intro w v h hp; exact ⟨rfl, ⟨h.br, congrArg g h.ctx, h.hdr⟩, rfl, hp⟩
  | raise c hc => intro w v h hp; exact .inr ⟨rfl, h, rfl, hp⟩
  | @bind α β m k _ _ ihm ihk =>
    intro w v h hp
    have hm := ihm w v h hp
    rw [bind_run, bind_run]
    revert hm
    rcases m v with ⟨a, v1⟩ | ⟨_ | _, v1⟩ <;> rcases m w with ⟨b, w1⟩ | ⟨_ | _, w1⟩ <;> intro hm
    · obtain ⟨rfl, h1, hl, hq⟩ := hm
      have := ihk a w1 v1 h1 (by omega)
      rwa [hl] at this
    · obtain rfl : _ = Cause.outOfData := by simpa [Shorter] using hm
      simp only
      rcases k a v1 with ⟨_, _⟩ | ⟨_ | _, _⟩ <;> simp [Shorter]
    all_goals simp_all [Shorter]

end Sys2Proof.Machine
end

