-- ==== Sys2Proof/Laws/Parse.lean ====
section
/-! SUPPORT. PARSE as the host sees it: what it can end in, and what an OK result says of the registers. -/

namespace Sys2Proof.Machine

theorem startWork_full {s : State} (h : s.port.bufferGiven) : (startWork s).br.Full := by
  intro a ha
  exact Memory.holds_iff.mp (Port.holds_of_bufferGiven h) a ha

theorem startWork_inRange {s : State} (h : s.inst.ctx.inRange) : (startWork s).InRange := ⟨h, Header.zero_upper⟩

/-- Everything a PARSE within the contract can end in (R87): its grammar completes or raises a cause, and the machine goes
on. -/
theorem execParse_outcome {s : State} (h : s.ParseReady) :
    (∃ w, uncompressedHeader (startWork s) = .ok () w ∧
      execParse s = .next (s.done (Instance.completed s.port.target s.inst w) none) ∧ ∃ n, Advanced n (startWork s) w) ∨
    ∃ c w, uncompressedHeader (startWork s) = .error (.raised c) w ∧ c ≠ .none ∧
      execParse s = .next (s.done (Instance.failed s.port.target s.inst c w) none) ∧ ∃ n, Advanced n (startWork s) w := by
  rw [execParse_of_ready h]
  have hs := safe_uncompressedHeader (startWork s) (startWork_full h.buffer) (Nat.zero_le _)
  cases hu : uncompressedHeader (startWork s) with
  | ok a w => exact .inl ⟨w, rfl, rfl, hs.ok hu⟩
  | error e w =>
    obtain ⟨hadv, hne⟩ := hs.error hu
    cases e with
    | raised c => exact .inr ⟨c, w, rfl, uncompressedHeader_raises_ne_none hu, rfl, hadv⟩
    | absent => exact absurd rfl hne

theorem Cause.result_eq_ok {c : Cause} : c.result = .ok ↔ c = .none := by cases c <;> simp [Cause.result]

theorem Cause.result_eq_noPacketError {c : Cause} : c.result = .noPacketError ↔ c = .outOfData := by
  cases c <;> simp [Cause.result]

/-- Result OK says the grammar completed. -/
theorem execParse_result_ok {s t : State} (h : execParse s = .next t) (hr : t.inst.result = .ok) :
    s.ParseReady ∧ ∃ w, uncompressedHeader (startWork s) = .ok () w ∧
      t = s.done (Instance.completed s.port.target s.inst w) none := by
  obtain ⟨hp, _⟩ := execParse_next h
  refine ⟨hp, ?_⟩
  rcases execParse_outcome hp with ⟨w, hu, he, _⟩ | ⟨c, w, hu, hc, he, _⟩
  · rw [he] at h; cases h; exact ⟨w, hu, rfl⟩
  · rw [he] at h; cases h
    simp only [State.inst_done, Instance.failed_result] at hr
    exact absurd (Cause.result_eq_ok.mp hr) hc

/-- Any other result says the grammar raised the cause reported. -/
theorem execParse_result_not_ok {s t : State} (h : execParse s = .next t) (hr : t.inst.result ≠ .ok) :
    s.ParseReady ∧ ∃ c w, uncompressedHeader (startWork s) = .error (.raised c) w ∧ c ≠ .none ∧
      t = s.done (Instance.failed s.port.target s.inst c w) none := by
  obtain ⟨hp, _⟩ := execParse_next h
  refine ⟨hp, ?_⟩
  rcases execParse_outcome hp with ⟨w, hu, he, _⟩ | ⟨c, w, hu, hc, he, _⟩
  · rw [he] at h; cases h; exact absurd (by simp) hr
  · rw [he] at h; cases h; exact ⟨c, w, hu, hc, rfl⟩

/-- Where a PARSE leaves the reader, however it ends. -/
theorem readerEndsAt_done {s : State} {x : Instance} {w : Work} {n k : Nat} (h : Advanced n (startWork s) w)
    (hx : x.br = w.br.released k s.inst.freeCount) : ReaderEndsAt s (s.done x none) w.br.pos := by
  constructor
  · rw [State.inst_done, hx, Reader.released_len, h.len]; rfl
  · rw [State.inst_done, hx, Reader.released_pos]

/-- What a PARSE whose grammar completes leaves. -/
theorem decodedTo_completed {s : State} {w : Work} (hp : s.ParseReady) (hu : uncompressedHeader (startWork s) = .ok () w) :
    DecodedTo s (s.done (Instance.completed s.port.target s.inst w) none) w.br.pos w.ctx w.hdr := by
  rcases execParse_outcome hp with ⟨w', hu', _, _, h⟩ | ⟨c, w', hu', _⟩
  · rw [hu] at hu'; cases hu'
    exact ⟨by simpa using hp.live, by simp, by simp, readerEndsAt_done h rfl, by simp, by simp⟩
  · rw [hu] at hu'; cases hu'

/-- Where a PARSE that ends in a cause leaves the reader. -/
theorem readerEndsAt_failed {s : State} {c : Cause} {w : Work} (hp : s.ParseReady)
    (hu : uncompressedHeader (startWork s) = .error (.raised c) w) :
    ReaderEndsAt s (s.done (Instance.failed s.port.target s.inst c w) none) w.br.pos := by
  rcases execParse_outcome hp with ⟨w', hu', _⟩ | ⟨c', w', hu', _, _, _, h⟩
  · rw [hu] at hu'; cases hu'
  · rw [hu] at hu'; cases hu'
    exact readerEndsAt_done h rfl

/-- A PARSE lets its buffer go, however it ends (R148): the reader it leaves is given by the length, the cursor and free values. -/
theorem execParse_released {s t : State} (h : execParse s = .next t) :
    ∃ r : Reader, r.len = s.port.len ∧ t.inst.br = r.released s.port.target s.inst.freeCount := by
  obtain ⟨hp, _⟩ := execParse_next h
  rcases execParse_outcome hp with ⟨w, _, he, _, ha⟩ | ⟨c, w, _, _, he, _, ha⟩ <;>
  · rw [he] at h; cases h
    exact ⟨w.br, by rw [ha.len]; rfl, by simp⟩

/-- A completed header, from the start of PARSE: the marker and the profile, then a short header or the whole of it. -/
structure Front (s : State) (p : Nat) (w : Work) : Prop where
  marker  : s.port.reader.bitsFrom 2 0 0 = some Config.frameMarker
  bits    : ∃ lo hi, s.port.reader.bitsFrom 1 2 0 = some lo ∧ s.port.reader.bitsFrom 1 3 0 = some hi ∧ p = 2 * hi + lo
  zero    : p = 3 → s.port.reader.bitsFrom 1 4 0 = some 0
  at_     : w = { br := { s.port.reader with pos := 2 + profileBits p }, ctx := s.inst.ctx,
                  hdr := { Header.zero with profile := p } }

theorem front_ok {s : State} {w1 w2 : Work} (h1 : frameMarker (startWork s) = .ok () w1) (h2 : profile w1 = .ok () w2) :
    ∃ p, Front s p w2 := by
  obtain ⟨hm, rfl⟩ := frameMarker_ok h1
  obtain ⟨lo, hi, hlo, hhi, h3, rfl⟩ := profile_ok h2
  refine ⟨2 * hi + lo, hm, ⟨lo, hi, hlo, hhi, rfl⟩, h3, ?_⟩
  simp [startWork, Port.reader, Reader.init]

/-- A completed PARSE either ended as a short header (R96) or went through every step (R93). -/
theorem completed_cases {s : State} {w : Work} (h : uncompressedHeader (startWork s) = .ok () w) :
    ∃ p w2, Front s p w2 ∧
      ((∃ i, w2.br.flagAt = some true ∧ w2.br.bitsFrom 3 (w2.br.pos + 1) 0 = some i ∧ w = { w2 with
          br := { w2.br with pos := w2.br.pos + 4 }
          hdr := { w2.hdr with
            showExistingFrame := true, frameToShow := slotOf i
            headerLengthBytes := ceilDiv (w2.br.pos + 4) 8 } }) ∨
        ∃ w3, w2.br.flagAt = some false ∧ w3 = { w2 with br := { w2.br with pos := w2.br.pos + 1 } } ∧
          Nonempty (FullRun w3 w)) := by
  obtain ⟨w1, w2, w3, b, h1, h2, h3, hb⟩ := uncompressedHeader_ok h
  obtain ⟨p, hf⟩ := front_ok h1 h2
  obtain ⟨hfl, _, h0, h4⟩ := showExisting_ok h3
  refine ⟨p, w2, hf, ?_⟩
  rcases hb with ⟨rfl, rfl⟩ | ⟨rfl, hfull⟩
  · obtain ⟨i, hi, _, rfl⟩ := h4 rfl
    exact .inl ⟨i, hfl, hi, rfl⟩
  · have := h0 rfl
    refine .inr ⟨w3, hfl, ?_, fullHeader_ok hfull⟩
    rw [this, hf.at_]
    rfl

/-- What a whole header starts from: the context as the last PARSE left it, and only the profile in the header. -/
theorem fullRun_of_ok {s t : State} (h : execParse s = .next t) (hr : t.inst.result = .ok)
    (hs : t.inst.hdr.showExistingFrame = false) :
    s.ParseReady ∧ ∃ p w3 w, Front s p { w3 with br := { w3.br with pos := 2 + profileBits p } } ∧
      w3.br = { s.port.reader with pos := 3 + profileBits p } ∧ w3.ctx = s.inst.ctx ∧
      w3.hdr = { Header.zero with profile := p } ∧ Nonempty (FullRun w3 w) ∧
      uncompressedHeader (startWork s) = .ok () w ∧ t = s.done (Instance.completed s.port.target s.inst w) none := by
  obtain ⟨hp, w, hu, rfl⟩ := execParse_result_ok h hr
  refine ⟨hp, ?_⟩
  simp only [State.inst_done, Instance.completed_hdr] at hs
  obtain ⟨p, w2, hf, ⟨i, _, _, rfl⟩ | ⟨w3, _, hw3, hrun⟩⟩ := completed_cases hu
  · cases hs
  · refine ⟨p, w3, w, ?_, ?_, ?_, ?_, hrun, hu, rfl⟩
    · have e : ({ w3 with br := { w3.br with pos := 2 + profileBits p } } : Work) = w2 := by
        rw [hw3, hf.at_]
      rw [e]; exact hf
    · rw [hw3, hf.at_]; simp; omega
    · rw [hw3, hf.at_]
    · rw [hw3, hf.at_]

/-- Every completed whole header ran its frame branch from what `frameBranch_ok` asks for. -/
theorem FullRun.frame {w w' : Work} (r : FullRun w w') (hz : w.hdr.sizeFromRef = Header.zero.sizeFromRef)
    (hr : ∀ i : Fin 8, w.ctx.refs[i].inRange) : FrameOk r.typed r.framed := by
  have e : r.typed.hdr.sizeFromRef = w.hdr.sizeFromRef := congrArg (fun p => p.2.sizeFromRef) r.out_type
  have ec : r.typed.ctx = w.ctx := congrArg Prod.fst r.out_type
  refine frameBranch_ok r.frameBranch (fun i => ?_) (fun i => by rw [ec]; exact hr i)
  rw [e, hz]
  exact (by decide : ∀ i : Fin 3, Header.zero.sizeFromRef[i] = false) i

/-- The loop-filter fields are still 0 when step 8 starts. -/
theorem FullRun.lf_zero {w w' : Work} (r : FullRun w w') : r.restarted.hdr.lf = w.hdr.lf :=
  (congrArg (fun p => p.2.lf) r.out_restart).trans <| (congrArg (fun p => p.2.lf) r.out_flags).trans <|
    (congrArg (fun p => p.2.lf) r.out_color).trans <| (congrArg (fun p => p.2.lf) r.out_frame).trans <|
    congrArg (fun p => p.2.lf) r.out_type

/-- The segmentation fields are still 0 when step 10 starts. -/
theorem FullRun.seg_zero {w w' : Work} (r : FullRun w w') : r.quantized.hdr.seg = w.hdr.seg :=
  (congrArg (fun p => p.2.seg) r.out_quant).trans <| (congrArg (fun p => p.2.seg) r.out_lf).trans <|
    (congrArg (fun p => p.2.seg) r.out_restart).trans <| (congrArg (fun p => p.2.seg) r.out_flags).trans <|
    (congrArg (fun p => p.2.seg) r.out_color).trans <| (congrArg (fun p => p.2.seg) r.out_frame).trans <|
    congrArg (fun p => p.2.seg) r.out_type

/-- What the final header triggers is what the header triggered when the past-independence reset ran. -/
theorem FullRun.resets {w w' : Work} (r : FullRun w w') : r.flagged.hdr.resetsContext = w'.hdr.resetsContext := by
  have h := r.fields_flagged
  have h1 : w'.hdr.frameType = r.flagged.hdr.frameType := congrArg (fun p => p.1) h
  have h2 : w'.hdr.intraOnly = r.flagged.hdr.intraOnly := congrArg (fun p => p.2.2.2.1) h
  have h3 : w'.hdr.errorResilientMode = r.flagged.hdr.errorResilientMode := congrArg (fun p => p.2.2.1) h
  simp [Header.resetsContext, h1, h2, h3]

/-- The context step 8 starts from: the colour registers of the frame, and R111's reset where the frame triggers it. -/
theorem FullRun.ctx_restarted {w w' : Work} (r : FullRun w w') :
    r.restarted.ctx = if w'.hdr.resetsContext then ({ w.ctx with color := r.framed.ctx.color } : Context).pastIndependent
      else { w.ctx with color := r.framed.ctx.color } := by
  have h := pastIndependence_eq r.restart
  have hc := r.ctx_flagged
  rw [r.ctx_framed] at hc
  rw [← r.resets]
  have hx : r.restarted.ctx = if r.flagged.hdr.resetsContext then r.flagged.ctx.pastIndependent else r.flagged.ctx := by
    rw [h]; split <;> rfl
  rw [hx, r.ctx_framed, hc]

/-- A completed whole header leaves every register in range, and the frame has a size. -/
theorem FullRun.inRange {w w' : Work} (r : FullRun w w') (hw : w.InRange)
    (hz : w.hdr.sizeFromRef = Header.zero.sizeFromRef) :
    w'.InRange ∧ 1 ≤ w'.hdr.width ∧ 1 ≤ w'.hdr.height ∧ 1 ≤ w'.hdr.displayWidth ∧ 1 ≤ w'.hdr.displayHeight := by
  have hs := (r.frame hz hw.ctx.refs).sized
  have h10 := keeps_headerSize.ok (keeps_tileInfo.ok (keeps_segmentationParams.ok (keeps_quantizationParams.ok
    (keeps_loopFilterParams.ok (keeps_pastIndependence.ok (keeps_ctxFlags.ok (keeps_colorCopy.ok (keeps_frameBranch.ok
    (keeps_frameType.ok hw r.frameType) r.frameBranch) r.colorCopy) r.ctxFlags) r.restart) r.loopFilter) r.quantize)
    r.segment) r.tile) r.measure
  have ff := r.fields_framed
  simp only [FullRun.frameFields, Prod.mk.injEq] at ff
  obtain ⟨_, _, _, _, _, _, fw, fh, _, fdw, fdh, _⟩ := ff
  refine ⟨inRange_commitRefs h10 ?_ ?_ r.commit, ?_, ?_, ?_, ?_⟩
  · rw [← r.hdr_measured, fw]; exact hs.1
  · rw [← r.hdr_measured, fh]; exact hs.2.1
  · rw [fw]; exact hs.1
  · rw [fh]; exact hs.2.1
  · rw [fdw]; exact hs.2.2.1
  · rw [fdh]; exact hs.2.2.2.1

/-- A completed PARSE leaves the context in range. -/
theorem completed_inRange {s : State} {w : Work} (hi : s.inst.ctx.inRange)
    (h : uncompressedHeader (startWork s) = .ok () w) : w.ctx.inRange := by
  obtain ⟨w1, w2, w3, b, h1, h2, h3, hb⟩ := uncompressedHeader_ok h
  have k3 := keeps_showExisting.ok (keeps_profile.ok (keeps_frameMarker.ok (startWork_inRange hi) h1) h2) h3
  rcases hb with ⟨_, rfl⟩ | ⟨rfl, hf⟩
  · exact k3.ctx
  · obtain ⟨r⟩ := fullHeader_ok hf
    obtain ⟨p, hp⟩ := front_ok h1 h2
    obtain ⟨_, _, h0, _⟩ := showExisting_ok h3
    have := h0 rfl
    exact (r.inRange k3 (by rw [this, hp.at_])).1.ctx

end Sys2Proof.Machine
end

