-- ==== Sys2Proof/Laws/Failed.lean ====
section
/-! SUPPORT. What a failed PARSE leaves in the context, by its cause (R90, R131, R133): `Fails c R m` says that where `m` raises
`c` the registers before and after are related by `R`. -/

namespace Sys2Proof.Machine

variable {α β : Type}

/-- Where `m` raises `c`, the registers at its start and at the failure are related by `R`. -/
def Fails (c : Cause) (R : Work → Work → Prop) (m : Grammar α) : Prop :=
  ∀ w w', m w = .error (.raised c) w' → R w w'

/-- The context is the same. -/
def CtxKept (w w' : Work) : Prop := w'.ctx = w.ctx

/-- A step that does not raise `c`. -/
theorem Raises.fails {C : List Cause} {m : Grammar α} (h : Raises C m) {c : Cause} (hc : c ∉ C) (hd : c ≠ .outOfData)
    (R : Work → Work → Prop) : Fails c R m := fun w w' he => by
  rcases h w c w' he with h | h
  · exact absurd h hd
  · exact absurd h hc

theorem Same.fails {m : Grammar α} (h : Same (fun w => w.ctx) m) (c : Cause) : Fails c CtxKept m := fun _ _ he => h.error he

/-- A sequence whose first part keeps the context. -/
theorem fails_bind {c : Cause} {m : Grammar α} {k : α → Grammar β} (hm : Fails c CtxKept m)
    (hs : Same (fun w => w.ctx) m) (hk : ∀ a, Fails c CtxKept (k a)) : Fails c CtxKept (m >>= k) := fun w w' h => by
  rcases bind_error.mp h with h | ⟨a, w1, h1, h⟩
  · exact hm w w' h
  · exact (hk a w1 w' h).trans (hs.ok h1)

/-- A sequence of which only the first part raises `c`. -/
theorem fails_first {c : Cause} {R : Work → Work → Prop} {m : Grammar α} {k : α → Grammar β} (hm : Fails c R m)
    (hk : ∀ a, Fails c (fun _ _ => False) (k a)) : Fails c R (m >>= k) := fun w w' h => by
  rcases bind_error.mp h with h | ⟨a, w1, _, h⟩
  · exact hm w w' h
  · exact (hk a w1 w' h).elim

/-- A sequence whose first part does not raise `c` and keeps the context, for a relation on the contexts. -/
theorem fails_then {c : Cause} {R : Context → Context → Prop} {m : Grammar α} {k : α → Grammar β}
    (hm : Fails c (fun _ _ => False) m) (hs : Same (fun w => w.ctx) m)
    (hk : ∀ a, Fails c (fun w w' => R w.ctx w'.ctx) (k a)) : Fails c (fun w w' => R w.ctx w'.ctx) (m >>= k) :=
  fun w w' h => by
    rcases bind_error.mp h with h | ⟨a, w1, h1, h⟩
    · exact (hm w w' h).elim
    · have hr : R w1.ctx w'.ctx := hk a w1 w' h
      rwa [show w1.ctx = w.ctx from hs.ok h1] at hr

theorem Fails.mono {c : Cause} {R S : Work → Work → Prop} {m : Grammar α} (h : Fails c R m) (hRS : ∀ w w', R w w' → S w w') :
    Fails c S m := fun w w' he => hRS w w' (h w w' he)

theorem Fails.never {c : Cause} {R : Work → Work → Prop} {m : Grammar α} (h : Fails c (fun _ _ => False) m) : Fails c R m :=
  h.mono fun _ _ h => h.elim

/-! ### What every failure keeps -/

/-- Where `m` fails from registers that satisfy `I`, they still do. -/
def FailKeeps (I : Work → Prop) (m : Grammar α) : Prop := ∀ w w' e, I w → m w = .error e w' → I w'

theorem Keeps.failKeeps {I : Work → Prop} {m : Grammar α} (h : Keeps I m) : FailKeeps I m := fun _ _ _ hw he => h.error hw he

theorem failKeeps_bind {I : Work → Prop} {m : Grammar α} {k : α → Grammar β} (h1 : Keeps I m) (h2 : ∀ a, FailKeeps I (k a)) :
    FailKeeps I (m >>= k) := fun w w' e hw h => by
  rcases bind_error.mp h with h | ⟨a, w1, h1', h⟩
  · exact h1.error hw h
  · exact h2 a w1 w' e (h1.ok hw h1') h

/-- The last step never fails (R126). -/
theorem failKeeps_commitRefs (I : Work → Prop) : FailKeeps I commitRefs := fun _ _ _ _ h => by cases h

/-- What the steps before the last one keep, every failed PARSE keeps. -/
theorem failKeeps_uncompressedHeader {I : Work → Prop} (h1 : Keeps I frameMarker) (h2 : Keeps I profile)
    (h3 : Keeps I showExisting) (h4 : Keeps I frameType) (h5 : Keeps I frameBranch) (h6 : Keeps I colorCopy)
    (h7 : Keeps I ctxFlags) (h8 : Keeps I pastIndependence) (h9 : Keeps I loopFilterParams)
    (h10 : Keeps I quantizationParams) (h11 : Keeps I segmentationParams) (h12 : Keeps I tileInfo)
    (h13 : Keeps I headerSize) : FailKeeps I uncompressedHeader := by
  have hfull : FailKeeps I fullHeader := failKeeps_bind h4 fun _ => failKeeps_bind h5 fun _ => failKeeps_bind h6 fun _ =>
    failKeeps_bind h7 fun _ => failKeeps_bind h8 fun _ => failKeeps_bind h9 fun _ => failKeeps_bind h10 fun _ =>
    failKeeps_bind h11 fun _ => failKeeps_bind h12 fun _ => failKeeps_bind h13 fun _ => failKeeps_commitRefs I
  refine failKeeps_bind h1 fun _ => failKeeps_bind h2 fun _ => failKeeps_bind h3 fun b => ?_
  cases b with
  | true => exact (keeps_pure I ()).failKeeps
  | false => exact hfull

/-- Nothing before the end of a completed header writes the reference slots (R126). -/
theorem failed_refs {w w' : Work} {e : Abort} (h : uncompressedHeader w = .error e w') : w'.ctx.refs = w.ctx.refs := by
  have hs : ∀ {δ : Type} {π : Work → Context × δ} {m : Grammar Unit}, Same π m → (∀ v, (π v).1.refs = v.ctx.refs) →
      Keeps (fun v => v.ctx.refs = w.ctx.refs) m := fun {_ π m} hm hp v hv => by
    refine Sat.of_cases (fun a v' e => ?_) (fun a v' e => ?_)
    · show v'.ctx.refs = _; rw [← hp, hm.ok e, hp]; exact hv
    · show v'.ctx.refs = _; rw [← hp, hm.error e, hp]; exact hv
  have h3 : Keeps (fun v => v.ctx.refs = w.ctx.refs) showExisting := fun v hv => by
    refine Sat.of_cases (fun a v' e => ?_) (fun a v' e => ?_)
    · exact (congrArg (fun p => p.1.refs) (same_showExisting.ok e)).trans hv
    · exact (congrArg (fun p => p.1.refs) (same_showExisting.error e)).trans hv
  exact failKeeps_uncompressedHeader (hs same_frameMarker fun _ => rfl) (hs same_profile fun _ => rfl) h3
    (hs same_frameType fun _ => rfl) (hs same_frameBranch fun _ => rfl) (hs same_colorCopy fun _ => rfl)
    (hs same_ctxFlags fun _ => rfl) (hs same_pastIndependence fun _ => rfl) (hs same_loopFilterParams fun _ => rfl)
    (hs same_quantizationParams fun _ => rfl) (hs same_segmentationParams fun _ => rfl) (hs same_tileInfo fun _ => rfl)
    (hs same_headerSize fun _ => rfl) w w' e rfl h

/-- A failed PARSE leaves the context in range. -/
theorem failed_inRange {w w' : Work} {e : Abort} (hw : w.InRange) (h : uncompressedHeader w = .error e w') : w'.InRange :=
  failKeeps_uncompressedHeader keeps_frameMarker keeps_profile keeps_showExisting keeps_frameType keeps_frameBranch
    keeps_colorCopy keeps_ctxFlags keeps_pastIndependence keeps_loopFilterParams keeps_quantizationParams
    keeps_segmentationParams keeps_tileInfo keeps_headerSize w w' e hw h

/-! ### Steps before the context is written -/

theorem ctx_frameMarker : Same (fun w => w.ctx) frameMarker := same_frameMarker.map fun p => p.1
theorem ctx_profile : Same (fun w => w.ctx) profile := same_profile.map fun p => p.1
theorem ctx_showExisting : Same (fun w => w.ctx) showExisting := same_showExisting.map fun p => p.1
theorem ctx_frameType : Same (fun w => w.ctx) frameType := same_frameType.map fun p => p.1
theorem ctx_syncCode : Same (fun w => w.ctx) syncCode := same_syncCode.map fun p => p.1

theorem ctx_intraOnly : Same (fun w => w.ctx) intraOnly :=
  same_bind (same_getHdr _) fun _ => same_ite (same_setHdr fun _ => rfl)
    (same_bind (same_receive (fun _ _ => rfl) _) fun _ => same_setHdr fun _ => rfl)

theorem ctx_resetFrameContext : Same (fun w => w.ctx) resetFrameContext :=
  same_bind (same_getHdr _) fun _ => same_ite (same_setHdr fun _ => rfl)
    (same_bind (same_receive (fun _ _ => rfl) _) fun _ => same_setHdr fun _ => rfl)

theorem raises_intraOnly (C : List Cause) : Raises C intraOnly :=
  raises_bind (raises_getHdr _) fun _ => raises_ite (raises_setHdr _ _)
    (raises_bind (raises_receive _ _) fun _ => raises_setHdr _ _)

theorem raises_resetFrameContext (C : List Cause) : Raises C resetFrameContext :=
  raises_bind (raises_getHdr _) fun _ => raises_ite (raises_setHdr _ _)
    (raises_bind (raises_receive _ _) fun _ => raises_setHdr _ _)

theorem raises_intraColor : Raises colorCauses intraColor :=
  raises_bind (raises_getHdr _) fun _ => raises_ite raises_colorConfig (raises_setCtx _ _)

theorem raises_afterSync_key : Raises colorCauses (do
    colorConfig
    setHdr fun h => { h with intraOnly := false, resetFrameContext := 0, refreshFrameFlags := refreshMask 0xFF }
    frameSize
    renderSize) :=
  raises_bind raises_colorConfig fun _ => raises_bind (raises_setHdr _ _) fun _ =>
    raises_bind (raises_frameSize _) fun _ => raises_renderSize _

theorem raises_afterSync_intra : Raises colorCauses (do
    intraColor
    refreshFlags
    frameSize
    renderSize) :=
  raises_bind raises_intraColor fun _ => raises_bind (raises_refreshFlags _) fun _ =>
    raises_bind (raises_frameSize _) fun _ => raises_renderSize _

theorem fails_ite {c : Cause} {R : Work → Work → Prop} {p : Prop} {_ : Decidable p} {m n : Grammar α} (h1 : Fails c R m)
    (h2 : Fails c R n) : Fails c R (if p then m else n) := by split <;> assumption

/-! ### The three causes that leave the context unchanged (R133), and INVALID_REF_SLOT -/

theorem fails_fullHeader {c : Cause} {R : Context → Context → Prop} (hc : c ∉ [.outOfData, .zeroFirstPartition])
    (hb : Fails c (fun w w' => R w.ctx w'.ctx) frameBranch) : Fails c (fun w w' => R w.ctx w'.ctx) fullHeader := by
  simp only [List.mem_cons, List.not_mem_nil, or_false, not_or] at hc
  exact fails_then ((raises_frameType.fails (by simp) hc.1 _)) ctx_frameType fun _ =>
    fails_first hb fun _ => raises_tail.fails (by simpa using hc.2) hc.1 _

/-- From the start of a PARSE whose cause is raised by step 5 or 6. -/
theorem fails_uncompressedHeader {c : Cause} {R : Context → Context → Prop}
    (hc : c ∉ [.outOfData, .zeroFirstPartition, .badFrameMarker, .unsupportedProfile])
    (hb : Fails c (fun w w' => R w.ctx w'.ctx) frameBranch) : Fails c (fun w w' => R w.ctx w'.ctx) uncompressedHeader := by
  simp only [List.mem_cons, List.not_mem_nil, or_false, not_or] at hc
  refine fails_then (raises_frameMarker.fails (by simpa using hc.2.2.1) hc.1 _) ctx_frameMarker fun _ =>
    fails_then (raises_profile.fails (by simpa using hc.2.2.2) hc.1 _) ctx_profile fun _ =>
    fails_then (raises_showExisting.fails (by simp) hc.1 _) ctx_showExisting fun b => ?_
  cases b with
  | true => exact fun _ _ h => by cases h
  | false => exact fails_fullHeader (by simp [hc.1, hc.2.1]) hb

/-- A cause raised in step 6 only after its two leading fields. -/
theorem fails_interFrame {c : Cause} {R : Context → Context → Prop} (hc : c ≠ .outOfData)
    (h1 : Fails c (fun w w' => R w.ctx w'.ctx) intraBranch) (h2 : Fails c (fun w w' => R w.ctx w'.ctx) interBranch) :
    Fails c (fun w w' => R w.ctx w'.ctx) interFrame :=
  fails_then ((raises_intraOnly []).fails (by simp) hc _) ctx_intraOnly fun _ =>
    fails_then ((raises_resetFrameContext []).fails (by simp) hc _) ctx_resetFrameContext fun _ =>
    fails_then ((raises_getHdr []).fails (by simp) hc _) (same_getHdr _) fun _ => fails_ite h1 h2

theorem fails_frameBranch {c : Cause} {R : Context → Context → Prop} (hc : c ≠ .outOfData)
    (h1 : Fails c (fun w w' => R w.ctx w'.ctx) keyFrame) (h2 : Fails c (fun w w' => R w.ctx w'.ctx) interFrame) :
    Fails c (fun w w' => R w.ctx w'.ctx) frameBranch :=
  fails_then ((raises_getHdr []).fails (by simp) hc _) (same_getHdr _) fun _ => fails_ite h1 h2

/-- BAD_SYNC_CODE leaves the context unchanged (R133). -/
theorem fails_badSyncCode : Fails .badSyncCode CtxKept uncompressedHeader := by
  have hd : Cause.badSyncCode ≠ .outOfData := by decide
  refine fails_uncompressedHeader (R := fun c c' => c' = c) (by decide) (fails_frameBranch (R := fun c c' => c' = c) hd ?_
    (fails_interFrame (R := fun c c' => c' = c) hd ?_ ?_))
  · exact fails_first (ctx_syncCode.fails _) fun _ => raises_afterSync_key.fails (by decide) (by decide) _
  · exact fails_first (ctx_syncCode.fails _) fun _ => raises_afterSync_intra.fails (by decide) (by decide) _
  · exact raises_interBranch.fails (by decide) (by decide) _

theorem fails_badFrameMarker : Fails .badFrameMarker CtxKept uncompressedHeader := by
  refine fails_first (ctx_frameMarker.fails _) fun _ => (Raises.fails (C := .unsupportedProfile :: fullCauses) ?_ (by decide)
    (by decide) _)
  exact raises_bind (raises_profile.mono (by decide)) fun _ => raises_bind (raises_showExisting.mono (by decide)) fun _ =>
    raises_whenTrue (raises_fullHeader.mono (by decide))

theorem fails_unsupportedProfile : Fails .unsupportedProfile CtxKept uncompressedHeader := by
  refine fails_then (R := fun c c' => c' = c) (raises_frameMarker.fails (by decide) (by decide) _) ctx_frameMarker fun _ =>
    fails_first (ctx_profile.fails _) fun _ => Raises.fails (C := fullCauses) ?_ (by decide) (by decide) _
  exact raises_bind (raises_showExisting.mono (by decide)) fun _ => raises_whenTrue (raises_fullHeader.mono (by decide))

/-- Some slot holds no frame. -/
def SomeEmpty (c c' : Context) : Prop := c' = c ∧ ∃ i : Fin 8, (c.refs[i]).valid = false

theorem fails_copyRefSize (i : Fin 3) : Fails .invalidRefSlot (fun w w' => SomeEmpty w.ctx w'.ctx) (copyRefSize i) := by
  intro w w' h
  unfold copyRefSize at h
  rw [bind_run, getHdr_run] at h
  simp only at h
  rw [bind_run, getCtx_run] at h
  simp only at h
  generalize hslot : w.ctx.refs[w.hdr.refFrameIdx[i]] = slot at h
  cases hv : slot.valid with
  | true => rw [hv] at h; cases h
  | false => rw [hv] at h; cases h; exact ⟨rfl, w.hdr.refFrameIdx[i], by rw [← hv, ← hslot]⟩

theorem fails_sizeFlags (is : List (Fin 3)) : Fails .invalidRefSlot (fun w w' => SomeEmpty w.ctx w'.ctx) (sizeFlags is) := by
  induction is with
  | nil => exact fun _ _ h => by cases h
  | cons i is ih =>
    exact fails_then ((raises_receive [] _).fails (by simp) (by decide) _) (same_receive (fun _ _ => rfl) _) fun _ =>
      fails_then ((raises_setHdr [] _).fails (by simp) (by decide) _) (same_setHdr fun _ => rfl) fun _ =>
      fails_ite (fails_first (fails_copyRefSize i) fun _ => (raises_pure [] _).fails (by simp) (by decide) _) ih

/-- INVALID_REF_SLOT leaves the context unchanged, and some slot held no frame (R107). -/
theorem fails_invalidRefSlot : Fails .invalidRefSlot (fun w w' => SomeEmpty w.ctx w'.ctx) uncompressedHeader := by
  refine fails_uncompressedHeader (by decide) (fails_frameBranch (by decide) ?_ (fails_interFrame (by decide) ?_ ?_))
  · exact ((raises_bind (C := .badSyncCode :: colorCauses) (raises_syncCode.mono (by decide)) fun _ =>
      raises_afterSync_key.mono (by decide)).fails (by decide) (by decide) _)
  · exact ((raises_bind (C := .badSyncCode :: colorCauses) (raises_syncCode.mono (by decide)) fun _ =>
      raises_afterSync_intra.mono (by decide)).fails (by decide) (by decide) _)
  · refine fails_then ((raises_refreshFlags []).fails (by simp) (by decide) _)
      (same_bind (same_receive (fun _ _ => rfl) _) fun _ => same_setHdr fun _ => rfl) fun _ =>
      fails_then ((raises_forEach (C := []) (fun i => ?_) _).fails (by simp) (by decide) _) (same_forEach (fun i => ?_) _)
        fun _ => fails_first (fails_first (fails_sizeFlags _) fun _ => ?_) fun _ => ?_
    · exact raises_bind (raises_receive _ _) fun _ => raises_bind (raises_setHdr _ _) fun _ =>
        raises_bind (raises_receive _ _) fun _ => raises_setHdr _ _
    · exact same_bind (same_receive (fun _ _ => rfl) _) fun _ => same_bind (same_setHdr fun _ => rfl) fun _ =>
        same_bind (same_receive (fun _ _ => rfl) _) fun _ => same_setHdr fun _ => rfl
    · exact (raises_bind (raises_whenTrue (raises_frameSize [])) fun _ => raises_renderSize []).fails (by simp) (by decide) _
    · exact (raises_bind (raises_bind (raises_receive [] _) fun _ => raises_setHdr _ _) fun _ =>
        raises_bind (raises_receive [] _) fun _ => raises_ite (raises_setHdr _ _)
          (raises_bind (raises_receive _ _) fun _ => raises_setHdr _ _)).fails (by simp) (by decide) _

/-! ### SRGB_IN_PROFILE_0_2 -/

/-- What a colour configuration had written when it raised cause 4 (R100). -/
def SrgbWritten (c c' : Context) : Prop :=
  ∃ d, d ≠ .undecoded ∧ c' = { c with color := { c.color with bitDepth := d, colorSpace := .srgb, colorRange := .full } }

theorem raises_bitDepth (C : List Cause) (p : Nat) : Raises C (bitDepth p) :=
  raises_ite (raises_bind (raises_receive _ _) fun _ => raises_setCtx _ _) (raises_setCtx _ _)

theorem fails_colorConfig : Fails .srgbInProfile02 (fun w w' => SrgbWritten w.ctx w'.ctx) colorConfig := by
  intro w w' h
  unfold colorConfig at h
  rw [bind_run, getHdr_run] at h
  simp only at h
  rcases bind_error.mp h with h | ⟨_, w1, h1, h⟩
  · exact absurd ((raises_bitDepth [] _) _ _ _ h) (by simp)
  obtain ⟨d, hd, _, hc⟩ := bitDepth_ok h1
  rcases bind_error.mp h with h | ⟨cs, w2, h2, h⟩
  · exact absurd ((raises_receive [] _) _ _ _ h) (by simp)
  obtain ⟨_, _, rfl⟩ := f_ok h2
  rw [bind_run] at h
  simp only [setColor, setCtx_run] at h
  by_cases hs : ColorSpace.ofCode cs = .srgb
  · simp only [hs, if_true] at h
    unfold srgbColor at h
    rw [bind_run] at h
    simp only [setColor, setCtx_run] at h
    split at h
    · simp only [bind_run, setCtx_run] at h
      unfold colorReserved at h
      have hn : Raises [.reservedBitSet] colorReserved :=
        raises_bind (raises_receive _ _) fun _ => raises_whenTrue (raises_raise (by decide))
      exact absurd (hn _ _ _ h) (by decide)
    · cases h
      refine ⟨d, ?_, ?_⟩
      · split at hd
        · rcases hd with rfl | rfl <;> decide
        · subst hd; decide
      · simp only [hc]
  · simp only [hs, if_false] at h
    have hn : Raises [.subsampling420InProfile13, .reservedBitSet] (yuvColor w.hdr.profile) :=
      raises_bind (raises_receive _ _) fun _ => raises_bind (raises_setCtx _ _) fun _ =>
        raises_ite
          (raises_bind (raises_receive _ _) fun _ => raises_bind (raises_setCtx _ _) fun _ =>
            raises_bind (raises_receive _ _) fun _ => raises_bind (raises_setCtx _ _) fun _ =>
              raises_bind (raises_whenTrue (raises_raise (by decide))) fun _ =>
                raises_bind (raises_receive _ _) fun _ => raises_whenTrue (raises_raise (by decide)))
          (raises_setCtx _ _)
    exact absurd (hn _ _ _ h) (by decide)

/-- Cause 4 comes with the depth, SRGB and the full range written, and nothing else (R100, R146). -/
theorem fails_srgb : Fails .srgbInProfile02 (fun w w' => SrgbWritten w.ctx w'.ctx) uncompressedHeader := by
  have hn : ∀ C, Raises C (do frameSize; renderSize) := fun C =>
    raises_bind (raises_frameSize C) fun _ => raises_renderSize C
  refine fails_uncompressedHeader (by decide) (fails_frameBranch (by decide) ?_ (fails_interFrame (by decide) ?_ ?_))
  · exact fails_then (raises_syncCode.fails (by decide) (by decide) _) ctx_syncCode fun _ =>
      fails_first fails_colorConfig fun _ =>
        (raises_bind (raises_setHdr [] _) fun _ => hn _).fails (by simp) (by decide) _
  · refine fails_then (raises_syncCode.fails (by decide) (by decide) _) ctx_syncCode fun _ =>
      fails_first ?_ fun _ => (raises_bind (raises_refreshFlags []) fun _ => hn _).fails (by simp) (by decide) _
    exact fails_then ((raises_getHdr []).fails (by simp) (by decide) _) (same_getHdr _) fun _ =>
      fails_ite fails_colorConfig ((raises_setCtx [] _).fails (by simp) (by decide) _)
  · exact raises_interBranch.fails (by decide) (by decide) _

end Sys2Proof.Machine
end

