-- ==== Sys2Proof/Laws/Exec.lean ====
section
/-! SUPPORT. What every command of the machine has in common: it ends in `State.done`, it depends on the data port and on its
own instance only. -/

namespace Sys2Proof.Machine

/-- The outcome of a command seen as data: what it writes to its instance and answers, or where it stops. -/
def Ends (s : State) (o : Host.Outcome State Fault Refusal) (e : Host.Outcome (Instance × Option Response) Fault Refusal) :
    Prop :=
  match e with
  | .next (x, a) => o = .next (s.done x a)
  | .fault f => o = .fault f
  | .refused r => o = .refused r

/-- Two states that show a command the same data port and the same instance. -/
structure Alike (s s' : State) : Prop where
  port : s'.port = s.port
  inst : s'.inst = s.inst

theorem answerRead_alike {α : Type} {s s' : State} (h : Alike s s') (value : α → Int) (r : ReadOut α) :
    ∃ e, Ends s (answerRead s value r) e ∧ Ends s' (answerRead s' value r) e := by
  cases r with
  | ok v r => exact ⟨.next (s.inst.withReader r, some (.ok (value v))), rfl, by rw [← h.inst]; rfl⟩
  | outOfData => exact ⟨.next (s.inst, some .outOfData), rfl, by rw [← h.inst]; rfl⟩
  | absent => exact ⟨.fault .absentByte, rfl, rfl⟩

theorem withReaderUsable_alike {s s' : State} (h : Alike s s') {b b' : Host.Outcome State Fault Refusal}
    (hb : ∃ e, Ends s b e ∧ Ends s' b' e) :
    ∃ e, Ends s (withReaderUsable s b) e ∧ Ends s' (withReaderUsable s' b') e := by
  unfold withReaderUsable
  rw [h.port, h.inst]
  by_cases ho : s.port.overlapped = true
  · exact ⟨.refused .overlapped, by simp [ho, Ends], by simp [ho, Ends]⟩
  · by_cases hd : s.inst.life = .destroyed
    · exact ⟨.refused .destroyed, by simp [ho, hd, Ends], by simp [ho, hd, Ends]⟩
    · simpa [ho, hd] using hb

theorem withBuffer_alike {s s' : State} (h : Alike s s') {b b' : Host.Outcome State Fault Refusal}
    (hb : ∃ e, Ends s b e ∧ Ends s' b' e) : ∃ e, Ends s (withBuffer s b) e ∧ Ends s' (withBuffer s' b') e := by
  unfold withBuffer
  rw [h.port]
  cases hm : s.port.bufferMisuse with
  | some r => exact ⟨.refused r, rfl, rfl⟩
  | none => exact hb

/-- A command does the same to its instance, and answers the same, whatever else the machine holds (R141). -/
theorem exec_alike {s s' : State} (h : Alike s s') (i : Instr) : ∃ e, Ends s (exec i s) e ∧ Ends s' (exec i s') e := by
  cases i with
  | create =>
    simp only [exec, execCreate]
    rw [h.port, h.inst]
    by_cases ho : s.port.overlapped = true
    · exact ⟨.refused .overlapped, by simp [ho, Ends], by simp [ho, Ends]⟩
    · by_cases hl : s.inst.life = .absent
      · exact ⟨.next (s.inst.create s.port.target, none), by simp [ho, hl, Ends], by simp [ho, hl, Ends]⟩
      · exact ⟨.refused .notAbsent, by simp [ho, hl, Ends], by simp [ho, hl, Ends]⟩
  | destroy =>
    simp only [exec, execDestroy]
    rw [h.port, h.inst]
    by_cases ho : s.port.overlapped = true
    · exact ⟨.refused .overlapped, by simp [ho, Ends], by simp [ho, Ends]⟩
    · by_cases hl : s.inst.life = .live
      · exact ⟨.next (s.inst.destroy s.port.target, none), by simp [ho, hl, Ends], by simp [ho, hl, Ends]⟩
      · exact ⟨.refused .notLive, by simp [ho, hl, Ends], by simp [ho, hl, Ends]⟩
  | parse =>
    have hw : startWork s' = startWork s := by simp only [startWork, h.port, h.inst]
    have hb : ∃ e, Ends s (if s.port.bufChanged then .refused .bufferChanged else endParse s (uncompressedHeader (startWork s))) e ∧
        Ends s' (if s.port.bufChanged then .refused .bufferChanged else endParse s' (uncompressedHeader (startWork s))) e := by
      by_cases hc : s.port.bufChanged = true
      · exact ⟨.refused .bufferChanged, by simp [hc, Ends], by simp [hc, Ends]⟩
      · simp only [hc, if_false, Bool.false_eq_true]
        cases hu : uncompressedHeader (startWork s) with
        | ok a w => exact ⟨.next (Instance.completed s.port.target s.inst w, none), rfl, by rw [← h.inst, ← h.port]; rfl⟩
        | error e w =>
          cases e with
          | raised c =>
            exact ⟨.next (Instance.failed s.port.target s.inst c w, none), rfl, by rw [← h.inst, ← h.port]; rfl⟩
          | absent => exact ⟨.fault .absentByte, rfl, rfl⟩
    have hb' := withBuffer_alike h hb
    simp only [exec, execParse]
    rw [h.port, h.inst, hw]
    by_cases ho : s.port.overlapped = true
    · exact ⟨.refused .overlapped, by simp [ho, Ends], by simp [ho, Ends]⟩
    · by_cases hl : s.inst.life = .live
      · simp only [ho, hl, if_false, if_true, Bool.false_eq_true]
        exact hb'
      · exact ⟨.refused .notLive, by simp [ho, hl, Ends], by simp [ho, hl, Ends]⟩
  | brInit =>
    refine withReaderUsable_alike h (withBuffer_alike h ⟨.next (s.inst.withReader s.port.reader, some (.ok 0)), rfl, ?_⟩)
    rw [h.inst, h.port]; rfl
  | readBits n =>
    simp only [exec, execReadBits]
    split
    · rw [h.inst]; exact withReaderUsable_alike h (answerRead_alike h _ _)
    · exact ⟨.refused .countTooWide, rfl, rfl⟩
  | readSigned n =>
    simp only [exec, execReadSigned]
    split
    · rw [h.inst]; exact withReaderUsable_alike h (answerRead_alike h _ _)
    · exact ⟨.refused .countTooWide, rfl, rfl⟩
  | readFlag =>
    simp only [exec, execReadFlag]
    rw [h.inst]; exact withReaderUsable_alike h (answerRead_alike h _ _)
  | getPos =>
    refine withReaderUsable_alike h ⟨.next (s.inst, some (.ok s.inst.br.pos)), rfl, ?_⟩
    rw [h.inst]; rfl

/-- Every command that is not refused writes its own instance and the answer, nothing else. -/
theorem exec_next_done {s t : State} {i : Instr} (h : exec i s = .next t) : t = s.done t.inst t.response := by
  obtain ⟨e, he, _⟩ := exec_alike (s := s) (s' := s) ⟨rfl, rfl⟩ i
  rw [h] at he
  cases e with
  | next xa =>
    obtain ⟨x, a⟩ := xa
    have : t = s.done x a := by simpa [Ends] using he
    rw [this]; simp
  | fault f => simp [Ends] at he
  | refused r => simp [Ends] at he

/-- On a state that looks alike, the command writes and answers the same. -/
theorem exec_next_alike {s s' t : State} (ha : Alike s s') {i : Instr} (h : exec i s = .next t) :
    exec i s' = .next (s'.done t.inst t.response) := by
  obtain ⟨e, he, he'⟩ := exec_alike ha i
  rw [h] at he
  cases e with
  | next xa =>
    obtain ⟨x, a⟩ := xa
    have ht : t = s.done x a := by simpa [Ends] using he
    have : exec i s' = .next (s'.done x a) := by simpa [Ends] using he'
    rw [this, ht]; simp
  | fault f => simp [Ends] at he
  | refused r => simp [Ends] at he

/-! ### A bit-reader operation within the contract (R76, R79) -/

/-- The three answers of a read, on a reader that is well bound: OutOfData and nothing moved, or the value and the cursor
moved by the width. -/
theorem answerRead_of_full {α : Type} {s : State} (value : α → Int) {n : Nat} {val : Reader → Option α}
    (hv : s.inst.br.pos + n ≤ 8 * s.inst.br.len → ∃ v, val s.inst.br = some v) :
    (8 * s.inst.br.len < s.inst.br.pos + n ∧
      answerRead s value (s.inst.br.read n val) = .next (s.done s.inst (some .outOfData))) ∨
    (s.inst.br.pos + n ≤ 8 * s.inst.br.len ∧ ∃ v, val s.inst.br = some v ∧
      answerRead s value (s.inst.br.read n val) =
        .next (s.done (s.inst.withReader { s.inst.br with pos := s.inst.br.pos + n }) (some (.ok (value v))))) := by
  rcases Reader.read_cases s.inst.br n val with ⟨hlt, heq⟩ | ⟨hle, v, hval, heq⟩ | ⟨hle, hn, _⟩
  · exact .inl ⟨hlt, by rw [heq]; rfl⟩
  · exact .inr ⟨hle, v, hval, by rw [heq]; rfl⟩
  · obtain ⟨v, hv⟩ := hv hle
    rw [hn] at hv; cases hv

end Sys2Proof.Machine
end

