-- ==== Sys2Proof/Laws/Forward.lean ====
section
/-! SUPPORT. Running the grammar forward on bits that are known: `workAt r p c h` is the grammar's registers with the cursor
at `p`, and there is one equation per primitive, for the head of a sequence. With `State.bufferField` facts as hypotheses they
run a whole header as rewriting. -/

namespace Sys2Proof.Machine

variable {α β : Type}

/-- The grammar's registers, the cursor of `r` at `p`. -/
def workAt (r : Reader) (p : Nat) (c : Context) (h : Header) : Work := { br := { r with pos := p }, ctx := c, hdr := h }

theorem startWork_at (s : State) : startWork s = workAt s.port.reader 0 s.inst.ctx Header.zero := rfl

@[simp] theorem workAt_br (r : Reader) (p : Nat) (c : Context) (h : Header) : (workAt r p c h).br = { r with pos := p } := rfl
@[simp] theorem workAt_ctx (r : Reader) (p : Nat) (c : Context) (h : Header) : (workAt r p c h).ctx = c := rfl
@[simp] theorem workAt_hdr (r : Reader) (p : Nat) (c : Context) (h : Header) : (workAt r p c h).hdr = h := rfl

theorem grammar_assoc {γ : Type} (m : Grammar α) (k : α → Grammar β) (l : β → Grammar γ) (w : Work) :
    ((m >>= k) >>= l) w = (m >>= fun a => k a >>= l) w := by
  simp only [bind_run]
  cases m w <;> rfl

theorem pure_then (a : α) (k : α → Grammar β) (w : Work) : ((pure a : Grammar α) >>= k) w = k a w := rfl

/-! ### A field of known bits lies inside the buffer -/

theorem Reader.bit_inside {r : Reader} {p b : Nat} (h : r.bit p = some b) : p < 8 * r.len := by
  unfold Reader.bit Reader.memRead at h
  by_contra hc
  have : ¬ (p >>> 3 < r.len) := by rw [Nat.shiftRight_eq_div_pow]; omega
  simp [this] at h

theorem Reader.field_inside {r : Reader} {n p v x : Nat} (h : r.bitsFrom n p v = some x) (hn : 0 < n) :
    p + n ≤ 8 * r.len := by
  induction n generalizing p v with
  | zero => omega
  | succ n ih =>
    simp only [Reader.bitsFrom] at h
    split at h
    · rename_i b hb
      have := Reader.bit_inside hb
      rcases Nat.eq_zero_or_pos n with h0 | h0
      · omega
      · have := ih h h0; omega
    · cases h

/-- A known one-bit field is the bit there. -/
theorem Reader.bit_of_field {r : Reader} {p v : Nat} (h : r.bitsFrom 1 p 0 = some v) : r.bit p = some v := by
  simp only [Reader.bitsFrom] at h
  split at h
  · rename_i b hb; simpa [hb] using h
  · cases h

/-! ### The primitives -/

theorem f_at {r : Reader} {p n v : Nat} {c : Context} {h : Header} (hv : r.bitsFrom n p 0 = some v) (hn : 0 < n) :
    f n (workAt r p c h) = .ok v (workAt r (p + n) c h) := by
  have hle := Reader.field_inside hv hn
  have hno : ¬ (p + n > 8 * r.len) := by omega
  simp [f, receive, Reader.readBits, Reader.read, workAt, hno, Reader.bitsFrom_pos, hv]

theorem f_then {r : Reader} {p n v : Nat} {c : Context} {h : Header} {k : Nat → Grammar β}
    (hv : r.bitsFrom n p 0 = some v) (hn : 0 < n) : (f n >>= k) (workAt r p c h) = k v (workAt r (p + n) c h) := by
  rw [bind_run, f_at hv hn]

theorem flag_at {r : Reader} {p v : Nat} {c : Context} {h : Header} (hv : r.bitsFrom 1 p 0 = some v) :
    flag (workAt r p c h) = .ok (decide (v = 1)) (workAt r (p + 1) c h) := by
  have hle := Reader.field_inside hv (by omega)
  have hno : ¬ (p + 1 > 8 * r.len) := by omega
  have hb : ({ r with pos := p } : Reader).flagAt = some (decide (v = 1)) := by
    simp [Reader.flagAt, Reader.bit_pos, Reader.bit_of_field hv]
  simp [flag, receive, Reader.readFlag, Reader.read, workAt, hno, hb]

theorem flag_then {r : Reader} {p v : Nat} {c : Context} {h : Header} {k : Bool → Grammar β}
    (hv : r.bitsFrom 1 p 0 = some v) : (flag >>= k) (workAt r p c h) = k (decide (v = 1)) (workAt r (p + 1) c h) := by
  rw [bind_run, flag_at hv]

/-- A signed-magnitude field of known bits (R80). -/
theorem su_at {s : State} {p n : Nat} {v : Int} {c : Context} {h : Header} (hv : s.bufferSigned p n = some v) :
    su n (workAt s.port.reader p c h) = .ok v (workAt s.port.reader (p + (n + 1)) c h) := by
  unfold State.bufferSigned at hv
  split at hv
  · rename_i m b hm hb
    have hle := Reader.field_inside hb (by omega)
    have hno : ¬ (p + (n + 1) > 8 * s.port.reader.len) := by omega
    have hsg : ({ s.port.reader with pos := p } : Reader).signedAt n = some v := by
      simp only [Reader.signedAt, Reader.bitsFrom_pos, Reader.bit_pos]
      rw [show s.port.reader.bitsFrom n p 0 = some m from hm, Reader.bit_of_field hb]
      exact hv
    simp [su, receive, Reader.readSigned, Reader.read, workAt, hno, hsg]
  · cases hv

theorem su_then {s : State} {p n : Nat} {v : Int} {c : Context} {h : Header} {k : Int → Grammar β}
    (hv : s.bufferSigned p n = some v) :
    (su n >>= k) (workAt s.port.reader p c h) = k v (workAt s.port.reader (p + (n + 1)) c h) := by
  rw [bind_run, su_at hv]

theorem setHdr_then (g : Header → Header) (k : Unit → Grammar β) (r : Reader) (p : Nat) (c : Context) (h : Header) :
    (setHdr g >>= k) (workAt r p c h) = k () (workAt r p c (g h)) := rfl

theorem setHdr_at (g : Header → Header) (r : Reader) (p : Nat) (c : Context) (h : Header) :
    setHdr g (workAt r p c h) = .ok () (workAt r p c (g h)) := rfl

theorem setCtx_then (g : Context → Context) (k : Unit → Grammar β) (r : Reader) (p : Nat) (c : Context) (h : Header) :
    (setCtx g >>= k) (workAt r p c h) = k () (workAt r p (g c) h) := rfl

theorem setCtx_at (g : Context → Context) (r : Reader) (p : Nat) (c : Context) (h : Header) :
    setCtx g (workAt r p c h) = .ok () (workAt r p (g c) h) := rfl

theorem getHdr_then (k : Header → Grammar β) (r : Reader) (p : Nat) (c : Context) (h : Header) :
    (getHdr >>= k) (workAt r p c h) = k h (workAt r p c h) := rfl

theorem getCtx_then (k : Context → Grammar β) (r : Reader) (p : Nat) (c : Context) (h : Header) :
    (getCtx >>= k) (workAt r p c h) = k c (workAt r p c h) := rfl

theorem getPos_then (k : Nat → Grammar β) (r : Reader) (p : Nat) (c : Context) (h : Header) :
    (getPos >>= k) (workAt r p c h) = k p (workAt r p c h) := rfl

/-! ### Values that come up on the way -/

/-- A flag coded as a bit is that flag. -/
theorem decide_flagBit (b : Bool) : decide ((if b then 1 else 0) = 1) = b := by cases b <;> rfl

/-! A vector written entry by entry is the literal of its entries. -/

theorem vec2_set {γ : Type} (v : Vector γ 2) (a b : γ) :
    (v.set 0 a).set 1 b = #v[a, b] := by
  ext i hi
  interval_cases i <;> simp

theorem vec2_eta {γ : Type} (v : Vector γ 2) : v = #v[v[0], v[1]] := by
  ext i hi
  interval_cases i <;> rfl

theorem vec3_set {γ : Type} (v : Vector γ 3) (a b c : γ) :
    ((v.set 0 a).set 1 b).set 2 c = #v[a, b, c] := by
  ext i hi
  interval_cases i <;> simp

theorem vec3_eta {γ : Type} (v : Vector γ 3) : v = #v[v[0], v[1], v[2]] := by
  ext i hi
  interval_cases i <;> rfl

theorem vec4_set {γ : Type} (v : Vector γ 4) (a b c d : γ) :
    (((v.set 0 a).set 1 b).set 2 c).set 3 d = #v[a, b, c, d] := by
  ext i hi
  interval_cases i <;> simp

theorem vec4_eta {γ : Type} (v : Vector γ 4) : v = #v[v[0], v[1], v[2], v[3]] := by
  ext i hi
  interval_cases i <;> rfl

theorem vec7_set {γ : Type} (v : Vector γ 7) (a b c d e f g : γ) :
    ((((((v.set 0 a).set 1 b).set 2 c).set 3 d).set 4 e).set 5 f).set 6 g = #v[a, b, c, d, e, f, g] := by
  ext i hi
  interval_cases i <;> simp

theorem vec7_eta {γ : Type} (v : Vector γ 7) : v = #v[v[0], v[1], v[2], v[3], v[4], v[5], v[6]] := by
  ext i hi
  interval_cases i <;> rfl

theorem vec8_set {γ : Type} (v : Vector γ 8) (a b c d e f g h : γ) :
    (((((((v.set 0 a).set 1 b).set 2 c).set 3 d).set 4 e).set 5 f).set 6 g).set 7 h = #v[a, b, c, d, e, f, g, h] := by
  ext i hi
  interval_cases i <;> simp

theorem vec8_eta {γ : Type} (v : Vector γ 8) : v = #v[v[0], v[1], v[2], v[3], v[4], v[5], v[6], v[7]] := by
  ext i hi
  interval_cases i <;> rfl

/-- A field of `a + b` bits that is 0 is two fields that are 0. -/
theorem Reader.field_zero_split {r : Reader} {a b p : Nat} (h : r.bitsFrom (a + b) p 0 = some 0) :
    r.bitsFrom a p 0 = some 0 ∧ r.bitsFrom b (p + a) 0 = some 0 := by
  rw [Reader.bitsFrom_add] at h
  cases ha : r.bitsFrom a p 0 with
  | none => simp [ha] at h
  | some x =>
    simp only [ha, Option.bind_some] at h
    rw [Reader.bitsFrom_acc] at h
    cases hb : r.bitsFrom b (p + a) 0 with
    | none => simp [hb] at h
    | some y =>
      simp only [hb, Option.map_some, Option.some.injEq, Nat.add_eq_zero_iff, Nat.mul_eq_zero] at h
      obtain ⟨h1 | h1, h2⟩ := h
      · rw [h1, h2]; exact ⟨rfl, rfl⟩
      · exact absurd h1 (by positivity)

/-! The tables the statements spell out are the decoders' (R69 to R72). -/

@[simp] theorem codedSpace_eq (v : Nat) : codedSpace v = ColorSpace.ofCode v := by
  by_cases h : v < 8
  · interval_cases v <;> rfl
  · have e : ∀ n, codedSpace (n + 8) = ColorSpace.ofCode (n + 8) := fun _ => rfl
    rw [← Nat.sub_add_cancel (Nat.le_of_not_lt h)]; exact e _

@[simp] theorem codedRange_eq (b : Bool) : codedRange b = ColorRange.ofFlag b := rfl

@[simp] theorem codedFilter_eq (v : Nat) : codedFilter v = InterpFilter.ofLiteral v := by
  by_cases h : v < 4
  · interval_cases v <;> rfl
  · have e : ∀ n, codedFilter (n + 4) = InterpFilter.ofLiteral (n + 4) := fun _ => rfl
    rw [← Nat.sub_add_cancel (Nat.le_of_not_lt h)]; exact e _

@[simp] theorem codedRef_eq (v : Nat) : codedRef v = RefId.ofCode v := by
  by_cases h : v < 4
  · interval_cases v <;> rfl
  · have e : ∀ n, codedRef (n + 4) = RefId.ofCode (n + 4) := fun _ => rfl
    rw [← Nat.sub_add_cancel (Nat.le_of_not_lt h)]; exact e _

theorem ColorSpace.ofCode_ne_srgb {k : Nat} (h : k < 8) (h7 : k ≠ 7) : ColorSpace.ofCode k ≠ .srgb := by
  have : ∀ k < 8, k ≠ 7 → ColorSpace.ofCode k ≠ .srgb := by decide
  exact this k h h7

/-- A frame at most 448 wide has no tile columns to choose (R121). -/
theorem tileBounds_narrow {w : Nat} (h : w ≤ 448) : minLog2Cols w = 0 ∧ maxLog2Cols w = 0 := by
  have hsb : superblocks w ≤ 7 := by unfold superblocks ceilDiv Config.sbSize; omega
  have : ∀ sb ≤ 7, minLog2From sb sb 0 = 0 ∧ maxLog2From sb sb 1 - 1 = 0 := by decide
  exact this _ hsb

/-- Refreshing every slot (R126). -/
theorem refresh_all {h : Header} (hm : h.refreshFrameFlags = refreshMask 0xFF) (refs : Vector RefSlot 8) :
    (refs.mapFinIdx fun i old _ => refreshedSlot h old i) =
      Vector.replicate 8 { valid := true, width := h.width, height := h.height } := by
  ext i hi
  all_goals
    have : ∀ i < 8, (refreshMask 0xFF).getLsbD i = true := by decide
    simp [refreshedSlot, hm, this i hi]

theorem QuantHdr.isLossless_base (b : Nat) :
    ({ baseQIdx := b, deltaQYDc := 0, deltaQUvDc := 0, deltaQUvAc := 0 } : QuantHdr).isLossless = decide (b = 0) := by
  simp [QuantHdr.isLossless]

/-! ### A segment's features -/

/-- The features of segment `i`, all present (R119). -/
theorem segFeature_then {s : State} {e : SegFeature} {p : Nat} {i : Fin 8} {c : Context} {h : Header}
    {k : Unit → Grammar β} (he : e.At s p) :
    (segFeature i >>= k) (workAt s.port.reader p c h) =
      k () (workAt s.port.reader (p + 22) { c with seg := c.seg.set i e } h) := by
  obtain ⟨v, hv, hr⟩ := he.ref
  have hq := he.qEn
  have hl := he.lfEn
  have hn := he.refEn
  obtain ⟨qEn, q, lfEn, lf, refEn, ref, skip⟩ := e
  simp only at hq hl hn hr
  subst hq hl hn hr
  simp only [segFeature, featureQ, featureLf, featureRef, featureSkip, setFeature, readIf, setCtx_then, grammar_assoc,
    if_true, decide_true, decide_flagBit, flag_then he.qFlag, su_then he.q, Nat.add_assoc, Nat.reduceAdd,
    flag_then he.lfFlag, su_then he.lf, flag_then he.refFlag, f_then hv (by decide : 0 < 2), flag_then he.skip,
    Fin.getElem_fin, Vector.getElem_set_self, Vector.set_set, codedRef_eq]

/-! ### Steps 1 to 3 -/

theorem frameMarker_then {r : Reader} {c : Context} {h : Header} {k : Unit → Grammar β}
    (hv : r.bitsFrom 2 0 0 = some 2) : (frameMarker >>= k) (workAt r 0 c h) = k () (workAt r 2 c h) := by
  unfold frameMarker
  rw [grammar_assoc, f_then hv (by omega)]
  rfl

/-- A bad marker ends the PARSE after its two bits (R94). -/
theorem frameMarker_bad {r : Reader} {c : Context} {h : Header} {k : Unit → Grammar β} {v : Nat}
    (hv : r.bitsFrom 2 0 0 = some v) (hne : v ≠ 2) :
    (frameMarker >>= k) (workAt r 0 c h) = .error (.raised .badFrameMarker) (workAt r 2 c h) := by
  unfold frameMarker
  rw [grammar_assoc, f_then hv (by omega)]
  have : (v != Config.frameMarker) = true := by simpa [Config.frameMarker] using hne
  rw [this]
  rfl

/-- The profile, with its reserved bit 0 (R95). -/
theorem profile_then {r : Reader} {c : Context} {h : Header} {k : Unit → Grammar β} {lo hi : Nat}
    (h1 : r.bitsFrom 1 2 0 = some lo) (h2 : r.bitsFrom 1 3 0 = some hi)
    (h3 : 2 * hi + lo = 3 → r.bitsFrom 1 4 0 = some 0) :
    (profile >>= k) (workAt r 2 c h) =
      k () (workAt r (2 + profileBits (2 * hi + lo)) c { h with profile := 2 * hi + lo }) := by
  unfold profile
  rw [grammar_assoc, f_then h1 (by omega), grammar_assoc, f_then h2 (by omega), grammar_assoc]
  by_cases hp : 2 * hi + lo = 3
  · have e : (2 * hi + lo == 3) = true := by simpa using hp
    rw [e, whenTrue_true]
    unfold profileReserved
    rw [grammar_assoc, flag_then (h3 hp)]
    rw [show profileBits (2 * hi + lo) = 3 by simp [profileBits, hp]]
    rfl
  · have e : (2 * hi + lo == 3) = false := by simpa using hp
    rw [e, whenTrue_false]
    rw [show profileBits (2 * hi + lo) = 2 by simp [profileBits, hp]]
    rfl

/-- Profile 3 with its reserved bit 1 ends the PARSE (R95). -/
theorem profile_bad {r : Reader} {c : Context} {h : Header} {k : Unit → Grammar β} {lo hi : Nat}
    (h1 : r.bitsFrom 1 2 0 = some lo) (h2 : r.bitsFrom 1 3 0 = some hi) (hp : 2 * hi + lo = 3)
    (h3 : r.bitsFrom 1 4 0 = some 1) :
    (profile >>= k) (workAt r 2 c h) = .error (.raised .unsupportedProfile) (workAt r 5 c h) := by
  unfold profile
  rw [grammar_assoc, f_then h1 (by omega), grammar_assoc, f_then h2 (by omega), grammar_assoc]
  have e : (2 * hi + lo == 3) = true := by simpa using hp
  rw [e, whenTrue_true]
  unfold profileReserved
  rw [grammar_assoc, flag_then h3]
  rfl

/-- A buffer that starts with a marker and a profile brings the grammar to its show-existing flag. -/
theorem startsWith_run {s : State} {p : Nat} (h : s.StartsWith p) :
    uncompressedHeader (startWork s) = (showExisting >>= fun short => whenTrue (!short) fullHeader)
      (workAt s.port.reader (2 + profileBits p) s.inst.ctx { Header.zero with profile := p }) := by
  have e : 2 * (p / 2) + p % 2 = p := by omega
  unfold uncompressedHeader
  rw [startWork_at, frameMarker_then h.marker, profile_then h.low h.high (by rw [e]; exact h.reserved), e]

/-- A PARSE within the contract whose grammar completes. -/
theorem execParse_completed {s : State} {w : Work} (h : s.ParseReady) (hu : uncompressedHeader (startWork s) = .ok () w) :
    exec .parse s = .next (s.done (Instance.completed s.port.target s.inst w) none) := by
  show execParse s = _
  rw [execParse_of_ready h, hu]; rfl

/-- A PARSE within the contract whose grammar raises a cause. -/
theorem execParse_failed {s : State} {c : Cause} {w : Work} (h : s.ParseReady)
    (hu : uncompressedHeader (startWork s) = .error (.raised c) w) :
    exec .parse s = .next (s.done (Instance.failed s.port.target s.inst c w) none) := by
  show execParse s = _
  rw [execParse_of_ready h, hu]; rfl

end Sys2Proof.Machine
end

