-- ==== Sys2Proof/Laws/Coded.lean ====
section
/-! SUPPORT. The grammar run on a buffer that codes a given list of fields. `Runs s m fs a c h c' h'` says that `m` consumes
exactly `fs`, answers `a` and takes the registers `c h` to `c' h'`; it composes along sequences, and there is one lemma per rule. -/

namespace Sys2Proof.Machine

variable {α β : Type} {s : State}

/-! ### Lists of fields -/

@[simp] theorem bitsOf_nil : bitsOf [] = 0 := rfl
@[simp] theorem bitsOf_cons (x : BitField) (xs : List BitField) : bitsOf (x :: xs) = x.1 + bitsOf xs := rfl

@[simp] theorem bitsOf_append (xs ys : List BitField) : bitsOf (xs ++ ys) = bitsOf xs + bitsOf ys := by
  induction xs with
  | nil => simp
  | cons x xs ih => simp [ih, Nat.add_assoc]

@[simp] theorem State.codes_nil (p : Nat) : s.codes p [] := trivial

theorem State.codes_cons {p : Nat} {x : BitField} {xs : List BitField} :
    s.codes p (x :: xs) ↔ s.bufferField p x.1 = some x.2 ∧ s.codes (p + x.1) xs := Iff.rfl

theorem State.codes_append {p : Nat} {xs ys : List BitField} :
    s.codes p (xs ++ ys) ↔ s.codes p xs ∧ s.codes (p + bitsOf xs) ys := by
  induction xs generalizing p with
  | nil => simp
  | cons x xs ih => simp only [List.cons_append, State.codes_cons, ih, bitsOf_cons, and_assoc, Nat.add_assoc]

theorem State.codes_field {p n v : Nat} (h : s.codes p [(n, v)]) : s.port.reader.bitsFrom n p 0 = some v := h.1

/-! ### Runs -/

/-- `m` on a buffer that codes `fs` at the cursor: it completes, answers `a`, moves past `fs`, and takes `c h` to `c' h'`. -/
def Runs (s : State) (m : Grammar α) (fs : List BitField) (a : α) (c : Context) (h : Header) (c' : Context) (h' : Header) :
    Prop :=
  ∀ p, s.codes p fs → m (workAt s.port.reader p c h) = .ok a (workAt s.port.reader (p + bitsOf fs) c' h')

/-- `m` on a buffer that codes `fs` at the cursor: it raises `e` after `fs`, with `c'` written. -/
def Breaks (s : State) (m : Grammar α) (fs : List BitField) (e : Cause) (c : Context) (h : Header) (c' : Context) : Prop :=
  ∀ p, s.codes p fs → ∃ h', m (workAt s.port.reader p c h) = .error (.raised e) (workAt s.port.reader (p + bitsOf fs) c' h')

theorem runs_bind {m : Grammar α} {k : α → Grammar β} {fs gs : List BitField} {a : α} {b : β} {c c1 c2 : Context}
    {h h1 h2 : Header} (hm : Runs s m fs a c h c1 h1) (hk : Runs s (k a) gs b c1 h1 c2 h2) :
    Runs s (m >>= k) (fs ++ gs) b c h c2 h2 := fun p hp => by
  obtain ⟨hf, hg⟩ := State.codes_append.mp hp
  rw [bind_run, hm p hf]
  simp only
  rw [hk _ hg, bitsOf_append, Nat.add_assoc]

/-- A first part that reads nothing. -/
theorem runs_bind0 {m : Grammar α} {k : α → Grammar β} {gs : List BitField} {a : α} {b : β} {c c1 c2 : Context}
    {h h1 h2 : Header} (hm : Runs s m [] a c h c1 h1) (hk : Runs s (k a) gs b c1 h1 c2 h2) :
    Runs s (m >>= k) gs b c h c2 h2 := runs_bind hm hk

theorem breaks_first {m : Grammar α} {k : α → Grammar β} {fs : List BitField} {e : Cause} {c c' : Context} {h : Header}
    (hm : Breaks s m fs e c h c') : Breaks s (m >>= k) fs e c h c' := fun p hp => by
  obtain ⟨h', hm⟩ := hm p hp
  exact ⟨h', by rw [bind_run, hm]⟩

theorem breaks_then {m : Grammar α} {k : α → Grammar β} {fs gs : List BitField} {a : α} {e : Cause} {c c1 c2 : Context}
    {h h1 : Header} (hm : Runs s m fs a c h c1 h1) (hk : Breaks s (k a) gs e c1 h1 c2) :
    Breaks s (m >>= k) (fs ++ gs) e c h c2 := fun p hp => by
  obtain ⟨hf, hg⟩ := State.codes_append.mp hp
  obtain ⟨h', hk⟩ := hk _ hg
  refine ⟨h', ?_⟩
  rw [bind_run, hm p hf]
  simp only
  rw [hk, bitsOf_append, Nat.add_assoc]

theorem breaks_then0 {m : Grammar α} {k : α → Grammar β} {gs : List BitField} {a : α} {e : Cause} {c c1 c2 : Context}
    {h h1 : Header} (hm : Runs s m [] a c h c1 h1) (hk : Breaks s (k a) gs e c1 h1 c2) :
    Breaks s (m >>= k) gs e c h c2 := breaks_then hm hk

/-- The same run, its fields and registers spelled another way. -/
theorem Runs.cast {m : Grammar α} {fs gs : List BitField} {a b : α} {c c1 c2 : Context} {h h1 h2 : Header}
    (hm : Runs s m fs a c h c1 h1) (hf : fs = gs) (ha : a = b) (hc : c1 = c2) (hh : h1 = h2) :
    Runs s m gs b c h c2 h2 := by subst hf ha hc hh; exact hm

theorem runs_pure (a : α) (c : Context) (h : Header) : Runs s (pure a) [] a c h c h := fun _ _ => rfl

theorem runs_getHdr (c : Context) (h : Header) : Runs s getHdr [] h c h c h := fun _ _ => rfl

theorem runs_getCtx (c : Context) (h : Header) : Runs s getCtx [] c c h c h := fun _ _ => rfl

theorem runs_setHdr (g : Header → Header) (c : Context) (h : Header) : Runs s (setHdr g) [] () c h c (g h) := fun _ _ => rfl

theorem runs_setCtx (g : Context → Context) (c : Context) (h : Header) : Runs s (setCtx g) [] () c h (g c) h := fun _ _ => rfl

theorem runs_f {n : Nat} (hn : 0 < n) (v : Nat) (c : Context) (h : Header) : Runs s (f n) [(n, v)] v c h c h := fun p hp => by
  rw [f_at (State.codes_field hp) hn]; rfl

theorem runs_flag (b : Bool) (c : Context) (h : Header) : Runs s flag [flagField b] b c h c h := fun p hp => by
  rw [flag_at (State.codes_field hp), decide_flagBit]; rfl

theorem runs_su {n : Nat} (v : CodedSigned) (c : Context) (h : Header) :
    Runs s (su n) (v.fields n) v.value c h c h := fun p hp => by
  obtain ⟨h1, h2, _⟩ := hp
  have hv : s.bufferSigned p n = some v.value := by
    unfold State.bufferSigned
    rw [h1, show s.bufferField (p + n) 1 = _ from h2]
    cases hb : v.negative <;> simp [flagField, CodedSigned.value, hb]
  rw [su_at hv]
  simp [CodedSigned.fields, flagField]

theorem runs_ite_pos {q : Prop} {_ : Decidable q} (hq : q) {m n : Grammar α} {fs : List BitField} {a : α} {c c' : Context}
    {h h' : Header} (hm : Runs s m fs a c h c' h') : Runs s (if q then m else n) fs a c h c' h' := by rwa [if_pos hq]

theorem runs_ite_neg {q : Prop} {_ : Decidable q} (hq : ¬ q) {m n : Grammar α} {fs : List BitField} {a : α} {c c' : Context}
    {h h' : Header} (hn : Runs s n fs a c h c' h') : Runs s (if q then m else n) fs a c h c' h' := by rwa [if_neg hq]

theorem breaks_ite_pos {q : Prop} {_ : Decidable q} (hq : q) {m n : Grammar α} {fs : List BitField} {e : Cause}
    {c c' : Context} {h : Header} (hm : Breaks s m fs e c h c') : Breaks s (if q then m else n) fs e c h c' := by
  rwa [if_pos hq]

theorem breaks_ite_neg {q : Prop} {_ : Decidable q} (hq : ¬ q) {m n : Grammar α} {fs : List BitField} {e : Cause}
    {c c' : Context} {h : Header} (hm : Breaks s n fs e c h c') : Breaks s (if q then m else n) fs e c h c' := by
  rwa [if_neg hq]

theorem breaks_raise (e : Cause) (c : Context) (h : Header) : Breaks s (raise e : Grammar α) [] e c h c :=
  fun _ _ => ⟨h, rfl⟩

/-- A value behind its presence flag (R63). -/
theorem runs_guarded {read : Grammar β} {fields : α → List BitField} {value : α → β} {d : β} {c : Context} {h : Header}
    (hr : ∀ v, Runs s read (fields v) (value v) c h c h) (o : Option α) :
    Runs s (guarded read d) (optionalFields fields o) (o.isSome, (o.map value).getD d) c h c h := by
  unfold guarded readIf
  cases o with
  | none =>
    exact runs_bind (runs_flag false c h) (runs_bind0 (runs_ite_neg (by simp) (runs_pure d c h)) (runs_pure _ c h))
  | some v =>
    exact (runs_bind (runs_flag true c h) (runs_bind (runs_ite_pos rfl (hr v)) (runs_pure (true, value v) c h))).cast
      (by simp [optionalFields]) rfl rfl rfl

/-! ### Steps 1 to 4 -/

/-- Steps 1 to 3 of a header that goes on (R94, R95, R96). -/
theorem front_run {p : Nat} {fs : List BitField} (hf : s.codes 0 (frontFields p ++ fs)) :
    uncompressedHeader (startWork s) = (fullHeader
      (workAt s.port.reader (bitsOf (frontFields p)) s.inst.ctx { Header.zero with profile := p })) ∧
    s.codes (bitsOf (frontFields p)) fs := by
  obtain ⟨hf, hr⟩ := State.codes_append.mp hf
  refine ⟨?_, by simpa using hr⟩
  unfold frontFields at hf
  obtain ⟨h123, h5⟩ := State.codes_append.mp hf
  obtain ⟨h12, h4⟩ := State.codes_append.mp h123
  obtain ⟨h1, h2, h3, _⟩ := h12
  have hz : bitsOf (if p = 3 then [((1, 0) : BitField)] else []) + 4 = 2 + profileBits p := by
    unfold profileBits; split <;> rfl
  have hs : s.StartsWith p := by
    refine ⟨h1, h2, h3, fun h => ?_⟩
    rw [if_pos h] at h4
    exact h4.1
  rw [startsWith_run hs]
  have he : s.bufferField (2 + profileBits p) 1 = some 0 := by
    rw [← hz]
    have := h5.1
    simp only [bitsOf_append, bitsOf_cons, bitsOf_nil] at this
    rw [show (0 : Nat) + (2 + (1 + (1 + 0)) + bitsOf (if p = 3 then [((1, 0) : BitField)] else [])) =
      bitsOf (if p = 3 then [((1, 0) : BitField)] else []) + 4 by omega] at this
    exact this
  have hw : bitsOf (frontFields p) = 2 + profileBits p + 1 := by
    rw [← hz]; simp only [frontFields, bitsOf_append, bitsOf_cons, bitsOf_nil]; omega
  simp only [showExisting, grammar_assoc, flag_then he, setHdr_then, pure_then, show ((0 : Nat) = 1) = False by simp, decide_false,
    whenTrue_false, Bool.not_false, whenTrue_true, hw]
  rfl

/-- Step 4 (R97). -/
theorem runs_frameType (t b e : Bool) (c : Context) (h : Header) :
    Runs s frameType [flagField t, flagField b, flagField e] () c h c
      { h with frameType := FrameType.ofFlag t, showFrame := b, errorResilientMode := e } :=
  runs_bind (runs_flag t c h) (runs_bind0 (runs_setHdr _ c _) (runs_bind (runs_flag b c _) (runs_bind0 (runs_setHdr _ c _)
    (runs_bind (runs_flag e c _) (runs_setHdr _ c _)))))

/-! ### The colour configuration (R99, R100, R105) -/

theorem runs_syncCode (c : Context) (h : Header) : Runs s syncCode [(24, Config.syncCode)] () c h c h :=
  runs_bind (runs_f (by decide) _ c h) (runs_pure () c h)

theorem runs_bitDepth (k : ColorCode) (p : Nat) (c : Context) (h : Header) :
    Runs s (bitDepth p) (if 2 ≤ p then [flagField k.twelve] else []) () c h
      { c with color := { c.color with bitDepth := k.depth p } } h := by
  unfold bitDepth ColorCode.depth
  by_cases hp : 2 ≤ p
  · simp only [hp, if_true]
    exact runs_bind (runs_flag k.twelve c h) (runs_setCtx _ c h)
  · simp only [hp, if_false]
    exact runs_setCtx _ c h

/-- The reserved bit after the colour configuration. -/
theorem runs_colorReserved (c : Context) (h : Header) : Runs s colorReserved [flagField false] () c h c h :=
  runs_bind (runs_flag false c h) (runs_pure () c h)

theorem breaks_colorReserved (c : Context) (h : Header) :
    Breaks s colorReserved [flagField true] .reservedBitSet c h c :=
  breaks_then (gs := []) (runs_flag true c h) (breaks_raise _ c h)

theorem codesSubsampling_eq (p : Nat) : codesSubsampling p = decide (subsampled p) := by
  simp [codesSubsampling, subsampled, Bool.decide_or, beq_eq_decide]

theorem ColorSpace.ofCode_srgb {k : Nat} (h : k < 8) : ColorSpace.ofCode k = .srgb ↔ k = 7 :=
  ⟨fun h' => by by_contra h7; exact ColorSpace.ofCode_ne_srgb h h7 h', fun h => by subst h; rfl⟩

/-- A colour space that is coded fits its three bits. -/
theorem ColorCode.space_lt {k : ColorCode} {p q : Nat} (h : s.codes q (k.fields p)) : k.space < 8 := by
  unfold ColorCode.fields at h
  obtain ⟨h, _⟩ := State.codes_append.mp h
  obtain ⟨_, h, _⟩ := State.codes_append.mp h
  exact Reader.field_lt h

/-- R100 where no check fails. -/
theorem runs_colorConfig {k : ColorCode} {p : Nat} (hk : k.cause p = .none) (c : Context) {h : Header} (hh : h.profile = p) :
    Runs s colorConfig (k.fields p) () c h { c with color := k.config p } h := fun q hq => by
  have h8 := ColorCode.space_lt hq
  refine (?_ : Runs s colorConfig (k.fields p) () c h { c with color := k.config p } h) q hq
  have e : ∀ {m : Grammar Unit} {c1 : Context} {fs : List BitField},
      Runs s m fs () { c with color := { c.color with bitDepth := k.depth p, colorSpace := ColorSpace.ofCode k.space } } h c1 h →
      (if ColorSpace.ofCode k.space = .srgb then srgbColor p else yuvColor p) = m →
      Runs s colorConfig ((if 2 ≤ p then [flagField k.twelve] else []) ++ ([(3, k.space)] ++ fs)) () c h c1 h := by
    rintro m c1 fs hm rfl
    refine runs_bind0 (runs_getHdr c h) ?_
    rw [hh]
    exact runs_bind (runs_bitDepth k p c h) (runs_bind (runs_f (by decide) _ _ h) (runs_bind0 (runs_setCtx _ _ h) hm))
  unfold ColorCode.cause at hk
  unfold ColorCode.fields ColorCode.config
  by_cases h7 : k.space = 7
  · by_cases hs : subsampled p
    · have hr : k.reserved = false := by simpa [h7, hs] using hk
      refine (e (runs_bind0 (runs_setCtx _ _ h) (runs_ite_pos (by simpa [codesSubsampling_eq] using hs)
        (runs_bind0 (runs_setCtx _ _ h) (runs_colorReserved _ h)))) (if_pos ((ColorSpace.ofCode_srgb h8).mpr h7))).cast ?_ rfl ?_ rfl
      · simp [h7, hs, hr]
      · simp [h7, show ColorSpace.ofCode 7 = .srgb from rfl]
    · simp [h7, hs] at hk
  · have hne : ¬ ColorSpace.ofCode k.space = .srgb := fun h => h7 ((ColorSpace.ofCode_srgb h8).mp h)
    by_cases hs : subsampled p
    · have hss : ¬ (k.ssX = true ∧ k.ssY = true) := fun h => by simp [h7, hs, h.1, h.2] at hk
      have hr : k.reserved = false := by simpa [h7, hs, hss] using hk
      have hxy : (k.ssX && k.ssY) = false := by simpa using hss
      refine (e (runs_bind (runs_flag k.range _ h) (runs_bind0 (runs_setCtx _ _ h) (runs_ite_pos
        (by simpa [codesSubsampling_eq] using hs) (runs_bind (runs_flag k.ssX _ h) (runs_bind0 (runs_setCtx _ _ h)
        (runs_bind (runs_flag k.ssY _ h) (runs_bind0 (runs_setCtx _ _ h) (runs_bind0 (runs_ite_neg (by simp [hxy])
        (runs_pure () _ h)) (runs_colorReserved _ h))))))))) (if_neg hne)).cast ?_ rfl ?_ rfl
      · simp [h7, hs, hss, hr]
      · simp [h7, hs, ColorRange.ofFlag]
    · refine (e (runs_bind (runs_flag k.range _ h) (runs_bind0 (runs_setCtx _ _ h) (runs_ite_neg
        (by simpa [codesSubsampling_eq] using hs) (runs_setCtx _ _ h)))) (if_neg hne)).cast ?_ rfl ?_ rfl
      · simp [h7, hs]
      · simp [h7, hs, ColorRange.ofFlag]

/-- R100 where a check fails: the cause, the bits read and what was written. -/
theorem breaks_colorConfig {k : ColorCode} {p : Nat} (hk : k.cause p ≠ .none) (c : Context) {h : Header} (hh : h.profile = p) :
    Breaks s colorConfig (k.fields p) (k.cause p) c h { c with color := k.written p c.color } := fun q hq => by
  have h8 := ColorCode.space_lt hq
  refine (?_ : Breaks s colorConfig (k.fields p) (k.cause p) c h { c with color := k.written p c.color }) q hq
  have e : ∀ {m : Grammar Unit} {c1 c2 : Context} {fs gs : List BitField} {x y : Cause},
      Breaks s m fs x { c with color := { c.color with bitDepth := k.depth p, colorSpace := ColorSpace.ofCode k.space } } h c1 →
      (if ColorSpace.ofCode k.space = .srgb then srgbColor p else yuvColor p) = m →
      (if 2 ≤ p then [flagField k.twelve] else []) ++ ([(3, k.space)] ++ fs) = gs → x = y → c1 = c2 →
      Breaks s colorConfig gs y c h c2 := by
    rintro m c1 c2 fs gs x y hm rfl rfl rfl rfl
    refine breaks_then0 (runs_getHdr c h) ?_
    rw [hh]
    exact breaks_then (runs_bitDepth k p c h) (breaks_then (runs_f (by decide) _ _ h) (breaks_then0 (runs_setCtx _ _ h) hm))
  by_cases h7 : k.space = 7
  · by_cases hs : subsampled p
    · have hr : k.reserved = true := by simpa [ColorCode.cause, h7, hs] using hk
      refine e (breaks_then0 (runs_setCtx _ _ h) (breaks_ite_pos (by simpa [codesSubsampling_eq] using hs)
        (breaks_then0 (runs_setCtx _ _ h) (breaks_colorReserved _ h)))) (if_pos ((ColorSpace.ofCode_srgb h8).mpr h7)) ?_ ?_ ?_
      · simp [ColorCode.fields, h7, hs, hr]
      · simp [ColorCode.cause, h7, hs, hr]
      · simp [ColorCode.written, ColorCode.config, ColorCode.cause, h7, hs, hr, show ColorSpace.ofCode 7 = .srgb from rfl]
    · refine e (breaks_then0 (runs_setCtx _ _ h) (breaks_ite_neg (by simpa [codesSubsampling_eq] using hs)
        (breaks_raise _ _ h))) (if_pos ((ColorSpace.ofCode_srgb h8).mpr h7)) ?_ ?_ ?_
      · simp [ColorCode.fields, h7, hs]
      · simp [ColorCode.cause, h7, hs]
      · simp [ColorCode.written, ColorCode.config, ColorCode.cause, h7, hs, show ColorSpace.ofCode 7 = .srgb from rfl]
  · have hne : ¬ ColorSpace.ofCode k.space = .srgb := fun h => h7 ((ColorSpace.ofCode_srgb h8).mp h)
    have hs : subsampled p := by
      by_contra hs
      simp [ColorCode.cause, h7, hs] at hk
    by_cases hss : k.ssX = true ∧ k.ssY = true
    · refine e (breaks_then (runs_flag k.range _ h) (breaks_then0 (runs_setCtx _ _ h) (breaks_ite_pos
        (by simpa [codesSubsampling_eq] using hs) (breaks_then (runs_flag k.ssX _ h) (breaks_then0 (runs_setCtx _ _ h)
        (breaks_then (runs_flag k.ssY _ h) (breaks_then0 (runs_setCtx _ _ h) (breaks_first (breaks_ite_pos (by simp [hss])
        (breaks_raise _ _ h)))))))))) (if_neg hne) ?_ ?_ ?_
      · simp [ColorCode.fields, h7, hs, hss]
      · simp [ColorCode.cause, h7, hs, hss]
      · simp [ColorCode.written, ColorCode.config, ColorCode.cause, h7, hs, hss, ColorRange.ofFlag]
    · have hr : k.reserved = true := by simpa [ColorCode.cause, h7, hs, hss] using hk
      have hxy : (k.ssX && k.ssY) = false := by simpa using hss
      refine e (breaks_then (runs_flag k.range _ h) (breaks_then0 (runs_setCtx _ _ h) (breaks_ite_pos
        (by simpa [codesSubsampling_eq] using hs) (breaks_then (runs_flag k.ssX _ h) (breaks_then0 (runs_setCtx _ _ h)
        (breaks_then (runs_flag k.ssY _ h) (breaks_then0 (runs_setCtx _ _ h) (breaks_then0 (runs_ite_neg (by simp [hxy])
        (runs_pure () _ h)) (breaks_colorReserved _ h))))))))) (if_neg hne) ?_ ?_ ?_
      · simp [ColorCode.fields, h7, hs, hss, hr]
      · simp [ColorCode.cause, h7, hs, hss, hr]
      · simp [ColorCode.written, ColorCode.config, ColorCode.cause, h7, hs, hss, hr, ColorRange.ofFlag]

end Sys2Proof.Machine
end

