-- ==== Sys2Proof/Laws/CodedFrame.lean ====
section
/-! SUPPORT. The grammar run on a buffer that codes a whole frame (`CodedFrame`): one `Runs` lemma per rule of steps 5 to 11,
then the frame as a whole, and the two failures that only such a buffer shows. -/

namespace Sys2Proof.Machine

variable {α β : Type} {s : State} {n : Nat}

/-! ### Arrays written entry by entry -/

/-- `old` with its entries below `j` replaced. -/
def upTo (new : Fin n → α) (old : Vector α n) (j : Nat) : Vector α n := Vector.ofFn fun i => if i.val < j then new i else old[i]

theorem upTo_zero (new : Fin n → α) (old : Vector α n) : upTo new old 0 = old := by
  ext i hi; simp [upTo]

theorem upTo_all (new : Fin n → α) (old : Vector α n) : upTo new old n = Vector.ofFn new := by
  ext i hi; simp [upTo]

theorem upTo_get (new : Fin n → α) (old : Vector α n) (i : Fin n) : (upTo new old i)[i] = old[i] := by
  simp [upTo]

theorem upTo_set (new : Fin n → α) (old : Vector α n) (i : Fin n) :
    (upTo new old i).set i (new i) = upTo new old (i + 1) := by
  ext j hj
  simp only [upTo, Vector.getElem_set, Vector.getElem_ofFn]
  by_cases h : i.val = j
  · subst h; simp
  · have : j < i.val + 1 ↔ j < i.val := by omega
    simp [h, this]

/-- The fields of an array, entry by entry. -/
theorem toList_flatMap (v : Vector α n) (g : α → List β) :
    v.toList.flatMap g = (List.finRange n).flatMap fun i => g v[i] := by
  have : v.toList = (List.finRange n).map fun i => v[i] := by
    apply List.ext_getElem
    · simp
    · intro i h1 h2; simp
  rw [this, List.flatMap_map]

theorem runs_forEach_from {body : Fin n → Grammar Unit} {F : Fin n → List BitField} {C : Nat → Context} {H : Nat → Header}
    (hb : ∀ i : Fin n, Runs s (body i) (F i) () (C i) (H i) (C (i + 1)) (H (i + 1))) (is : List (Fin n)) (j : Nat)
    (hj : is.map Fin.val = List.range' j is.length) :
    Runs s (forEach body is) (is.flatMap F) () (C j) (H j) (C (j + is.length)) (H (j + is.length)) := by
  induction is generalizing j with
  | nil => exact runs_pure () _ _
  | cons i is ih =>
    simp only [List.map_cons, List.length_cons, List.range'_succ, List.cons.injEq] at hj
    obtain ⟨rfl, hj⟩ := hj
    have := ih _ hj
    rw [show i.val + (i :: is).length = i.val + 1 + is.length by simp; omega]
    exact runs_bind (hb i) this

/-- `for i in 0 .. n - 1`, the registers after `j` rounds being `C j` and `H j`. -/
theorem runs_forEach {body : Fin n → Grammar Unit} {F : Fin n → List BitField} {C : Nat → Context} {H : Nat → Header}
    {is : List (Fin n)} {c : Context} {h : Header}
    (hb : ∀ i : Fin n, Runs s (body i) (F i) () (C i) (H i) (C (i + 1)) (H (i + 1))) (hi : List.finRange n = is)
    (hc : C 0 = c) (hh : H 0 = h) :
    Runs s (forEach body is) ((List.finRange n).flatMap F) () c h (C n) (H n) := by
  subst hi hc hh
  simpa using runs_forEach_from hb (List.finRange n) 0 (by simp [List.range_eq_range'])

/-! ### Sizes (R101, R102) -/

theorem runs_frameSize (wm1 hm1 : Nat) (c : Context) (h : Header) :
    Runs s frameSize (sizeFields wm1 hm1) () c h c { h with width := wm1 + 1, height := hm1 + 1 } :=
  runs_bind (runs_f (by decide) _ c h) (runs_bind0 (runs_setHdr _ c h) (runs_bind (runs_f (by decide) _ c _) (runs_setHdr _ c _)))

theorem runs_displaySize (wm1 hm1 : Nat) (c : Context) (h : Header) :
    Runs s displaySize (sizeFields wm1 hm1) () c h c { h with displayWidth := wm1 + 1, displayHeight := hm1 + 1 } :=
  runs_bind (runs_f (by decide) _ c h) (runs_bind0 (runs_setHdr _ c h) (runs_bind (runs_f (by decide) _ c _) (runs_setHdr _ c _)))

theorem runs_renderSize (r : Option (Nat × Nat)) (c : Context) (h : Header) :
    Runs s renderSize (optionalFields (fun v => sizeFields v.1 v.2) r) () c h c
      { h with
        displaySizePresent := r.isSome
        displayWidth := (r.map (·.1 + 1)).getD h.width, displayHeight := (r.map (·.2 + 1)).getD h.height } := by
  cases r with
  | none => exact runs_bind (runs_flag false c h) (runs_bind0 (runs_setHdr _ c h) (runs_ite_neg (by simp) (runs_setHdr _ c _)))
  | some v =>
    exact runs_bind (runs_flag true c h) (runs_bind0 (runs_setHdr _ c h) (runs_ite_pos rfl (runs_displaySize v.1 v.2 c _)))

/-! ### The inter branch, part by part (R103 to R108) -/

theorem runs_intraOnly {b : Bool} (c : Context) {h : Header} (hb : b = true → h.showFrame = false) :
    Runs s intraOnly (if h.showFrame then [] else [flagField b]) () c h c { h with intraOnly := b } := by
  refine runs_bind0 (runs_getHdr c h) ?_
  by_cases hs : h.showFrame = true
  · have : b = false := by cases b <;> simp_all
    subst this
    exact (runs_ite_pos hs (runs_setHdr _ c h)).cast (if_pos hs).symm rfl rfl rfl
  · exact (runs_ite_neg hs (runs_bind (runs_flag b c h) (runs_setHdr _ c h))).cast (if_neg hs).symm rfl rfl rfl

theorem runs_resetFrameContext (v : Nat) (c : Context) (h : Header) :
    Runs s resetFrameContext (if h.errorResilientMode then [] else [(2, v)]) () c h c
      { h with resetFrameContext := if h.errorResilientMode then 0 else v } := by
  refine runs_bind0 (runs_getHdr c h) ?_
  by_cases hs : h.errorResilientMode = true
  · exact (runs_ite_pos hs (runs_setHdr _ c h)).cast (if_pos hs).symm rfl rfl (by rw [if_pos hs])
  · exact (runs_ite_neg hs (runs_bind (runs_f (by decide) v c h) (runs_setHdr _ c h))).cast (if_neg hs).symm rfl rfl
      (by rw [if_neg hs])

theorem runs_refreshFlags (m : Nat) (c : Context) (h : Header) :
    Runs s refreshFlags [(8, m)] () c h c { h with refreshFrameFlags := refreshMask m } :=
  runs_bind (runs_f (by decide) m c h) (runs_setHdr _ c h)

theorem runs_intraColor {k : ColorCode} {p : Nat} (hk : p = 0 ∨ k.cause p = .none) (c : Context) {h : Header}
    (hh : h.profile = p) :
    Runs s intraColor (if p = 0 then [] else k.fields p) () c h
      { c with color := if p = 0 then intraOnlyColor else k.config p } h := by
  refine runs_bind0 (runs_getHdr c h) ?_
  by_cases hp : p = 0
  · rw [if_pos hp, if_pos hp]
    exact runs_ite_neg (by omega) (runs_setCtx _ c h)
  · rw [if_neg hp, if_neg hp]
    exact runs_ite_pos (by omega) (runs_colorConfig (hk.resolve_left hp) c hh)

theorem runs_refEntry (i : Fin 3) (slot : Nat) (bias : Bool) (c : Context) (h : Header) :
    Runs s (refEntry i) [(3, slot), flagField bias] () c h c
      { h with refFrameIdx := h.refFrameIdx.set i (slotOf slot), refSignBias := h.refSignBias.set i bias } :=
  runs_bind (runs_f (by decide) slot c h) (runs_bind0 (runs_setHdr _ c h) (runs_bind (runs_flag bias c _) (runs_setHdr _ c _)))

theorem runs_refEntries (slots : Vector Nat 3) (bias : Vector Bool 3) (c : Context) (h : Header) :
    Runs s (forEach refEntry [0, 1, 2]) (refFields slots bias) () c h c
      { h with refFrameIdx := slots.map slotOf, refSignBias := bias } :=
  (runs_bind (runs_refEntry 0 slots[0] bias[0] c h) (runs_bind (runs_refEntry 1 slots[1] bias[1] c _)
    (runs_bind (runs_refEntry 2 slots[2] bias[2] c _) (runs_pure () c _)))).cast rfl rfl rfl (by
      have e1 : slots.map slotOf = #v[slotOf slots[0], slotOf slots[1], slotOf slots[2]] := by
        ext i hi; interval_cases i <;> simp
      simp only [e1, Fin.isValue, Fin.val_zero, Fin.val_one, Fin.val_two, vec3_set, ← vec3_eta])

/-- A size-from-reference flag that is 0. -/
theorem runs_sizeFlag_no {i : Fin 3} {is : List (Fin 3)} {fs : List BitField} {b : Bool} {c c' : Context} {h h' : Header}
    (hr : Runs s (sizeFlags is) fs b c { h with sizeFromRef := h.sizeFromRef.set i false } c' h') :
    Runs s (sizeFlags (i :: is)) ((1, 0) :: fs) b c h c' h' :=
  runs_bind (runs_flag false c h) (runs_bind0 (runs_setHdr _ c h) (runs_ite_neg (by simp) hr))

theorem breaks_sizeFlag_no {i : Fin 3} {is : List (Fin 3)} {fs : List BitField} {e : Cause} {c c' : Context} {h : Header}
    (hr : Breaks s (sizeFlags is) fs e c { h with sizeFromRef := h.sizeFromRef.set i false } c') :
    Breaks s (sizeFlags (i :: is)) ((1, 0) :: fs) e c h c' :=
  breaks_then (runs_flag false c h) (breaks_then0 (runs_setHdr _ c h) (breaks_ite_neg (by simp) hr))

/-- A size-from-reference flag that is 1 and names a slot that holds a frame. -/
theorem runs_sizeFlag_yes {i : Fin 3} {is : List (Fin 3)} {c : Context} {h : Header} {slot : RefSlot}
    (hs : c.refs[h.refFrameIdx[i]] = slot) (hv : slot.valid = true) :
    Runs s (sizeFlags (i :: is)) [(1, 1)] true c h c
      { h with sizeFromRef := h.sizeFromRef.set i true, width := slot.width, height := slot.height } := by
  subst hs
  refine runs_bind (gs := []) (runs_flag true c h) (runs_bind0 (runs_setHdr _ c h) (runs_ite_pos rfl
    (runs_bind0 (a := ()) ?_ (runs_pure true c _))))
  refine runs_bind0 (runs_getHdr c _) (runs_bind0 (runs_getCtx c _) ?_)
  simp only [hv, Bool.not_true, whenTrue_false]
  exact runs_bind0 (runs_pure () c _) (runs_setHdr _ c _)

/-- One that names an empty slot (R107). -/
theorem breaks_sizeFlag {i : Fin 3} {is : List (Fin 3)} {c : Context} {h : Header}
    (hv : (c.refs[h.refFrameIdx[i]]).valid = false) : Breaks s (sizeFlags (i :: is)) [(1, 1)] .invalidRefSlot c h c := by
  refine breaks_then (gs := []) (runs_flag true c h) (breaks_then0 (runs_setHdr _ c h) (breaks_ite_pos rfl (breaks_first
    (breaks_then0 (runs_getHdr c _) (breaks_then0 (runs_getCtx c _) ?_)))))
  simp only [hv, Bool.not_false, whenTrue_true]
  exact breaks_first (breaks_raise _ c _)

/-- A frame that codes its own size (R107). -/
theorem runs_sizeFlags_own (c : Context) (h : Header) :
    Runs s (sizeFlags [0, 1, 2]) [(1, 0), (1, 0), (1, 0)] false c h c { h with sizeFromRef := #v[false, false, false] } :=
  (runs_sizeFlag_no (runs_sizeFlag_no (runs_sizeFlag_no (runs_pure false c _)))).cast rfl rfl rfl (by
    simp only [Fin.isValue, Fin.val_zero, Fin.val_one, Fin.val_two, vec3_set])

/-- A frame whose size comes from the slot reference `i` names (R107). -/
theorem runs_sizeFlags_from (i : Fin 3) {c : Context} {h : Header} (hz : h.sizeFromRef = #v[false, false, false])
    {slot : RefSlot} (hs : c.refs[h.refFrameIdx[i]] = slot) (hv : slot.valid = true) :
    Runs s (sizeFlags [0, 1, 2]) (foundFields i) true c h c
      { h with sizeFromRef := Vector.ofFn fun j => decide (j = i), width := slot.width, height := slot.height } := by
  match i with
  | 0 => exact (runs_sizeFlag_yes hs hv).cast rfl rfl rfl (by rw [hz]; rfl)
  | 1 => exact (runs_sizeFlag_no (runs_sizeFlag_yes hs hv)).cast rfl rfl rfl (by rw [hz]; rfl)
  | 2 => exact (runs_sizeFlag_no (runs_sizeFlag_no (runs_sizeFlag_yes hs hv))).cast rfl rfl rfl (by rw [hz]; rfl)

/-- The same where that slot is empty. -/
theorem breaks_sizeFlags (i : Fin 3) {c : Context} {h : Header} (hv : (c.refs[h.refFrameIdx[i]]).valid = false) :
    Breaks s (sizeFlags [0, 1, 2]) (foundFields i) .invalidRefSlot c h c := by
  match i with
  | 0 => exact breaks_sizeFlag hv
  | 1 => exact breaks_sizeFlag_no (breaks_sizeFlag hv)
  | 2 => exact breaks_sizeFlag_no (breaks_sizeFlag_no (breaks_sizeFlag hv))

theorem runs_highPrecisionMv (b : Bool) (c : Context) (h : Header) :
    Runs s highPrecisionMv [flagField b] () c h c { h with allowHighPrecisionMv := b } :=
  runs_bind (runs_flag b c h) (runs_setHdr _ c h)

theorem runs_interpFilter (v : Option Nat) (c : Context) (h : Header) :
    Runs s interpFilter (filterCode v) () c h c { h with interpFilter := filterOf v } := by
  cases v with
  | none => exact runs_bind (gs := []) (runs_flag true c h) (runs_ite_pos rfl (runs_setHdr _ c h))
  | some l =>
    rw [filterOf, codedFilter_eq]
    exact runs_bind (runs_flag false c h) (runs_ite_neg (by simp) (runs_bind (runs_f (by decide) l c h) (runs_setHdr _ c h)))

/-- The size, the render size with it (R107, R102). -/
theorem runs_sizeWithRefs (slots : Vector Nat 3) (size : CodedSize) (r : Option (Nat × Nat)) {c : Context} {h : Header}
    (hi : h.refFrameIdx = slots.map slotOf) (hz : h.sizeFromRef = #v[false, false, false]) (hv : size.Valid slots c) :
    Runs s sizeWithRefs (size.fields ++ optionalFields (fun v => sizeFields v.1 v.2) r) () c h c
      { h with
        sizeFromRef := size.flags, width := (size.slot slots c).width, height := (size.slot slots c).height
        displaySizePresent := r.isSome
        displayWidth := (r.map (·.1 + 1)).getD (size.slot slots c).width
        displayHeight := (r.map (·.2 + 1)).getD (size.slot slots c).height } := by
  cases size with
  | own w hm1 =>
    exact (runs_bind (runs_sizeFlags_own c h) (runs_bind (runs_ite_pos rfl (runs_frameSize w hm1 c _))
      (runs_renderSize r c _))).cast (by simp [CodedSize.fields]) rfl rfl rfl
  | fromRef i =>
    exact runs_bind (runs_sizeFlags_from i hz (slot := c.refs[slotOf slots[i]]) (by simp [hi]) hv)
      (runs_bind0 (runs_ite_neg (by simp) (runs_pure () c _)) (runs_renderSize r c _))

/-- A non-intra inter frame (R106). -/
theorem runs_interBranch (m : Nat) (slots : Vector Nat 3) (bias : Vector Bool 3) (size : CodedSize) (r : Option (Nat × Nat))
    (hp : Bool) (filter : Option Nat) {c : Context} {h : Header} (hz : h.sizeFromRef = #v[false, false, false])
    (hv : size.Valid slots c) :
    Runs s interBranch ([(8, m)] ++ (refFields slots bias ++ ((size.fields ++ optionalFields (fun v => sizeFields v.1 v.2) r) ++
      ([flagField hp] ++ filterCode filter)))) () c h c
      { h with
        refreshFrameFlags := refreshMask m, refFrameIdx := slots.map slotOf, refSignBias := bias
        sizeFromRef := size.flags, width := (size.slot slots c).width, height := (size.slot slots c).height
        displaySizePresent := r.isSome
        displayWidth := (r.map (·.1 + 1)).getD (size.slot slots c).width
        displayHeight := (r.map (·.2 + 1)).getD (size.slot slots c).height
        allowHighPrecisionMv := hp, interpFilter := filterOf filter } :=
  runs_bind (runs_refreshFlags m c h) (runs_bind (runs_refEntries slots bias c _) (runs_bind
    (runs_sizeWithRefs slots size r (h := { h with
      refreshFrameFlags := refreshMask m, refFrameIdx := slots.map slotOf, refSignBias := bias }) rfl hz hv)
    (runs_bind (runs_highPrecisionMv hp c _) (runs_interpFilter filter c _))))

/-- An intra-only frame (R104). -/
theorem runs_intraBranch {k : ColorCode} {p : Nat} (hk : p = 0 ∨ k.cause p = .none) (m wm1 hm1 : Nat) (r : Option (Nat × Nat))
    (c : Context) {h : Header} (hh : h.profile = p) :
    Runs s intraBranch ([(24, Config.syncCode)] ++ ((if p = 0 then [] else k.fields p) ++ ([(8, m)] ++ (sizeFields wm1 hm1 ++
      optionalFields (fun v => sizeFields v.1 v.2) r)))) () c h { c with color := if p = 0 then intraOnlyColor else k.config p }
      { h with
        refreshFrameFlags := refreshMask m, width := wm1 + 1, height := hm1 + 1, displaySizePresent := r.isSome
        displayWidth := (r.map (·.1 + 1)).getD (wm1 + 1), displayHeight := (r.map (·.2 + 1)).getD (hm1 + 1) } :=
  runs_bind (runs_syncCode c h) (runs_bind (runs_intraColor hk c hh) (runs_bind (runs_refreshFlags m _ h) (runs_bind
    (runs_frameSize wm1 hm1 _ _) (runs_renderSize r _ _))))

/-- A key frame (R98). -/
theorem runs_keyFrame {k : ColorCode} {p : Nat} (hk : k.cause p = .none) (wm1 hm1 : Nat) (r : Option (Nat × Nat))
    (c : Context) {h : Header} (hh : h.profile = p) :
    Runs s keyFrame ([(24, Config.syncCode)] ++ (k.fields p ++ (sizeFields wm1 hm1 ++
      optionalFields (fun v => sizeFields v.1 v.2) r))) () c h { c with color := k.config p }
      { h with
        intraOnly := false, resetFrameContext := 0, refreshFrameFlags := refreshMask 0xFF
        width := wm1 + 1, height := hm1 + 1, displaySizePresent := r.isSome
        displayWidth := (r.map (·.1 + 1)).getD (wm1 + 1), displayHeight := (r.map (·.2 + 1)).getD (hm1 + 1) } :=
  runs_bind (runs_syncCode c h) (runs_bind (runs_colorConfig hk c hh) (runs_bind0 (runs_setHdr _ _ _) (runs_bind
    (runs_frameSize wm1 hm1 _ _) (runs_renderSize r _ _))))

/-- The two fields in front of an inter frame's branch (R103). -/
theorem runs_interLead {b : Bool} (v : Nat) {m : Grammar Unit} {fs : List BitField} {c c' : Context} {h h' : Header}
    (hb : b = true → h.showFrame = false)
    (hm : Runs s m fs () c { h with intraOnly := b, resetFrameContext := if h.errorResilientMode then 0 else v } c' h')
    (hr : (if b then intraBranch else interBranch) = m) :
    Runs s interFrame (interLead h.showFrame h.errorResilientMode b v ++ fs) () c h c' h' := by
  subst hr
  exact (runs_bind (runs_intraOnly c hb) (runs_bind (runs_resetFrameContext v c _) (runs_bind0 (runs_getHdr c _) hm))).cast
    (by simp [interLead]) rfl rfl rfl

/-! ### Steps 5 and 6 -/

/-- The header after step 4. -/
def CodedFrame.typed (k : CodedFrame) : Header :=
  { Header.zero with
    profile := k.profile, frameType := k.frameType, showFrame := k.showFrame, errorResilientMode := k.resilient }

/-- The header after the frame-type branch. -/
def CodedFrame.branched (k : CodedFrame) (c : Context) : Header :=
  { k.typed with
    intraOnly := k.intraOnly, resetFrameContext := k.reset, refreshFrameFlags := k.refresh
    width := (k.slot c).width, height := (k.slot c).height, displaySizePresent := k.render.isSome
    displayWidth := (k.header c).displayWidth, displayHeight := (k.header c).displayHeight
    refFrameIdx := (k.header c).refFrameIdx, refSignBias := (k.header c).refSignBias
    sizeFromRef := (k.header c).sizeFromRef, allowHighPrecisionMv := (k.header c).allowHighPrecisionMv
    interpFilter := (k.header c).interpFilter }

theorem runs_frameBranch {k : CodedFrame} {c : Context} (hk : k.Legal c) :
    Runs s frameBranch k.kindFields () c k.typed { c with color := k.color c } (k.branched c) := by
  obtain ⟨_, hcol, hhid, hval, _, _⟩ := hk
  obtain ⟨profile, showFrame, resilient, kind, render, _, _, _, _, _, _, _, _, _, _, _, _, _, _⟩ := k
  refine runs_bind0 (runs_getHdr c _) ?_
  cases kind with
  | key col w h =>
    exact runs_ite_pos rfl ((runs_keyFrame hcol w h render c rfl).cast
      (by simp [CodedFrame.kindFields, CodedFrame.renderFields]) rfl rfl rfl)
  | intra r col m w h =>
    exact runs_ite_neg (fun h => by cases h) ((runs_interLead (b := true) r (fun _ => hhid rfl)
      (runs_intraBranch hcol m w h render c rfl) rfl).cast
      (by simp [CodedFrame.kindFields, CodedFrame.renderFields, CodedFrame.typed]) rfl rfl rfl)
  | inter r m slots bias size hp filter =>
    exact runs_ite_neg (fun h => by cases h) ((runs_interLead (b := false) r (fun h => by cases h)
      (runs_interBranch m slots bias size render hp filter rfl hval) rfl).cast
      (by simp [CodedFrame.kindFields, CodedFrame.renderFields, CodedFrame.typed]) rfl rfl rfl)

/-! ### Step 7 and the reset (R109 to R111) -/

theorem runs_colorCopy (c : Context) (h : Header) : Runs s colorCopy [] () c h c { h with color := c.color } :=
  runs_bind0 (runs_getCtx c h) (runs_setHdr _ c h)

theorem runs_ctxFlags {e : Bool} (r p : Bool) (i : Nat) (c : Context) {h : Header} (he : h.errorResilientMode = e) :
    Runs s ctxFlags ((if e then [] else [flagField r, flagField p]) ++ [(2, i)]) () c h c
      { h with refreshFrameContext := !e && r, frameParallelDecodingMode := e || p, frameContextIdx := i } := by
  have hp : Runs s ctxFlagPair (if e then [] else [flagField r, flagField p]) () c h c
      { h with refreshFrameContext := !e && r, frameParallelDecodingMode := e || p } := by
    refine runs_bind0 (runs_getHdr c h) ?_
    cases e with
    | true => exact runs_ite_pos he (runs_setHdr _ c h)
    | false =>
      exact runs_ite_neg (by simp [he]) (runs_bind (runs_flag r c h) (runs_bind0 (runs_setHdr _ c h)
        (runs_bind (runs_flag p c _) (runs_setHdr _ c _))))
  exact runs_bind hp (runs_bind (runs_f (by decide) i c _) (runs_setHdr _ c _))

theorem runs_whenTrue {b : Bool} {m : Grammar Unit} {fs : List BitField} {c c' : Context} {h h' : Header}
    (h1 : b = true → Runs s m fs () c h c' h') (h0 : b = false → fs = [] ∧ c = c' ∧ h = h') :
    Runs s (whenTrue b m) fs () c h c' h' := by
  cases b with
  | true => exact h1 rfl
  | false =>
    obtain ⟨rfl, rfl, rfl⟩ := h0 rfl
    exact runs_pure () c h

theorem runs_pastIndependence {b : Bool} (c : Context) {h : Header} (hb : h.resetsContext = b) :
    Runs s pastIndependence [] () c h (if b then c.pastIndependent else c) h := by
  refine runs_bind0 (runs_getHdr c h) (runs_whenTrue (fun hr => ?_) fun hr => ?_)
  · rw [if_pos (by simpa [Config.pastIndependence, hb] using hr)]
    exact runs_setCtx _ c h
  · rw [if_neg (by simpa [Config.pastIndependence, hb] using hr)]
    exact ⟨rfl, rfl, rfl⟩

/-! ### Step 8 (R112, R113, R114) -/

/-- The context after `j` rounds of the reference deltas. -/
def refDeltaTo (v : Vector (Option CodedSigned) 4) (c : Context) (j : Nat) : Context :=
  { c with lfRefDelta := upTo (fun i => (v[i].map CodedSigned.value).getD c.lfRefDelta[i]) c.lfRefDelta j }

/-- The header after `j` rounds of the reference deltas. -/
def refFlagTo (v : Vector (Option CodedSigned) 4) (h : Header) (j : Nat) : Header :=
  { h with lf := { h.lf with refDeltaUpdated := upTo (fun i => v[i].isSome) h.lf.refDeltaUpdated j } }

theorem refDeltaTo_zero (v : Vector (Option CodedSigned) 4) (c : Context) : refDeltaTo v c 0 = c := by
  simp only [refDeltaTo, upTo_zero]

theorem refFlagTo_zero (v : Vector (Option CodedSigned) 4) (h : Header) : refFlagTo v h 0 = h := by
  simp only [refFlagTo, upTo_zero]

theorem runs_refDelta (v : Vector (Option CodedSigned) 4) (c : Context) (h : Header) (i : Fin 4) :
    Runs s (refDelta i) (optionalFields (CodedSigned.fields 6) v[i]) () (refDeltaTo v c i) (refFlagTo v h i)
      (refDeltaTo v c (i + 1)) (refFlagTo v h (i + 1)) := by
  unfold refFlagTo
  rw [← upTo_set (fun i : Fin 4 => v[i].isSome)]
  cases hv : v[i] with
  | none =>
    have : refDeltaTo v c (i + 1) = refDeltaTo v c i := by
      unfold refDeltaTo
      rw [← upTo_set]
      simp only [hv, Option.map_none, Option.getD_none]
      rw [← upTo_get (fun i => (v[i].map CodedSigned.value).getD c.lfRefDelta[i]) c.lfRefDelta i]
      simp only [Fin.getElem_fin, Vector.set_getElem_self]
    rw [this]
    exact runs_bind (runs_flag false _ _) (runs_bind0 (runs_setHdr _ _ _) (runs_pure () _ _))
  | some d =>
    unfold refDeltaTo
    rw [← upTo_set (fun i : Fin 4 => (v[i].map CodedSigned.value).getD c.lfRefDelta[i]), hv]
    exact (runs_bind (runs_flag true _ _) (runs_bind0 (runs_setHdr _ _ _) (runs_bind (runs_su d _ _) (runs_setCtx _ _ _)))).cast
      (by simp [optionalFields]) rfl rfl rfl

/-- The context after `j` rounds of the mode deltas. -/
def modeDeltaTo (v : Vector (Option CodedSigned) 2) (c : Context) (j : Nat) : Context :=
  { c with lfModeDelta := upTo (fun i => (v[i].map CodedSigned.value).getD c.lfModeDelta[i]) c.lfModeDelta j }

/-- The header after `j` rounds of the mode deltas. -/
def modeFlagTo (v : Vector (Option CodedSigned) 2) (h : Header) (j : Nat) : Header :=
  { h with lf := { h.lf with modeDeltaUpdated := upTo (fun i => v[i].isSome) h.lf.modeDeltaUpdated j } }

theorem modeDeltaTo_zero (v : Vector (Option CodedSigned) 2) (c : Context) : modeDeltaTo v c 0 = c := by
  simp only [modeDeltaTo, upTo_zero]

theorem modeFlagTo_zero (v : Vector (Option CodedSigned) 2) (h : Header) : modeFlagTo v h 0 = h := by
  simp only [modeFlagTo, upTo_zero]

theorem runs_modeDelta (v : Vector (Option CodedSigned) 2) (c : Context) (h : Header) (i : Fin 2) :
    Runs s (modeDelta i) (optionalFields (CodedSigned.fields 6) v[i]) () (modeDeltaTo v c i) (modeFlagTo v h i)
      (modeDeltaTo v c (i + 1)) (modeFlagTo v h (i + 1)) := by
  unfold modeFlagTo
  rw [← upTo_set (fun i : Fin 2 => v[i].isSome)]
  cases hv : v[i] with
  | none =>
    have : modeDeltaTo v c (i + 1) = modeDeltaTo v c i := by
      unfold modeDeltaTo
      rw [← upTo_set]
      simp only [hv, Option.map_none, Option.getD_none]
      rw [← upTo_get (fun i => (v[i].map CodedSigned.value).getD c.lfModeDelta[i]) c.lfModeDelta i]
      simp only [Fin.getElem_fin, Vector.set_getElem_self]
    rw [this]
    exact runs_bind (runs_flag false _ _) (runs_bind0 (runs_setHdr _ _ _) (runs_pure () _ _))
  | some d =>
    unfold modeDeltaTo
    rw [← upTo_set (fun i : Fin 2 => (v[i].map CodedSigned.value).getD c.lfModeDelta[i]), hv]
    exact (runs_bind (runs_flag true _ _) (runs_bind0 (runs_setHdr _ _ _) (runs_bind (runs_su d _ _) (runs_setCtx _ _ _)))).cast
      (by simp [optionalFields]) rfl rfl rfl

theorem runs_lfDeltas (r : Vector (Option CodedSigned) 4) (m : Vector (Option CodedSigned) 2) (c : Context) (h : Header) :
    Runs s lfDeltas (r.toList.flatMap (optionalFields (CodedSigned.fields 6)) ++
        m.toList.flatMap (optionalFields (CodedSigned.fields 6))) () c h
      { c with
        lfRefDelta := Vector.ofFn fun i => (r[i].map CodedSigned.value).getD c.lfRefDelta[i]
        lfModeDelta := Vector.ofFn fun i => (m[i].map CodedSigned.value).getD c.lfModeDelta[i] }
      { h with lf := { h.lf with
        refDeltaUpdated := Vector.ofFn fun i => r[i].isSome, modeDeltaUpdated := Vector.ofFn fun i => m[i].isSome } } := by
  rw [toList_flatMap, toList_flatMap]
  refine (runs_bind (runs_forEach (runs_refDelta r c h) rfl (refDeltaTo_zero r c) (refFlagTo_zero r h))
    (runs_forEach (runs_modeDelta m _ _) rfl (modeDeltaTo_zero m _) (modeFlagTo_zero m _))).cast rfl rfl ?_ ?_
  · simp only [refDeltaTo, modeDeltaTo, upTo_all]
  · simp only [refFlagTo, modeFlagTo, upTo_all]

/-- The context a loop-filter step leaves (R113). -/
def CodedFrame.filtered (k : CodedFrame) (c : Context) : Context :=
  { c with
    lfRefDelta := Vector.ofFn fun i => ((k.refDelta i).map CodedSigned.value).getD c.lfRefDelta[i]
    lfModeDelta := Vector.ofFn fun i => ((k.modeDelta i).map CodedSigned.value).getD c.lfModeDelta[i] }

theorem runs_loopFilterParams (k : CodedFrame) (c : Context) {h : Header} (hz : h.lf = Header.zero.lf) :
    Runs s loopFilterParams k.filterFields () c h (k.filtered c)
      { h with lf :=
        { (k.header c).lf with refDelta := (k.filtered c).lfRefDelta, modeDelta := (k.filtered c).lfModeDelta } } := by
  obtain ⟨_, _, _, _, _, _, _, _, level, sharpness, deltas, _, _, _, _, _, _, _, _⟩ := k
  have hcopy : ∀ c h, Runs s lfCopy [] () c h c
      { h with lf := { h.lf with refDelta := c.lfRefDelta, modeDelta := c.lfModeDelta } } := fun c h =>
    runs_bind0 (runs_getCtx c h) (runs_setHdr _ c h)
  have run : ∀ {b : Bool} {fs : List BitField} {c' : Context} {h' : Header},
      Runs s (whenTrue b lfUpdate) fs () c { h with lf := { h.lf with
        level := level, sharpness := sharpness, modeRefDeltaEnabled := b } } c' h' →
      Runs s loopFilterParams ([(6, level)] ++ ([(3, sharpness)] ++ ([flagField b] ++ (fs ++ [])))) () c h c'
        { h' with lf := { h'.lf with refDelta := c'.lfRefDelta, modeDelta := c'.lfModeDelta } } := fun hm =>
    runs_bind (runs_f (by decide) level c h) (runs_bind0 (runs_setHdr _ c h) (runs_bind (runs_f (by decide) sharpness c _)
      (runs_bind0 (runs_setHdr _ c _) (runs_bind (runs_flag _ c _) (runs_bind0 (runs_setHdr _ c _) (runs_bind hm (hcopy _ _)))))))
  have keep4 : (Vector.ofFn fun i : Fin 4 => c.lfRefDelta[i]) = c.lfRefDelta := by ext i hi; simp
  have keep2 : (Vector.ofFn fun i : Fin 2 => c.lfModeDelta[i]) = c.lfModeDelta := by ext i hi; simp
  cases deltas with
  | disabled =>
    refine (run (b := false) (runs_pure () c _)).cast rfl rfl ?_ ?_
    all_goals simp only [hz, CodedFrame.filtered, CodedFrame.refDelta, CodedFrame.modeDelta, Option.map_none, Option.getD_none, keep4, keep2]
    rfl
  | kept =>
    refine (run (b := true) (runs_bind (gs := []) (runs_flag false c _) (runs_bind0 (runs_setHdr _ c _) (runs_pure () c _)))).cast
      rfl rfl ?_ ?_
    all_goals simp only [hz, CodedFrame.filtered, CodedFrame.refDelta, CodedFrame.modeDelta, Option.map_none, Option.getD_none, keep4, keep2]
    rfl
  | updated r m =>
    exact (run (b := true) (runs_bind (runs_flag true c _) (runs_bind0 (runs_setHdr _ c _) (runs_lfDeltas r m c _)))).cast
      (by simp [CodedFrame.filterFields, CodedDeltas.fields, flagField]) rfl rfl (by rw [hz]; rfl)

/-! ### Step 9 (R115, R116) -/

theorem runs_quantDelta (v : Option CodedSigned) (c : Context) (h : Header) :
    Runs s quantDelta (optionalFields (CodedSigned.fields 4) v) (CodedFrame.delta v) c h c h :=
  (runs_bind (k := fun r : Bool × Int => pure r.2) (runs_guarded (fun v => runs_su v c h) v) (runs_pure _ c h)).cast
    (List.append_nil _) rfl rfl rfl

theorem runs_quantizationParams (k : CodedFrame) (c : Context) (h : Header) :
    Runs s quantizationParams k.quantFields () c h { c with lossless := k.quant.isLossless }
      { h with q := k.quant, lossless := k.quant.isLossless } :=
  (runs_bind (runs_f (by decide) k.baseQIdx c h) (runs_bind0 (runs_setHdr _ c h) (runs_bind (runs_quantDelta k.yDc c _)
    (runs_bind0 (runs_setHdr _ c _) (runs_bind (runs_quantDelta k.uvDc c _) (runs_bind0 (runs_setHdr _ c _)
    (runs_bind (runs_quantDelta k.uvAc c _) (runs_bind0 (runs_setHdr _ c _) (runs_bind0 (runs_getHdr c _)
    (runs_bind0 (runs_setCtx _ c _) (runs_bind0 (runs_getCtx _ _) (runs_setHdr _ _ _)))))))))))).cast
    (by simp [CodedFrame.quantFields]) rfl rfl rfl

/-! ### Step 10 (R117 to R120) -/

theorem runs_probability (v : Option Nat) (c : Context) (h : Header) :
    Runs s probability (probFields v) (v.isSome, v.getD 255) c h c h :=
  (runs_guarded (value := id) (fun v => runs_f (by decide) v c h) v).cast rfl (by cases v <;> rfl) rfl rfl

/-- The context after `j` rounds of the tree probabilities. -/
def treeProbTo (v : Vector (Option Nat) 7) (c : Context) (j : Nat) : Context :=
  { c with segTreeProb := upTo (fun i => v[i].getD 255) c.segTreeProb j }

/-- The header after `j` rounds of the tree probabilities. -/
def treePresentTo (v : Vector (Option Nat) 7) (h : Header) (j : Nat) : Header :=
  { h with seg := { h.seg with treeProbPresent := upTo (fun i => v[i].isSome) h.seg.treeProbPresent j } }

theorem treeProbTo_zero (v : Vector (Option Nat) 7) (c : Context) : treeProbTo v c 0 = c := by
  simp only [treeProbTo, upTo_zero]

theorem treePresentTo_zero (v : Vector (Option Nat) 7) (h : Header) : treePresentTo v h 0 = h := by
  simp only [treePresentTo, upTo_zero]

theorem runs_treeProb (v : Vector (Option Nat) 7) (c : Context) (h : Header) (i : Fin 7) :
    Runs s (treeProb i) (probFields v[i]) () (treeProbTo v c i) (treePresentTo v h i) (treeProbTo v c (i + 1))
      (treePresentTo v h (i + 1)) := by
  unfold treeProbTo treePresentTo
  rw [← upTo_set (fun i : Fin 7 => v[i].isSome), ← upTo_set (fun i : Fin 7 => v[i].getD 255)]
  exact (runs_bind (runs_probability v[i] _ _) (runs_bind0 (runs_setHdr _ _ _) (runs_setCtx _ _ _))).cast
    (List.append_nil _) rfl rfl rfl

/-- The context after `j` rounds of the prediction probabilities. -/
def predProbTo (v : Vector (Option Nat) 3) (c : Context) (j : Nat) : Context :=
  { c with segPredProb := upTo (fun i => v[i].getD 255) c.segPredProb j }

/-- The header after `j` rounds of the prediction probabilities. -/
def predPresentTo (v : Vector (Option Nat) 3) (h : Header) (j : Nat) : Header :=
  { h with seg := { h.seg with predProbPresent := upTo (fun i => v[i].isSome) h.seg.predProbPresent j } }

theorem predProbTo_zero (v : Vector (Option Nat) 3) (c : Context) : predProbTo v c 0 = c := by
  simp only [predProbTo, upTo_zero]

theorem predPresentTo_zero (v : Vector (Option Nat) 3) (h : Header) : predPresentTo v h 0 = h := by
  simp only [predPresentTo, upTo_zero]

theorem runs_predProb (v : Vector (Option Nat) 3) (c : Context) (h : Header) (i : Fin 3) :
    Runs s (predProb i) (probFields v[i]) () (predProbTo v c i) (predPresentTo v h i) (predProbTo v c (i + 1))
      (predPresentTo v h (i + 1)) := by
  unfold predProbTo predPresentTo
  rw [← upTo_set (fun i : Fin 3 => v[i].isSome), ← upTo_set (fun i : Fin 3 => v[i].getD 255)]
  exact (runs_bind (runs_probability v[i] _ _) (runs_bind0 (runs_setHdr _ _ _) (runs_setCtx _ _ _))).cast
    (List.append_nil _) rfl rfl rfl

theorem ofFn_getElem_map (g : α → β) (v : Vector α n) : (Vector.ofFn fun i => g v[i]) = v.map g := by
  ext i hi; simp

/-- The map probabilities of the context after a map update (R118). -/
def CodedMap.put (m : CodedMap) (c : Context) : Context :=
  { c with
    segTreeProb := m.tree.map (·.getD 255)
    segPredProb := (m.pred.map fun v => v.map (·.getD 255)).getD #v[255, 255, 255] }

/-- The map flags of the header after it. -/
def CodedMap.putHdr (m : CodedMap) (h : Header) : Header :=
  { h with seg := { h.seg with
    treeProbPresent := Vector.ofFn fun i => (m.tree[i]).isSome, temporalUpdate := m.pred.isSome
    predProbPresent := match m.pred with
      | none => h.seg.predProbPresent
      | some v => Vector.ofFn fun i => (v[i]).isSome } }

theorem runs_segMap (m : CodedMap) (c : Context) (h : Header) :
    Runs s segMap m.fields () c h (m.put c) (m.putHdr h) := by
  obtain ⟨tree, pred⟩ := m
  have ht := runs_forEach (s := s) (runs_treeProb tree c h) rfl (treeProbTo_zero tree c) (treePresentTo_zero tree h)
  simp only [treeProbTo, treePresentTo, upTo_all] at ht
  unfold CodedMap.fields
  rw [toList_flatMap]
  cases pred with
  | none =>
    have hd : ∀ (c : Context) (h : Header), Runs s (forEach (fun i => if false = true then predProb i else predProbDefault i)
        [0, 1, 2]) [] () c h { c with segPredProb := #v[255, 255, 255] } h := fun c h => by
      refine (runs_forEach (C := fun j => { c with segPredProb := upTo (fun _ => 255) c.segPredProb j }) (H := fun _ => h)
        (F := fun _ => []) (fun i => ?_) rfl (by simp only [upTo_zero]) rfl).cast (by simp) rfl ?_ rfl
      · simp only [Bool.false_eq_true, if_false, ← upTo_set (fun _ : Fin 3 => 255)]
        exact runs_setCtx _ _ h
      · simp only [upTo_all]; rfl
    refine (runs_bind ht (runs_bind (runs_flag false _ _) (runs_bind0 (runs_setHdr _ _ _) (hd _ _)))).cast rfl rfl ?_ rfl
    simp only [CodedMap.put, ← ofFn_getElem_map (n := 7)]
    rfl
  | some v =>
    have hp : ∀ (c : Context) (h : Header), Runs s (forEach (fun i => if true = true then predProb i else predProbDefault i)
        [0, 1, 2]) (v.toList.flatMap probFields) () c h { c with segPredProb := v.map (·.getD 255) }
        { h with seg := { h.seg with predProbPresent := Vector.ofFn fun i => (v[i]).isSome } } := fun c h => by
      rw [toList_flatMap]
      refine (runs_forEach (fun i => runs_ite_pos rfl (runs_predProb v c h i)) rfl (predProbTo_zero v c)
        (predPresentTo_zero v h)).cast rfl rfl ?_ ?_
      · simp only [predProbTo, upTo_all, ← ofFn_getElem_map (n := 3)]
      · simp only [predPresentTo, upTo_all]
    refine (runs_bind ht (runs_bind (runs_flag true _ _) (runs_bind0 (runs_setHdr _ _ _) (hp _ _)))).cast rfl rfl ?_ rfl
    simp only [CodedMap.put, ← ofFn_getElem_map (n := 7)]
    rfl

theorem runs_setFeature (i : Fin 8) (g : SegFeature → SegFeature) (e : SegFeature) (c : Context) (h : Header) :
    Runs s (setFeature i g) [] () { c with seg := c.seg.set i e } h { c with seg := c.seg.set i (g e) } h :=
  (runs_setCtx _ _ h).cast rfl rfl (by simp only [Fin.getElem_fin, Vector.getElem_set_self, Vector.set_set]) rfl

/-- A presence bit and the value it guards, both put into segment `i` (R119). -/
theorem runs_feature {read : Grammar β} {F : α → List BitField} {value : α → β} {d : β} {c : Context} {h : Header}
    (hr : ∀ (v : α) (c : Context), Runs s read (F v) (value v) c h c h) (o : Option α) (i : Fin 8)
    (g1 : Bool → SegFeature → SegFeature) (g2 : β → SegFeature → SegFeature) (e : SegFeature) :
    Runs s (do
        let en ← flag
        setFeature i (g1 en)
        let v ← readIf en read d
        setFeature i (g2 v)) (optionalFields F o) () { c with seg := c.seg.set i e } h
      { c with seg := c.seg.set i (g2 ((o.map value).getD d) (g1 o.isSome e)) } h := by
  cases o with
  | none =>
    exact runs_bind (runs_flag false _ h) (runs_bind0 (runs_setFeature i _ _ c h) (runs_bind0 (runs_ite_neg (by simp)
      (runs_pure d _ h)) (runs_setFeature i _ _ c h)))
  | some v =>
    exact (runs_bind (runs_flag true _ h) (runs_bind0 (runs_setFeature i _ _ c h) (runs_bind (runs_ite_pos rfl (hr v _))
      (runs_setFeature i _ _ c h)))).cast (by simp [optionalFields]) rfl rfl rfl

/-- One segment's features (R119). -/
theorem runs_segFeature (e : CodedFeature) (i : Fin 8) (c : Context) (h : Header) :
    Runs s (segFeature i) e.fields () c h { c with seg := c.seg.set i e.value } h := by
  have h0 : c = { c with seg := c.seg.set i c.seg[i] } := by simp
  have hq := runs_feature (s := s) (h := h) (c := c) (d := 0) (fun v c => runs_su (n := 8) v c h) e.q i (fun b x => { x with qEn := b }) (fun v x => { x with q := v })
    c.seg[i]
  rw [← h0] at hq
  refine (runs_bind hq (runs_bind (runs_feature (d := 0) (fun v c => runs_su (n := 6) v c h) e.lf i (fun b x => { x with lfEn := b })
    (fun v x => { x with lf := v }) _) (runs_bind (runs_feature (d := 0) (fun v c => runs_f (n := 2) (by decide) v c h) e.ref i
    (fun b x => { x with refEn := b }) (fun v x => { x with ref := RefId.ofCode v }) _)
    (runs_bind (runs_flag e.skip _ h) (runs_setFeature i _ _ c h))))).cast ?_ rfl ?_ rfl
  · simp [CodedFeature.fields]
  · simp [CodedFeature.value, CodedFrame.delta]

/-- The context after a data update (R119). -/
def CodedData.put (d : CodedData) (c : Context) : Context :=
  { c with segAbsDelta := d.absDelta, seg := d.feature.map CodedFeature.value }

theorem runs_segData (d : CodedData) (c : Context) (h : Header) : Runs s segData d.fields () c h (d.put c) h := by
  unfold CodedData.fields
  rw [toList_flatMap]
  refine runs_bind (runs_flag d.absDelta c h) (runs_bind0 (runs_setCtx _ c h) ?_)
  refine (runs_forEach (C := fun j => { c with
      segAbsDelta := d.absDelta, seg := upTo (fun i => (d.feature[i]).value) c.seg j }) (H := fun _ => h) (fun i => ?_) rfl
      (by simp only [upTo_zero]) rfl).cast rfl rfl ?_ rfl
  · simp only [← upTo_set (fun i : Fin 8 => (d.feature[i]).value)]
    exact runs_segFeature _ i _ h
  · simp only [upTo_all, CodedData.put, ← ofFn_getElem_map]

/-- The context an enabled or disabled segmentation leaves (R117). -/
def CodedFrame.segmented (k : CodedFrame) (c : Context) : Context :=
  { c with
    segTreeProb := match k.map with
      | none => c.segTreeProb
      | some m => (m.put c).segTreeProb
    segPredProb := match k.map with
      | none => c.segPredProb
      | some m => (m.put c).segPredProb
    segAbsDelta := match k.data with
      | none => c.segAbsDelta
      | some d => d.absDelta
    seg := match k.data with
      | none => c.seg
      | some d => d.feature.map CodedFeature.value }

/-- What an enabled segmentation codes (R117). -/
theorem runs_segUpdates (g : CodedSeg) (c : Context) (h : Header) :
    Runs s segUpdates g.fields () c h (((g.data.map CodedData.put).getD id) (((g.map.map CodedMap.put).getD id) c))
      (let h1 := ((g.map.map CodedMap.putHdr).getD id) { h with seg := { h.seg with updateMap := g.map.isSome } }
       { h1 with seg := { h1.seg with updateData := g.data.isSome } }) := by
  obtain ⟨map, data⟩ := g
  cases map with
  | none => cases data with
    | none =>
      exact runs_bind (runs_flag false c h) (runs_bind0 (runs_setHdr _ c h) (runs_bind0 (runs_pure () c _) (runs_bind (runs_flag false c _)
        (runs_bind0 (runs_setHdr _ c _) (runs_pure () c _)))))
    | some d =>
      exact runs_bind (runs_flag false c h) (runs_bind0 (runs_setHdr _ c h) (runs_bind0 (runs_pure () c _) (runs_bind (runs_flag true c _)
        (runs_bind0 (runs_setHdr _ c _) (runs_segData d c _)))))
  | some m => cases data with
    | none =>
      exact (runs_bind (runs_flag true c h) (runs_bind0 (runs_setHdr _ c h) (runs_bind (runs_segMap m c _) (runs_bind (runs_flag false _ _)
        (runs_bind0 (runs_setHdr _ _ _) (runs_pure () _ _)))))).cast (by simp [CodedSeg.fields, optionalFields]) rfl rfl rfl
    | some d =>
      exact (runs_bind (runs_flag true c h) (runs_bind0 (runs_setHdr _ c h) (runs_bind (runs_segMap m c _) (runs_bind (runs_flag true _ _)
        (runs_bind0 (runs_setHdr _ _ _) (runs_segData d _ _)))))).cast (by simp [CodedSeg.fields, optionalFields]) rfl rfl rfl

theorem runs_segmentationParams (k : CodedFrame) (c : Context) {h : Header} (hz : h.seg = Header.zero.seg) :
    Runs s segmentationParams (optionalFields CodedSeg.fields k.seg) () c h (k.segmented c)
      { h with seg :=
        { (k.header c).seg with
          treeProb := (k.segmented c).segTreeProb, predProb := (k.segmented c).segPredProb
          absDelta := (k.segmented c).segAbsDelta, feature := (k.segmented c).seg } } := by
  obtain ⟨_, _, _, _, _, _, _, _, _, _, _, _, _, _, _, seg, _, _, _⟩ := k
  have hcopy : ∀ c h, Runs s segCopy [] () c h c { h with seg := { h.seg with
      treeProb := c.segTreeProb, predProb := c.segPredProb, absDelta := c.segAbsDelta, feature := c.seg } } := fun c h =>
    runs_bind0 (runs_getCtx c h) (runs_setHdr _ c h)
  cases seg with
  | none =>
    exact (runs_bind (runs_flag false c h) (runs_bind0 (runs_setHdr _ c h) (runs_bind0 (runs_pure () c _) (hcopy c _)))).cast
      rfl rfl rfl (by rw [hz]; rfl)
  | some g =>
    refine (runs_bind (runs_flag true c h) (runs_bind0 (runs_setHdr _ c h) (runs_bind (runs_segUpdates g c _) (hcopy _ _)))).cast
      (by simp [optionalFields]) rfl ?_ ?_
    · obtain ⟨_ | m, _ | d⟩ := g <;> rfl
    · obtain ⟨_ | ⟨tree, _ | v⟩, _ | d⟩ := g <;> (rw [hz]; rfl)

/-! ### Step 11 (R121 to R123) -/

/-- The tile columns: `n` increments, and a 0 bit unless they reach the bound (R122). -/
theorem runs_tileCols (c : Context) (h : Header) (left n k : Nat) (hn : n ≤ left) :
    Runs s (tileCols left k) (List.replicate n (1, 1) ++ if n < left then [(1, 0)] else []) (k + n) c h c h := by
  induction left generalizing n k with
  | zero =>
    obtain rfl : n = 0 := by omega
    exact runs_pure k c h
  | succ left ih =>
    cases n with
    | zero => exact runs_bind (gs := []) (runs_flag false c h) (runs_ite_neg (by simp) (runs_pure k c h))
    | succ n =>
      exact (runs_bind (runs_flag true c h) (runs_ite_pos rfl (ih n (k + 1) (by omega)))).cast
        (by simp [flagField, List.replicate_succ]) (by omega) rfl rfl

theorem runs_tileRows {n : Nat} (hn : n ≤ 2) (c : Context) (h : Header) :
    Runs s tileRows (if n = 0 then [(1, 0)] else [(1, 1), (1, n - 1)]) n c h c h := by
  match n, hn with
  | 0, _ => exact runs_bind (gs := []) (runs_f (by decide) 0 c h) (runs_ite_neg (by decide) (runs_pure 0 c h))
  | n + 1, _ =>
    exact (runs_bind (runs_f (by decide) 1 c h) (runs_ite_pos rfl (runs_bind (runs_f (by decide) n c h) (runs_pure (1 + n) c h)))).cast
      rfl (Nat.add_comm 1 n) rfl rfl

theorem runs_tileInfo {k : CodedFrame} {c0 : Context} (hk : k.Legal c0) (c : Context) {h : Header}
    (hw : h.width = (k.slot c0).width) :
    Runs s tileInfo (k.tileFields c0) () c h c { h with tile := (k.header c0).tile } := by
  have ht := hk.tiles
  simp only [CodedFrame.tileFields, CodedFrame.tileStop, CodedFrame.header, ← hw] at ht ⊢
  exact (runs_bind0 (runs_getHdr c h) (runs_bind0 (runs_setHdr _ c h) (runs_bind (runs_tileCols c _ _ _ _ ht) (runs_bind0
    (runs_setHdr _ c _) (runs_bind (runs_tileRows hk.rows c _) (runs_setHdr _ c _)))))).cast (by simp) rfl rfl rfl

/-! ### The whole frame (R93) -/

/-- Steps 4 to 11. -/
def beforeSize : Grammar Unit := do
  frameType
  frameBranch
  colorCopy
  ctxFlags
  pastIndependence
  loopFilterParams
  quantizationParams
  segmentationParams
  tileInfo

theorem fullHeader_eq : fullHeader = beforeSize >>= fun _ => headerSize >>= fun _ => commitRefs := by
  have assoc : ∀ {γ δ : Type} (m : Grammar γ) (k : γ → Grammar δ) (l : δ → Grammar Unit),
      (m >>= k) >>= l = m >>= fun a => k a >>= l := fun m k l => funext fun w => grammar_assoc m k l w
  unfold fullHeader beforeSize
  simp only [assoc]

/-- The fields between the front and the first partition size. -/
def CodedFrame.middle (k : CodedFrame) (c : Context) : List BitField :=
  [flagField (decide (k.frameType = .inter)), flagField k.showFrame, flagField k.resilient] ++ (k.kindFields ++
    (((if k.resilient then [] else [flagField k.refreshCtx, flagField k.parallel]) ++ [(2, k.contextIdx)]) ++
    (k.filterFields ++ (k.quantFields ++ (optionalFields CodedSeg.fields k.seg ++ k.tileFields c)))))

theorem CodedFrame.fields_eq (k : CodedFrame) (c : Context) :
    k.fields c = frontFields k.profile ++ (k.middle c ++ [(16, k.partition)]) := by
  simp [CodedFrame.fields, CodedFrame.middle]

theorem CodedFrame.resets (k : CodedFrame) {h : Header} (h1 : h.frameType = k.frameType)
    (h2 : h.intraOnly = k.intraOnly) (h3 : h.errorResilientMode = k.resilient) : h.resetsContext = k.restarts := by
  simp [Header.resetsContext, CodedFrame.restarts, h1, h2, h3]

/-- Step 4 of a buffer that codes a frame (R97). -/
theorem runs_typed (k : CodedFrame) (c : Context) : Runs s frameType
    [flagField (decide (k.frameType = .inter)), flagField k.showFrame, flagField k.resilient] () c
    { Header.zero with profile := k.profile } c k.typed :=
  (runs_frameType _ _ _ c _).cast rfl rfl rfl (by
    unfold CodedFrame.typed
    cases k.frameType <;> rfl)

/-- The context after step 7: the colour, and the reset if the frame triggers it (R111). -/
def CodedFrame.begun (k : CodedFrame) (c : Context) : Context := { k.startContext c with color := k.color c }

/-- The context after step 9. -/
def CodedFrame.quantized (k : CodedFrame) (c : Context) : Context :=
  { k.filtered (k.begun c) with lossless := k.quant.isLossless }

theorem CodedFrame.segmented_quantized (k : CodedFrame) (c : Context) : k.segmented (k.quantized c) = k.written c := by
  unfold CodedFrame.written CodedFrame.quantized CodedFrame.begun CodedFrame.startContext
  cases k.restarts <;> rfl

/-- Steps 7 (its reset) to 11, from the colour and flags in force. -/
theorem runs_params {k : CodedFrame} {c : Context} (hk : k.Legal c) {h : Header} (hr : h.resetsContext = k.restarts)
    (h1 : h.lf = Header.zero.lf) (h2 : h.seg = Header.zero.seg) (h3 : h.width = (k.slot c).width) :
    Runs s (do
        pastIndependence
        loopFilterParams
        quantizationParams
        segmentationParams
        tileInfo)
      (k.filterFields ++ (k.quantFields ++ (optionalFields CodedSeg.fields k.seg ++ k.tileFields c))) ()
      { c with color := k.color c } h (k.written c)
      { h with
        lf := (k.header c).lf, q := k.quant, lossless := k.quant.isLossless, seg := (k.header c).seg
        tile := (k.header c).tile } := by
  have hb : (if k.restarts then { c with color := k.color c }.pastIndependent else { c with color := k.color c }) = k.begun c := by
    unfold CodedFrame.begun CodedFrame.startContext
    cases k.restarts <;> rfl
  have hp := runs_pastIndependence (s := s) { c with color := k.color c } hr
  rw [hb] at hp
  have hl := runs_loopFilterParams (s := s) k (k.begun c) h1
  have hq := runs_quantizationParams (s := s) k (k.filtered (k.begun c)) { h with lf := (k.header c).lf }
  have hs := runs_segmentationParams (s := s) k (k.quantized c)
    (h := { h with lf := (k.header c).lf, q := k.quant, lossless := k.quant.isLossless }) h2
  rw [k.segmented_quantized] at hs
  exact runs_bind0 hp (runs_bind hl (runs_bind hq (runs_bind hs (runs_tileInfo hk (k.written c) h3))))

/-- Steps 4 to 11 on a buffer that codes a frame. -/
theorem runs_beforeSize {k : CodedFrame} {c : Context} (hk : k.Legal c) :
    Runs s beforeSize (k.middle c) () c { Header.zero with profile := k.profile } (k.written c)
      { k.header c with firstPartitionSize := 0, headerLengthBytes := 0 } :=
  runs_bind (runs_typed k c) (runs_bind (runs_frameBranch hk) (runs_bind0 (runs_colorCopy _ _) (runs_bind
    (runs_ctxFlags (e := k.resilient) k.refreshCtx k.parallel k.contextIdx _ (by rfl))
    (runs_params hk (k.resets (by rfl) (by rfl) (by rfl)) (by rfl) (by rfl) (by rfl)))))

/-- Up to the first partition size, on a buffer that codes a frame. -/
theorem coded_run {k : CodedFrame} (hk : k.Legal s.inst.ctx) (hf : s.codes 0 (k.fields s.inst.ctx)) :
    ∃ p, p + 16 = bitsOf (k.fields s.inst.ctx) ∧ s.bufferField p 16 = some k.partition ∧
      uncompressedHeader (startWork s) = (headerSize >>= fun _ => commitRefs) (workAt s.port.reader p (k.written s.inst.ctx)
        { k.header s.inst.ctx with firstPartitionSize := 0, headerLengthBytes := 0 }) := by
  rw [k.fields_eq] at hf ⊢
  obtain ⟨h1, hm⟩ := front_run hf
  obtain ⟨hm, hp⟩ := State.codes_append.mp hm
  refine ⟨bitsOf (frontFields k.profile) + bitsOf (k.middle s.inst.ctx), by simp; omega, hp.1, ?_⟩
  rw [h1, fullHeader_eq, bind_run, runs_beforeSize hk _ hm]

theorem CodedFrame.slot_eq (k : CodedFrame) (c : Context) :
    k.slot c = { valid := true, width := (k.slot c).width, height := (k.slot c).height } := by
  obtain ⟨_, _, _, kind, _, _, _, _, _, _, _, _, _, _, _, _, _, _, _⟩ := k
  rcases kind with _ | _ | ⟨_, _, _, _, size, _, _⟩
  · rfl
  · rfl
  · cases size <;> rfl

/-- The slots a coded frame refreshes (R126). -/
theorem CodedFrame.refreshed (k : CodedFrame) (c : Context) {h : Header} (hr : h.refreshFrameFlags = k.refresh)
    (hw : h.width = (k.slot c).width) (hh : h.height = (k.slot c).height) :
    (c.refs.mapFinIdx fun i old _ => refreshedSlot h old i) = (k.context c).refs := by
  simp only [CodedFrame.context, refreshedSlot, hr, hw, hh, ← k.slot_eq c]

/-- A frame whose first partition size is not 0 (R124, R125, R126). -/
theorem coded_completes {k : CodedFrame} (hk : k.Legal s.inst.ctx) (hf : s.codes 0 (k.fields s.inst.ctx))
    (hp : k.partition ≠ 0) : uncompressedHeader (startWork s) =
      .ok () (workAt s.port.reader (bitsOf (k.fields s.inst.ctx)) (k.context s.inst.ctx) (k.header s.inst.ctx)) := by
  obtain ⟨p, he, h16, hu⟩ := coded_run hk hf
  have hn : (k.partition == 0) = false := by simpa using hp
  rw [hu]
  unfold headerSize headerLength commitRefs
  simp only [grammar_assoc, f_then h16 (by decide), setHdr_then, hn, whenTrue_false, pure_then, getPos_then, getHdr_then,
    setCtx_at, he]
  exact congrArg (fun r => EStateM.Result.ok () (workAt s.port.reader (bitsOf (k.fields s.inst.ctx))
    { k.written s.inst.ctx with refs := r } (k.header s.inst.ctx))) (k.refreshed s.inst.ctx rfl rfl rfl)

/-- One whose first partition size is 0 (R124): everything up to it is written. -/
theorem coded_zero {k : CodedFrame} (hk : k.Legal s.inst.ctx) (hf : s.codes 0 (k.fields s.inst.ctx))
    (hp : k.partition = 0) : ∃ h, uncompressedHeader (startWork s) =
      .error (.raised .zeroFirstPartition)
        (workAt s.port.reader (bitsOf (k.fields s.inst.ctx)) (k.written s.inst.ctx) h) := by
  obtain ⟨p, he, h16, hu⟩ := coded_run hk hf
  rw [hp] at h16
  refine ⟨{ k.header s.inst.ctx with firstPartitionSize := 0, headerLengthBytes := 0 }, ?_⟩
  rw [hu]
  unfold headerSize
  simp only [grammar_assoc, f_then h16 (by decide), setHdr_then, he]
  rfl

/-! ### A colour configuration, and a size taken from a slot (R100, R107) -/

/-- A key frame whose step 5 raises a cause. -/
theorem breaks_key {b e : Bool} {fs : List BitField} {x : Cause} {c c' : Context} {h : Header}
    (hm : Breaks s keyFrame fs x c { h with frameType := .key, showFrame := b, errorResilientMode := e } c') :
    Breaks s fullHeader ([flagField false, flagField b, flagField e] ++ fs) x c h c' := by
  have : Breaks s frameBranch fs x c { h with frameType := .key, showFrame := b, errorResilientMode := e } c' :=
    breaks_then0 (runs_getHdr c _) (breaks_ite_pos rfl hm)
  exact breaks_then (runs_frameType false b e c h) (breaks_first this)

/-- An inter frame whose branch raises a cause. -/
theorem breaks_inter {b e i : Bool} (v : Nat) {fs : List BitField} {x : Cause} {c c' : Context} {h : Header}
    (hb : i = true → b = false)
    (hm : Breaks s (if i then intraBranch else interBranch) fs x c
      { h with
        frameType := .inter, showFrame := b, errorResilientMode := e, intraOnly := i
        resetFrameContext := if e then 0 else v } c') :
    Breaks s fullHeader ([flagField true, flagField b, flagField e] ++ (interLead b e i v ++ fs)) x c h c' := by
  have h1 : Breaks s (getHdr >>= fun h => if h.intraOnly then intraBranch else interBranch) fs x c
      { h with
        frameType := .inter, showFrame := b, errorResilientMode := e, intraOnly := i
        resetFrameContext := if e then 0 else v } c' := breaks_then0 (runs_getHdr c _) hm
  have h2 : Breaks s interFrame ((if b then [] else [flagField i]) ++ ((if e then [] else [(2, v)]) ++ fs)) x c
      { h with frameType := .inter, showFrame := b, errorResilientMode := e } c' :=
    breaks_then (runs_intraOnly (h := { h with frameType := .inter, showFrame := b, errorResilientMode := e }) c hb) (breaks_then
      (runs_resetFrameContext v c
      { h with frameType := .inter, showFrame := b, errorResilientMode := e, intraOnly := i }) h1)
  have h3 : Breaks s frameBranch (interLead b e i v ++ fs) x c
      { h with frameType := .inter, showFrame := b, errorResilientMode := e } c' := by
    rw [interLead, List.append_assoc]
    exact breaks_then0 (runs_getHdr c _) (breaks_ite_neg (by simp) h2)
  exact breaks_then (runs_frameType true b e c h) (breaks_first h3)

/-- A colour configuration that fails ends the PARSE with its cause, what it wrote written (R100, R146). -/
theorem color_breaks {q : ColorFront} {k : ColorCode} (hq : q.Legal) (hk : k.cause q.profile ≠ .none)
    (hf : s.codes 0 (q.fields ++ k.fields q.profile)) : ∃ h, uncompressedHeader (startWork s) =
      .error (.raised (k.cause q.profile)) (workAt s.port.reader (bitsOf (q.fields ++ k.fields q.profile))
        { s.inst.ctx with color := k.written q.profile s.inst.ctx.color } h) := by
  cases q with
  | key p b e =>
    simp only [ColorFront.fields, ColorFront.lead, ColorFront.profile, List.append_assoc] at hf hk ⊢
    obtain ⟨h1, hm⟩ := front_run hf
    rw [h1, bitsOf_append]
    exact breaks_key (b := b) (e := e) (breaks_then (runs_syncCode _ _) (breaks_first (breaks_colorConfig hk _ rfl))) _ hm
  | intra p e v =>
    simp only [ColorFront.fields, ColorFront.lead, ColorFront.profile, List.append_assoc] at hf hk ⊢
    obtain ⟨h1, hm⟩ := front_run hf
    rw [h1, bitsOf_append]
    have hp : 0 < p := hq.1
    have hc : ∀ h : Header, h.profile = p → Breaks s intraColor (k.fields p) (k.cause p) s.inst.ctx h
        { s.inst.ctx with color := k.written p s.inst.ctx.color } := fun h hh =>
      breaks_then0 (runs_getHdr _ h) (breaks_ite_pos (by omega) (breaks_colorConfig hk s.inst.ctx hh))
    exact breaks_inter (b := false) (e := e) (i := true) v (fun _ => rfl)
      (breaks_then (runs_syncCode _ _) (breaks_first (hc _ rfl))) _ hm

/-- A size taken from a slot that holds no frame ends the PARSE (R107). -/
theorem refSize_breaks {q : RefSizeFront} (hv : (q.slot s.inst.ctx).valid = false) (hf : s.codes 0 q.fields) :
    ∃ h, uncompressedHeader (startWork s) =
      .error (.raised .invalidRefSlot) (workAt s.port.reader (bitsOf q.fields) s.inst.ctx h) := by
  obtain ⟨p, b, e, v, m, slots, bias, i⟩ := q
  simp only [RefSizeFront.fields, List.append_assoc] at hf ⊢
  obtain ⟨h1, hm⟩ := front_run hf
  rw [h1, bitsOf_append]
  exact breaks_inter (b := b) (e := e) (i := false) v (fun h => by cases h) (breaks_then (runs_refreshFlags m _ _)
    (breaks_then (runs_refEntries slots bias _ _) (breaks_first (breaks_first
    (breaks_sizeFlags i (by simpa [RefSizeFront.slot] using hv)))))) _ hm

end Sys2Proof.Machine
end

