-- ==== Sys2Proof/Laws/CodedFailure.lean ====
section
/-! SUPPORT. What a buffer that codes a legal colour configuration cannot end in and must report, and back from a failure to the
fields the buffer codes: `completed_*` lemmas say that a completed step read fields the buffer holds. -/

namespace Sys2Proof.Machine

variable {α β : Type} {s : State}

/-! ### A colour configuration that passes its checks (R100) -/

/-- Where step 5 or 6 stands after a colour configuration: it goes on with a part that keeps the context and raises nothing. -/
structure AfterColor (w : Work) (c : Context) : Prop where
  goes : ∃ (rest : Grammar Unit) (w1 : Work), frameBranch w = rest w1 ∧ w1.ctx = c ∧ Same (fun w => w.ctx) rest ∧ Raises [] rest

theorem AfterColor.ok {w w' : Work} {c : Context} (h : AfterColor w c) (hw : frameBranch w = .ok () w') : w'.ctx = c := by
  obtain ⟨rest, w1, h1, rfl, hs, _⟩ := h.goes
  rw [h1] at hw
  exact hs.ok hw

theorem AfterColor.error {w w' : Work} {c : Context} (h : AfterColor w c) {e : Cause}
    (hw : frameBranch w = .error (.raised e) w') : e = .outOfData := by
  obtain ⟨rest, w1, h1, _, _, hr⟩ := h.goes
  rw [h1] at hw
  rcases hr _ _ _ hw with h | h
  · exact h
  · cases h

theorem ctx_sizes : Same (fun w => w.ctx) (frameSize >>= fun _ => renderSize) :=
  same_bind (same_frameSize.map fun p => p.1) fun _ => same_renderSize.map fun p => p.1

theorem raises_sizes : Raises [] (frameSize >>= fun _ => renderSize) :=
  raises_bind (raises_frameSize _) fun _ => raises_renderSize _

theorem Runs.then_run {m : Grammar α} {g : α → Grammar β} {fs : List BitField} {a : α} {c c1 : Context} {h h1 : Header}
    (hm : Runs s m fs a c h c1 h1) {p : Nat} (hp : s.codes p fs) :
    (m >>= g) (workAt s.port.reader p c h) = g a (workAt s.port.reader (p + bitsOf fs) c1 h1) := by
  rw [bind_run, hm p hp]

/-- A key frame up to its size. -/
theorem keyFrame_color {k : ColorCode} {p P : Nat} (hk : k.cause p = .none) (c : Context) {h : Header} (hh : h.profile = p)
    (hf : s.codes P ([(24, Config.syncCode)] ++ k.fields p)) :
    ∃ p1, keyFrame (workAt s.port.reader P c h) = (setHdr (fun h => { h with
        intraOnly := false, resetFrameContext := 0, refreshFrameFlags := refreshMask 0xFF }) >>= fun _ =>
        frameSize >>= fun _ => renderSize) (workAt s.port.reader p1 { c with color := k.config p } h) := by
  obtain ⟨hs, hc⟩ := State.codes_append.mp hf
  exact ⟨_, ((runs_syncCode c h).then_run hs).trans ((runs_colorConfig hk c hh).then_run hc)⟩

/-- An intra-only frame of profile 1 to 3 up to its refresh flags. -/
theorem intraBranch_color {k : ColorCode} {p P : Nat} (hp : 0 < p) (hk : k.cause p = .none) (c : Context) {h : Header}
    (hh : h.profile = p) (hf : s.codes P ([(24, Config.syncCode)] ++ k.fields p)) :
    ∃ p1, intraBranch (workAt s.port.reader P c h) = (refreshFlags >>= fun _ => frameSize >>= fun _ => renderSize)
      (workAt s.port.reader p1 { c with color := k.config p } h) := by
  obtain ⟨hs, hc⟩ := State.codes_append.mp hf
  have hi : Runs s intraColor (k.fields p) () c h { c with color := k.config p } h :=
    runs_bind0 (runs_getHdr c h) (runs_ite_pos (by omega) (runs_colorConfig hk c hh))
  exact ⟨_, ((runs_syncCode c h).then_run hs).trans (hi.then_run hc)⟩

/-- An inter frame up to its branch (R103). -/
theorem interFrame_branch {i b e : Bool} {v P : Nat} (c : Context) {h : Header} (hb : h.showFrame = b)
    (he : h.errorResilientMode = e) (hi : i = true → b = false) (hf : s.codes P (interLead b e i v)) :
    interFrame (workAt s.port.reader P c h) = (if i then intraBranch else interBranch)
      (workAt s.port.reader (P + bitsOf (interLead b e i v)) c
        { h with intraOnly := i, resetFrameContext := if e then 0 else v }) := by
  subst hb he
  obtain ⟨h1, h2⟩ := State.codes_append.mp hf
  have r1 := (runs_intraOnly (s := s) c hi).then_run (g := fun _ => resetFrameContext >>= fun _ => getHdr >>= fun h =>
    if h.intraOnly then intraBranch else interBranch) h1
  have r2 := (runs_resetFrameContext (s := s) v c { h with intraOnly := i }).then_run (g := fun _ => getHdr >>= fun h =>
    if h.intraOnly then intraBranch else interBranch) h2
  rw [show bitsOf (interLead h.showFrame h.errorResilientMode i v) = _ from bitsOf_append _ _, ← Nat.add_assoc]
  exact r1.trans r2

/-- Steps 1 to 4 and the colour configuration. -/
theorem color_run {q : ColorFront} {k : ColorCode} (hq : q.Legal) (hk : k.cause q.profile = .none)
    (hf : s.codes 0 (q.fields ++ k.fields q.profile)) :
    ∃ w0 w1, uncompressedHeader (startWork s) = fullHeader w0 ∧ frameType w0 = .ok () w1 ∧
      AfterColor w1 { s.inst.ctx with color := k.config q.profile } := by
  cases q with
  | key p b e =>
    simp only [ColorFront.fields, ColorFront.lead, ColorFront.profile, List.append_assoc] at hf hk ⊢
    obtain ⟨h1, hm⟩ := front_run hf
    obtain ⟨ht, hm⟩ := State.codes_append (xs := [flagField false, flagField b, flagField e]).mp hm
    obtain ⟨p1, hb⟩ := keyFrame_color (h := { Header.zero with
      profile := p, frameType := .key, showFrame := b, errorResilientMode := e }) hk s.inst.ctx rfl hm
    exact ⟨_, _, h1, runs_frameType false b e _ _ _ ht, ⟨_, _, hb, rfl, same_bind (same_setHdr fun _ => rfl) fun _ => ctx_sizes,
      raises_bind (raises_setHdr _ _) fun _ => raises_sizes⟩⟩
  | intra p e v =>
    simp only [ColorFront.fields, ColorFront.lead, ColorFront.profile, List.append_assoc] at hf hk ⊢
    obtain ⟨h1, hm⟩ := front_run hf
    obtain ⟨ht, hm⟩ := State.codes_append (xs := [flagField true, flagField false, flagField e]).mp hm
    obtain ⟨hl, hm⟩ := State.codes_append.mp hm
    have hi := interFrame_branch (h := { Header.zero with
      profile := p, frameType := .inter, showFrame := false, errorResilientMode := e }) s.inst.ctx rfl rfl (fun _ => rfl) hl
    obtain ⟨p1, hb⟩ := intraBranch_color (h := { Header.zero with
      profile := p, frameType := .inter, showFrame := false, errorResilientMode := e, intraOnly := true
      resetFrameContext := if e then 0 else v }) hq.1 hk s.inst.ctx rfl hm
    exact ⟨_, _, h1, runs_frameType true false e _ _ _ ht, ⟨_, _, hi.trans hb, rfl,
      same_bind (same_bind (same_receive (fun _ _ => rfl) _) fun _ => same_setHdr fun _ => rfl) fun _ => ctx_sizes,
      raises_bind (raises_refreshFlags _) fun _ => raises_sizes⟩⟩

/-- A colour configuration that passes its checks raises no cause of R100. -/
theorem color_not_raised {q : ColorFront} {k : ColorCode} (hq : q.Legal) (hk : k.cause q.profile = .none)
    (hf : s.codes 0 (q.fields ++ k.fields q.profile)) {e : Cause} {w : Work}
    (hu : uncompressedHeader (startWork s) = .error (.raised e) w) : e = .outOfData ∨ e = .zeroFirstPartition := by
  obtain ⟨w0, w1, h0, h1, hc⟩ := color_run hq hk hf
  rw [h0] at hu
  unfold fullHeader at hu
  rcases bind_error.mp hu with hu | ⟨_, w2, h2, hu⟩
  · rw [h1] at hu; cases hu
  rw [h1] at h2; cases h2
  rcases bind_error.mp hu with hu | ⟨_, w3, _, hu⟩
  · exact .inl (hc.error hu)
  · have := raises_tail _ _ _ hu
    simpa using this

/-- It is in force at the end of a completed frame, and its header reports it (R109). -/
theorem color_reported {q : ColorFront} {k : ColorCode} (hq : q.Legal) (hk : k.cause q.profile = .none)
    (hf : s.codes 0 (q.fields ++ k.fields q.profile)) {w : Work}
    (hu : uncompressedHeader (startWork s) = .ok () w) : w.ctx.color = k.config q.profile ∧ w.hdr.color = k.config q.profile := by
  obtain ⟨w0, w1, h0, h1, hc⟩ := color_run hq hk hf
  rw [h0] at hu
  obtain ⟨r⟩ := fullHeader_ok hu
  have ht : r.typed = w1 := by
    have := r.frameType
    rw [h1] at this
    cases this; rfl
  have hb := r.frameBranch
  rw [ht] at hb
  have := hc.ok hb
  exact ⟨by rw [r.color_framed, this], by rw [r.hdr_color, this]⟩

/-! ### Back from a failure to the fields the buffer codes -/

theorem State.codes_at {p q : Nat} {fs : List BitField} (h : s.codes p fs) (e : p = q) : s.codes q fs := e ▸ h

theorem flag_code {p : Nat} {c : Context} {h : Header} {b : Bool} {w : Work}
    (hw : flag (workAt s.port.reader p c h) = .ok b w) : s.codes p [flagField b] ∧ w = workAt s.port.reader (p + 1) c h := by
  obtain ⟨hb, _, rfl⟩ := flag_ok hw
  refine ⟨⟨?_, trivial⟩, rfl⟩
  unfold Reader.flagAt at hb
  split at hb
  · rename_i x hx
    have hx : s.port.reader.bit p = some x := hx
    have h1 := Reader.bit_le_one hx
    simp only [Option.some.injEq] at hb
    subst hb
    show s.port.reader.bitsFrom 1 p 0 = _
    simp only [Reader.bitsFrom, hx, flagField]
    have : x = 0 ∨ x = 1 := by omega
    rcases this with rfl | rfl <;> rfl
  · cases hb

theorem f_code {n p v : Nat} {c : Context} {h : Header} {w : Work} (hw : f n (workAt s.port.reader p c h) = .ok v w) :
    s.codes p [(n, v)] ∧ w = workAt s.port.reader (p + n) c h := by
  obtain ⟨hb, _, rfl⟩ := f_ok hw
  refine ⟨⟨?_, trivial⟩, rfl⟩
  rwa [workAt_br, Reader.bitsFrom_pos] at hb

/-- A completed step whose fields are known: where it ends. -/
theorem Runs.ends {m : Grammar α} {fs : List BitField} {a b : α} {c c1 : Context} {h h1 : Header}
    (hm : Runs s m fs a c h c1 h1) {p : Nat} (hp : s.codes p fs) {w : Work} (hw : m (workAt s.port.reader p c h) = .ok b w) :
    w = workAt s.port.reader (p + bitsOf fs) c1 h1 := by
  rw [hm p hp] at hw; cases hw; rfl

/-- The fields in front of a header that goes on (R94 to R96). -/
theorem front_fields {p : Nat} {w : Work} (hf : Front s p w) (hb : s.codes (2 + profileBits p) [flagField false]) :
    p ≤ 3 ∧ s.codes 0 (frontFields p) := by
  obtain ⟨lo, hi, hlo, hhi, rfl⟩ := hf.bits
  have l1 : lo < 2 := Reader.field_lt hlo
  have l2 : hi < 2 := Reader.field_lt hhi
  refine ⟨by omega, ?_⟩
  have e1 : (2 * hi + lo) % 2 = lo := by omega
  have e2 : (2 * hi + lo) / 2 = hi := by omega
  unfold frontFields
  rw [e1, e2]
  refine State.codes_append.mpr ⟨State.codes_append.mpr ⟨⟨hf.marker, hlo, hhi, trivial⟩, ?_⟩, ?_⟩
  · split
    · exact ⟨hf.zero ‹_›, trivial⟩
    · trivial
  · refine (?_ : s.codes _ [flagField false])
    unfold profileBits at hb
    by_cases h3 : 2 * hi + lo = 3
    · simpa [h3] using hb
    · simpa [h3] using hb

/-- A PARSE that fails after its first three steps starts with a marker, a profile and a show-existing flag of 0. -/
theorem front_codes {e : Cause} {w : Work} (hu : uncompressedHeader (startWork s) = .error (.raised e) w)
    (he : e ∉ [.badFrameMarker, .unsupportedProfile, .outOfData]) : ∃ p, p ≤ 3 ∧ s.codes 0 (frontFields p) := by
  simp only [List.mem_cons, List.not_mem_nil, or_false, not_or] at he
  unfold uncompressedHeader at hu
  rcases bind_error.mp hu with hu | ⟨⟨⟩, w1, h1, hu⟩
  · rcases raises_frameMarker _ _ _ hu with h | h
    · exact absurd h he.2.2
    · exact absurd (by simpa using h) he.1
  rcases bind_error.mp hu with hu | ⟨⟨⟩, w2, h2, hu⟩
  · rcases raises_profile _ _ _ hu with h | h
    · exact absurd h he.2.2
    · exact absurd (by simpa using h) he.2.1
  rcases bind_error.mp hu with hu | ⟨b, w3, h3, hu⟩
  · rcases raises_showExisting _ _ _ hu with h | h
    · exact absurd h he.2.2
    · cases h
  cases b with
  | true => cases hu
  | false =>
    obtain ⟨p, hf⟩ := front_ok h1 h2
    refine ⟨p, front_fields hf ?_⟩
    rw [hf.at_] at h3
    unfold showExisting at h3
    obtain ⟨x, w4, h4, h5⟩ := bind_ok.mp h3
    obtain ⟨hc, rfl⟩ := flag_code h4
    cases x with
    | false => exact hc
    | true =>
      obtain ⟨⟨⟩, w5, _, h5⟩ := bind_ok.mp h5
      obtain ⟨⟨⟩, w6, _, h5⟩ := bind_ok.mp h5
      cases h5

theorem typed_codes {p : Nat} {c : Context} {h : Header} {w : Work} (hw : frameType (workAt s.port.reader p c h) = .ok () w) :
    ∃ t b e, s.codes p [flagField t, flagField b, flagField e] ∧ w = workAt s.port.reader (p + 3) c
      { h with frameType := FrameType.ofFlag t, showFrame := b, errorResilientMode := e } := by
  have hw0 := hw
  unfold frameType at hw
  obtain ⟨t, w1, h1, hw⟩ := bind_ok.mp hw
  obtain ⟨c1, rfl⟩ := flag_code h1
  rw [setHdr_then] at hw
  obtain ⟨b, w2, h2, hw⟩ := bind_ok.mp hw
  obtain ⟨c2, rfl⟩ := flag_code h2
  rw [setHdr_then] at hw
  obtain ⟨e, w3, h3, hw⟩ := bind_ok.mp hw
  obtain ⟨c3, rfl⟩ := flag_code h3
  have hc : s.codes p [flagField t, flagField b, flagField e] := ⟨c1.1, c2.1, c3.1, trivial⟩
  exact ⟨t, b, e, hc, (runs_frameType t b e c h).ends hc hw0⟩

theorem frameBranch_key {r : Reader} {p : Nat} {c : Context} {h : Header} (ht : h.frameType = .key) :
    frameBranch (workAt r p c h) = keyFrame (workAt r p c h) := by
  show (if h.frameType = .key then keyFrame else interFrame) _ = _
  rw [if_pos ht]

theorem frameBranch_inter {r : Reader} {p : Nat} {c : Context} {h : Header} (ht : h.frameType = .inter) :
    frameBranch (workAt r p c h) = interFrame (workAt r p c h) := by
  show (if h.frameType = .key then keyFrame else interFrame) _ = _
  rw [if_neg (by rw [ht]; decide)]

/-- Steps 1 to 4 of a PARSE that fails in step 5 or 6. -/
theorem branch_codes {e : Cause} {w : Work} (hu : uncompressedHeader (startWork s) = .error (.raised e) w)
    (he : e ∉ [.badFrameMarker, .unsupportedProfile, .outOfData, .zeroFirstPartition]) :
    ∃ p t b r, p ≤ 3 ∧ s.codes 0 (frontFields p ++ [flagField t, flagField b, flagField r]) ∧
      (if t then interFrame else keyFrame) (workAt s.port.reader (bitsOf (frontFields p) + 3) s.inst.ctx { Header.zero with
        profile := p, frameType := FrameType.ofFlag t, showFrame := b, errorResilientMode := r }) = .error (.raised e) w := by
  simp only [List.mem_cons, List.not_mem_nil, or_false, not_or] at he
  obtain ⟨p, hp, hf⟩ := front_codes hu (by simp [he.1, he.2.1, he.2.2.1])
  obtain ⟨h1, _⟩ := front_run (fs := []) (by simpa using hf)
  rw [h1] at hu
  unfold fullHeader at hu
  rcases bind_error.mp hu with hu | ⟨⟨⟩, w1, h2, hu⟩
  · rcases raises_frameType _ _ _ hu with h | h
    · exact absurd h he.2.2.1
    · cases h
  obtain ⟨t, b, r, hc, rfl⟩ := typed_codes h2
  rcases bind_error.mp hu with hu | ⟨⟨⟩, w2, _, hu⟩
  · refine ⟨p, t, b, r, hp, State.codes_append.mpr ⟨hf, by simpa using hc⟩, ?_⟩
    cases t
    · rwa [frameBranch_key rfl] at hu
    · rwa [frameBranch_inter rfl] at hu
  · rcases raises_tail _ _ _ hu with h | h
    · exact absurd h he.2.2.1
    · exact absurd (by simpa using h) he.2.2.2

/-- The leading fields of an inter frame whose branch fails (R103). -/
theorem lead_codes {p : Nat} {c : Context} {h : Header} {e : Cause} {w : Work} (he : e ≠ .outOfData)
    (hw : interFrame (workAt s.port.reader p c h) = .error (.raised e) w) :
    ∃ i v, s.codes p (interLead h.showFrame h.errorResilientMode i v) ∧ (i = true → h.showFrame = false) ∧
      (if i then intraBranch else interBranch) (workAt s.port.reader (p + bitsOf (interLead h.showFrame h.errorResilientMode i v)) c
        { h with intraOnly := i, resetFrameContext := if h.errorResilientMode then 0 else v }) = .error (.raised e) w := by
  have hw0 := hw
  unfold interFrame at hw
  rcases bind_error.mp hw with hw | ⟨⟨⟩, w1, h1, hw⟩
  · rcases raises_intraOnly [] _ _ _ hw with h | h
    · exact absurd h he
    · cases h
  have c1 : ∃ i, s.codes p (if h.showFrame then [] else [flagField i]) ∧ (i = true → h.showFrame = false) := by
    by_cases hs : h.showFrame = true
    · exact ⟨false, by rw [if_pos hs]; trivial, fun h => by cases h⟩
    · unfold intraOnly at h1
      rw [getHdr_then, if_neg hs] at h1
      obtain ⟨i, w2, h2, _⟩ := bind_ok.mp h1
      exact ⟨i, by rw [if_neg hs]; exact (flag_code h2).1, fun _ => by simpa using hs⟩
  obtain ⟨i, c1, hi⟩ := c1
  obtain rfl := (runs_intraOnly c hi).ends c1 h1
  rcases bind_error.mp hw with hw | ⟨⟨⟩, w2, h2, hw⟩
  · rcases raises_resetFrameContext [] _ _ _ hw with h | h
    · exact absurd h he
    · cases h
  have c2 : ∃ v, s.codes (p + bitsOf (if h.showFrame then [] else [flagField i])) (if h.errorResilientMode then [] else [(2, v)]) := by
    by_cases hs : h.errorResilientMode = true
    · exact ⟨0, by rw [if_pos hs]; trivial⟩
    · unfold resetFrameContext at h2
      rw [getHdr_then, if_neg hs] at h2
      obtain ⟨v, w3, h3, _⟩ := bind_ok.mp h2
      exact ⟨v, by rw [if_neg hs]; exact (f_code h3).1⟩
  obtain ⟨v, c2⟩ := c2
  have hl : s.codes p (interLead h.showFrame h.errorResilientMode i v) := State.codes_append.mpr ⟨c1, c2⟩
  exact ⟨i, v, hl, hi, by rw [← interFrame_branch c rfl rfl hi hl]; exact hw0⟩

/-! ### Back from INVALID_REF_SLOT (R107) -/

theorem refEntry_code {i : Fin 3} {p : Nat} {c : Context} {h : Header} {w : Work}
    (hw : refEntry i (workAt s.port.reader p c h) = .ok () w) : ∃ slot bias, s.codes p [(3, slot), flagField bias] ∧
      w = workAt s.port.reader (p + 4) c
        { h with refFrameIdx := h.refFrameIdx.set i (slotOf slot), refSignBias := h.refSignBias.set i bias } := by
  have hw0 := hw
  unfold refEntry at hw
  obtain ⟨slot, w1, h1, hw⟩ := bind_ok.mp hw
  obtain ⟨c1, rfl⟩ := f_code h1
  rw [setHdr_then] at hw
  obtain ⟨bias, w2, h2, hw⟩ := bind_ok.mp hw
  obtain ⟨c2, rfl⟩ := flag_code h2
  have hc : s.codes p [(3, slot), flagField bias] := ⟨c1.1, c2.1, trivial⟩
  exact ⟨slot, bias, hc, (runs_refEntry i slot bias c h).ends hc hw0⟩

theorem refEntries_code {p : Nat} {c : Context} {h : Header} {w : Work}
    (hw : forEach refEntry [0, 1, 2] (workAt s.port.reader p c h) = .ok () w) : ∃ slots bias, s.codes p (refFields slots bias) ∧
      w = workAt s.port.reader (p + 12) c { h with refFrameIdx := slots.map slotOf, refSignBias := bias } := by
  have hw0 := hw
  simp only [forEach] at hw
  obtain ⟨⟨⟩, w1, h1, hw⟩ := bind_ok.mp hw
  obtain ⟨s0, b0, c0, rfl⟩ := refEntry_code h1
  obtain ⟨⟨⟩, w2, h2, hw⟩ := bind_ok.mp hw
  obtain ⟨s1, b1, c1, rfl⟩ := refEntry_code h2
  obtain ⟨⟨⟩, w3, h3, hw⟩ := bind_ok.mp hw
  obtain ⟨s2, b2, c2, rfl⟩ := refEntry_code h3
  have hc : s.codes p (refFields #v[s0, s1, s2] #v[b0, b1, b2]) := ⟨c0.1, c0.2.1, c1.1, c1.2.1, c2.1, c2.2.1, trivial⟩
  exact ⟨_, _, hc, (runs_refEntries _ _ c h).ends hc hw0⟩

/-- The flags up to the one that names an empty slot; `is` are the references still to come. -/
theorem sizeFlags_code {is : List (Fin 3)} {p : Nat} {c : Context} {h : Header} {w : Work}
    (hw : sizeFlags is (workAt s.port.reader p c h) = .error (.raised .invalidRefSlot) w) :
    ∃ pre i post, is = pre ++ i :: post ∧ s.codes p (List.replicate pre.length (1, 0) ++ [(1, 1)]) ∧
      (c.refs[h.refFrameIdx[i]]).valid = false := by
  induction is generalizing p h with
  | nil => cases hw
  | cons i is ih =>
    unfold sizeFlags at hw
    rcases bind_error.mp hw with hw | ⟨b, w1, h1, hw⟩
    · exact absurd ((raises_receive [] _) _ _ _ hw) (by simp)
    obtain ⟨c1, rfl⟩ := flag_code h1
    rw [setHdr_then] at hw
    cases b with
    | true =>
      refine ⟨[], i, is, rfl, c1, ?_⟩
      rw [if_pos rfl] at hw
      rcases bind_error.mp hw with hw | ⟨_, _, _, hw⟩
      · unfold copyRefSize at hw
        rw [getHdr_then, getCtx_then] at hw
        cases hv : (c.refs[h.refFrameIdx[i]]).valid with
        | false => rfl
        | true =>
          have : (whenTrue (!(c.refs[h.refFrameIdx[i]]).valid) (raise .invalidRefSlot)) = (pure () : Grammar Unit) := by
            rw [hv]; rfl
          rw [this] at hw
          cases hw
      · cases hw
    | false =>
      rw [if_neg (by simp)] at hw
      obtain ⟨pre, j, post, rfl, hc, hv⟩ := ih hw
      exact ⟨i :: pre, j, post, rfl, ⟨c1.1, hc⟩, hv⟩

theorem prefix_length {pre post : List (Fin 3)} {j : Fin 3} (h : [0, 1, 2] = pre ++ j :: post) : pre.length = j.val := by
  have h3 : pre.length < 3 := by
    have := congrArg List.length h
    simp at this; omega
  have hj : ([0, 1, 2] : List (Fin 3))[pre.length]? = some j := by rw [h]; simp
  generalize pre.length = n at h3 hj
  interval_cases n <;> (cases hj; rfl)

/-- INVALID_REF_SLOT: the buffer codes a size-from-reference flag of 1 whose reference names an empty slot. -/
theorem invalidSlot_codes {w : Work} (hu : uncompressedHeader (startWork s) = .error (.raised .invalidRefSlot) w) :
    ∃ q : RefSizeFront, s.codes 0 q.fields ∧ (q.slot s.inst.ctx).valid = false := by
  obtain ⟨p, t, b, e, hp, hc, hb⟩ := branch_codes hu (by decide)
  cases t with
  | false =>
    exact absurd (((raises_bind (C := .badSyncCode :: colorCauses) (raises_syncCode.mono (by decide)) fun _ =>
      raises_afterSync_key.mono (by decide)) _ _ _ hb)) (by decide)
  | true =>
    obtain ⟨i, v, hl, hi, hb⟩ := lead_codes (by decide) hb
    cases i with
    | true =>
      rw [if_pos rfl] at hb
      exact absurd (((raises_bind (C := .badSyncCode :: colorCauses) (raises_syncCode.mono (by decide)) fun _ =>
        raises_afterSync_intra.mono (by decide)) _ _ _ hb)) (by decide)
    | false =>
      rw [if_neg (by simp)] at hb
      unfold interBranch at hb
      rcases bind_error.mp hb with hb | ⟨⟨⟩, w1, h1, hb⟩
      · exact absurd ((raises_refreshFlags [] _ _ _ hb)) (by simp)
      unfold refreshFlags at h1
      obtain ⟨m, w2, h2, h1⟩ := bind_ok.mp h1
      obtain ⟨hm, rfl⟩ := f_code h2
      rw [setHdr_at] at h1
      cases h1
      rcases bind_error.mp hb with hb | ⟨⟨⟩, w1, h1, hb⟩
      · refine absurd ((raises_forEach (C := []) (fun i => ?_) _) _ _ _ hb) (by simp)
        exact raises_bind (raises_receive _ _) fun _ => raises_bind (raises_setHdr _ _) fun _ =>
          raises_bind (raises_receive _ _) fun _ => raises_setHdr _ _
      obtain ⟨slots, bias, hs, rfl⟩ := refEntries_code h1
      have hz : sizeFlags [0, 1, 2] (workAt s.port.reader (bitsOf (frontFields p) + 3 + bitsOf (interLead b e false v) + 8 + 12)
          s.inst.ctx { Header.zero with
            profile := p, frameType := .inter, showFrame := b, errorResilientMode := e, intraOnly := false
            resetFrameContext := if e then 0 else v, refreshFrameFlags := refreshMask m, refFrameIdx := slots.map slotOf
            refSignBias := bias }) = .error (.raised .invalidRefSlot) w := by
        rcases bind_error.mp hb with hb | ⟨_, _, _, hb⟩
        · rcases bind_error.mp hb with hb | ⟨_, _, _, hb⟩
          · exact hb
          · exact absurd ((raises_bind (raises_whenTrue (raises_frameSize [])) fun _ => raises_renderSize []) _ _ _ hb) (by simp)
        · exact absurd ((raises_bind (raises_bind (raises_receive [] _) fun _ => raises_setHdr _ _) fun _ =>
            raises_bind (raises_receive [] _) fun _ => raises_ite (raises_setHdr _ _)
              (raises_bind (raises_receive _ _) fun _ => raises_setHdr _ _)) _ _ _ hb) (by simp)
      obtain ⟨pre, j, post, he, hf, hv⟩ := sizeFlags_code hz
      have hj := prefix_length he
      refine ⟨{ profile := p, showFrame := b, resilient := e, reset := v, refresh := m, slots := slots, signBias := bias, ref := j },
        ?_, by simpa [RefSizeFront.slot] using hv⟩
      rw [hj] at hf
      have hm' : s.codes (bitsOf (frontFields p) + 3 + bitsOf (interLead b e false v)) [(8, m)] := hm
      have hs' : s.codes (bitsOf (frontFields p) + 3 + bitsOf (interLead b e false v) + 8) (refFields slots bias) := hs
      have h12 : bitsOf (refFields slots bias) = 12 := rfl
      simp only [RefSizeFront.fields, foundFields, State.codes_append, bitsOf_append, h12, bitsOf_cons, bitsOf_nil, flagField] at *
      simp only [Nat.zero_add, Nat.add_zero, Nat.reduceAdd, ← Nat.add_assoc] at *
      exact ⟨⟨⟨⟨⟨hc.1, hc.2⟩, hl⟩, hm'⟩, hs'⟩, hf⟩

/-! ### Back from a colour cause (R100) -/

theorem colorReserved_code {p : Nat} {c : Context} {h : Header} {e : Cause} {w : Work} (he : e ≠ .outOfData)
    (hw : colorReserved (workAt s.port.reader p c h) = .error (.raised e) w) :
    s.codes p [flagField true] ∧ e = .reservedBitSet := by
  unfold colorReserved at hw
  rcases bind_error.mp hw with hw | ⟨r, w1, h1, hw⟩
  · exact absurd ((raises_receive [] _) _ _ _ hw) (by simp [he])
  cases r with
  | false => cases hw
  | true => cases hw; exact ⟨(flag_code h1).1, rfl⟩

/-- A colour configuration that fails: the values the buffer codes. -/
theorem colorConfig_code {p P : Nat} {c : Context} {h : Header} {e : Cause} {w : Work} (he : e ≠ .outOfData)
    (hh : h.profile = p) (hw : colorConfig (workAt s.port.reader P c h) = .error (.raised e) w) :
    ∃ k : ColorCode, s.codes P (k.fields p) ∧ k.cause p = e := by
  unfold colorConfig at hw
  rw [getHdr_then, hh] at hw
  rcases bind_error.mp hw with hw | ⟨⟨⟩, w1, h1, hw⟩
  · exact absurd ((raises_bitDepth [] _) _ _ _ hw) (by simp [he])
  have hd : ∃ t, s.codes P (if 2 ≤ p then [flagField t] else []) := by
    by_cases hp : 2 ≤ p
    · unfold bitDepth at h1
      rw [if_pos hp] at h1
      obtain ⟨t, w2, h2, _⟩ := bind_ok.mp h1
      exact ⟨t, by rw [if_pos hp]; exact (flag_code h2).1⟩
    · exact ⟨false, by rw [if_neg hp]; trivial⟩
  obtain ⟨t, ht⟩ := hd
  obtain rfl := (runs_bitDepth ⟨t, 0, false, false, false, false⟩ p c h).ends ht h1
  rcases bind_error.mp hw with hw | ⟨cs, w2, h2, hw⟩
  · exact absurd ((raises_receive [] _) _ _ _ hw) (by simp [he])
  obtain ⟨hcs, rfl⟩ := f_code h2
  have h8 : cs < 8 := Reader.field_lt hcs.1
  unfold setColor at hw
  rw [setCtx_then] at hw
  have put : ∀ (k : ColorCode) (fs : List BitField), k.twelve = t → k.space = cs →
      s.codes (P + bitsOf (if 2 ≤ p then [flagField t] else []) + 3) fs →
      k.fields p = (if 2 ≤ p then [flagField t] else []) ++ [(3, cs)] ++ fs → s.codes P (k.fields p) := by
    rintro k fs rfl rfl hf hk
    rw [hk]
    refine State.codes_append.mpr ⟨State.codes_append.mpr ⟨ht, hcs⟩, ?_⟩
    rw [bitsOf_append, ← Nat.add_assoc]
    exact hf
  by_cases h7 : cs = 7
  · rw [if_pos ((ColorSpace.ofCode_srgb h8).mpr h7)] at hw
    unfold srgbColor setColor at hw
    rw [setCtx_then] at hw
    by_cases hs : subsampled p
    · rw [if_pos (by simpa [codesSubsampling_eq] using hs), setCtx_then] at hw
      obtain ⟨hr, rfl⟩ := colorReserved_code he hw
      exact ⟨⟨t, cs, false, false, false, true⟩, put _ _ rfl rfl hr (by simp [ColorCode.fields, h7, hs]), by
        simp [ColorCode.cause, h7, hs]⟩
    · rw [if_neg (by simpa [codesSubsampling_eq] using hs)] at hw
      cases hw
      exact ⟨⟨t, cs, false, false, false, false⟩, put _ [] rfl rfl trivial (by simp [ColorCode.fields, h7, hs]), by
        simp [ColorCode.cause, h7, hs]⟩
  · rw [if_neg (fun h => h7 ((ColorSpace.ofCode_srgb h8).mp h))] at hw
    unfold yuvColor at hw
    rcases bind_error.mp hw with hw | ⟨r, w2, h2, hw⟩
    · exact absurd ((raises_receive [] _) _ _ _ hw) (by simp [he])
    obtain ⟨hr, rfl⟩ := flag_code h2
    unfold setColor at hw
    rw [setCtx_then] at hw
    unfold subsampling at hw
    by_cases hs : subsampled p
    · rw [if_pos (by simpa [codesSubsampling_eq] using hs)] at hw
      rcases bind_error.mp hw with hw | ⟨x, w3, h3, hw⟩
      · exact absurd ((raises_receive [] _) _ _ _ hw) (by simp [he])
      obtain ⟨hx, rfl⟩ := flag_code h3
      unfold setColor at hw
      rw [setCtx_then] at hw
      rcases bind_error.mp hw with hw | ⟨y, w4, h4, hw⟩
      · exact absurd ((raises_receive [] _) _ _ _ hw) (by simp [he])
      obtain ⟨hy, rfl⟩ := flag_code h4
      rw [setCtx_then] at hw
      by_cases hxy : x = true ∧ y = true
      · obtain ⟨rfl, rfl⟩ := hxy
        cases hw
        exact ⟨⟨t, cs, r, true, true, false⟩, put _ [flagField r, flagField true, flagField true] rfl rfl
          ⟨hr.1, hx.1, hy.1, trivial⟩ (by simp [ColorCode.fields, h7, hs]), by simp [ColorCode.cause, h7, hs]⟩
      · have hn : (x && y) = false := by simpa using hxy
        rw [hn, whenTrue_false, pure_then] at hw
        obtain ⟨hz, rfl⟩ := colorReserved_code he hw
        exact ⟨⟨t, cs, r, x, y, true⟩, put _ [flagField r, flagField x, flagField y, flagField true] rfl rfl
          ⟨hr.1, hx.1, hy.1, hz.1, trivial⟩ (by simp [ColorCode.fields, h7, hs, hxy]), by
          simp [ColorCode.cause, h7, hs, hxy]⟩
    · rw [if_neg (by simpa [codesSubsampling_eq] using hs)] at hw
      cases hw

theorem syncCode_code {p : Nat} {c : Context} {h : Header} {w : Work} (hw : syncCode (workAt s.port.reader p c h) = .ok () w) :
    s.codes p [(24, Config.syncCode)] ∧ w = workAt s.port.reader (p + 24) c h := by
  unfold syncCode at hw
  obtain ⟨v, w1, h1, hw⟩ := bind_ok.mp hw
  obtain ⟨hc, rfl⟩ := f_code h1
  by_cases hv : v = Config.syncCode
  · subst hv; cases hw; exact ⟨hc, rfl⟩
  · have : (v != Config.syncCode) = true := by simpa using hv
    rw [this] at hw
    cases hw

/-- A cause of R100: the buffer codes a colour configuration that fails so. -/
theorem color_codes {e : Cause} {w : Work} (he : e ∈ colorCauses)
    (hu : uncompressedHeader (startWork s) = .error (.raised e) w) :
    ∃ (q : ColorFront) (k : ColorCode), q.Legal ∧ s.codes 0 (q.fields ++ k.fields q.profile) ∧ k.cause q.profile = e := by
  have hne : e ≠ .outOfData ∧ e ≠ .badSyncCode ∧ e ∉ [.badFrameMarker, .unsupportedProfile, .outOfData, .zeroFirstPartition] ∧
      e ∉ [.outOfData, .invalidRefSlot] := by
    simp only [colorCauses, List.mem_cons, List.not_mem_nil, or_false] at he
    rcases he with rfl | rfl | rfl <;> decide
  obtain ⟨hd, hy, hb4, hb7⟩ := hne
  obtain ⟨p, t, b, r, hp, hc, hb⟩ := branch_codes hu hb4
  obtain ⟨hf, ht⟩ := State.codes_append.mp hc
  have sync : ∀ {m : Grammar Unit} {P : Nat} {h : Header},
      (syncCode >>= fun _ => m) (workAt s.port.reader P s.inst.ctx h) = .error (.raised e) w →
      s.codes P [(24, Config.syncCode)] ∧ m (workAt s.port.reader (P + 24) s.inst.ctx h) = .error (.raised e) w := by
    intro m P h hm
    rcases bind_error.mp hm with hm | ⟨⟨⟩, w1, h1, hm⟩
    · exact absurd (raises_syncCode _ _ _ hm) (by simp [hd, hy])
    · obtain ⟨h2, rfl⟩ := syncCode_code h1
      exact ⟨h2, hm⟩
  cases t with
  | false =>
    obtain ⟨hs, hb⟩ := sync hb
    rcases bind_error.mp hb with hb | ⟨⟨⟩, w1, _, hb⟩
    · obtain ⟨k, hk, hcause⟩ := colorConfig_code (p := p) hd rfl hb
      refine ⟨.key p b r, k, hp, ?_, hcause⟩
      simp only [ColorFront.fields, ColorFront.lead, ColorFront.profile]
      refine State.codes_append.mpr ⟨State.codes_append.mpr ⟨hc, ?_⟩, ?_⟩
      · exact State.codes_at hs (by simp [flagField])
      · exact State.codes_at hk (by simp [flagField])
    · exact absurd ((raises_bind (raises_setHdr [] _) fun _ => raises_sizes) _ _ _ hb) (by simp [hd])
  | true =>
    obtain ⟨i, v, hl, hi, hb⟩ := lead_codes hd hb
    cases i with
    | false =>
      exact absurd (raises_interBranch _ _ _ hb) (by simpa using hb7)
    | true =>
      have hb0 : b = false := hi rfl
      subst hb0
      obtain ⟨hs, hb⟩ := sync hb
      rcases bind_error.mp hb with hb | ⟨⟨⟩, w1, _, hb⟩
      · unfold intraColor at hb
        rw [getHdr_then] at hb
        by_cases hp0 : 0 < p
        · rw [if_pos hp0] at hb
          obtain ⟨k, hk, hcause⟩ := colorConfig_code (p := p) hd rfl hb
          refine ⟨.intra p r v, k, ⟨hp0, hp⟩, ?_, hcause⟩
          simp only [ColorFront.fields, ColorFront.lead, ColorFront.profile]
          refine State.codes_append.mpr ⟨State.codes_append.mpr ⟨State.codes_append.mpr ⟨hc, ?_⟩, ?_⟩, ?_⟩
          · exact State.codes_at hl (by simp [flagField])
          · exact State.codes_at hs (by simp [flagField]; omega)
          · exact State.codes_at hk (by simp [flagField]; omega)
        · rw [if_neg hp0] at hb
          cases hb
      · exact absurd ((raises_bind (raises_refreshFlags []) fun _ => raises_sizes) _ _ _ hb) (by simp [hd])

/-! ### A size taken from a slot that holds a frame (R107) -/

/-- The inter branch then raises nothing. -/
theorem interBranch_valid {m P : Nat} {slots : Vector Nat 3} {bias : Vector Bool 3} {i : Fin 3} {c : Context} {h : Header}
    (hz : h.sizeFromRef = #v[false, false, false]) (hv : (c.refs[slotOf slots[i]]).valid = true)
    (hf : s.codes P ([(8, m)] ++ (refFields slots bias ++ foundFields i))) {e : Cause} {w : Work}
    (hu : interBranch (workAt s.port.reader P c h) = .error (.raised e) w) : e = .outOfData := by
  obtain ⟨h8, hf⟩ := State.codes_append.mp hf
  obtain ⟨hr, hf⟩ := State.codes_append.mp hf
  unfold interBranch at hu
  rw [(runs_refreshFlags m c h).then_run h8] at hu
  generalize hh : ({ h with refreshFrameFlags := refreshMask m } : Header) = h1 at hu
  rw [(runs_refEntries slots bias c h1).then_run hr] at hu
  have hz2 : ({ h1 with refFrameIdx := slots.map slotOf, refSignBias := bias } : Header).sizeFromRef = #v[false, false, false] := by
    rw [← hh]; exact hz
  have hi2 : ({ h1 with refFrameIdx := slots.map slotOf, refSignBias := bias } : Header).refFrameIdx = slots.map slotOf := rfl
  generalize ({ h1 with refFrameIdx := slots.map slotOf, refSignBias := bias } : Header) = h2 at hu hz2 hi2
  have hs := runs_sizeFlags_from (s := s) i hz2 (c := c) (slot := c.refs[slotOf slots[i]]) (by simp [hi2]) hv
  have late : Raises [] (highPrecisionMv >>= fun _ => interpFilter) :=
    raises_bind (raises_bind (raises_receive [] _) fun _ => raises_setHdr _ _) fun _ =>
      raises_bind (raises_receive [] _) fun _ => raises_ite (raises_setHdr _ _)
        (raises_bind (raises_receive _ _) fun _ => raises_setHdr _ _)
  rcases bind_error.mp hu with hu | ⟨⟨⟩, w2, _, hu⟩
  · unfold sizeWithRefs at hu
    rw [hs.then_run hf] at hu
    simpa using (raises_bind (raises_whenTrue (raises_frameSize [])) fun _ => raises_renderSize []) _ _ _ hu
  · simpa using late _ _ _ hu

/-- Such a PARSE does not end in INVALID_REF_SLOT. -/
theorem refSize_not_invalid {q : RefSizeFront} (hv : (q.slot s.inst.ctx).valid = true) (hf : s.codes 0 q.fields) {w : Work} :
    uncompressedHeader (startWork s) ≠ .error (.raised .invalidRefSlot) w := by
  intro hu
  obtain ⟨p, b, e, v, m, slots, bias, i⟩ := q
  simp only [RefSizeFront.fields, List.append_assoc] at hf
  obtain ⟨h1, hm⟩ := front_run hf
  obtain ⟨ht, hm⟩ := State.codes_append (xs := [flagField true, flagField b, flagField e]).mp hm
  obtain ⟨hl, hm⟩ := State.codes_append.mp hm
  rw [h1] at hu
  unfold fullHeader at hu
  rw [(runs_frameType true b e _ _).then_run ht] at hu
  rcases bind_error.mp hu with hu | ⟨⟨⟩, w1, _, hu⟩
  · rw [frameBranch_inter rfl, interFrame_branch (i := false) (b := b) (e := e) _ rfl rfl (fun h => by cases h) hl,
      if_neg (by simp)] at hu
    exact absurd (interBranch_valid (i := i) (by rfl) hv hm hu) (by decide)
  · exact absurd (raises_tail _ _ _ hu) (by simp)

/-! ### Back from ZERO_FIRST_PARTITION (R124) -/

theorem raises_beforeSize : Raises frameCauses beforeSize :=
  raises_bind (raises_frameType.mono (by decide)) fun _ => raises_bind raises_frameBranch fun _ =>
    raises_bind (raises_colorCopy _) fun _ => raises_bind (raises_ctxFlags _) fun _ =>
    raises_bind (raises_pastIndependence _) fun _ => raises_bind (raises_loopFilterParams _) fun _ =>
    raises_bind (raises_quantizationParams _) fun _ => raises_bind (raises_segmentationParams _) fun _ => raises_tileInfo _

/-- The last 16 bits read are 0. -/
theorem zeroPartition_code {w : Work} (hu : uncompressedHeader (startWork s) = .error (.raised .zeroFirstPartition) w) :
    16 ≤ w.br.pos ∧ w.br.bitsFrom 16 (w.br.pos - 16) 0 = some 0 := by
  obtain ⟨p, _, hf⟩ := front_codes hu (by decide)
  obtain ⟨h1, _⟩ := front_run (fs := []) (by simpa using hf)
  rw [h1, fullHeader_eq] at hu
  rcases bind_error.mp hu with hu | ⟨⟨⟩, w1, _, hu⟩
  · exact absurd (raises_beforeSize _ _ _ hu) (by decide)
  rcases bind_error.mp hu with hu | ⟨_, _, _, hu⟩
  · unfold headerSize at hu
    rcases bind_error.mp hu with hu | ⟨v, w2, h2, hu⟩
    · exact absurd ((raises_receive [] _) _ _ _ hu) (by simp)
    obtain ⟨hv, _, rfl⟩ := f_ok h2
    rw [bind_run, setHdr_run] at hu
    simp only at hu
    by_cases h0 : v = 0
    · subst h0
      cases hu
      exact ⟨by simp, by simpa [Reader.bitsFrom_pos] using hv⟩
    · have : (v == 0) = false := by simpa using h0
      rw [this] at hu
      cases hu
  · cases hu

end Sys2Proof.Machine
end

