-- ==== Sys2Proof/Laws/CodedBack.lean ====
section
/-! SUPPORT. Back from a completed frame to what the buffer codes: every whole header that parses is a `CodedFrame` the buffer codes and
the rules let through. `Coded s m F` says that wherever `m` completes it has read `F x` for some `x`; it composes along sequences. -/

namespace Sys2Proof.Machine

variable {α β X Y Z : Type} {s : State}

/-- A step on the caller's buffer that completes has read the fields `F x` of some value `x`. -/
def Coded (s : State) (m : Grammar α) (F : X → List BitField) : Prop :=
  ∀ (w : Work) (a : α) (w' : Work) (p : Nat), w.br = { s.port.reader with pos := p } → m w = .ok a w' →
    ∃ x, s.codes p (F x) ∧ w'.br = { s.port.reader with pos := p + bitsOf (F x) }

theorem Coded.map {m : Grammar α} {F : X → List BitField} {G : Y → List BitField} (h : Coded s m F) (g : X → Y)
    (hg : ∀ x, F x = G (g x)) : Coded s m G := fun w a w' p hw hm => by
  obtain ⟨x, hx⟩ := h w a w' p hw hm
  exact ⟨g x, by rwa [← hg x]⟩

theorem coded_bind {m : Grammar α} {k : α → Grammar β} {F : X → List BitField} {G : Y → List BitField} (hm : Coded s m F)
    (hk : ∀ a, Coded s (k a) G) : Coded s (m >>= k) fun x : X × Y => F x.1 ++ G x.2 := fun w b w' p hw h => by
  obtain ⟨a, w1, h1, h2⟩ := bind_ok.mp h
  obtain ⟨x, hx, hw1⟩ := hm w a w1 p hw h1
  obtain ⟨y, hy, hw2⟩ := hk a w1 b w' _ hw1 h2
  exact ⟨(x, y), State.codes_append.mpr ⟨hx, hy⟩, by rw [hw2, bitsOf_append, Nat.add_assoc]⟩

/-- A step that leaves the reader alone. -/
theorem coded_quiet {m : Grammar α} (h : ∀ w a w', m w = .ok a w' → w'.br = w.br) : Coded s m fun _ : Unit => [] :=
  fun w a w' p hw hm => ⟨(), trivial, by rw [h w a w' hm, hw]; rfl⟩

theorem coded_pure (a : α) : Coded s (pure a) fun _ : Unit => [] := coded_quiet fun _ _ _ h => by cases h; rfl

/-- A first part that leaves the reader alone. -/
theorem coded_after {m : Grammar α} {k : α → Grammar β} {G : Y → List BitField} (hm : ∀ w a w', m w = .ok a w' → w'.br = w.br)
    (hk : ∀ a, Coded s (k a) G) : Coded s (m >>= k) G := (coded_bind (coded_quiet hm) hk).map Prod.snd fun _ => rfl

theorem br_setHdr {g : Header → Header} (w : Work) (a : Unit) (w' : Work) (h : setHdr g w = .ok a w') : w'.br = w.br := by
  cases h; rfl

theorem br_setCtx {g : Context → Context} (w : Work) (a : Unit) (w' : Work) (h : setCtx g w = .ok a w') : w'.br = w.br := by
  cases h; rfl

/-- The same step followed by one that leaves the reader alone. -/
theorem Coded.then {m : Grammar α} {k : α → Grammar β} {F : X → List BitField} (hm : Coded s m F)
    (hk : ∀ a w b w', k a w = .ok b w' → w'.br = w.br) : Coded s (m >>= k) F :=
  (coded_bind hm fun a => coded_quiet (hk a)).map Prod.fst fun _ => List.append_nil _

theorem workAt_of_br {w : Work} {r : Reader} {p : Nat} (h : w.br = { r with pos := p }) : w = workAt r p w.ctx w.hdr := by
  cases w; simp only at h; subst h; rfl

theorem coded_flag : Coded s flag fun b => [flagField b] := fun w b w' p hw h => by
  rw [workAt_of_br hw] at h
  obtain ⟨hc, rfl⟩ := flag_code h
  exact ⟨b, hc, rfl⟩

theorem coded_f (n : Nat) : Coded s (f n) fun v => [(n, v)] := fun w v w' p hw h => by
  rw [workAt_of_br hw] at h
  obtain ⟨hc, rfl⟩ := f_code h
  exact ⟨v, hc, rfl⟩

theorem coded_su (n : Nat) : Coded s (su n) (CodedSigned.fields n) := fun w v w' p hw h => by
  obtain ⟨hv, _, rfl⟩ := su_ok h
  rw [hw] at hv
  simp only [Reader.signedAt, Reader.bitsFrom_pos, Reader.bit_pos] at hv
  split at hv
  · rename_i m b hm hb
    have hb1 := Reader.bit_le_one hb
    have hf : s.bufferField (p + n) 1 = some b := by
      show s.port.reader.bitsFrom 1 (p + n) 0 = _
      simp [Reader.bitsFrom, hb]
    refine ⟨⟨m, decide (b = 1)⟩, ⟨hm, ?_, trivial⟩, by simp [CodedSigned.fields, flagField, hw]⟩
    obtain rfl | rfl : b = 0 ∨ b = 1 := by omega
    · exact hf
    · exact hf
  · cases hv

/-- A flag that selects what follows. -/
theorem coded_choice {k : Bool → Grammar β} {F : X → List BitField} {G : Y → List BitField} {H : Z → List BitField}
    (h0 : Coded s (k false) F) (h1 : Coded s (k true) G) (g0 : X → Z) (g1 : Y → Z) (e0 : ∀ x, flagField false :: F x = H (g0 x))
    (e1 : ∀ y, flagField true :: G y = H (g1 y)) : Coded s (flag >>= k) H := fun w b w' p hw h => by
  obtain ⟨a, w1, hf, h⟩ := bind_ok.mp h
  rw [workAt_of_br hw] at hf
  obtain ⟨hc, rfl⟩ := flag_code hf
  cases a with
  | false =>
    obtain ⟨x, hx, hw1⟩ := h0 _ _ _ (p + 1) rfl h
    exact ⟨g0 x, by rw [← e0]; exact ⟨hc.1, hx⟩, by rw [hw1, ← e0, bitsOf_cons, ← Nat.add_assoc]; rfl⟩
  | true =>
    obtain ⟨x, hx, hw1⟩ := h1 _ _ _ (p + 1) rfl h
    exact ⟨g1 x, by rw [← e1]; exact ⟨hc.1, hx⟩, by rw [hw1, ← e1, bitsOf_cons, ← Nat.add_assoc]; rfl⟩

/-- A flag that says whether a value follows (R63). -/
theorem coded_optional {k : Bool → Grammar β} {F : X → List BitField} (h0 : Coded s (k false) fun _ : Unit => [])
    (h1 : Coded s (k true) F) : Coded s (flag >>= k) (optionalFields F) :=
  coded_choice h0 h1 (fun _ => none) some (fun _ => rfl) fun _ => rfl

theorem coded_guarded {read : Grammar α} {F : X → List BitField} {d : α} (h : Coded s read F) :
    Coded s (guarded read d) (optionalFields F) :=
  coded_optional ((coded_pure d).then fun _ _ _ _ h => by cases h; rfl) (h.then fun _ _ _ _ h => by cases h; rfl)

/-- A loop without repeats: one value for each round. -/
theorem coded_forEach_list {ι : Type} [DecidableEq ι] [Inhabited X] {body : ι → Grammar Unit} {F : X → List BitField}
    (h : ∀ i, Coded s (body i) F) {is : List ι} (hn : is.Nodup) :
    Coded s (forEach body is) fun x : ι → X => is.flatMap fun i => F (x i) := by
  induction is with
  | nil => exact (coded_pure ()).map (fun _ _ => default) fun _ => rfl
  | cons i is ih =>
    obtain ⟨hi, hn⟩ := List.nodup_cons.mp hn
    refine (coded_bind (h i) fun _ => ih hn).map (fun x j => if j = i then x.1 else x.2 j) fun x => ?_
    have e : is.flatMap (fun j => F (if j = i then x.1 else x.2 j)) = is.flatMap fun j => F (x.2 j) :=
      List.flatMap_congr fun j hj => by
        have hji : j ≠ i := fun e => hi (e ▸ hj)
        rw [if_neg hji]
    simp only [List.flatMap_cons, if_true, e]

theorem coded_forEach {n : Nat} [Inhabited X] {body : Fin n → Grammar Unit} {F : X → List BitField}
    (h : ∀ i, Coded s (body i) F) {is : List (Fin n)} (hi : List.finRange n = is) :
    Coded s (forEach body is) fun v : Vector X n => v.toList.flatMap F := by
  subst hi
  refine (coded_forEach_list h (List.nodup_finRange n)).map Vector.ofFn fun x => ?_
  rw [toList_flatMap]
  simp

/-! ### Steps 8 to 10 and the sizes: nothing they read depends on a register -/

theorem coded_frameSize : Coded s frameSize fun v : Nat × Nat => sizeFields v.1 v.2 :=
  (coded_bind (coded_f 16) fun _ => coded_after br_setHdr fun _ => (coded_f 16).then fun _ => br_setHdr).map id fun _ => rfl

theorem coded_renderSize : Coded s renderSize (optionalFields fun v : Nat × Nat => sizeFields v.1 v.2) :=
  coded_optional (coded_quiet fun w a w' h => by cases h; rfl)
    (coded_after br_setHdr fun _ => (coded_bind (coded_f 16) fun _ => coded_after br_setHdr fun _ =>
      (coded_f 16).then fun _ => br_setHdr).map id fun _ => rfl)

theorem coded_lfUpdate : Coded s (flag >>= fun e => setLf (fun l => { l with modeRefDeltaEnabled := e }) >>= fun _ =>
    whenTrue e lfUpdate >>= fun _ => lfCopy) CodedDeltas.fields := by
  have one : ∀ {g : Header → Bool → Header} {k : Int → Context → Context}, Coded s (flag >>= fun b => setHdr (fun h => g h b) >>=
      fun _ => whenTrue b (su 6 >>= fun v => setCtx (k v))) (optionalFields (CodedSigned.fields 6)) := fun {g k} =>
    coded_optional (coded_quiet fun w a w' h => by cases h; rfl)
      (coded_after br_setHdr fun _ => (coded_su 6).then fun _ => br_setCtx)
  have : Inhabited CodedSigned := ⟨⟨0, false⟩⟩
  have both : Coded s lfDeltas fun x : Vector (Option CodedSigned) 4 × Vector (Option CodedSigned) 2 =>
      x.1.toList.flatMap (optionalFields (CodedSigned.fields 6)) ++ x.2.toList.flatMap (optionalFields (CodedSigned.fields 6)) :=
    coded_bind (coded_forEach (fun _ => one) rfl) fun _ => coded_forEach (fun _ => one) rfl
  have copy : ∀ w a w', lfCopy w = .ok a w' → w'.br = w.br := fun w a w' h => by cases h; rfl
  have update : Coded s lfUpdate (optionalFields fun x : Vector (Option CodedSigned) 4 × Vector (Option CodedSigned) 2 =>
      x.1.toList.flatMap (optionalFields (CodedSigned.fields 6)) ++ x.2.toList.flatMap (optionalFields (CodedSigned.fields 6))) :=
    coded_optional (coded_quiet fun w a w' h => by cases h; rfl) (coded_after br_setHdr fun _ => both)
  exact coded_choice (F := fun _ : Unit => []) (coded_quiet fun w a w' h => by cases h; rfl)
    (coded_after br_setHdr fun _ => update.then fun _ => copy) (fun _ => .disabled)
    (fun o => (o.map fun x => CodedDeltas.updated x.1 x.2).getD .kept) (fun _ => rfl) fun o => by cases o <;> rfl

theorem coded_loopFilterParams : Coded s loopFilterParams fun x : Nat × Nat × CodedDeltas =>
    [(6, x.1), (3, x.2.1)] ++ x.2.2.fields :=
  (coded_bind (coded_f 6) fun _ => coded_after br_setHdr fun _ => coded_bind (coded_f 3) fun _ => coded_after br_setHdr fun _ =>
    coded_lfUpdate).map id fun _ => rfl

theorem coded_quantDelta : Coded s quantDelta (optionalFields (CodedSigned.fields 4)) :=
  (coded_guarded (coded_su 4)).then fun _ _ _ _ h => by cases h; rfl

theorem coded_quantizationParams : Coded s quantizationParams
    fun x : Nat × Option CodedSigned × Option CodedSigned × Option CodedSigned =>
      [(8, x.1)] ++ (optionalFields (CodedSigned.fields 4) x.2.1 ++ (optionalFields (CodedSigned.fields 4) x.2.2.1 ++
        optionalFields (CodedSigned.fields 4) x.2.2.2)) :=
  coded_bind (coded_f 8) fun _ => coded_after br_setHdr fun _ => coded_bind coded_quantDelta fun _ => coded_after br_setHdr fun _ =>
    coded_bind coded_quantDelta fun _ => coded_after br_setHdr fun _ => coded_quantDelta.then fun _ w a w' h => by cases h; rfl

theorem coded_probability : Coded s probability probFields := coded_guarded (coded_f 8)

theorem coded_segMap : Coded s segMap CodedMap.fields := by
  have tree : Coded s (forEach treeProb [0, 1, 2, 3, 4, 5, 6]) fun v : Vector (Option Nat) 7 => v.toList.flatMap probFields :=
    coded_forEach (fun _ => coded_probability.then fun _ w a w' h => by cases h; rfl) rfl
  have pred : Coded s (forEach (fun i => if true = true then predProb i else predProbDefault i) [0, 1, 2])
      fun v : Vector (Option Nat) 3 => v.toList.flatMap probFields :=
    coded_forEach (fun _ => coded_probability.then fun _ w a w' h => by cases h; rfl) rfl
  exact (coded_bind tree fun _ => coded_optional (coded_quiet fun w a w' h => by cases h; rfl)
    (coded_after br_setHdr fun _ => pred)).map (fun x => ⟨x.1, x.2⟩) fun _ => rfl

theorem coded_segFeature (i : Fin 8) : Coded s (segFeature i) CodedFeature.fields := by
  have part : ∀ {α X : Type} {read : Grammar α} {F : X → List BitField} {d : α} {g1 : Bool → SegFeature → SegFeature}
      {g2 : α → SegFeature → SegFeature}, Coded s read F → Coded s (do
        let en ← flag
        setFeature i (g1 en)
        let v ← readIf en read d
        setFeature i (g2 v)) (optionalFields F) := fun h =>
    coded_optional (coded_quiet fun w a w' h => by cases h; rfl) (coded_after br_setCtx fun _ => h.then fun _ => br_setCtx)
  exact (coded_bind (part (coded_su 8)) fun _ => coded_bind (part (coded_su 6)) fun _ => coded_bind (part (coded_f 2)) fun _ =>
    coded_flag.then fun _ => br_setCtx).map (fun x => ⟨x.1, x.2.1, x.2.2.1, x.2.2.2⟩) fun _ => by
      simp [CodedFeature.fields]

theorem coded_segData : Coded s segData CodedData.fields := by
  have : Inhabited CodedFeature := ⟨⟨none, none, none, false⟩⟩
  exact (coded_bind coded_flag fun _ => coded_after br_setCtx fun _ => coded_forEach coded_segFeature rfl).map
    (fun x => ⟨x.1, x.2⟩) fun _ => rfl

theorem coded_segmentationParams : Coded s segmentationParams (optionalFields CodedSeg.fields) := by
  have up : Coded s segUpdates CodedSeg.fields := by
    have data : Coded s (flag >>= fun d => setSeg (fun g => { g with updateData := d }) >>= fun _ => whenTrue d segData)
        (optionalFields CodedData.fields) :=
      coded_optional (coded_quiet fun w a w' h => by cases h; rfl) (coded_after br_setHdr fun _ => coded_segData)
    refine (coded_choice (Z := Option CodedMap × Option CodedData)
      (H := fun x => optionalFields CodedMap.fields x.1 ++ optionalFields CodedData.fields x.2)
      (coded_after br_setHdr fun _ => coded_after (fun _ _ _ h => by cases h; rfl) fun _ => data)
      (coded_after br_setHdr fun _ => coded_bind coded_segMap fun _ => data) (fun d => (none, d)) (fun x => (some x.1, x.2))
      (fun _ => rfl) fun x => by simp [optionalFields]).map (fun x => ⟨x.1, x.2⟩) fun _ => rfl
  exact coded_optional (coded_quiet fun w a w' h => by cases h; rfl)
    (coded_after br_setHdr fun _ => up.then fun _ w a w' h => by cases h; rfl)

/-! ### The colour configuration and the frame-type branch -/

/-- A colour configuration that passes its checks (R100). -/
theorem colorConfig_read {p P : Nat} {c : Context} {h : Header} {w : Work} (hh : h.profile = p)
    (hw : colorConfig (workAt s.port.reader P c h) = .ok () w) :
    ∃ k : ColorCode, k.cause p = .none ∧ s.codes P (k.fields p) := by
  have reserved : ∀ {P : Nat} {c : Context} {w : Work}, colorReserved (workAt s.port.reader P c h) = .ok () w →
      s.codes P [flagField false] := fun {P c w} hr => by
    unfold colorReserved at hr
    obtain ⟨b, w1, h1, hr⟩ := bind_ok.mp hr
    cases b with
    | false => exact (flag_code h1).1
    | true => cases hr
  unfold colorConfig at hw
  rw [getHdr_then, hh] at hw
  obtain ⟨⟨⟩, w1, h1, hw⟩ := bind_ok.mp hw
  have hd : ∃ t, s.codes P (if 2 ≤ p then [flagField t] else []) := by
    by_cases hp : 2 ≤ p
    · unfold bitDepth at h1
      rw [if_pos hp] at h1
      obtain ⟨t, w2, h2, _⟩ := bind_ok.mp h1
      exact ⟨t, by rw [if_pos hp]; exact (flag_code h2).1⟩
    · exact ⟨false, by rw [if_neg hp]; trivial⟩
  obtain ⟨t, ht⟩ := hd
  obtain rfl := (runs_bitDepth ⟨t, 0, false, false, false, false⟩ p c h).ends ht h1
  obtain ⟨cs, w2, h2, hw⟩ := bind_ok.mp hw
  obtain ⟨hcs, rfl⟩ := f_code h2
  have h8 : cs < 8 := Reader.field_lt hcs.1
  unfold setColor at hw
  rw [setCtx_then] at hw
  have put : ∀ (k : ColorCode) (fs : List BitField), k.twelve = t → k.space = cs →
      s.codes (P + bitsOf (if 2 ≤ p then [flagField t] else []) + 3) fs →
      k.fields p = (if 2 ≤ p then [flagField t] else []) ++ [(3, cs)] ++ fs → s.codes P (k.fields p) := by
    rintro k fs rfl rfl hf hk
    rw [hk]
    refine State.codes_append.mpr ⟨State.codes_append.mpr ⟨ht, hcs⟩, ?_⟩
    rw [bitsOf_append, ← Nat.add_assoc]
    exact hf
  by_cases h7 : cs = 7
  · rw [if_pos ((ColorSpace.ofCode_srgb h8).mpr h7)] at hw
    unfold srgbColor setColor at hw
    rw [setCtx_then] at hw
    by_cases hs : subsampled p
    · rw [if_pos (by simpa [codesSubsampling_eq] using hs), setCtx_then] at hw
      exact ⟨⟨t, cs, false, false, false, false⟩, by simp [ColorCode.cause, h7, hs],
        put _ _ rfl rfl (reserved hw) (by simp [ColorCode.fields, h7, hs])⟩
    · rw [if_neg (by simpa [codesSubsampling_eq] using hs)] at hw
      cases hw
  · rw [if_neg (fun h => h7 ((ColorSpace.ofCode_srgb h8).mp h))] at hw
    unfold yuvColor at hw
    obtain ⟨r, w2, h2, hw⟩ := bind_ok.mp hw
    obtain ⟨hr, rfl⟩ := flag_code h2
    unfold setColor at hw
    rw [setCtx_then] at hw
    unfold subsampling at hw
    by_cases hs : subsampled p
    · rw [if_pos (by simpa [codesSubsampling_eq] using hs)] at hw
      obtain ⟨x, w3, h3, hw⟩ := bind_ok.mp hw
      obtain ⟨hx, rfl⟩ := flag_code h3
      unfold setColor at hw
      rw [setCtx_then] at hw
      obtain ⟨y, w4, h4, hw⟩ := bind_ok.mp hw
      obtain ⟨hy, rfl⟩ := flag_code h4
      rw [setCtx_then] at hw
      by_cases hxy : x = true ∧ y = true
      · obtain ⟨rfl, rfl⟩ := hxy
        cases hw
      · have hn : (x && y) = false := by simpa using hxy
        rw [hn, whenTrue_false, pure_then] at hw
        exact ⟨⟨t, cs, r, x, y, false⟩, by simp [ColorCode.cause, h7, hs, hxy],
          put _ [flagField r, flagField x, flagField y, flagField false] rfl rfl ⟨hr.1, hx.1, hy.1, reserved hw⟩
            (by simp [ColorCode.fields, h7, hs, hxy])⟩
    · exact ⟨⟨t, cs, r, false, false, false⟩, by simp [ColorCode.cause, h7, hs],
        put _ [flagField r] rfl rfl hr (by simp [ColorCode.fields, h7, hs])⟩

/-- The size-from-reference flags (R107), `is` the references still to come: none is 1, or the first that is names a slot that holds
a frame. -/
theorem sizeFlags_read {is : List (Fin 3)} {p : Nat} {c : Context} {h : Header} {b : Bool} {w : Work}
    (hw : sizeFlags is (workAt s.port.reader p c h) = .ok b w) :
    (b = false ∧ s.codes p (List.replicate is.length (1, 0)) ∧ w.br = { s.port.reader with pos := p + is.length }) ∨
    (b = true ∧ ∃ pre i post, is = pre ++ i :: post ∧ s.codes p (List.replicate pre.length (1, 0) ++ [(1, 1)]) ∧
      (c.refs[h.refFrameIdx[i]]).valid = true ∧ w.br = { s.port.reader with pos := p + (pre.length + 1) }) := by
  induction is generalizing p h with
  | nil => cases hw; exact .inl ⟨rfl, trivial, rfl⟩
  | cons i is ih =>
    unfold sizeFlags at hw
    obtain ⟨a, w1, h1, hw⟩ := bind_ok.mp hw
    obtain ⟨c1, rfl⟩ := flag_code h1
    rw [setHdr_then] at hw
    cases a with
    | true =>
      rw [if_pos rfl] at hw
      obtain ⟨⟨⟩, w2, h2, hw⟩ := bind_ok.mp hw
      cases hw
      unfold copyRefSize at h2
      rw [getHdr_then, getCtx_then] at h2
      cases hv : (c.refs[h.refFrameIdx[i]]).valid with
      | true =>
        have : (whenTrue (!(c.refs[h.refFrameIdx[i]]).valid) (raise .invalidRefSlot)) = (pure () : Grammar Unit) := by rw [hv]; rfl
        rw [this, pure_then] at h2
        cases h2
        exact .inr ⟨rfl, [], i, is, rfl, c1, hv, rfl⟩
      | false =>
        have : (whenTrue (!(c.refs[h.refFrameIdx[i]]).valid) (raise .invalidRefSlot)) = (raise .invalidRefSlot : Grammar Unit) := by
          rw [hv]; rfl
        rw [this] at h2
        cases h2
    | false =>
      rw [if_neg (by simp)] at hw
      rcases ih hw with ⟨rfl, hc, hb⟩ | ⟨rfl, pre, j, post, rfl, hc, hv, hb⟩
      · refine .inl ⟨rfl, ⟨c1.1, hc⟩, ?_⟩
        rw [hb, List.length_cons, Nat.add_assoc, Nat.add_comm 1]
      · refine .inr ⟨rfl, i :: pre, j, post, rfl, ⟨c1.1, hc⟩, hv, ?_⟩
        rw [hb, List.length_cons, Nat.add_assoc, Nat.add_comm 1 (pre.length + 1)]

/-- The size of a non-intra inter frame, with its render size (R107, R102). -/
theorem sizeWithRefs_read {p : Nat} {c : Context} {h : Header} {w : Work} {slots : Vector Nat 3}
    (hi : h.refFrameIdx = slots.map slotOf) (hw : sizeWithRefs (workAt s.port.reader p c h) = .ok () w) :
    ∃ (size : CodedSize) (r : Option (Nat × Nat)), size.Valid slots c ∧
      s.codes p (size.fields ++ optionalFields (fun v => sizeFields v.1 v.2) r) := by
  unfold sizeWithRefs at hw
  obtain ⟨found, w1, h1, hw⟩ := bind_ok.mp hw
  rcases sizeFlags_read h1 with ⟨rfl, hc, hb⟩ | ⟨rfl, pre, i, post, he, hc, hv, hb⟩
  · obtain ⟨x, hx, _⟩ := (coded_bind coded_frameSize fun _ => coded_renderSize) _ _ _ _ hb hw
    obtain ⟨⟨a, b⟩, r⟩ := x
    refine ⟨.own a b, r, trivial, ?_⟩
    rw [CodedSize.fields, List.append_assoc]
    exact State.codes_append.mpr ⟨hc, hx⟩
  · obtain ⟨r, hx, _⟩ := coded_renderSize _ _ _ _ hb hw
    have hj := prefix_length he
    rw [hj] at hc hx
    refine ⟨.fromRef i, r, by simpa [CodedSize.Valid, hi] using hv, State.codes_append.mpr ⟨hc, ?_⟩⟩
    refine State.codes_at hx ?_
    simp only [CodedSize.fields, foundFields, bitsOf_append, bitsOf_cons, bitsOf_nil]
    match i with
    | 0 => rfl
    | 1 => rfl
    | 2 => rfl

/-- The leading fields of an inter frame that completes (R103). -/
theorem lead_read {p : Nat} {c : Context} {h : Header} {w : Work}
    (hw : interFrame (workAt s.port.reader p c h) = .ok () w) :
    ∃ i v, s.codes p (interLead h.showFrame h.errorResilientMode i v) ∧ (i = true → h.showFrame = false) ∧
      (if i then intraBranch else interBranch) (workAt s.port.reader (p + bitsOf (interLead h.showFrame h.errorResilientMode i v)) c
        { h with intraOnly := i, resetFrameContext := if h.errorResilientMode then 0 else v }) = .ok () w := by
  have hw0 := hw
  unfold interFrame at hw
  obtain ⟨⟨⟩, w1, h1, hw⟩ := bind_ok.mp hw
  have c1 : ∃ i, s.codes p (if h.showFrame then [] else [flagField i]) ∧ (i = true → h.showFrame = false) := by
    by_cases hs : h.showFrame = true
    · exact ⟨false, by rw [if_pos hs]; trivial, fun h => by cases h⟩
    · unfold intraOnly at h1
      rw [getHdr_then, if_neg hs] at h1
      obtain ⟨i, w2, h2, _⟩ := bind_ok.mp h1
      exact ⟨i, by rw [if_neg hs]; exact (flag_code h2).1, fun _ => by simpa using hs⟩
  obtain ⟨i, c1, hi⟩ := c1
  obtain rfl := (runs_intraOnly c hi).ends c1 h1
  obtain ⟨⟨⟩, w2, h2, hw⟩ := bind_ok.mp hw
  have c2 : ∃ v, s.codes (p + bitsOf (if h.showFrame then [] else [flagField i])) (if h.errorResilientMode then [] else [(2, v)]) := by
    by_cases hs : h.errorResilientMode = true
    · exact ⟨0, by rw [if_pos hs]; trivial⟩
    · unfold resetFrameContext at h2
      rw [getHdr_then, if_neg hs] at h2
      obtain ⟨v, w3, h3, _⟩ := bind_ok.mp h2
      exact ⟨v, by rw [if_neg hs]; exact (f_code h3).1⟩
  obtain ⟨v, c2⟩ := c2
  have hl : s.codes p (interLead h.showFrame h.errorResilientMode i v) := State.codes_append.mpr ⟨c1, c2⟩
  exact ⟨i, v, hl, hi, by rw [← interFrame_branch c rfl rfl hi hl]; exact hw0⟩

/-- The filter (R108). -/
theorem coded_interpFilter : Coded s interpFilter filterCode :=
  coded_choice (G := fun _ : Unit => []) ((coded_f 2).then fun _ => br_setHdr) (coded_quiet fun w a w' h => by cases h; rfl) some
    (fun _ => none)
    (fun _ => rfl) fun _ => rfl

/-- A frame that codes nothing after its branch; the branch's rules look at no other value. -/
def CodedFrame.ofBranch (p : Nat) (b e : Bool) (kind : CodedKind) (render : Option (Nat × Nat)) : CodedFrame :=
  { profile := p, showFrame := b, resilient := e, kind := kind, render := render, refreshCtx := false, parallel := false
    contextIdx := 0, level := 0, sharpness := 0, deltas := .disabled, baseQIdx := 0, yDc := none, uvDc := none, uvAc := none
    seg := none, tileIncrements := 0, tileRows := 0, partition := 0 }

/-- What the rules of steps 5 and 6 ask of a frame. -/
structure CodedFrame.BranchLegal (k : CodedFrame) (c : Context) : Prop where
  profile : k.profile ≤ 3
  color   : match k.kind with
    | .key col _ _ => col.cause k.profile = .none
    | .intra _ col _ _ _ => k.profile = 0 ∨ col.cause k.profile = .none
    | .inter _ _ _ _ _ _ _ => True
  hidden  : k.intraOnly = true → k.showFrame = false
  valid   : match k.kind with
    | .key _ _ _ => True
    | .intra _ _ _ _ _ => True
    | .inter _ _ slots _ size _ _ => size.Valid slots c

/-- Step 5 or 6 that completes (R98, R103, R104, R106). -/
theorem branch_read {p P : Nat} (hp : p ≤ 3) {t b e : Bool} {c : Context} {w : Work}
    (hw : frameBranch (workAt s.port.reader P c { Header.zero with
      profile := p, frameType := FrameType.ofFlag t, showFrame := b, errorResilientMode := e }) = .ok () w) :
    ∃ kind render, (CodedFrame.ofBranch p b e kind render).frameType = FrameType.ofFlag t ∧
      (CodedFrame.ofBranch p b e kind render).BranchLegal c ∧ s.codes P (CodedFrame.ofBranch p b e kind render).kindFields := by
  cases t with
  | false =>
    rw [frameBranch_key rfl] at hw
    unfold keyFrame at hw
    obtain ⟨⟨⟩, w1, h1, hw⟩ := bind_ok.mp hw
    obtain ⟨hs, rfl⟩ := syncCode_code h1
    obtain ⟨⟨⟩, w2, h2, hw⟩ := bind_ok.mp hw
    obtain ⟨k, hk, hc⟩ := colorConfig_read (p := p) rfl h2
    obtain rfl := (runs_colorConfig hk c rfl).ends hc h2
    rw [setHdr_then] at hw
    obtain ⟨⟨⟨x, y⟩, r⟩, hx, _⟩ := (coded_bind coded_frameSize fun _ => coded_renderSize) _ _ _ _ rfl hw
    refine ⟨.key k x y, r, rfl, ⟨hp, hk, fun h => (by cases h), trivial⟩, ?_⟩
    simp only [CodedFrame.kindFields, CodedFrame.ofBranch, CodedFrame.renderFields, List.append_assoc]
    exact State.codes_append.mpr ⟨hs, State.codes_append.mpr ⟨hc, hx⟩⟩
  | true =>
    rw [frameBranch_inter rfl] at hw
    obtain ⟨i, v, hl, hi, hw⟩ := lead_read hw
    cases i with
    | true =>
      rw [if_pos rfl] at hw
      unfold intraBranch at hw
      obtain ⟨⟨⟩, w1, h1, hw⟩ := bind_ok.mp hw
      obtain ⟨hs, rfl⟩ := syncCode_code h1
      obtain ⟨⟨⟩, w2, h2, hw⟩ := bind_ok.mp hw
      have hcol : ∃ k : ColorCode, (p = 0 ∨ k.cause p = .none) ∧
          s.codes (P + bitsOf (interLead b e true v) + 24) (if p = 0 then [] else k.fields p) := by
        by_cases h0 : p = 0
        · exact ⟨⟨false, 0, false, false, false, false⟩, .inl h0, by rw [if_pos h0]; trivial⟩
        · have h3 := h2
          unfold intraColor at h3
          rw [getHdr_then, if_pos (show 0 < p by omega)] at h3
          obtain ⟨k, hk, hc⟩ := colorConfig_read (p := p) rfl h3
          exact ⟨k, .inr hk, by rw [if_neg h0]; exact hc⟩
      obtain ⟨k, hk, hc⟩ := hcol
      obtain rfl := (runs_intraColor hk c rfl).ends hc h2
      obtain ⟨⟨m, ⟨x, y⟩, r⟩, hx, _⟩ := (coded_bind (m := refreshFlags) ((coded_f 8).then fun _ => br_setHdr) fun _ =>
        coded_bind coded_frameSize fun _ => coded_renderSize) _ _ _ _ rfl hw
      refine ⟨.intra v k m x y, r, rfl, ⟨hp, hk, fun _ => hi rfl, trivial⟩, ?_⟩
      simp only [CodedFrame.kindFields, CodedFrame.ofBranch, CodedFrame.renderFields, List.append_assoc]
      exact State.codes_append.mpr ⟨hl, State.codes_append.mpr ⟨hs, State.codes_append.mpr ⟨hc, hx⟩⟩⟩
    | false =>
      rw [if_neg (by simp)] at hw
      unfold interBranch at hw
      obtain ⟨⟨⟩, w1, h1, hw⟩ := bind_ok.mp hw
      obtain ⟨m, hm, _⟩ := ((coded_f 8).then (k := fun m => setHdr fun h => { h with refreshFrameFlags := refreshMask m })
        fun _ => br_setHdr) _ _ _ _ rfl h1
      obtain rfl := (runs_refreshFlags m c _).ends hm h1
      obtain ⟨⟨⟩, w2, h2, hw⟩ := bind_ok.mp hw
      obtain ⟨slots, bias, hr, rfl⟩ := refEntries_code h2
      obtain ⟨⟨⟩, w3, h3, hw⟩ := bind_ok.mp hw
      obtain ⟨size, r, hv, hz⟩ := sizeWithRefs_read rfl h3
      obtain rfl := (runs_sizeWithRefs slots size r (by rfl) (by rfl) hv).ends hz h3
      obtain ⟨⟨hpr, filter⟩, hx, _⟩ := (coded_bind (m := highPrecisionMv) (coded_flag.then fun _ => br_setHdr) fun _ =>
        coded_interpFilter) _ _ _ _ rfl hw
      refine ⟨.inter v m slots bias size hpr filter, r, rfl, ⟨hp, trivial, fun h => (by cases h), hv⟩, ?_⟩
      simp only [CodedFrame.kindFields, CodedFrame.ofBranch, CodedFrame.renderFields, List.append_assoc]
      refine State.codes_append.mpr ⟨hl, State.codes_append.mpr ⟨hm, State.codes_append.mpr ⟨hr, ?_⟩⟩⟩
      rw [← List.append_assoc]
      exact State.codes_append.mpr ⟨hz, hx⟩

/-! ### Steps 7, 11 and 12, and the whole frame -/

/-- The two flags and the context index (R110). -/
theorem ctxFlags_read {w w' : Work} {p : Nat} (hb : w.br = { s.port.reader with pos := p }) (hw : ctxFlags w = .ok () w') :
    ∃ r l i, s.codes p ((if w.hdr.errorResilientMode then [] else [flagField r, flagField l]) ++ [(2, i)]) ∧
      w'.br = { s.port.reader with
        pos := p + bitsOf ((if w.hdr.errorResilientMode then [] else [flagField r, flagField l]) ++ [(2, i)]) } := by
  have index : Coded s (f 2 >>= fun i => setHdr fun h => { h with frameContextIdx := i }) fun i => [(2, i)] :=
    (coded_f 2).then fun _ => br_setHdr
  unfold ctxFlags at hw
  obtain ⟨⟨⟩, w1, h1, hw⟩ := bind_ok.mp hw
  unfold ctxFlagPair at h1
  rw [bind_run, getHdr_run] at h1
  simp only at h1
  by_cases he : w.hdr.errorResilientMode = true
  · rw [if_pos he] at h1
    obtain ⟨i, hi, hbr⟩ := index _ _ _ _ ((br_setHdr _ _ _ h1).trans hb) hw
    exact ⟨false, false, i, by rw [if_pos he]; exact hi, by rw [if_pos he]; exact hbr⟩
  · rw [if_neg he] at h1
    obtain ⟨⟨r, l⟩, hp, hbr⟩ := (coded_bind coded_flag fun r => coded_after br_setHdr fun _ => coded_flag.then fun _ =>
      br_setHdr) _ _ _ _ hb h1
    obtain ⟨i, hi, hbr⟩ := index _ _ _ _ hbr hw
    refine ⟨r, l, i, by rw [if_neg he]; exact State.codes_append.mpr ⟨hp, hi⟩, ?_⟩
    rw [if_neg he, bitsOf_append, ← Nat.add_assoc]
    exact hbr

/-- The tile columns (R122): the increments stay inside the bound. -/
theorem tileCols_read {left k c : Nat} {w w' : Work} {p : Nat} (hb : w.br = { s.port.reader with pos := p })
    (hw : tileCols left k w = .ok c w') :
    ∃ n, n ≤ left ∧ s.codes p (List.replicate n (1, 1) ++ if n < left then [(1, 0)] else []) ∧
      w'.br = { s.port.reader with pos := p + bitsOf (List.replicate n (1, 1) ++ if n < left then [(1, 0)] else []) } := by
  induction left generalizing k w p with
  | zero => cases hw; exact ⟨0, le_refl _, trivial, hb⟩
  | succ left ih =>
    obtain ⟨b, w1, h1, hw⟩ := bind_ok.mp hw
    rw [workAt_of_br hb] at h1
    obtain ⟨hc, rfl⟩ := flag_code h1
    cases b with
    | false => cases hw; exact ⟨0, Nat.zero_le _, hc, rfl⟩
    | true =>
      obtain ⟨n, hn, hx, hbr⟩ := ih (p := p + 1) rfl hw
      refine ⟨n + 1, by omega, ?_, ?_⟩
      · simp only [List.replicate_succ, List.cons_append, Nat.add_lt_add_iff_right]
        exact ⟨hc.1, hx⟩
      · simp only [List.replicate_succ, List.cons_append, Nat.add_lt_add_iff_right, bitsOf_cons, ← Nat.add_assoc]
        exact hbr

/-- The tile rows (R123). -/
theorem coded_tileRows : Coded s tileRows fun n : { n : Nat // n ≤ 2 } =>
    if n.1 = 0 then [(1, 0)] else [(1, 1), (1, n.1 - 1)] := fun w a w' p hb hw => by
  unfold tileRows at hw
  obtain ⟨r, w1, h1, hw⟩ := bind_ok.mp hw
  rw [workAt_of_br hb] at h1
  obtain ⟨hc, rfl⟩ := f_code h1
  have h2 : r < 2 := Reader.field_lt hc.1
  obtain rfl | rfl : r = 0 ∨ r = 1 := by omega
  · cases hw; exact ⟨⟨0, by omega⟩, hc, rfl⟩
  · rw [if_pos rfl] at hw
    obtain ⟨m, w1, h1, hw⟩ := bind_ok.mp hw
    cases hw
    obtain ⟨hm, rfl⟩ := f_code h1
    have h2 : m < 2 := Reader.field_lt hm.1
    exact ⟨⟨m + 1, by omega⟩, ⟨hc.1, hm.1, trivial⟩, rfl⟩

/-- Step 11 (R121 to R123). -/
theorem tileInfo_read {w w' : Work} {p : Nat} (hb : w.br = { s.port.reader with pos := p }) (hw : tileInfo w = .ok () w') :
    ∃ n r, n ≤ maxLog2Cols w.hdr.width - minLog2Cols w.hdr.width ∧ r ≤ 2 ∧
      s.codes p (List.replicate n (1, 1) ++ (if n < maxLog2Cols w.hdr.width - minLog2Cols w.hdr.width then [(1, 0)] else []) ++
        (if r = 0 then [(1, 0)] else [(1, 1), (1, r - 1)])) ∧
      w'.br = { s.port.reader with pos := p + bitsOf (List.replicate n (1, 1) ++
        (if n < maxLog2Cols w.hdr.width - minLog2Cols w.hdr.width then [(1, 0)] else []) ++
        (if r = 0 then [(1, 0)] else [(1, 1), (1, r - 1)])) } := by
  unfold tileInfo at hw
  rw [bind_run, getHdr_run] at hw
  simp only at hw
  obtain ⟨⟨⟩, w1, h1, hw⟩ := bind_ok.mp hw
  obtain ⟨c, w2, h2, hw⟩ := bind_ok.mp hw
  obtain ⟨n, hn, hx, hbr⟩ := tileCols_read ((br_setHdr _ _ _ h1).trans hb) h2
  obtain ⟨⟨r, hr⟩, hy, hbr⟩ := (coded_after (m := setTile fun t => { t with log2Cols := c }) br_setHdr fun _ =>
    coded_tileRows.then fun _ => br_setHdr) _ _ _ _ hbr hw
  refine ⟨n, r, hn, hr, State.codes_append.mpr ⟨hx, hy⟩, ?_⟩
  rw [bitsOf_append, ← Nat.add_assoc]
  exact hbr

/-- Step 12 (R124): a partition size that is not 0. -/
theorem headerSize_read {w w' : Work} {p : Nat} (hb : w.br = { s.port.reader with pos := p }) (hw : headerSize w = .ok () w') :
    ∃ n, n ≠ 0 ∧ s.codes p [(16, n)] := by
  unfold headerSize at hw
  obtain ⟨n, w1, h1, hw⟩ := bind_ok.mp hw
  rw [workAt_of_br hb] at h1
  obtain ⟨hc, rfl⟩ := f_code h1
  refine ⟨n, fun h0 => ?_, hc⟩
  subst h0
  cases hw

/-- A whole header that completes is a frame the buffer codes and the rules let through. -/
theorem completed_codes {w : Work} (hu : uncompressedHeader (startWork s) = .ok () w) (hs : w.hdr.showExistingFrame = false) :
    ∃ k : CodedFrame, s.codes 0 (k.fields s.inst.ctx) ∧ k.Legal s.inst.ctx ∧ k.partition ≠ 0 := by
  obtain ⟨p, w2, hf, ⟨_, _, _, rfl⟩ | ⟨_, hfl, _, _⟩⟩ := completed_cases hu
  · cases hs
  have hzero : s.codes (2 + profileBits p) [flagField false] := by
    rw [hf.at_] at hfl
    unfold Reader.flagAt at hfl
    split at hfl
    · rename_i x hx
      have h1 := Reader.bit_le_one hx
      rw [Reader.bit_pos] at hx
      simp only [Option.some.injEq, decide_eq_false_iff_not] at hfl
      obtain rfl : x = 0 := by omega
      exact ⟨by show s.port.reader.bitsFrom 1 _ 0 = _; simp [Reader.bitsFrom, hx, flagField], trivial⟩
    · cases hfl
  obtain ⟨hp, hfront⟩ := front_fields hf hzero
  obtain ⟨hrun, _⟩ := front_run (fs := []) (by simpa using hfront)
  rw [hrun] at hu
  obtain ⟨r⟩ := fullHeader_ok hu
  obtain ⟨t, b, e, htc, htw⟩ := typed_codes r.frameType
  have hbr := r.frameBranch
  rw [htw] at hbr
  obtain ⟨kind, render, hkt, ⟨h1, h2, h3, h4⟩, hkc⟩ := branch_read hp hbr
  have hframed := (runs_frameBranch (s := s) ⟨h1, h2, h3, h4, Nat.zero_le _, Nat.zero_le _⟩).ends hkc
    (by rw [← hbr]; unfold CodedFrame.typed; rw [hkt]; rfl)
  generalize hk0 : CodedFrame.ofBranch p b e kind render = k0 at *
  have ff : FullRun.frameFields r.segmented.hdr = FullRun.frameFields r.framed.hdr := r.fields_segmented.symm.trans r.fields_framed
  have hwidth : r.segmented.hdr.width = (k0.slot s.inst.ctx).width := by
    rw [hframed] at ff
    exact congrArg (fun p => p.2.2.2.2.2.2.1) ff
  have hres : r.colored.hdr.errorResilientMode = e := by
    have := r.framed_colored
    rw [hframed] at this
    subst hk0
    exact congrArg (fun p => p.2.2.1) this
  have b0 : r.colored.br = { s.port.reader with pos := bitsOf (frontFields p) + 3 + bitsOf k0.kindFields } := by
    have := congrArg Work.br (colorCopy_eq r.colorCopy)
    rw [hframed] at this
    exact this
  obtain ⟨rc, pl, ci, hflags, b1⟩ := ctxFlags_read b0 r.ctxFlags
  rw [hres] at hflags b1
  have b2 : r.restarted.br = r.flagged.br := (congrArg Work.br (pastIndependence_eq r.restart)).trans (by split <;> rfl)
  obtain ⟨⟨lv, sh, de⟩, hlf, b3⟩ := coded_loopFilterParams _ _ _ _ (b2.trans b1) r.loopFilter
  obtain ⟨⟨bq, y, ud, ua⟩, hq, b4⟩ := coded_quantizationParams _ _ _ _ b3 r.quantize
  obtain ⟨sg, hsg, b5⟩ := coded_segmentationParams _ _ _ _ b4 r.segment
  obtain ⟨n, rows, hn, hr, htile, b6⟩ := tileInfo_read b5 r.tile
  obtain ⟨part, hpart, hsize⟩ := headerSize_read b6 r.measure
  rw [hwidth] at hn htile hsize
  subst hk0
  refine ⟨{ profile := p, showFrame := b, resilient := e, kind := kind, render := render, refreshCtx := rc, parallel := pl
            contextIdx := ci, level := lv, sharpness := sh, deltas := de, baseQIdx := bq, yDc := y, uvDc := ud, uvAc := ua
            seg := sg, tileIncrements := n, tileRows := rows, partition := part }, ?_, ⟨h1, h2, h3, h4, hn, hr⟩, hpart⟩
  have hk : decide ((CodedFrame.ofBranch p b e kind render).frameType = .inter) = t := by
    rw [hkt]; cases t <;> rfl
  rw [← hk] at htc
  have := State.codes_append.mpr ⟨State.codes_append.mpr ⟨State.codes_append.mpr ⟨State.codes_append.mpr ⟨State.codes_append.mpr
    ⟨State.codes_append.mpr ⟨State.codes_append.mpr ⟨State.codes_append.mpr ⟨hfront, State.codes_at htc (by simp)⟩,
    State.codes_at hkc (by simp [flagField])⟩, State.codes_at hflags (by simp [flagField]; omega)⟩,
    State.codes_at hlf (by simp [flagField]; omega)⟩, State.codes_at hq (by simp [flagField]; omega)⟩,
    State.codes_at hsg (by simp [flagField]; omega)⟩, State.codes_at htile (by simp [flagField]; omega)⟩,
    State.codes_at hsize (by simp [flagField]; omega)⟩
  simp only [List.append_assoc] at this
  simp only [CodedFrame.fields, CodedFrame.filterFields, CodedFrame.quantFields, CodedFrame.tileFields, CodedFrame.tileStop,
    List.append_assoc]
  exact this

end Sys2Proof.Machine
end

