-- ==== Sys2Proof/Laws/CodedCut.lean ====
section
/-! SUPPORT. A buffer that codes a list of steps (`CodedStep`), and is cut somewhere inside it. `Follows m st a c h c1 h1` says that
`m` reads the fields of `st`, and where the buffer is cut inside them runs out of data with exactly the writes in front of the cut. -/

namespace Sys2Proof.Machine

variable {α β : Type}

/-! ### Lists of steps -/

namespace CodedStep

theorem fields_append (xs ys : List CodedStep) : fields (xs ++ ys) = fields xs ++ fields ys := by
  induction xs with
  | nil => rfl
  | cons x xs ih => cases x <;> simp [fields, ih]

theorem run_append (xs ys : List CodedStep) (c : Context) : run (xs ++ ys) c = run ys (run xs c) := by
  induction xs generalizing c with
  | nil => rfl
  | cons x xs ih => cases x <;> simp [run, ih]

/-- A cut behind the first part. -/
theorem cut_later {xs : List CodedStep} (ys : List CodedStep) {n : Nat} (c : Context) (h : bitsOf (fields xs) ≤ n) :
    cut (xs ++ ys) n c = cut ys (n - bitsOf (fields xs)) (run xs c) := by
  induction xs generalizing n c with
  | nil => rfl
  | cons x xs ih =>
    cases x with
    | read fs =>
      simp only [fields, bitsOf_append] at h
      simp only [List.cons_append, cut, fields, run, bitsOf_append]
      rw [if_pos (by omega), ih c (by omega), Nat.sub_sub]
    | write g => exact ih (g c) h

/-- A cut inside the first part. -/
theorem cut_first {xs : List CodedStep} (ys : List CodedStep) {n : Nat} (c : Context) (h : n < bitsOf (fields xs)) :
    cut (xs ++ ys) n c = cut xs n c := by
  induction xs generalizing n c with
  | nil => simp [fields] at h
  | cons x xs ih =>
    cases x with
    | read fs =>
      simp only [fields, bitsOf_append] at h
      simp only [List.cons_append, cut]
      split
      · exact ih c (by omega)
      · rfl
    | write g => exact ih (g c) h

/-- The same of the bits read. -/
theorem reach_later {xs : List CodedStep} (ys : List CodedStep) {n : Nat} (h : bitsOf (fields xs) ≤ n) :
    reach (xs ++ ys) n = bitsOf (fields xs) + reach ys (n - bitsOf (fields xs)) := by
  induction xs generalizing n with
  | nil => simp [fields]
  | cons x xs ih =>
    cases x with
    | read fs =>
      simp only [fields, bitsOf_append] at h
      simp only [List.cons_append, reach, fields, bitsOf_append]
      rw [if_pos (by omega), ih (by omega), Nat.sub_sub, Nat.add_assoc]
    | write g => exact ih h

theorem reach_first {xs : List CodedStep} (ys : List CodedStep) {n : Nat} (h : n < bitsOf (fields xs)) :
    reach (xs ++ ys) n = reach xs n := by
  induction xs generalizing n with
  | nil => simp [fields] at h
  | cons x xs ih =>
    cases x with
    | read fs =>
      simp only [fields, bitsOf_append] at h
      simp only [List.cons_append, reach]
      split
      · rw [ih (by omega)]
      · rfl
    | write g => exact ih h

@[simp] theorem fields_each (fs : List BitField) : fields (each fs) = fs := by
  induction fs with
  | nil => rfl
  | cons x fs ih => simpa [each, fields] using ih

@[simp] theorem run_each (fs : List BitField) (c : Context) : run (each fs) c = c := by
  induction fs with
  | nil => rfl
  | cons x fs ih => simpa [each, run] using ih

theorem each_append (fs gs : List BitField) : each (fs ++ gs) = each fs ++ each gs := List.map_append

end CodedStep

open CodedStep

/-! ### A cut buffer -/

theorem Reader.Extends.cut (s : State) {len : Nat} (h : len ≤ s.port.len) (p : Nat) :
    Reader.Extends false { (s.cut len).port.reader with pos := p } { s.port.reader with pos := p } :=
  ⟨rfl, h, (fun h => by cases h), fun _ _ => rfl⟩

/-- The fields that fit are still coded. -/
theorem State.codes_cut {s : State} {len : Nat} (hl : len ≤ s.port.len) {p : Nat} {fs : List BitField} (hc : s.codes p fs)
    (hf : p + bitsOf fs ≤ 8 * len) : (s.cut len).codes p fs := by
  induction fs generalizing p with
  | nil => trivial
  | cons x fs ih =>
    simp only [bitsOf_cons] at hf
    refine ⟨?_, ih hc.2 (by omega)⟩
    have := (Reader.Extends.cut s hl p).bitsFrom x.1 p 0 (show p + x.1 ≤ 8 * len by omega)
    simp only [Reader.bitsFrom_pos] at this
    exact this.symm.trans hc.1

/-! ### Steps followed by the grammar -/

/-- Wherever the buffer is cut inside the fields of `st`, `m` runs out of data at the read that does not fit, and the context holds
what `st` writes before. -/
def Cuts (m : Grammar α) (st : List CodedStep) (c : Context) (h : Header) : Prop :=
  ∀ (s : State) (p len : Nat), s.codes p (fields st) → len ≤ s.port.len → p ≤ 8 * len → 8 * len < p + bitsOf (fields st) →
    ∃ h', m (workAt (s.cut len).port.reader p c h) = .error (.raised .outOfData)
      (workAt (s.cut len).port.reader (p + reach st (8 * len - p)) (cut st (8 * len - p) c) h')

/-- `m` does the reads and the context writes of `st` in their order: on a buffer that codes its fields it completes, answers `a`
and takes `c h` to `c1 h1`, and on one cut inside them it has done what stands before the cut. -/
structure Follows (m : Grammar α) (st : List CodedStep) (a : α) (c : Context) (h : Header) (c1 : Context) (h1 : Header) : Prop where
  runs  : ∀ s, Runs s m (fields st) a c h c1 h1
  leads : run st c = c1
  cuts  : Cuts m st c h

theorem Follows.cast {m : Grammar α} {st su : List CodedStep} {a b : α} {c c1 c2 : Context} {h h1 h2 : Header}
    (hm : Follows m st a c h c1 h1) (hs : st = su) (ha : a = b) (hc : c1 = c2) (hh : h1 = h2) :
    Follows m su b c h c2 h2 := by subst hs ha hc hh; exact hm

theorem cuts_first {m : Grammar α} {st : List CodedStep} {c : Context} {h : Header} (hm : Cuts m st c h) (k : α → Grammar β) :
    Cuts (m >>= k) st c h := fun s p len hc hl hp hn => by
  obtain ⟨h', hw⟩ := hm s p len hc hl hp hn
  exact ⟨h', bind_error.mpr (.inl hw)⟩

theorem cuts_then {m : Grammar α} {k : α → Grammar β} {st su : List CodedStep} {a : α} {c c1 : Context} {h h1 : Header}
    (hm : Follows m st a c h c1 h1) (hk : Cuts (k a) su c1 h1) : Cuts (m >>= k) (st ++ su) c h := fun s p len hc hl hp hn => by
  rw [fields_append] at hc hn
  rw [bitsOf_append] at hn
  obtain ⟨h1, h2⟩ := State.codes_append.mp hc
  by_cases hf : p + bitsOf (fields st) ≤ 8 * len
  · obtain ⟨h', hw⟩ := hk s _ len h2 hl hf (by omega)
    refine ⟨h', ?_⟩
    rw [bind_run, hm.runs (s.cut len) p (State.codes_cut hl h1 hf), cut_later su c (by omega), reach_later su (by omega), hm.leads,
      Nat.sub_sub, ← Nat.add_assoc]
    exact hw
  · obtain ⟨h', hw⟩ := hm.cuts s p len h1 hl hp (by omega)
    exact ⟨h', by rw [cut_first su c (by omega), reach_first su (by omega)]; exact bind_error.mpr (.inl hw)⟩

theorem Follows.bind {m : Grammar α} {k : α → Grammar β} {st su : List CodedStep} {a : α} {b : β} {c c1 c2 : Context}
    {h h1 h2 : Header} (hm : Follows m st a c h c1 h1) (hk : Follows (k a) su b c1 h1 c2 h2) :
    Follows (m >>= k) (st ++ su) b c h c2 h2 where
  runs s := (runs_bind (hm.runs s) (hk.runs s)).cast (fields_append st su).symm rfl rfl rfl
  leads := by rw [run_append, hm.leads, hk.leads]
  cuts := cuts_then hm hk.cuts

/-- A first part that reads and writes nothing. -/
theorem Follows.bind0 {m : Grammar α} {k : α → Grammar β} {su : List CodedStep} {a : α} {b : β} {c c1 c2 : Context}
    {h h1 h2 : Header} (hm : Follows m [] a c h c1 h1) (hk : Follows (k a) su b c1 h1 c2 h2) :
    Follows (m >>= k) su b c h c2 h2 := hm.bind hk

/-- A step that reads nothing cannot be cut. -/
theorem cuts_nothing {m : Grammar α} {st : List CodedStep} {c : Context} {h : Header} (hf : fields st = []) : Cuts m st c h :=
  fun _ p len _ _ hp hn => by rw [hf] at hn; simp at hn; omega

theorem follows_pure (a : α) (c : Context) (h : Header) : Follows (pure a) [] a c h c h :=
  ⟨fun _ => runs_pure a c h, rfl, cuts_nothing rfl⟩

theorem follows_getHdr (c : Context) (h : Header) : Follows getHdr [] h c h c h :=
  ⟨fun _ => runs_getHdr c h, rfl, cuts_nothing rfl⟩

theorem follows_getCtx (c : Context) (h : Header) : Follows getCtx [] c c h c h :=
  ⟨fun _ => runs_getCtx c h, rfl, cuts_nothing rfl⟩

theorem follows_setHdr (g : Header → Header) (c : Context) (h : Header) : Follows (setHdr g) [] () c h c (g h) :=
  ⟨fun _ => runs_setHdr g c h, rfl, cuts_nothing rfl⟩

theorem follows_setCtx (g : Context → Context) (c : Context) (h : Header) : Follows (setCtx g) [.write g] () c h (g c) h :=
  ⟨fun _ => runs_setCtx g c h, rfl, cuts_nothing rfl⟩

theorem follows_ite_pos {q : Prop} {_ : Decidable q} (hq : q) {m n : Grammar α} {st : List CodedStep} {a : α} {c c' : Context}
    {h h' : Header} (hm : Follows m st a c h c' h') : Follows (if q then m else n) st a c h c' h' := by rwa [if_pos hq]

theorem follows_ite_neg {q : Prop} {_ : Decidable q} (hq : ¬ q) {m n : Grammar α} {st : List CodedStep} {a : α} {c c' : Context}
    {h h' : Header} (hn : Follows n st a c h c' h') : Follows (if q then m else n) st a c h c' h' := by rwa [if_neg hq]

/-- A read of one value, of whatever fields it takes. -/
theorem follows_read {n : Nat} {value : Reader → Option α} {fs : List BitField} {a : α} {c : Context} {h : Header}
    (hn : bitsOf fs = n) (hr : ∀ s, Runs s (receive fun r => r.read n value) fs a c h c h) :
    Follows (receive fun r => r.read n value) [.read fs] a c h c h where
  runs s := (hr s).cast (by simp [fields]) rfl rfl rfl
  leads := rfl
  cuts s p len _ _ hp hx := by
    simp only [fields, List.append_nil, hn] at hx
    have : p + n > 8 * (s.cut len).port.reader.len := hx
    have hn' : ¬ bitsOf fs ≤ 8 * len - p := by omega
    exact ⟨h, by simp [receive, Reader.read, this, cut, reach, hn']⟩

theorem follows_f {n : Nat} (hn : 0 < n) (v : Nat) (c : Context) (h : Header) : Follows (f n) [.read [(n, v)]] v c h c h :=
  follows_read rfl fun _ => runs_f hn v c h

theorem follows_flag (b : Bool) (c : Context) (h : Header) : Follows flag [.read [flagField b]] b c h c h :=
  follows_read rfl fun _ => runs_flag b c h

theorem follows_su {n : Nat} (v : CodedSigned) (c : Context) (h : Header) : Follows (su n) [.read (v.fields n)] v.value c h c h :=
  follows_read rfl fun _ => runs_su v c h

/-- A value behind its presence flag (R63). -/
theorem follows_guarded {read : Grammar β} {value : α → List CodedStep} {result : α → β} {d : β} {c : Context} {h : Header}
    (hr : ∀ v, Follows read (value v) (result v) c h c h) (o : Option α) :
    Follows (guarded read d) (optionalSteps value o) (o.isSome, (o.map result).getD d) c h c h := by
  unfold guarded readIf
  cases o with
  | none =>
    exact (follows_flag false c h).bind ((follows_ite_neg (by simp) (follows_pure d c h)).bind0 (follows_pure _ c h))
  | some v =>
    exact ((follows_flag true c h).bind ((follows_ite_pos rfl (hr v)).bind (follows_pure (true, result v) c h))).cast
      (by simp [optionalSteps]) rfl rfl rfl

theorem follows_forEach_from {n : Nat} {body : Fin n → Grammar Unit} {F : Fin n → List CodedStep} {C : Nat → Context}
    {H : Nat → Header} (hb : ∀ i : Fin n, Follows (body i) (F i) () (C i) (H i) (C (i + 1)) (H (i + 1))) (is : List (Fin n))
    (j : Nat) (hj : is.map Fin.val = List.range' j is.length) :
    Follows (forEach body is) (is.flatMap F) () (C j) (H j) (C (j + is.length)) (H (j + is.length)) := by
  induction is generalizing j with
  | nil => exact follows_pure () _ _
  | cons i is ih =>
    simp only [List.map_cons, List.length_cons, List.range'_succ, List.cons.injEq] at hj
    obtain ⟨rfl, hj⟩ := hj
    have := ih _ hj
    rw [show i.val + (i :: is).length = i.val + 1 + is.length by simp; omega]
    exact (hb i).bind this

/-- `for i in 0 .. n - 1`, the registers after `j` rounds being `C j` and `H j`. -/
theorem follows_forEach {n : Nat} {body : Fin n → Grammar Unit} {F : Fin n → List CodedStep} {C : Nat → Context}
    {H : Nat → Header} {is : List (Fin n)} {c : Context} {h : Header}
    (hb : ∀ i : Fin n, Follows (body i) (F i) () (C i) (H i) (C (i + 1)) (H (i + 1))) (hi : List.finRange n = is)
    (hc : C 0 = c) (hh : H 0 = h) : Follows (forEach body is) (rounds F) () c h (C n) (H n) := by
  subst hi hc hh
  simpa [rounds] using follows_forEach_from hb (List.finRange n) 0 (by simp [List.range_eq_range'])

/-! ### Steps 1 to 4 (R94 to R97) -/

theorem follows_frameMarker (c : Context) (h : Header) : Follows frameMarker (each [(2, Config.frameMarker)]) () c h c h :=
  (follows_f (by decide) _ c h).bind (follows_pure () c h)

theorem follows_profile (p : Nat) (c : Context) (h : Header) :
    Follows profile (each ([(1, p % 2), (1, p / 2)] ++ if p = 3 then [(1, 0)] else [])) () c h c { h with profile := p } := by
  have e : 2 * (p / 2) + p % 2 = p := by omega
  have hr : Follows (whenTrue (2 * (p / 2) + p % 2 == 3) profileReserved) (each (if p = 3 then [(1, 0)] else [])) () c h c h := by
    rw [e]
    by_cases h3 : p = 3
    · subst h3; exact (follows_flag false c h).bind (follows_pure () c h)
    · rw [if_neg h3, show (p == 3) = false by simpa using h3]; exact follows_pure () c h
  exact ((follows_f (by decide) (p % 2) c h).bind ((follows_f (by decide) (p / 2) c h).bind (hr.bind (follows_setHdr _ c h)))).cast
    (by simp [each]) rfl rfl (by rw [e])

theorem follows_showExisting (c : Context) (h : Header) :
    Follows showExisting (each [(1, 0)]) false c h c { h with showExistingFrame := false } :=
  (follows_flag false c h).bind ((follows_setHdr _ c h).bind0 ((follows_pure () c _).bind0 (follows_pure false c _)))

theorem follows_frameType (t b e : Bool) (c : Context) (h : Header) :
    Follows frameType (each [flagField t, flagField b, flagField e]) () c h c
      { h with frameType := FrameType.ofFlag t, showFrame := b, errorResilientMode := e } :=
  (follows_flag t c h).bind ((follows_setHdr _ c _).bind0 ((follows_flag b c _).bind ((follows_setHdr _ c _).bind0
    ((follows_flag e c _).bind (follows_setHdr _ c _)))))

/-! ### The colour configuration (R100, R105) -/

theorem follows_bitDepth (k : ColorCode) (p : Nat) (c : Context) (h : Header) :
    Follows (bitDepth p) ((if 2 ≤ p then [.read [flagField k.twelve]] else []) ++ [color fun x => { x with bitDepth := k.depth p }])
      () c h { c with color := { c.color with bitDepth := k.depth p } } h := by
  unfold bitDepth ColorCode.depth
  by_cases hp : 2 ≤ p
  · simp only [hp, if_true]
    exact (follows_flag k.twelve c h).bind (follows_setCtx _ c h)
  · simp only [hp, if_false]
    exact follows_setCtx _ c h

theorem follows_colorReserved (c : Context) (h : Header) : Follows colorReserved [.read [flagField false]] () c h c h :=
  (follows_flag false c h).bind (follows_pure () c h)

theorem follows_colorConfig {k : ColorCode} {p : Nat} (hk : k.cause p = .none) (h8 : k.space < 8) (c : Context) {h : Header}
    (hh : h.profile = p) : Follows colorConfig (k.steps p) () c h { c with color := k.config p } h := by
  have e : ∀ {m : Grammar Unit} {c1 : Context} {st : List CodedStep},
      Follows m st () { c with color := { c.color with bitDepth := k.depth p, colorSpace := ColorSpace.ofCode k.space } } h c1 h →
      (if ColorSpace.ofCode k.space = .srgb then srgbColor p else yuvColor p) = m →
      Follows colorConfig (((if 2 ≤ p then [.read [flagField k.twelve]] else []) ++
        [color fun x => { x with bitDepth := k.depth p }]) ++
        ([.read [(3, k.space)]] ++ ([color fun x => { x with colorSpace := ColorSpace.ofCode k.space }] ++ st))) () c h c1 h := by
    rintro m c1 st hm rfl
    refine (follows_getHdr c h).bind0 ?_
    rw [hh]
    exact (follows_bitDepth k p c h).bind ((follows_f (by decide) _ _ h).bind ((follows_setCtx _ _ h).bind hm))
  unfold ColorCode.cause at hk
  unfold ColorCode.steps ColorCode.config
  by_cases h7 : k.space = 7
  · by_cases hs : subsampled p
    · have hr : k.reserved = false := by simpa [h7, hs] using hk
      refine (e ((follows_setCtx _ _ h).bind (follows_ite_pos (by simpa [codesSubsampling_eq] using hs)
        ((follows_setCtx _ _ h).bind (follows_colorReserved _ h)))) (if_pos ((ColorSpace.ofCode_srgb h8).mpr h7))).cast ?_ rfl ?_ rfl
      · simp [h7, hr, color]
      · simp [h7, show ColorSpace.ofCode 7 = .srgb from rfl]
    · simp [h7, hs] at hk
  · have hne : ¬ ColorSpace.ofCode k.space = .srgb := fun h => h7 ((ColorSpace.ofCode_srgb h8).mp h)
    by_cases hs : subsampled p
    · have hss : ¬ (k.ssX = true ∧ k.ssY = true) := fun h => by simp [h7, hs, h.1, h.2] at hk
      have hr : k.reserved = false := by simpa [h7, hs, hss] using hk
      have hxy : (k.ssX && k.ssY) = false := by simpa using hss
      refine (e ((follows_flag k.range _ h).bind ((follows_setCtx _ _ h).bind (follows_ite_pos
        (by simpa [codesSubsampling_eq] using hs) ((follows_flag k.ssX _ h).bind ((follows_setCtx _ _ h).bind
        ((follows_flag k.ssY _ h).bind ((follows_setCtx _ _ h).bind ((follows_ite_neg (by simp [hxy])
        (follows_pure () _ h)).bind0 (follows_colorReserved _ h))))))))) (if_neg hne)).cast ?_ rfl ?_ rfl
      · simp [h7, hs, hr, color, ColorRange.ofFlag]
      · simp [h7, hs, ColorRange.ofFlag]
    · refine (e ((follows_flag k.range _ h).bind ((follows_setCtx _ _ h).bind (follows_ite_neg
        (by simpa [codesSubsampling_eq] using hs) (follows_setCtx _ _ h)))) (if_neg hne)).cast ?_ rfl ?_ rfl
      · simp [h7, hs, color, ColorRange.ofFlag]
      · simp [h7, hs, ColorRange.ofFlag]

theorem follows_intraColor {k : ColorCode} {p : Nat} (hk : p = 0 ∨ k.cause p = .none) (h8 : p ≠ 0 → k.space < 8) (c : Context)
    {h : Header} (hh : h.profile = p) :
    Follows intraColor (if p = 0 then [color fun _ => intraOnlyColor] else k.steps p) () c h
      { c with color := if p = 0 then intraOnlyColor else k.config p } h := by
  refine (follows_getHdr c h).bind0 ?_
  by_cases hp : p = 0
  · rw [if_pos hp, if_pos hp]
    exact follows_ite_neg (by omega) (follows_setCtx _ c h)
  · rw [if_neg hp, if_neg hp]
    exact follows_ite_pos (by omega) (follows_colorConfig (hk.resolve_left hp) (h8 hp) c hh)

/-! ### Steps 5 and 6 (R98, R101 to R104, R106 to R108) -/

theorem follows_syncCode (c : Context) (h : Header) : Follows syncCode (each [(24, Config.syncCode)]) () c h c h :=
  (follows_f (by decide) _ c h).bind (follows_pure () c h)

theorem follows_frameSize (wm1 hm1 : Nat) (c : Context) (h : Header) :
    Follows frameSize (each (sizeFields wm1 hm1)) () c h c { h with width := wm1 + 1, height := hm1 + 1 } :=
  (follows_f (by decide) _ c h).bind ((follows_setHdr _ c h).bind0 ((follows_f (by decide) _ c _).bind (follows_setHdr _ c _)))

theorem follows_displaySize (wm1 hm1 : Nat) (c : Context) (h : Header) :
    Follows displaySize (each (sizeFields wm1 hm1)) () c h c { h with displayWidth := wm1 + 1, displayHeight := hm1 + 1 } :=
  (follows_f (by decide) _ c h).bind ((follows_setHdr _ c h).bind0 ((follows_f (by decide) _ c _).bind (follows_setHdr _ c _)))

theorem follows_renderSize (r : Option (Nat × Nat)) (c : Context) (h : Header) :
    Follows renderSize (each (optionalFields (fun v => sizeFields v.1 v.2) r)) () c h c
      { h with
        displaySizePresent := r.isSome
        displayWidth := (r.map (·.1 + 1)).getD h.width, displayHeight := (r.map (·.2 + 1)).getD h.height } := by
  cases r with
  | none =>
    exact (follows_flag false c h).bind ((follows_setHdr _ c h).bind0 (follows_ite_neg (by simp) (follows_setHdr _ c _)))
  | some v =>
    exact (follows_flag true c h).bind ((follows_setHdr _ c h).bind0 (follows_ite_pos rfl (follows_displaySize v.1 v.2 c _)))

/-- The size and the render size. -/
theorem follows_sizes (wm1 hm1 : Nat) (r : Option (Nat × Nat)) (c : Context) (h : Header) :
    Follows (frameSize >>= fun _ => renderSize) (each (sizeFields wm1 hm1 ++ optionalFields (fun v => sizeFields v.1 v.2) r)) ()
      c h c
      { h with
        width := wm1 + 1, height := hm1 + 1, displaySizePresent := r.isSome
        displayWidth := (r.map (·.1 + 1)).getD (wm1 + 1), displayHeight := (r.map (·.2 + 1)).getD (hm1 + 1) } :=
  ((follows_frameSize wm1 hm1 c h).bind (follows_renderSize r c _)).cast (each_append _ _).symm rfl rfl rfl

theorem follows_refreshFlags (m : Nat) (c : Context) (h : Header) :
    Follows refreshFlags (each [(8, m)]) () c h c { h with refreshFrameFlags := refreshMask m } :=
  (follows_f (by decide) m c h).bind (follows_setHdr _ c h)

theorem follows_intraOnly {b : Bool} (c : Context) {h : Header} (hb : b = true → h.showFrame = false) :
    Follows intraOnly (each (if h.showFrame then [] else [flagField b])) () c h c { h with intraOnly := b } := by
  refine (follows_getHdr c h).bind0 ?_
  by_cases hs : h.showFrame = true
  · have : b = false := by cases b <;> simp_all
    subst this
    exact (follows_ite_pos hs (follows_setHdr _ c h)).cast (by rw [if_pos hs]; rfl) rfl rfl rfl
  · exact (follows_ite_neg hs ((follows_flag b c h).bind (follows_setHdr _ c h))).cast (by rw [if_neg hs]; rfl) rfl rfl rfl

theorem follows_resetFrameContext (v : Nat) (c : Context) (h : Header) :
    Follows resetFrameContext (each (if h.errorResilientMode then [] else [(2, v)])) () c h c
      { h with resetFrameContext := if h.errorResilientMode then 0 else v } := by
  refine (follows_getHdr c h).bind0 ?_
  by_cases hs : h.errorResilientMode = true
  · exact (follows_ite_pos hs (follows_setHdr _ c h)).cast (by rw [if_pos hs]; rfl) rfl rfl (by rw [if_pos hs])
  · exact (follows_ite_neg hs ((follows_f (by decide) v c h).bind (follows_setHdr _ c h))).cast (by rw [if_neg hs]; rfl) rfl rfl
      (by rw [if_neg hs])

/-- The two fields in front of an inter frame's branch (R103). -/
theorem follows_interLead {b : Bool} (v : Nat) {m : Grammar Unit} {st : List CodedStep} {c c' : Context} {h h' : Header}
    (hb : b = true → h.showFrame = false)
    (hm : Follows m st () c { h with intraOnly := b, resetFrameContext := if h.errorResilientMode then 0 else v } c' h')
    (hr : (if b then intraBranch else interBranch) = m) :
    Follows interFrame (each (interLead h.showFrame h.errorResilientMode b v) ++ st) () c h c' h' := by
  subst hr
  exact ((follows_intraOnly c hb).bind ((follows_resetFrameContext v c _).bind ((follows_getHdr c _).bind0 hm))).cast
    (by rw [interLead, each_append, List.append_assoc]) rfl rfl rfl

theorem follows_refEntry (i : Fin 3) (slot : Nat) (bias : Bool) (c : Context) (h : Header) :
    Follows (refEntry i) (each [(3, slot), flagField bias]) () c h c
      { h with refFrameIdx := h.refFrameIdx.set i (slotOf slot), refSignBias := h.refSignBias.set i bias } :=
  (follows_f (by decide) slot c h).bind ((follows_setHdr _ c h).bind0 ((follows_flag bias c _).bind (follows_setHdr _ c _)))

theorem follows_refEntries (slots : Vector Nat 3) (bias : Vector Bool 3) (c : Context) (h : Header) :
    Follows (forEach refEntry [0, 1, 2]) (each (refFields slots bias)) () c h c
      { h with refFrameIdx := slots.map slotOf, refSignBias := bias } :=
  ((follows_refEntry 0 slots[0] bias[0] c h).bind ((follows_refEntry 1 slots[1] bias[1] c _).bind
    ((follows_refEntry 2 slots[2] bias[2] c _).bind (follows_pure () c _)))).cast rfl rfl rfl (by
      have e1 : slots.map slotOf = #v[slotOf slots[0], slotOf slots[1], slotOf slots[2]] := by
        ext i hi; interval_cases i <;> simp
      simp only [e1, Fin.isValue, Fin.val_zero, Fin.val_one, Fin.val_two, vec3_set, ← vec3_eta])

/-- A size-from-reference flag that is 0. -/
theorem follows_sizeFlag_no {i : Fin 3} {is : List (Fin 3)} {fs : List BitField} {b : Bool} {c c' : Context} {h h' : Header}
    (hr : Follows (sizeFlags is) (each fs) b c { h with sizeFromRef := h.sizeFromRef.set i false } c' h') :
    Follows (sizeFlags (i :: is)) (each ((1, 0) :: fs)) b c h c' h' :=
  (follows_flag false c h).bind ((follows_setHdr _ c h).bind0 (follows_ite_neg (by simp) hr))

/-- One that is 1 and names a slot that holds a frame. -/
theorem follows_sizeFlag_yes {i : Fin 3} {is : List (Fin 3)} {c : Context} {h : Header} {slot : RefSlot}
    (hs : c.refs[h.refFrameIdx[i]] = slot) (hv : slot.valid = true) :
    Follows (sizeFlags (i :: is)) (each [(1, 1)]) true c h c
      { h with sizeFromRef := h.sizeFromRef.set i true, width := slot.width, height := slot.height } := by
  subst hs
  refine (follows_flag true c h).bind (su := []) ((follows_setHdr _ c h).bind0 (follows_ite_pos rfl
    (Follows.bind0 (a := ()) ?_ (follows_pure true c _))))
  refine (follows_getHdr c _).bind0 ((follows_getCtx c _).bind0 ?_)
  simp only [hv, Bool.not_true, whenTrue_false]
  exact (follows_pure () c _).bind0 (follows_setHdr _ c _)

/-- A frame whose size comes from the slot reference `i` names (R107). -/
theorem follows_sizeFlags_from (i : Fin 3) {c : Context} {h : Header} (hz : h.sizeFromRef = #v[false, false, false])
    {slot : RefSlot} (hs : c.refs[h.refFrameIdx[i]] = slot) (hv : slot.valid = true) :
    Follows (sizeFlags [0, 1, 2]) (each (foundFields i)) true c h c
      { h with sizeFromRef := Vector.ofFn fun j => decide (j = i), width := slot.width, height := slot.height } := by
  match i with
  | 0 => exact (follows_sizeFlag_yes hs hv).cast rfl rfl rfl (by rw [hz]; rfl)
  | 1 => exact (follows_sizeFlag_no (follows_sizeFlag_yes hs hv)).cast rfl rfl rfl (by rw [hz]; rfl)
  | 2 => exact (follows_sizeFlag_no (follows_sizeFlag_no (follows_sizeFlag_yes hs hv))).cast rfl rfl rfl (by rw [hz]; rfl)

/-- The size, the render size with it (R107, R102). -/
theorem follows_sizeWithRefs (slots : Vector Nat 3) (size : CodedSize) (r : Option (Nat × Nat)) {c : Context} {h : Header}
    (hi : h.refFrameIdx = slots.map slotOf) (hz : h.sizeFromRef = #v[false, false, false]) (hv : size.Valid slots c) :
    Follows sizeWithRefs (each (size.fields ++ optionalFields (fun v => sizeFields v.1 v.2) r)) () c h c
      { h with
        sizeFromRef := size.flags, width := (size.slot slots c).width, height := (size.slot slots c).height
        displaySizePresent := r.isSome
        displayWidth := (r.map (·.1 + 1)).getD (size.slot slots c).width
        displayHeight := (r.map (·.2 + 1)).getD (size.slot slots c).height } := by
  cases size with
  | own w hm1 =>
    have last : ∀ h, Follows (sizeFlags []) (each []) false c h c h := fun h => follows_pure false c h
    have hn : Follows (sizeFlags [0, 1, 2]) (each [(1, 0), (1, 0), (1, 0)]) false c h c
        { h with sizeFromRef := #v[false, false, false] } :=
      (follows_sizeFlag_no (follows_sizeFlag_no (follows_sizeFlag_no (last _)))).cast rfl rfl rfl (by
        simp only [Fin.isValue, Fin.val_zero, Fin.val_one, Fin.val_two, vec3_set])
    exact (hn.bind ((follows_ite_pos rfl (follows_frameSize w hm1 c _)).bind (follows_renderSize r c _))).cast
      (by simp [CodedSize.fields, each]) rfl rfl rfl
  | fromRef i =>
    have hs : c.refs[h.refFrameIdx[i]] = c.refs[slotOf slots[i]] := by simp [hi]
    exact ((follows_sizeFlags_from i hz hs hv).bind ((follows_ite_neg (by simp) (follows_pure () c _)).bind0 (follows_renderSize r c _))).cast
      (each_append _ _).symm rfl rfl rfl

theorem follows_highPrecisionMv (b : Bool) (c : Context) (h : Header) :
    Follows highPrecisionMv (each [flagField b]) () c h c { h with allowHighPrecisionMv := b } :=
  (follows_flag b c h).bind (follows_setHdr _ c h)

theorem follows_interpFilter (v : Option Nat) (c : Context) (h : Header) :
    Follows interpFilter (each (filterCode v)) () c h c { h with interpFilter := filterOf v } := by
  cases v with
  | none => exact (follows_flag true c h).bind (su := []) (follows_ite_pos rfl (follows_setHdr _ c h))
  | some l =>
    rw [filterOf, codedFilter_eq]
    exact (follows_flag false c h).bind (follows_ite_neg (by simp) ((follows_f (by decide) l c h).bind (follows_setHdr _ c h)))

/-- A non-intra inter frame (R106). -/
theorem follows_interBranch (m : Nat) (slots : Vector Nat 3) (bias : Vector Bool 3) (size : CodedSize) (r : Option (Nat × Nat))
    (hp : Bool) (filter : Option Nat) {c : Context} {h : Header} (hz : h.sizeFromRef = #v[false, false, false])
    (hv : size.Valid slots c) :
    Follows interBranch (each ([(8, m)] ++ (refFields slots bias ++ ((size.fields ++
      optionalFields (fun v => sizeFields v.1 v.2) r) ++ ([flagField hp] ++ filterCode filter))))) () c h c
      { h with
        refreshFrameFlags := refreshMask m, refFrameIdx := slots.map slotOf, refSignBias := bias
        sizeFromRef := size.flags, width := (size.slot slots c).width, height := (size.slot slots c).height
        displaySizePresent := r.isSome
        displayWidth := (r.map (·.1 + 1)).getD (size.slot slots c).width
        displayHeight := (r.map (·.2 + 1)).getD (size.slot slots c).height
        allowHighPrecisionMv := hp, interpFilter := filterOf filter } :=
  ((follows_refreshFlags m c h).bind ((follows_refEntries slots bias c _).bind
    ((follows_sizeWithRefs slots size r (h := { h with
      refreshFrameFlags := refreshMask m, refFrameIdx := slots.map slotOf, refSignBias := bias }) rfl hz hv).bind
    ((follows_highPrecisionMv hp c _).bind (follows_interpFilter filter c _))))).cast
    (by simp only [each_append]) rfl rfl rfl

/-- The colour space of a frame that codes its colour fits its three bits. -/
def CodedFrame.Spaced (k : CodedFrame) : Prop :=
  match k.kind with
  | .key col _ _ => col.space < 8
  | .intra _ col _ _ _ => k.profile ≠ 0 → col.space < 8
  | .inter _ _ _ _ _ _ _ => True

theorem follows_frameBranch {k : CodedFrame} {c : Context} (hk : k.Legal c) (h8 : k.Spaced) :
    Follows frameBranch k.kindSteps () c k.typed { c with color := k.color c } (k.branched c) := by
  obtain ⟨_, hcol, hhid, hval, _, _⟩ := hk
  obtain ⟨profile, showFrame, resilient, kind, render, _, _, _, _, _, _, _, _, _, _, _, _, _, _⟩ := k
  refine (follows_getHdr c _).bind0 ?_
  cases kind with
  | key col w h =>
    refine follows_ite_pos rfl (((follows_syncCode c _).bind ((follows_colorConfig hcol h8 c rfl).bind
      ((follows_setHdr _ _ _).bind0 (follows_sizes w h render _ _)))).cast ?_ rfl rfl rfl)
    simp only [CodedFrame.kindSteps, CodedFrame.renderFields, List.append_assoc]
  | intra r col m w h =>
    refine follows_ite_neg (fun h => by cases h) ((follows_interLead (b := true) r (fun _ => hhid rfl)
      ((follows_syncCode c _).bind ((follows_intraColor hcol h8 c rfl).bind
      ((follows_refreshFlags m _ _).bind (follows_sizes w h render _ _)))) rfl).cast ?_ rfl rfl rfl)
    simp only [CodedFrame.kindSteps, CodedFrame.renderFields, CodedFrame.typed, List.append_assoc, each_append]
  | inter r m slots bias size hp filter =>
    refine follows_ite_neg (fun h => by cases h) ((follows_interLead (b := false) r (fun h => by cases h)
      (follows_interBranch m slots bias size render hp filter rfl hval) rfl).cast
      ?_ rfl rfl rfl)
    simp only [CodedFrame.kindSteps, CodedFrame.kindFields, CodedFrame.renderFields, CodedFrame.typed, List.append_assoc, each_append]

/-! ### Steps 7 to 9 (R110 to R116) -/

theorem follows_ctxFlags {e : Bool} (r p : Bool) (i : Nat) (c : Context) {h : Header} (he : h.errorResilientMode = e) :
    Follows ctxFlags (each ((if e then [] else [flagField r, flagField p]) ++ [(2, i)])) () c h c
      { h with refreshFrameContext := !e && r, frameParallelDecodingMode := e || p, frameContextIdx := i } := by
  have hp : Follows ctxFlagPair (each (if e then [] else [flagField r, flagField p])) () c h c
      { h with refreshFrameContext := !e && r, frameParallelDecodingMode := e || p } := by
    refine (follows_getHdr c h).bind0 ?_
    cases e with
    | true => exact follows_ite_pos he (follows_setHdr _ c h)
    | false =>
      exact follows_ite_neg (by simp [he]) ((follows_flag r c h).bind ((follows_setHdr _ c h).bind0
        ((follows_flag p c _).bind (follows_setHdr _ c _))))
  exact (hp.bind ((follows_f (by decide) i c _).bind (follows_setHdr _ c _))).cast (by simp [each_append]; rfl) rfl rfl rfl

theorem follows_pastIndependence (k : CodedFrame) (c : Context) {h : Header} (hb : h.resetsContext = k.restarts) :
    Follows pastIndependence k.resetSteps () c h (if k.restarts then c.pastIndependent else c) h := by
  refine (follows_getHdr c h).bind0 ?_
  unfold CodedFrame.resetSteps
  rw [hb]
  cases k.restarts
  · exact follows_pure () c h
  · exact follows_setCtx _ c h

theorem follows_refDelta (v : Vector (Option CodedSigned) 4) (c : Context) (h : Header) (i : Fin 4) :
    Follows (refDelta i) (optionalSteps (fun v => [.read (v.fields 6),
      .write fun c => { c with lfRefDelta := c.lfRefDelta.set i v.value }]) v[i]) () (refDeltaTo v c i) (refFlagTo v h i)
      (refDeltaTo v c (i + 1)) (refFlagTo v h (i + 1)) := by
  unfold refFlagTo
  rw [← upTo_set (fun i : Fin 4 => v[i].isSome)]
  cases hv : v[i] with
  | none =>
    have : refDeltaTo v c (i + 1) = refDeltaTo v c i := by
      unfold refDeltaTo
      rw [← upTo_set]
      simp only [hv, Option.map_none, Option.getD_none]
      rw [← upTo_get (fun i => (v[i].map CodedSigned.value).getD c.lfRefDelta[i]) c.lfRefDelta i]
      simp only [Fin.getElem_fin, Vector.set_getElem_self]
    rw [this]
    exact (follows_flag false _ _).bind ((follows_setHdr _ _ _).bind0 (follows_pure () _ _))
  | some d =>
    unfold refDeltaTo
    rw [← upTo_set (fun i : Fin 4 => (v[i].map CodedSigned.value).getD c.lfRefDelta[i]), hv]
    exact (follows_flag true _ _).bind ((follows_setHdr _ _ _).bind0 ((follows_su d _ _).bind (follows_setCtx _ _ _)))

theorem follows_modeDelta (v : Vector (Option CodedSigned) 2) (c : Context) (h : Header) (i : Fin 2) :
    Follows (modeDelta i) (optionalSteps (fun v => [.read (v.fields 6),
      .write fun c => { c with lfModeDelta := c.lfModeDelta.set i v.value }]) v[i]) () (modeDeltaTo v c i) (modeFlagTo v h i)
      (modeDeltaTo v c (i + 1)) (modeFlagTo v h (i + 1)) := by
  unfold modeFlagTo
  rw [← upTo_set (fun i : Fin 2 => v[i].isSome)]
  cases hv : v[i] with
  | none =>
    have : modeDeltaTo v c (i + 1) = modeDeltaTo v c i := by
      unfold modeDeltaTo
      rw [← upTo_set]
      simp only [hv, Option.map_none, Option.getD_none]
      rw [← upTo_get (fun i => (v[i].map CodedSigned.value).getD c.lfModeDelta[i]) c.lfModeDelta i]
      simp only [Fin.getElem_fin, Vector.set_getElem_self]
    rw [this]
    exact (follows_flag false _ _).bind ((follows_setHdr _ _ _).bind0 (follows_pure () _ _))
  | some d =>
    unfold modeDeltaTo
    rw [← upTo_set (fun i : Fin 2 => (v[i].map CodedSigned.value).getD c.lfModeDelta[i]), hv]
    exact (follows_flag true _ _).bind ((follows_setHdr _ _ _).bind0 ((follows_su d _ _).bind (follows_setCtx _ _ _)))

theorem follows_lfDeltas (r : Vector (Option CodedSigned) 4) (m : Vector (Option CodedSigned) 2) (c : Context) (h : Header) :
    Follows lfDeltas (rounds (fun i : Fin 4 => optionalSteps (fun v => [.read (v.fields 6),
        .write fun c => { c with lfRefDelta := c.lfRefDelta.set i v.value }]) r[i]) ++
      rounds (fun i : Fin 2 => optionalSteps (fun v => [.read (v.fields 6),
        .write fun c => { c with lfModeDelta := c.lfModeDelta.set i v.value }]) m[i])) () c h
      { c with
        lfRefDelta := Vector.ofFn fun i => (r[i].map CodedSigned.value).getD c.lfRefDelta[i]
        lfModeDelta := Vector.ofFn fun i => (m[i].map CodedSigned.value).getD c.lfModeDelta[i] }
      { h with lf := { h.lf with
        refDeltaUpdated := Vector.ofFn fun i => r[i].isSome, modeDeltaUpdated := Vector.ofFn fun i => m[i].isSome } } := by
  refine ((follows_forEach (follows_refDelta r c h) rfl (refDeltaTo_zero r c) (refFlagTo_zero r h)).bind
    (follows_forEach (follows_modeDelta m _ _) rfl (modeDeltaTo_zero m _) (modeFlagTo_zero m _))).cast rfl rfl ?_ ?_
  · simp only [refDeltaTo, modeDeltaTo, upTo_all]
  · simp only [refFlagTo, modeFlagTo, upTo_all]

theorem follows_loopFilterParams (k : CodedFrame) (c : Context) {h : Header} (hz : h.lf = Header.zero.lf) :
    Follows loopFilterParams (each [(6, k.level), (3, k.sharpness)] ++ k.deltas.steps) () c h (k.filtered c)
      { h with lf :=
        { (k.header c).lf with refDelta := (k.filtered c).lfRefDelta, modeDelta := (k.filtered c).lfModeDelta } } := by
  obtain ⟨_, _, _, _, _, _, _, _, level, sharpness, deltas, _, _, _, _, _, _, _, _⟩ := k
  have hcopy : ∀ c h, Follows lfCopy [] () c h c
      { h with lf := { h.lf with refDelta := c.lfRefDelta, modeDelta := c.lfModeDelta } } := fun c h =>
    (follows_getCtx c h).bind0 (follows_setHdr _ c h)
  have run : ∀ {b : Bool} {st : List CodedStep} {c' : Context} {h' : Header},
      Follows (whenTrue b lfUpdate) st () c { h with lf := { h.lf with
        level := level, sharpness := sharpness, modeRefDeltaEnabled := b } } c' h' →
      Follows loopFilterParams (each [(6, level), (3, sharpness)] ++ (each [flagField b] ++ st)) () c h c'
        { h' with lf := { h'.lf with refDelta := c'.lfRefDelta, modeDelta := c'.lfModeDelta } } := fun hm =>
    ((follows_f (by decide) level c h).bind ((follows_setHdr _ c h).bind0 ((follows_f (by decide) sharpness c _).bind
      ((follows_setHdr _ c _).bind0 ((follows_flag _ c _).bind ((follows_setHdr _ c _).bind0 (hm.bind (hcopy _ _)))))))).cast
      (by simp [each]) rfl rfl rfl
  have keep4 : (Vector.ofFn fun i : Fin 4 => c.lfRefDelta[i]) = c.lfRefDelta := by ext i hi; simp
  have keep2 : (Vector.ofFn fun i : Fin 2 => c.lfModeDelta[i]) = c.lfModeDelta := by ext i hi; simp
  cases deltas with
  | disabled =>
    refine (run (b := false) (follows_pure () c _)).cast rfl rfl ?_ ?_
    all_goals simp only [hz, CodedFrame.filtered, CodedFrame.refDelta, CodedFrame.modeDelta, Option.map_none, Option.getD_none, keep4, keep2]
    rfl
  | kept =>
    refine (run (b := true) ((follows_flag false c _).bind ((follows_setHdr _ c _).bind0 (follows_pure () c _)))).cast
      rfl rfl ?_ ?_
    all_goals simp only [hz, CodedFrame.filtered, CodedFrame.refDelta, CodedFrame.modeDelta, Option.map_none, Option.getD_none, keep4, keep2]
    rfl
  | updated r m =>
    exact (run (b := true) ((follows_flag true c _).bind ((follows_setHdr _ c _).bind0 (follows_lfDeltas r m c _)))).cast
      (by simp [CodedDeltas.steps, flagField, each]) rfl rfl (by rw [hz]; rfl)

theorem follows_quantDelta (v : Option CodedSigned) (c : Context) (h : Header) :
    Follows quantDelta (optionalSteps (fun v => [.read (v.fields 4)]) v) (CodedFrame.delta v) c h c h :=
  (Follows.bind (k := fun r : Bool × Int => pure r.2) (follows_guarded (fun v => follows_su v c h) v) (follows_pure _ c h)).cast
    (List.append_nil _) rfl rfl rfl

theorem follows_quantizationParams (k : CodedFrame) (c : Context) (h : Header) :
    Follows quantizationParams k.quantSteps () c h { c with lossless := k.quant.isLossless }
      { h with q := k.quant, lossless := k.quant.isLossless } :=
  ((follows_f (by decide) k.baseQIdx c h).bind ((follows_setHdr _ c h).bind0 ((follows_quantDelta k.yDc c _).bind
    ((follows_setHdr _ c _).bind0 ((follows_quantDelta k.uvDc c _).bind ((follows_setHdr _ c _).bind0
    ((follows_quantDelta k.uvAc c _).bind ((follows_setHdr _ c _).bind0 ((follows_getHdr c _).bind0
    ((follows_setCtx _ c _).bind ((follows_getCtx _ _).bind0 (follows_setHdr _ _ _)))))))))))).cast
    (by simp only [CodedFrame.quantSteps, List.append_assoc]; rfl) rfl rfl rfl

/-! ### Step 10 (R117 to R120) -/

theorem follows_probability (v : Option Nat) (c : Context) (h : Header) :
    Follows probability (optionalSteps (fun v => [.read [(8, v)]]) v) (v.isSome, v.getD 255) c h c h :=
  (follows_guarded (result := id) (fun v => follows_f (by decide) v c h) v).cast rfl (by cases v <;> rfl) rfl rfl

theorem follows_treeProb (v : Vector (Option Nat) 7) (c : Context) (h : Header) (i : Fin 7) :
    Follows (treeProb i) (optionalSteps (fun v => [.read [(8, v)]]) v[i] ++
        [.write fun c => { c with segTreeProb := c.segTreeProb.set i (v[i].getD 255) }]) ()
      (treeProbTo v c i) (treePresentTo v h i) (treeProbTo v c (i + 1)) (treePresentTo v h (i + 1)) := by
  unfold treeProbTo treePresentTo
  rw [← upTo_set (fun i : Fin 7 => v[i].isSome), ← upTo_set (fun i : Fin 7 => v[i].getD 255)]
  exact (follows_probability v[i] _ _).bind ((follows_setHdr _ _ _).bind0 (follows_setCtx _ _ _))

theorem follows_predProb (v : Vector (Option Nat) 3) (c : Context) (h : Header) (i : Fin 3) :
    Follows (predProb i) (optionalSteps (fun v => [.read [(8, v)]]) v[i] ++
        [.write fun c => { c with segPredProb := c.segPredProb.set i (v[i].getD 255) }]) ()
      (predProbTo v c i) (predPresentTo v h i) (predProbTo v c (i + 1)) (predPresentTo v h (i + 1)) := by
  unfold predProbTo predPresentTo
  rw [← upTo_set (fun i : Fin 3 => v[i].isSome), ← upTo_set (fun i : Fin 3 => v[i].getD 255)]
  exact (follows_probability v[i] _ _).bind ((follows_setHdr _ _ _).bind0 (follows_setCtx _ _ _))

theorem follows_segMap (m : CodedMap) (c : Context) (h : Header) : Follows segMap m.steps () c h (m.put c) (m.putHdr h) := by
  obtain ⟨tree, pred⟩ := m
  have ht := follows_forEach (follows_treeProb tree c h) rfl (treeProbTo_zero tree c) (treePresentTo_zero tree h)
  simp only [treeProbTo, treePresentTo, upTo_all] at ht
  cases pred with
  | none =>
    have hd : ∀ (c : Context) (h : Header), Follows (forEach (fun i => if false = true then predProb i else predProbDefault i)
        [0, 1, 2]) [.write fun c => { c with segPredProb := #v[255, 255, 255] }] () c h
        { c with segPredProb := #v[255, 255, 255] } h := fun c h => by
      have hr : ∀ s, Runs s (forEach (fun i => if false = true then predProb i else predProbDefault i) [0, 1, 2]) [] () c h
          { c with segPredProb := #v[255, 255, 255] } h := fun s p _ => by
        simp only [Bool.false_eq_true, if_false, forEach, predProbDefault, setCtx_then, pure_run, Config.maxProb]
        refine congrArg (fun v => EStateM.Result.ok () (workAt s.port.reader p { c with segPredProb := v } h)) ?_
        exact vec3_set _ _ _ _
      exact ⟨hr, rfl, cuts_nothing rfl⟩
    refine (ht.bind ((follows_flag false _ _).bind ((follows_setHdr _ _ _).bind0 (hd _ _)))).cast rfl rfl ?_ rfl
    simp only [CodedMap.put, ← ofFn_getElem_map (n := 7)]
    rfl
  | some v =>
    have hp : ∀ (c : Context) (h : Header), Follows (forEach (fun i => if true = true then predProb i else predProbDefault i)
        [0, 1, 2]) (rounds fun i : Fin 3 => optionalSteps (fun v => [.read [(8, v)]]) v[i] ++
          [.write fun c => { c with segPredProb := c.segPredProb.set i (v[i].getD 255) }]) () c h
        { c with segPredProb := v.map (·.getD 255) }
        { h with seg := { h.seg with predProbPresent := Vector.ofFn fun i => (v[i]).isSome } } := fun c h => by
      refine (follows_forEach (fun i => follows_ite_pos rfl (follows_predProb v c h i)) rfl (predProbTo_zero v c)
        (predPresentTo_zero v h)).cast rfl rfl ?_ ?_
      · simp only [predProbTo, upTo_all, ← ofFn_getElem_map (n := 3)]
      · simp only [predPresentTo, upTo_all]
    refine (ht.bind ((follows_flag true _ _).bind ((follows_setHdr _ _ _).bind0 (hp _ _)))).cast rfl rfl ?_ rfl
    simp only [CodedMap.put, ← ofFn_getElem_map (n := 7)]
    rfl

theorem follows_setFeature (i : Fin 8) (g : SegFeature → SegFeature) (e : SegFeature) (c : Context) (h : Header) :
    Follows (setFeature i g) [feature i g] () { c with seg := c.seg.set i e } h { c with seg := c.seg.set i (g e) } h :=
  (follows_setCtx _ _ h).cast rfl rfl (by simp only [Fin.getElem_fin, Vector.getElem_set_self, Vector.set_set]) rfl

/-- A presence bit and the value it guards, both put into segment `i` (R119). -/
theorem follows_feature {read : Grammar β} {F : α → List BitField} {value : α → β} {d : β} {c : Context} {h : Header}
    (hr : ∀ (v : α) (c : Context), Follows read [.read (F v)] (value v) c h c h) (o : Option α) (i : Fin 8)
    (g1 : Bool → SegFeature → SegFeature) (g2 : β → SegFeature → SegFeature) (e : SegFeature) :
    Follows (do
        let en ← flag
        setFeature i (g1 en)
        let v ← readIf en read d
        setFeature i (g2 v)) (CodedFeature.part i o F g1 (g2 ((o.map value).getD d))) () { c with seg := c.seg.set i e } h
      { c with seg := c.seg.set i (g2 ((o.map value).getD d) (g1 o.isSome e)) } h := by
  cases o with
  | none =>
    exact (follows_flag false _ h).bind ((follows_setFeature i _ _ c h).bind ((follows_ite_neg (by simp)
      (follows_pure d _ h)).bind0 (follows_setFeature i _ _ c h)))
  | some v =>
    exact (follows_flag true _ h).bind ((follows_setFeature i _ _ c h).bind ((follows_ite_pos rfl (hr v _)).bind
      (follows_setFeature i _ _ c h)))

/-- One segment's features (R119). -/
theorem follows_segFeature (e : CodedFeature) (i : Fin 8) (c : Context) (h : Header) :
    Follows (segFeature i) (e.steps i) () c h { c with seg := c.seg.set i e.value } h := by
  have h0 : c = { c with seg := c.seg.set i c.seg[i] } := by simp
  have hq := follows_feature (h := h) (c := c) (d := 0) (fun v c => follows_su (n := 8) v c h) e.q i (fun b x => { x with qEn := b })
    (fun v x => { x with q := v }) c.seg[i]
  rw [← h0] at hq
  refine (hq.bind ((follows_feature (d := 0) (fun v c => follows_su (n := 6) v c h) e.lf i (fun b x => { x with lfEn := b })
    (fun v x => { x with lf := v }) _).bind ((follows_feature (d := 0) (fun v c => follows_f (n := 2) (by decide) v c h) e.ref i
    (fun b x => { x with refEn := b }) (fun v x => { x with ref := RefId.ofCode v }) _).bind
    ((follows_flag e.skip _ h).bind (follows_setFeature i _ _ c h))))).cast ?_ rfl ?_ rfl
  · simp [CodedFeature.steps, CodedFrame.delta]
  · simp [CodedFeature.value, CodedFrame.delta]

theorem follows_segData (d : CodedData) (c : Context) (h : Header) : Follows segData d.steps () c h (d.put c) h := by
  refine (follows_flag d.absDelta c h).bind ((follows_setCtx _ c h).bind ?_)
  refine (follows_forEach (C := fun j => { c with
      segAbsDelta := d.absDelta, seg := upTo (fun i => (d.feature[i]).value) c.seg j }) (H := fun _ => h) (fun i => ?_) rfl
      (by simp only [upTo_zero]) rfl).cast rfl rfl ?_ rfl
  · simp only [← upTo_set (fun i : Fin 8 => (d.feature[i]).value)]
    exact follows_segFeature _ i _ h
  · simp only [upTo_all, CodedData.put, ← ofFn_getElem_map]

/-- What an enabled segmentation codes (R117). -/
theorem follows_segUpdates (g : CodedSeg) (c : Context) (h : Header) :
    Follows segUpdates g.steps () c h (((g.data.map CodedData.put).getD id) (((g.map.map CodedMap.put).getD id) c))
      (let h1 := ((g.map.map CodedMap.putHdr).getD id) { h with seg := { h.seg with updateMap := g.map.isSome } }
       { h1 with seg := { h1.seg with updateData := g.data.isSome } }) := by
  obtain ⟨map, data⟩ := g
  have last : ∀ {o : Option CodedData} (c : Context) (h : Header), Follows (flag >>= fun d => setSeg (fun g => { g with updateData := d }) >>=
      fun _ => whenTrue d segData) (optionalSteps CodedData.steps o) () c h ((o.map CodedData.put).getD id c)
      { h with seg := { h.seg with updateData := o.isSome } } := fun {o} c h => by
    cases o with
    | none => exact (follows_flag false c h).bind ((follows_setHdr _ c h).bind0 (follows_pure () c _))
    | some d => exact (follows_flag true c h).bind ((follows_setHdr _ c h).bind0 (follows_segData d c _))
  cases map with
  | none =>
    exact (follows_flag false c h).bind ((follows_setHdr _ c h).bind0 ((follows_pure () c _).bind0 (last c _)))
  | some m =>
    exact ((follows_flag true c h).bind ((follows_setHdr _ c h).bind0 ((follows_segMap m c _).bind (last _ _)))).cast
      (by simp [CodedSeg.steps, optionalSteps]) rfl rfl rfl

theorem follows_segmentationParams (k : CodedFrame) (c : Context) {h : Header} (hz : h.seg = Header.zero.seg) :
    Follows segmentationParams (optionalSteps CodedSeg.steps k.seg) () c h (k.segmented c)
      { h with seg :=
        { (k.header c).seg with
          treeProb := (k.segmented c).segTreeProb, predProb := (k.segmented c).segPredProb
          absDelta := (k.segmented c).segAbsDelta, feature := (k.segmented c).seg } } := by
  obtain ⟨_, _, _, _, _, _, _, _, _, _, _, _, _, _, _, seg, _, _, _⟩ := k
  have hcopy : ∀ c h, Follows segCopy [] () c h c { h with seg := { h.seg with
      treeProb := c.segTreeProb, predProb := c.segPredProb, absDelta := c.segAbsDelta, feature := c.seg } } := fun c h =>
    (follows_getCtx c h).bind0 (follows_setHdr _ c h)
  cases seg with
  | none =>
    exact ((follows_flag false c h).bind ((follows_setHdr _ c h).bind0 ((follows_pure () c _).bind0 (hcopy c _)))).cast
      rfl rfl rfl (by rw [hz]; rfl)
  | some g =>
    refine ((follows_flag true c h).bind ((follows_setHdr _ c h).bind0 ((follows_segUpdates g c _).bind (hcopy _ _)))).cast
      (by simp [optionalSteps]) rfl ?_ ?_
    · obtain ⟨_ | m, _ | d⟩ := g <;> rfl
    · obtain ⟨_ | ⟨tree, _ | v⟩, _ | d⟩ := g <;> (rw [hz]; rfl)

/-! ### Step 11 (R121 to R123) -/

theorem follows_tileCols (c : Context) (h : Header) (left n k : Nat) (hn : n ≤ left) :
    Follows (tileCols left k) (each (List.replicate n (1, 1) ++ if n < left then [(1, 0)] else [])) (k + n) c h c h := by
  induction left generalizing n k with
  | zero =>
    obtain rfl : n = 0 := by omega
    exact follows_pure k c h
  | succ left ih =>
    cases n with
    | zero => exact (follows_flag false c h).bind (su := []) (follows_ite_neg (by simp) (follows_pure k c h))
    | succ n =>
      exact ((follows_flag true c h).bind (follows_ite_pos rfl (ih n (k + 1) (by omega)))).cast
        (by simp [flagField, List.replicate_succ, each]) (by omega) rfl rfl

theorem follows_tileRows {n : Nat} (hn : n ≤ 2) (c : Context) (h : Header) :
    Follows tileRows (each (if n = 0 then [(1, 0)] else [(1, 1), (1, n - 1)])) n c h c h := by
  match n, hn with
  | 0, _ => exact (follows_f (by decide) 0 c h).bind (su := []) (follows_ite_neg (by decide) (follows_pure 0 c h))
  | n + 1, _ =>
    exact ((follows_f (by decide) 1 c h).bind (follows_ite_pos rfl ((follows_f (by decide) n c h).bind
      (follows_pure (1 + n) c h)))).cast rfl (Nat.add_comm 1 n) rfl rfl

theorem follows_tileInfo {k : CodedFrame} {c0 : Context} (hk : k.Legal c0) (c : Context) {h : Header}
    (hw : h.width = (k.slot c0).width) :
    Follows tileInfo (each (k.tileFields c0)) () c h c { h with tile := (k.header c0).tile } := by
  have ht := hk.tiles
  simp only [CodedFrame.tileFields, CodedFrame.tileStop, CodedFrame.header, ← hw] at ht ⊢
  exact ((follows_getHdr c h).bind0 ((follows_setHdr _ c h).bind0 ((follows_tileCols c _ _ _ _ ht).bind
    ((follows_setHdr _ c _).bind0 ((follows_tileRows hk.rows c _).bind (follows_setHdr _ c _)))))).cast
    (by simp [each_append]) rfl rfl rfl

/-! ### The whole frame -/

/-- Step 4 of a frame (R97). -/
theorem follows_typed (k : CodedFrame) (c : Context) : Follows frameType
    (each [flagField (decide (k.frameType = .inter)), flagField k.showFrame, flagField k.resilient]) () c
    { Header.zero with profile := k.profile } c k.typed :=
  (follows_frameType _ _ _ c _).cast rfl rfl rfl (by
    unfold CodedFrame.typed
    cases k.frameType <;> rfl)

/-- Steps 7 (its reset) to 11, from the colour and flags in force. -/
theorem follows_params {k : CodedFrame} {c : Context} (hk : k.Legal c) {h : Header} (hr : h.resetsContext = k.restarts)
    (h1 : h.lf = Header.zero.lf) (h2 : h.seg = Header.zero.seg) (h3 : h.width = (k.slot c).width) :
    Follows (do
        pastIndependence
        loopFilterParams
        quantizationParams
        segmentationParams
        tileInfo)
      (k.resetSteps ++ ((each [(6, k.level), (3, k.sharpness)] ++ k.deltas.steps) ++ (k.quantSteps ++
        (optionalSteps CodedSeg.steps k.seg ++ each (k.tileFields c))))) ()
      { c with color := k.color c } h (k.written c)
      { h with
        lf := (k.header c).lf, q := k.quant, lossless := k.quant.isLossless, seg := (k.header c).seg
        tile := (k.header c).tile } := by
  have hb : (if k.restarts then { c with color := k.color c }.pastIndependent else { c with color := k.color c }) = k.begun c := by
    unfold CodedFrame.begun CodedFrame.startContext
    cases k.restarts <;> rfl
  have hp := follows_pastIndependence k { c with color := k.color c } hr
  rw [hb] at hp
  have hl := follows_loopFilterParams k (k.begun c) h1
  have hq := follows_quantizationParams k (k.filtered (k.begun c)) { h with lf := (k.header c).lf }
  have hs := follows_segmentationParams k (k.quantized c)
    (h := { h with lf := (k.header c).lf, q := k.quant, lossless := k.quant.isLossless }) h2
  rw [k.segmented_quantized] at hs
  exact hp.bind (hl.bind (hq.bind (hs.bind (follows_tileInfo hk (k.written c) h3))))

/-- The steps between the front and the first partition size. -/
def CodedFrame.middleSteps (k : CodedFrame) (c : Context) : List CodedStep :=
  each [flagField (decide (k.frameType = .inter)), flagField k.showFrame, flagField k.resilient] ++
    (k.kindSteps ++ (each ((if k.resilient then [] else [flagField k.refreshCtx, flagField k.parallel]) ++ [(2, k.contextIdx)]) ++
    (k.resetSteps ++ ((each [(6, k.level), (3, k.sharpness)] ++ k.deltas.steps) ++ (k.quantSteps ++
    (optionalSteps CodedSeg.steps k.seg ++ each (k.tileFields c)))))))

theorem CodedFrame.steps_eq (k : CodedFrame) (c : Context) :
    k.steps c = each (frontFields k.profile) ++ (k.middleSteps c ++ each [(16, k.partition)]) := by
  simp only [CodedFrame.steps, CodedFrame.middleSteps, each_append, List.append_assoc]

/-- Steps 4 to 11. -/
theorem follows_beforeSize {k : CodedFrame} {c : Context} (hk : k.Legal c) (h8 : k.Spaced) :
    Follows beforeSize (k.middleSteps c) () c { Header.zero with profile := k.profile } (k.written c)
      { k.header c with firstPartitionSize := 0, headerLengthBytes := 0 } :=
  (follows_typed k c).bind ((follows_frameBranch hk h8).bind
    (Follows.bind0 ((follows_getCtx _ _).bind0 (follows_setHdr _ _ _)) ((follows_ctxFlags (e := k.resilient) k.refreshCtx k.parallel k.contextIdx _ (by rfl)).bind
    (follows_params hk (k.resets (by rfl) (by rfl) (by rfl)) (by rfl) (by rfl) (by rfl)))))

theorem cuts_uncompressedHeader {k : CodedFrame} {c : Context} (hk : k.Legal c) (h8 : k.Spaced) :
    Cuts uncompressedHeader (k.steps c) c Header.zero := by
  have hs : Cuts headerSize (each [(16, k.partition)]) (k.written c)
      { k.header c with firstPartitionSize := 0, headerLengthBytes := 0 } := cuts_first (follows_f (by decide) _ _ _).cuts _
  have hf : Cuts fullHeader (k.middleSteps c ++ each [(16, k.partition)]) c { Header.zero with profile := k.profile } := by
    rw [fullHeader_eq]
    exact cuts_then (follows_beforeSize hk h8) (cuts_first hs _)
  have := cuts_then (k := fun _ => profile >>= fun _ => showExisting >>= fun short => whenTrue (!short) fullHeader)
    (follows_frameMarker c Header.zero) <|
    cuts_then (follows_profile k.profile c Header.zero) <|
    cuts_then (follows_showExisting c _) hf
  rw [k.steps_eq]
  have e : each (frontFields k.profile) = each [(2, Config.frameMarker)] ++
      (each ([(1, k.profile % 2), (1, k.profile / 2)] ++ if k.profile = 3 then [(1, 0)] else []) ++ each [(1, 0)]) := by
    simp only [frontFields, ← each_append]
    rfl
  rw [e, List.append_assoc, List.append_assoc]
  exact this

/-! ### The steps read the fields -/

namespace CodedStep

theorem fields_rounds {n : Nat} (body : Fin n → List CodedStep) :
    fields (rounds body) = (List.finRange n).flatMap fun i => fields (body i) := by
  unfold rounds
  induction List.finRange n with
  | nil => rfl
  | cons i is ih => simp [fields_append, ih]

theorem fields_optionalSteps (value : α → List CodedStep) (o : Option α) :
    fields (optionalSteps value o) = optionalFields (fun v => fields (value v)) o := by
  cases o <;> simp [optionalSteps, optionalFields, fields]

end CodedStep

theorem ColorCode.fields_steps {k : ColorCode} {p : Nat} (hk : k.cause p = .none) :
    CodedStep.fields (k.steps p) = k.fields p := by
  have h2 : CodedStep.fields (if 2 ≤ p then [CodedStep.read [flagField k.twelve]] else []) =
      if 2 ≤ p then [flagField k.twelve] else [] := by split <;> rfl
  unfold ColorCode.cause at hk
  unfold ColorCode.steps ColorCode.fields
  rw [fields_append, fields_append, fields_append, h2]
  by_cases h7 : k.space = 7
  · by_cases hs : subsampled p
    · simp [h7, hs, CodedStep.fields, color]
    · simp [h7, hs] at hk
  · by_cases hs : subsampled p
    · have hss : ¬ (k.ssX = true ∧ k.ssY = true) := fun h => by simp [h7, hs, h.1, h.2] at hk
      simp [h7, hs, hss, CodedStep.fields, color]
    · simp [h7, hs, CodedStep.fields, color]

theorem CodedFrame.fields_kindSteps {k : CodedFrame} {c : Context} (hk : k.Legal c) :
    CodedStep.fields k.kindSteps = k.kindFields := by
  have hcol := hk.color
  obtain ⟨profile, showFrame, resilient, kind, render, _, _, _, _, _, _, _, _, _, _, _, _, _, _⟩ := k
  cases kind with
  | key col w h =>
    simp only [CodedFrame.kindSteps, CodedFrame.kindFields, fields_append, fields_each, ColorCode.fields_steps hcol,
      List.append_assoc]
  | intra r col m w h =>
    have : CodedStep.fields (if profile = 0 then [CodedStep.color fun _ => intraOnlyColor] else col.steps profile) =
        if profile = 0 then [] else col.fields profile := by
      split
      · rfl
      · exact ColorCode.fields_steps (hcol.resolve_left ‹_›)
    simp only [CodedFrame.kindSteps, CodedFrame.kindFields, fields_append, fields_each, this, List.append_assoc]
  | inter _ _ _ _ _ _ _ => simp only [CodedFrame.kindSteps, fields_each]

theorem CodedDeltas.fields_steps (d : CodedDeltas) : CodedStep.fields d.steps = d.fields := by
  cases d with
  | disabled => rfl
  | kept => rfl
  | updated r m =>
    simp only [CodedDeltas.steps, CodedDeltas.fields, fields_append, fields_each, fields_rounds, fields_optionalSteps,
      CodedStep.fields, List.append_nil, toList_flatMap]

theorem CodedMap.fields_steps (m : CodedMap) : CodedStep.fields m.steps = m.fields := by
  obtain ⟨tree, _ | v⟩ := m <;>
    simp [CodedMap.steps, CodedMap.fields, fields_append, fields_rounds, fields_optionalSteps, CodedStep.fields, optionalFields,
      toList_flatMap, probFields]

theorem CodedFeature.fields_part (i : Fin 8) (o : Option α) (value : α → List BitField) (enable : Bool → SegFeature → SegFeature)
    (put : SegFeature → SegFeature) : CodedStep.fields (part i o value enable put) = optionalFields value o := by
  cases o <;> simp [part, CodedStep.fields, feature, optionalFields]

theorem CodedData.fields_steps (d : CodedData) : CodedStep.fields d.steps = d.fields := by
  simp [CodedData.steps, CodedData.fields, fields_append, fields_rounds, CodedStep.fields, toList_flatMap, CodedFeature.steps,
    CodedFeature.fields, CodedFeature.fields_part, CodedStep.feature]

theorem CodedSeg.fields_steps (g : CodedSeg) : CodedStep.fields g.steps = g.fields := by
  simp only [CodedSeg.steps, CodedSeg.fields, fields_append, fields_optionalSteps, CodedMap.fields_steps, CodedData.fields_steps]

theorem CodedFrame.fields_steps {k : CodedFrame} {c : Context} (hk : k.Legal c) :
    CodedStep.fields (k.steps c) = k.fields c := by
  have hr : CodedStep.fields k.resetSteps = [] := by unfold CodedFrame.resetSteps; split <;> rfl
  have hq : CodedStep.fields k.quantSteps = k.quantFields := by
    simp [CodedFrame.quantSteps, CodedFrame.quantFields, fields_append, fields_optionalSteps, CodedStep.fields]
  simp only [CodedFrame.steps, CodedFrame.fields, fields_append, fields_each, CodedFrame.fields_kindSteps hk, hr, hq,
    CodedDeltas.fields_steps, fields_optionalSteps, CodedSeg.fields_steps, CodedFrame.filterFields, List.append_assoc, List.nil_append]

/-! ### A PARSE of a cut buffer (R131, R146) -/

theorem CodedFrame.spaced {s : State} {k : CodedFrame} {c : Context} (hf : s.codes 0 (k.fields c)) : k.Spaced := by
  have hk : ∃ p, s.codes p k.kindFields := by
    simp only [CodedFrame.fields, List.append_assoc] at hf
    exact ⟨_, (State.codes_append.mp (State.codes_append.mp (State.codes_append.mp hf).2).2).1⟩
  obtain ⟨p, hk⟩ := hk
  obtain ⟨profile, showFrame, resilient, kind, render, _, _, _, _, _, _, _, _, _, _, _, _, _, _⟩ := k
  cases kind with
  | key col w h =>
    simp only [CodedFrame.kindFields, List.append_assoc] at hk
    exact ColorCode.space_lt (State.codes_append.mp (State.codes_append.mp hk).2).1
  | intra r col m w h =>
    intro hp
    simp only [CodedFrame.kindFields, List.append_assoc, if_neg (show ¬ profile = 0 from hp)] at hk
    exact ColorCode.space_lt (State.codes_append.mp (State.codes_append.mp (State.codes_append.mp hk).2).2).1
  | inter _ _ _ _ _ _ _ => trivial

/-- A coded frame lies inside the buffer. -/
theorem CodedFrame.bits_inside {s : State} {k : CodedFrame} {c : Context} (hf : s.codes 0 (k.fields c)) :
    bitsOf (k.fields c) ≤ 8 * s.port.len := by
  rw [k.fields_eq, ← List.append_assoc] at hf ⊢
  have h16 : _ + 16 ≤ 8 * s.port.len := Reader.field_inside (State.codes_append.mp hf).2.1 (Nat.succ_pos 15)
  simp only [bitsOf_append, bitsOf_cons, bitsOf_nil] at h16 ⊢
  omega

/-- A cut leaves a PARSE within its contract. -/
theorem State.ParseReady.cut {s : State} (h : s.ParseReady) {len : Nat} (hl : len ≤ s.port.len) : (s.cut len).ParseReady where
  alone := h.alone
  live := h.live
  buffer := h.buffer.imp (fun ⟨hb, h0⟩ => ⟨hb, by show len = 0; omega⟩) fun ⟨m, hb, hm⟩ =>
    ⟨m, hb, fun a ha => hm a (Nat.lt_of_lt_of_le ha hl)⟩
  fixed := h.fixed

/-- A buffer that codes a frame, cut inside it: the PARSE stops at the read that does not fit, and the context is what the steps
before it write. -/
theorem coded_cut {s : State} {k : CodedFrame} {len : Nat} (hk : k.Legal s.inst.ctx) (hf : s.codes 0 (k.fields s.inst.ctx))
    (hl : len ≤ s.port.len) (hn : 8 * len < bitsOf (k.fields s.inst.ctx)) :
    ∃ h, uncompressedHeader (startWork (s.cut len)) = .error (.raised .outOfData)
      (workAt (s.cut len).port.reader (reach (k.steps s.inst.ctx) (8 * len))
        (CodedStep.cut (k.steps s.inst.ctx) (8 * len) s.inst.ctx) h) := by
  have he := k.fields_steps hk
  have := cuts_uncompressedHeader hk (k.spaced hf) s 0 len (by rwa [he]) hl (Nat.zero_le _) (by rw [he]; omega)
  rwa [Nat.zero_add] at this

/-- Cut inside the last field, everything before it is written. -/
theorem CodedFrame.cut_last {k : CodedFrame} {c : Context} {n : Nat} (hk : k.Legal c) (h8 : k.Spaced)
    (h1 : n < bitsOf (k.fields c)) (h2 : bitsOf (k.fields c) ≤ n + 16) : CodedStep.cut (k.steps c) n c = k.written c := by
  have hr : run (each (frontFields k.profile) ++ k.middleSteps c) c = k.written c := by
    rw [run_append, run_each, (follows_beforeSize hk h8).leads]
  have hb : bitsOf (CodedStep.fields (each (frontFields k.profile) ++ k.middleSteps c)) + 16 = bitsOf (k.fields c) := by
    rw [← k.fields_steps hk, k.steps_eq, ← List.append_assoc, fields_append _ (each [(16, k.partition)]), bitsOf_append, fields_each]
    rfl
  rw [k.steps_eq, ← List.append_assoc, cut_later _ c (by omega), hr]
  show (if _ then _ else _) = _
  rw [if_neg (by simp; omega)]

/-- Any PARSE, on a buffer cut before the point it reads to. -/
theorem shorter_outOfData {s : State} {len : Nat} (hl : len ≤ s.port.len) {r : EStateM.Result Abort Work Unit}
    (hu : uncompressedHeader (startWork s) = r) {w : Work} (hr : r = .ok () w ∨ ∃ c, r = .error (.raised c) w)
    (hw : 8 * len < w.br.pos) : ∃ v, uncompressedHeader (startWork (s.cut len)) = .error (.raised .outOfData) v := by
  have hx : Work.Extends false (startWork (s.cut len)) (startWork s) := ⟨Reader.Extends.cut s hl 0, rfl, rfl⟩
  have hs := built_uncompressedHeader.shorter _ _ hx (Nat.zero_le _)
  have hlen : (startWork (s.cut len)).br.len = len := rfl
  rw [hu, hlen] at hs
  rcases hr with rfl | ⟨c, rfl⟩ <;> rcases hc : uncompressedHeader (startWork (s.cut len)) with ⟨_, v⟩ | ⟨_ | _, v⟩ <;>
    rw [hc] at hs <;> simp only [Shorter] at hs
  · have := hs.2.1.br.pos; omega
  · cases hs; exact ⟨v, rfl⟩
  · cases hs
  · rcases hs with rfl | ⟨_, h, _, hp⟩
    · exact ⟨v, rfl⟩
    · have := h.br.pos; omega

end Sys2Proof.Machine
end

