-- ==== Sys2Proof/Laws/CodedSync.lean ====
section
/-! SUPPORT. The sync code of a key frame and of an intra-only frame of any profile (R99): a buffer that codes another value there ends
in BAD_SYNC_CODE, one that codes the right value does not, and BAD_SYNC_CODE comes of nothing else. -/

namespace Sys2Proof.Machine

variable {s : State}

theorem breaks_syncCode {v : Nat} (hv : v ≠ Config.syncCode) (c : Context) (h : Header) :
    Breaks s syncCode [(24, v)] .badSyncCode c h c := by
  refine breaks_then (gs := []) (runs_f (by decide) v c h) ?_
  rw [show (v != Config.syncCode) = true by simpa using hv]
  exact breaks_raise _ c h

/-- Another value ends the PARSE before anything is written. -/
theorem sync_breaks {q : ColorFront} {v : Nat} (hv : v ≠ Config.syncCode) (hf : s.codes 0 (q.lead ++ [(24, v)])) :
    ∃ h, uncompressedHeader (startWork s) =
      .error (.raised .badSyncCode) (workAt s.port.reader (bitsOf (q.lead ++ [(24, v)])) s.inst.ctx h) := by
  cases q with
  | key p b e =>
    simp only [ColorFront.lead, List.append_assoc] at hf ⊢
    obtain ⟨h1, hm⟩ := front_run hf
    rw [h1, bitsOf_append]
    exact breaks_key (b := b) (e := e) (breaks_first (breaks_syncCode hv _ _)) _ hm
  | intra p e r =>
    simp only [ColorFront.lead, List.append_assoc] at hf ⊢
    obtain ⟨h1, hm⟩ := front_run hf
    rw [h1, bitsOf_append]
    exact breaks_inter (b := false) (e := e) (i := true) r (fun _ => rfl) (breaks_first (breaks_syncCode hv _ _)) _ hm

/-- The right value does not end it. -/
theorem sync_not_raised {q : ColorFront} (hf : s.codes 0 q.fields) {w : Work} :
    uncompressedHeader (startWork s) ≠ .error (.raised .badSyncCode) w := by
  intro hu
  cases q with
  | key p b e =>
    simp only [ColorFront.fields, ColorFront.lead, List.append_assoc] at hf
    obtain ⟨h1, hm⟩ := front_run hf
    obtain ⟨ht, hm⟩ := State.codes_append (xs := [flagField false, flagField b, flagField e]).mp hm
    rw [h1] at hu
    unfold fullHeader at hu
    rw [(runs_frameType false b e _ _).then_run ht] at hu
    rcases bind_error.mp hu with hu | ⟨⟨⟩, w1, _, hu⟩
    · rw [frameBranch_key rfl] at hu
      unfold keyFrame at hu
      rw [(runs_syncCode _ _).then_run hm] at hu
      exact absurd (raises_afterSync_key _ _ _ hu) (by decide)
    · exact absurd (raises_tail _ _ _ hu) (by decide)
  | intra p e r =>
    simp only [ColorFront.fields, ColorFront.lead, List.append_assoc] at hf
    obtain ⟨h1, hm⟩ := front_run hf
    obtain ⟨ht, hm⟩ := State.codes_append (xs := [flagField true, flagField false, flagField e]).mp hm
    obtain ⟨hl, hm⟩ := State.codes_append.mp hm
    rw [h1] at hu
    unfold fullHeader at hu
    rw [(runs_frameType true false e _ _).then_run ht] at hu
    rcases bind_error.mp hu with hu | ⟨⟨⟩, w1, _, hu⟩
    · rw [frameBranch_inter rfl, interFrame_branch (i := true) (b := false) (e := e) _ rfl rfl (fun _ => rfl) hl, if_pos rfl] at hu
      unfold intraBranch at hu
      rw [(runs_syncCode _ _).then_run hm] at hu
      exact absurd (raises_afterSync_intra _ _ _ hu) (by decide)
    · exact absurd (raises_tail _ _ _ hu) (by decide)

/-- A step that begins with the check and raises its cause: the value coded. -/
theorem syncCode_raised {α : Type} {k : Unit → Grammar α} {P : Nat} {c : Context} {h : Header} {w : Work} {C : List Cause}
    (hk : Raises C (k ())) (hC : Cause.badSyncCode ∉ C)
    (hw : (syncCode >>= k) (workAt s.port.reader P c h) = .error (.raised .badSyncCode) w) :
    ∃ v, v ≠ Config.syncCode ∧ s.codes P [(24, v)] := by
  rcases bind_error.mp hw with hw | ⟨⟨⟩, w1, _, hw⟩
  · unfold syncCode at hw
    rcases bind_error.mp hw with hw | ⟨v, w1, h1, hw⟩
    · exact absurd (raises_receive [] _ _ _ _ hw) (by decide)
    · obtain ⟨hc, rfl⟩ := f_code h1
      refine ⟨v, fun hv => ?_, hc⟩
      subst hv
      cases hw
  · rcases hk _ _ _ hw with h | h
    · cases h
    · exact absurd h hC

/-- BAD_SYNC_CODE: the buffer codes a front whose sync code is another value. -/
theorem sync_codes {w : Work} (hu : uncompressedHeader (startWork s) = .error (.raised .badSyncCode) w) :
    ∃ (q : ColorFront) (v : Nat), q.profile ≤ 3 ∧ v ≠ Config.syncCode ∧ s.codes 0 (q.lead ++ [(24, v)]) := by
  obtain ⟨p, t, b, e, hp, hc, hb⟩ := branch_codes hu (by decide)
  cases t with
  | false =>
    obtain ⟨v, hv, hs⟩ := syncCode_raised raises_afterSync_key (by decide) hb
    exact ⟨.key p b e, v, hp, hv, State.codes_append.mpr ⟨hc, State.codes_at hs (by simp [ColorFront.lead, flagField])⟩⟩
  | true =>
    obtain ⟨i, r, hl, hi, hb⟩ := lead_codes (by decide) hb
    cases i with
    | false => exact absurd (raises_interBranch _ _ _ hb) (by decide)
    | true =>
      obtain rfl : b = false := hi rfl
      obtain ⟨v, hv, hs⟩ := syncCode_raised raises_afterSync_intra (by decide) hb
      refine ⟨.intra p e r, v, hp, hv, State.codes_append.mpr ⟨State.codes_append.mpr ⟨hc, ?_⟩, ?_⟩⟩
      · exact State.codes_at hl (by simp [flagField])
      · exact State.codes_at hs (by simp [ColorFront.lead, flagField]; omega)

end Sys2Proof.Machine
end

