-- ==== Sys2Proof/Laws/PerInstr.lean ====
section
/-! SUPPORT. Statements made once per instruction. The family `EncodeFields`: the two fields of an instruction's word are its
row's `OPC` and its count, 0 where the row has none (R57, R58). -/

namespace Sys2Proof.Laws

/-- `OPC` of an instruction's row (R58). -/
def EncodeFields.opc : Instr → Nat
  | .create => 0x01
  | .parse => 0x02
  | .destroy => 0x03
  | .brInit => 0x10
  | .readBits _ => 0x11
  | .readSigned _ => 0x12
  | .readFlag => 0x13
  | .getPos => 0x14

/-- `N` of an instruction's word: its count, 0 where the row has none (R58). -/
def EncodeFields.count : Instr → Nat
  | .readBits n => n
  | .readSigned n => n
  | .create | .parse | .destroy | .brInit | .readFlag | .getPos => 0

/-- The word of a well-formed instruction has its row's fields. -/
def EncodeFields.Statement (i : Instr) : Prop :=
  i.wf = true → opcField (encode i) = EncodeFields.opc i ∧ countField (encode i) = EncodeFields.count i

theorem EncodeFields.create : EncodeFields.Statement .create := fun _ => by decide
theorem EncodeFields.parse : EncodeFields.Statement .parse := fun _ => by decide
theorem EncodeFields.destroy : EncodeFields.Statement .destroy := fun _ => by decide
theorem EncodeFields.brInit : EncodeFields.Statement .brInit := fun _ => by decide
theorem EncodeFields.readFlag : EncodeFields.Statement .readFlag := fun _ => by decide
theorem EncodeFields.getPos : EncodeFields.Statement .getPos := fun _ => by decide

theorem EncodeFields.readBits (n : Nat) : EncodeFields.Statement (.readBits n) := fun h =>
  have hn : n < 256 := by have := Instr.wf_readBits.mp h; omega
  ⟨opcField_commandWord (by decide) hn, countField_commandWord hn⟩

theorem EncodeFields.readSigned (n : Nat) : EncodeFields.Statement (.readSigned n) := fun h =>
  have hn : n < 256 := by have := Instr.wf_readSigned.mp h; omega
  ⟨opcField_commandWord (by decide) hn, countField_commandWord hn⟩

end Sys2Proof.Laws
end

