-- ==== Sys2Proof/Tests/Slice0.lean ====
section
/-! SUPPORT. Tests: the well-formedness smoke, every operation's word written out from R58, one or two small checks per
operation with the values of 95_test_vectors.md, and for every obligation with hypotheses a state that meets them. -/

open Sys2Proof Sys2Proof.Machine

namespace Sys2Proof.Tests

set_option Elab.async false

/-! ### Well-formedness (R58) -/

theorem test_wf_refuses_count_33 : (Instr.readBits 33).wf = false := by decide
theorem test_wf_refuses_width_32 : (Instr.readSigned 32).wf = false := by decide
theorem test_wf_takes_the_largest_counts : (Instr.readBits 32).wf = true ∧ (Instr.readSigned 31).wf = true := by decide

/-! ### The words of R58, bit by bit: OPC in bits 15 to 8, N in bits 7 to 0 -/

theorem test_decode_create : decode 0b0000000100000000#16 = .ok .create := rfl
theorem test_decode_parse : decode 0b0000001000000000#16 = .ok .parse := rfl
theorem test_decode_destroy : decode 0b0000001100000000#16 = .ok .destroy := rfl
theorem test_decode_brInit : decode 0b0001000000000000#16 = .ok .brInit := rfl
theorem test_decode_readBits : decode 0b0001000100000011#16 = .ok (.readBits 3) := rfl
theorem test_decode_readSigned : decode 0b0001001000000100#16 = .ok (.readSigned 4) := rfl
theorem test_decode_readFlag : decode 0b0001001100000000#16 = .ok .readFlag := rfl
theorem test_decode_getPos : decode 0b0001010000000000#16 = .ok .getPos := rfl

/-- R59's refusals, each by its name. -/
theorem test_refused_words : decode 0x0000#16 = .error .unassignedOpcode ∧ decode 0x0400#16 = .error .unassignedOpcode ∧
    decode 0x1500#16 = .error .unassignedOpcode ∧ decode 0x1121#16 = .error .countTooWide ∧
    decode 0x1220#16 = .error .countTooWide ∧ decode 0x0101#16 = .error .countNotZero ∧
    decode 0x14FF#16 = .error .countNotZero := ⟨rfl, rfl, rfl, rfl, rfl, rfl, rfl⟩

theorem test_table_word : decodeTableWord 16 0x1118 = some (.readBits 24) ∧ decodeTableWord 16 0xFFFF = none := by decide

/-! ### Helpers -/

/-- A machine with one instance `x`, and `bs` on the data port. -/
def stateWith (x : Instance) (bs : List Byte) : State :=
  { insts := [(0, x)], port := { Port.idle with buf := some (Memory.ofBytes bs), len := bs.length }
    response := none, script := [] }

/-- A LIVE instance with context `c`. -/
def live (c : Context) : Instance := { Instance.created with ctx := c }

/-- A LIVE instance whose reader is over `bs` at bit `p`. -/
def reading (bs : List Byte) (p : Nat) : Instance :=
  { Instance.created with br := { buf := Memory.ofBytes bs, len := bs.length, pos := p } }

/-- Deciding what a command ends in. -/
def goesOn (i : Instr) (s : State) (p : State → Bool) : Bool :=
  match exec i s with
  | .next t => p t
  | .fault _ => false
  | .refused _ => false

theorem of_goesOn {i : Instr} {s : State} {p : State → Bool} (h : goesOn i s p = true) :
    ∃ t, exec i s = .next t ∧ p t = true := by
  unfold goesOn at h
  split at h
  · exact ⟨_, ‹_›, h⟩
  · cases h
  · cases h

/-- Deciding that a PARSE ends in a header that carries a frame. -/
def framed (s : State) (p : State → Bool) : Bool :=
  goesOn .parse s fun t => decide (t.inst.result = .ok) && (!t.inst.hdr.showExistingFrame && p t)

theorem of_framed {s : State} {p : State → Bool} (h : framed s p = true) : ∃ t, ParsedFrame s t ∧ p t = true := by
  obtain ⟨t, h1, h2⟩ := of_goesOn h
  simp only [Bool.and_eq_true, decide_eq_true_eq, Bool.not_eq_true'] at h2
  exact ⟨t, ⟨h1, h2.1, h2.2.1⟩, h2.2.2⟩

theorem given {s : State} {bs : List Byte} (hb : s.port.buf = some (Memory.ofBytes bs))
    (h : ∀ a < s.port.len, (lookup a (Memory.ofBytes bs)).isSome = true) : s.port.bufferGiven :=
  .inr ⟨_, hb, fun a ha => Option.isSome_iff_exists.mp (h a ha)⟩

/-- Deciding that the buffer holds these fields. -/
def codesCheck (s : State) : Nat → List BitField → Bool
  | _, [] => true
  | p, x :: xs => decide (s.bufferField p x.1 = some x.2) && codesCheck s (p + x.1) xs

theorem of_codesCheck {s : State} : ∀ {fs : List BitField} {p : Nat}, codesCheck s p fs = true → s.codes p fs
  | [], _, _ => trivial
  | _ :: _, _, h => by
    obtain ⟨h1, h2⟩ := (Bool.and_eq_true _ _).mp h
    exact ⟨of_decide_eq_true h1, of_codesCheck h2⟩

/-! ### Buffers and contexts of 95_test_vectors.md -/

/-- The key frame 352 by 288 (vector FV6). -/
def keyBytes : List Byte := [0x82, 0x49, 0x83, 0x42, 0x20, 0x15, 0xf0, 0x11, 0xf0, 0x14, 0x07, 0x80, 0x00, 0x64]

/-- The context it leaves from CREATE. -/
def keyContext : Context :=
  { Context.reset with
    lfRefDelta := #v[1, 0, -1, -1]
    color := { bitDepth := .eight, colorSpace := .bt601, colorRange := .limited, subsamplingX := true, subsamplingY := true }
    refs := Vector.replicate 8 { valid := true, width := 352, height := 288 } }

def afterCreate (bs : List Byte) : State := stateWith Instance.created bs
def afterKey (bs : List Byte) : State := stateWith (live keyContext) bs

/-- A show-existing header of profile 0, slot 5 (FV1). -/
def showBytes : List Byte := [0x8d]

/-- An intra-only frame of profile 0 (FV20). -/
def intraBytes : List Byte :=
  [0x84, 0xe9, 0x30, 0x68, 0x40, 0xc0, 0x15, 0xe0, 0x11, 0xf0, 0x15, 0xf0, 0x11, 0xf0, 0x28, 0x0f, 0x00, 0x00, 0xc8]

/-- An inter frame that updates deltas (FV13). -/
def deltaBytes : List Byte := [0x86, 0x00, 0x40, 0x92, 0x10, 0x28, 0x68, 0xa4, 0x7a, 0x18, 0xf0, 0x00, 0x0c, 0x80]

/-- An inter frame that updates segment data (FV15). -/
def segDataBytes : List Byte := [0x86, 0x00, 0x40, 0x92, 0x10, 0x28, 0x0f, 0x05, 0x00, 0x04, 0x52, 0xd0, 0x00, 0x00, 0x03, 0x20]

/-- An inter frame that updates the segment map with prediction probabilities (FV24). -/
def segMapBytes : List Byte := [0x86, 0x00, 0x40, 0x92, 0x10, 0x28, 0x0f, 0x07, 0x80, 0x04, 0x1e, 0xe4, 0x00, 0x06, 0x40]

/-- An inter frame with switchable filters, its size from LAST's slot (FV21e). -/
def interBytes : List Byte := [0x86, 0x00, 0x40, 0x92, 0x40, 0xa0, 0x3c, 0x00, 0x03, 0x20]

/-- The longest header, 499 bits (the vector of R127). -/
def longBytes : List Byte :=
  [0xb2, 0x44, 0x98, 0x34, 0x29, 0x4f, 0xf0, 0xff, 0xf0, 0x03, 0xf8, 0x7f, 0xf8, 0x01, 0xff, 0xff] ++
  [0xff, 0xef, 0xff, 0xef, 0xff, 0xff, 0xef, 0xff, 0xfe, 0xff, 0x80, 0xc0, 0xa0, 0x70, 0x48, 0x2c] ++
  [0x1a, 0x0f, 0xb2, 0x59, 0x6c, 0xdf, 0xfd, 0xfd, 0xff, 0xff, 0xff, 0xff, 0xdf, 0xdf, 0xff, 0xff] ++
  [0xff, 0xfd, 0xfd, 0xff, 0xff, 0xff, 0xff, 0xdf, 0xdf, 0xff, 0xff, 0xff, 0xff, 0xff, 0xe0]

theorem ready_afterCreate_key : (afterCreate keyBytes).ParseReady := ⟨rfl, rfl, given rfl (by decide), rfl⟩
theorem ready_afterKey_inter : (afterKey interBytes).ParseReady := ⟨rfl, rfl, given rfl (by decide), rfl⟩
theorem keyContext_inRange : keyContext.inRange := by constructor <;> decide
theorem afterCreate_inRange (bs : List Byte) : (afterCreate bs).inst.ctx.inRange :=
  show Context.reset.inRange by constructor <;> decide
theorem afterKey_inRange (bs : List Byte) : (afterKey bs).inst.ctx.inRange := keyContext_inRange

/-! ### One or two checks per operation -/

/-- FA1: CREATE. -/
theorem test_create : goesOn .create { State.reset with insts := [] } (fun t =>
    decide (t.inst.life = .live ∧ t.inst.ctx = Context.reset ∧ t.response = none)) = true := by decide +kernel

/-- FA7: CREATE on a LIVE instance. -/
theorem test_create_live : exec .create State.reset = .refused .notAbsent := rfl

/-- FV6. -/
theorem test_parse_key_frame : goesOn .parse (afterCreate keyBytes) (fun t =>
    decide (t.inst.result = .ok ∧ t.inst.ctx = keyContext ∧ t.inst.hdr.height = 288 ∧ t.inst.hdr.lf.level = 10 ∧
      t.inst.hdr.q.baseQIdx = 60 ∧ t.inst.hdr.firstPartitionSize = 100 ∧ t.inst.hdr.headerLengthBytes = 14)) = true := by
  decide +kernel

/-- FV13: the deltas, with their flags. -/
theorem test_parse_deltas : goesOn .parse (afterKey deltaBytes) (fun t =>
    decide (t.inst.result = .ok ∧ t.inst.ctx.lfRefDelta = #v[1, 5, -1, -7] ∧ t.inst.ctx.lfModeDelta = #v[0, 3] ∧
      t.inst.hdr.lf.refDeltaUpdated = #v[false, true, false, true] ∧
      t.inst.hdr.lf.modeDeltaUpdated = #v[false, true] ∧ t.inst.br.pos = 107)) = true := by decide +kernel

/-- FA4: DESTROY. -/
theorem test_destroy : goesOn .destroy State.reset (fun t => decide (t.inst.life = .destroyed)) = true := by decide +kernel

/-- FA6: DESTROY on an ABSENT instance is misuse. -/
theorem test_destroy_absent : exec .destroy { State.reset with insts := [] } = .refused .notLive := rfl

/-- R77's example. -/
theorem test_brInit : goesOn .brInit (afterCreate [0xA5, 0x3C]) (fun t =>
    decide (t.inst.br.len = 2 ∧ t.inst.br.pos = 0 ∧ t.response = some (.ok 0))) = true := by decide +kernel

/-- BR11: the widest field of the grammar. -/
theorem test_readBits_24 : goesOn (.readBits 24) (stateWith (reading [0x49, 0x83, 0x42] 0) []) (fun t =>
    decide (t.response = some (.ok 0x498342) ∧ t.inst.br.pos = 24)) = true := by decide +kernel

/-- BR12: one bit short. -/
theorem test_readBits_short : goesOn (.readBits 25) (stateWith (reading [0x49, 0x83, 0x42] 0) []) (fun t =>
    decide (t.response = some .outOfData ∧ t.inst.br.pos = 0)) = true := by decide +kernel

/-- BR16: across a byte boundary. -/
theorem test_readSigned_straddles : goesOn (.readSigned 8) (stateWith (reading [0x7F, 0x80] 0) []) (fun t =>
    decide (t.response = some (.ok (-127)) ∧ t.inst.br.pos = 9)) = true := by decide +kernel

/-- BR18: the sign bit lies past the end. -/
theorem test_readSigned_short : goesOn (.readSigned 8) (stateWith (reading [0xFF] 0) []) (fun t =>
    decide (t.response = some .outOfData ∧ t.inst.br.pos = 0)) = true := by decide +kernel

/-- BR4: stream bit 13. -/
theorem test_readFlag : goesOn .readFlag (stateWith (reading [0xA5, 0x3C] 13) []) (fun t =>
    decide (t.response = some (.ok 1) ∧ t.inst.br.pos = 14)) = true := by decide +kernel

/-- BR6. -/
theorem test_getPos : goesOn .getPos (stateWith (reading [0xA5, 0x3C] 14) []) (fun t =>
    decide (t.response = some (.ok 14) ∧ t.inst.br.pos = 14)) = true := by decide +kernel

/-! ### States that meet the obligations' hypotheses -/

theorem witness_DecodeEncodeRoundTrip : (Instr.readBits 32).wf = true ∧ (Instr.readSigned 31).wf = true ∧
    (Instr.readBits 0).wf = true := by decide

theorem witness_DecodedWordsEncodeBack : decode 0x111F#16 = .ok (.readBits 31) := rfl

theorem witness_ReservedWordsAreRefused :
    (∃ s : State, s.script = [{ word := 0x1121#16, port := Port.idle }]) ∧
      decode 0x1121#16 = .error .countTooWide ∧ decode 0x1220#16 = .error .countTooWide ∧
      decode 0x0101#16 = .error .countNotZero ∧ decode 0x0000#16 = .error .unassignedOpcode ∧
      (32 : Nat) < 33 ∧ (31 : Nat) < 32 :=
  ⟨⟨{ State.reset with script := [{ word := 0x1121#16, port := Port.idle }] }, rfl⟩, rfl, rfl, rfl, rfl, by decide,
    by decide⟩

/-- A machine whose host is going to issue a PARSE of the key frame. -/
def aboutToParse : State :=
  { State.reset with script := [{ word := 0x0200#16, port := (afterCreate keyBytes).port }] }

theorem witness_StepRunsTheDecodedCommand :
    aboutToParse.script = { word := 0x0200#16, port := (afterCreate keyBytes).port } :: [] ∧
      decode 0x0200#16 = .ok .parse := ⟨rfl, rfl⟩

theorem witness_IdleBlockHoldsItsState : State.reset.script = [] := rfl

theorem witness_BrInitBindsTheBuffer :
    (State.reset.ReaderReady ∧ State.reset.port.bufferGiven) ∧
      (afterCreate [0xA5, 0x3C]).ReaderReady ∧ (afterCreate [0xA5, 0x3C]).port.bufferGiven :=
  ⟨⟨⟨rfl, by decide⟩, .inl ⟨rfl, rfl⟩⟩, ⟨rfl, by decide⟩, given rfl (by decide)⟩

/-- A reader over four bytes of 1 bits, at its start. -/
def ones : State := stateWith (reading [0xFF, 0xFF, 0xFF, 0xFF] 0) []

theorem ones_ready : ones.ReaderReady := ⟨rfl, by decide⟩
theorem ones_wf : ones.inst.br.wf = true := by decide

/-- A reader over one byte, at its start. -/
def short : State := stateWith (reading [0x49] 0) []

theorem short_ready : short.ReaderReady := ⟨rfl, by decide⟩
theorem short_wf : short.inst.br.wf = true := by decide

theorem witness_ReadBitsReadsTheNextBits :
    (ones.ReaderReady ∧ ones.inst.br.wf = true ∧ 32 ≤ 32 ∧ ones.inst.br.pos + 32 ≤ 8 * ones.inst.br.len) ∧
      short.ReaderReady ∧ short.inst.br.wf = true ∧ 9 ≤ 32 ∧ 8 * short.inst.br.len < short.inst.br.pos + 9 :=
  ⟨⟨ones_ready, ones_wf, by decide, by decide⟩, short_ready, short_wf, by decide, by decide⟩

/-- Both sides of the end: the last bit can be read, one more cannot; for each of the three reads. -/
theorem witness_ReadsFailExactlyWhenShortOfData :
    ones.ReaderReady ∧ ones.inst.br.wf = true ∧ (Instr.readBits 32).wf = true ∧ (Instr.readSigned 31).wf = true ∧
      Instr.readFlag.wf = true ∧ ¬ 8 * ones.inst.br.len < ones.inst.br.pos + 32 ∧
      (stateWith (reading [] 0) []).ReaderReady ∧ (stateWith (reading [] 0) []).inst.br.wf = true ∧
      8 * (stateWith (reading [] 0) []).inst.br.len < (stateWith (reading [] 0) []).inst.br.pos + 1 :=
  ⟨ones_ready, ones_wf, by decide, by decide, by decide, by decide, ⟨rfl, by decide⟩, by decide, by decide⟩

theorem witness_ReadSignedIsSignAndMagnitude :
    (ones.ReaderReady ∧ ones.inst.br.wf = true ∧ 31 ≤ 31 ∧ ones.inst.br.pos + 31 + 1 ≤ 8 * ones.inst.br.len) ∧
      short.ReaderReady ∧ short.inst.br.wf = true ∧ 8 ≤ 31 ∧ 8 * short.inst.br.len < short.inst.br.pos + 8 + 1 :=
  ⟨⟨ones_ready, ones_wf, by decide, by decide⟩, short_ready, short_wf, by decide, by decide⟩

/-- A reader over one byte, at its last bit and past it. -/
def lastBit (p : Nat) : State := stateWith (reading [0x01] p) []

theorem witness_ReadFlagIsOneBit :
    ((lastBit 7).ReaderReady ∧ (lastBit 7).inst.br.wf = true ∧ (lastBit 7).inst.br.pos + 1 ≤ 8 * (lastBit 7).inst.br.len) ∧
      (lastBit 8).ReaderReady ∧ (lastBit 8).inst.br.wf = true ∧
      8 * (lastBit 8).inst.br.len < (lastBit 8).inst.br.pos + 1 :=
  ⟨⟨⟨rfl, by decide⟩, by decide, by decide⟩, ⟨rfl, by decide⟩, by decide, by decide⟩

theorem witness_GetPosAnswersTheCursor : State.reset.ReaderReady := ⟨rfl, by decide⟩

/-- Each clause: a wide read that succeeds, one that fails, and a signed read. -/
theorem witness_ReadsCompose :
    (ones.ReaderReady ∧ ones.inst.br.wf = true ∧ 8 + 24 ≤ 32 ∧
      ∃ t, exec (.readBits (8 + 24)) ones = .next t ∧ decide (t.response = some (.ok 4294967295)) = true) ∧
    ((stateWith (reading [0x49] 0) []).ReaderReady ∧ (stateWith (reading [0x49] 0) []).inst.br.wf = true ∧
      ∃ t, exec (.readBits (8 + 16)) (stateWith (reading [0x49] 0) []) = .next t ∧
        decide (t.response = some .outOfData) = true) ∧
    31 ≤ 31 ∧ ∃ t, exec (.readSigned 31) ones = .next t ∧ decide (t.response = some (.ok (-2147483647))) = true :=
  ⟨⟨ones_ready, ones_wf, by decide, of_goesOn (by decide +kernel)⟩,
    ⟨⟨rfl, by decide⟩, by decide, of_goesOn (by decide +kernel)⟩, by decide, of_goesOn (by decide +kernel)⟩

theorem witness_CursorNeverMovesBack : ∃ t, exec (.readBits 3) ones = .next t ∧ decide (t.inst.br.pos = 3) = true :=
  of_goesOn (by decide +kernel)

/-- An empty machine. -/
def noInstance : State := { State.reset with insts := [] }

theorem witness_CreateGivesTheResetContext : noInstance.port.overlapped = false ∧ noInstance.inst.life = .absent :=
  ⟨rfl, rfl⟩

theorem witness_DestroyEndsTheInstance : State.reset.port.overlapped = false ∧ State.reset.inst.life = .live :=
  ⟨rfl, rfl⟩

/-- A host that overlaps two commands, and one that keeps its contract. -/
theorem witness_MisuseIsRefused :
    ({ State.reset with port := { Port.idle with overlapped := true } } : State).port.overlapped = true ∧
      ¬ (∃ r, exec .destroy State.reset = .refused r) := by
  refine ⟨rfl, ?_⟩
  obtain ⟨t, h, _⟩ := of_goesOn (i := .destroy) (s := State.reset) (p := fun _ => true) (by decide +kernel)
  rw [h]; simp

/-- The operations the statement names, at their largest counts. -/
theorem witness_ReaderMisuseIsRefused :
    Instr.getPos ∈ [Instr.readFlag, .getPos] ∧ (∃ n ≤ 32, Instr.readBits 32 = .readBits n) ∧
      ∃ n ≤ 31, Instr.readSigned 31 = .readSigned n :=
  ⟨by decide, ⟨32, by decide, rfl⟩, 31, by decide, rfl⟩

theorem witness_DestroyedInstanceTakesNoCommand :
    (stateWith { Instance.created with life := .destroyed } showBytes).inst.life = .destroyed := rfl

theorem witness_LifeChangesOnlyByCreateAndDestroy :
    (∃ t, exec .create noInstance = .next t ∧ decide (t.inst.life = .live) = true) ∧
      (∃ t, exec .destroy State.reset = .next t ∧ decide (t.inst.life = .destroyed) = true) ∧
      (∃ t, exec .getPos State.reset = .next t ∧ decide (t.inst.life = .live) = true) ∧
      ∃ t, exec .parse State.reset = .next t ∧ decide (t.inst.life = .live) = true :=
  ⟨of_goesOn (by decide +kernel), of_goesOn (by decide +kernel), of_goesOn (by decide +kernel),
    of_goesOn (by decide +kernel)⟩

theorem witness_ParseEndsInOneOfThreeWays :
    (afterCreate keyBytes).ParseReady ∧ (afterCreate [0x00]).ParseReady ∧ (afterCreate []).ParseReady :=
  ⟨ready_afterCreate_key, ⟨rfl, rfl, given rfl (by decide), rfl⟩, ⟨rfl, rfl, given rfl (by decide), rfl⟩⟩

/-- Length 0; FV6, which reads to bit 112, and the 13 bytes of FV7. -/
theorem witness_RunningOutOfDataIsNoPacket :
    (State.reset.ParseReady ∧ State.reset.port.len = 0) ∧
    (∃ t, exec .parse (afterCreate keyBytes) = .next t ∧ decide (8 * 13 < t.inst.br.pos) = true) ∧
    ∃ t, exec .parse ((afterCreate keyBytes).cut 13) = .next t ∧
      decide (t.inst.result = .noPacketError ∧ t.inst.cause = .outOfData) = true :=
  ⟨⟨⟨rfl, rfl, .inl ⟨rfl, rfl⟩, rfl⟩, rfl⟩, of_goesOn (by decide +kernel), of_goesOn (by decide +kernel)⟩

/-- FV4, FV4b and a right marker. -/
theorem witness_FrameMarkerIsChecked :
    ((afterCreate [0x00]).ParseReady ∧ (afterCreate [0x00]).bufferField 0 2 = some 0) ∧
      ((afterCreate [0xc0]).ParseReady ∧ (afterCreate [0xc0]).bufferField 0 2 = some 3) ∧
      (afterCreate keyBytes).ParseReady ∧ (afterCreate keyBytes).bufferField 0 2 = some 2 :=
  ⟨⟨⟨rfl, rfl, given rfl (by decide), rfl⟩, by decide +kernel⟩,
    ⟨⟨rfl, rfl, given rfl (by decide), rfl⟩, by decide +kernel⟩, ready_afterCreate_key, by decide +kernel⟩

/-- FV3 and FV2: profile 3 with its reserved bit 1 and 0; FV6: profile 0, a header that completes. -/
theorem witness_ProfileIsLowBitFirst :
    ((afterCreate [0xb8]).ParseReady ∧ (afterCreate [0xb8]).bufferField 0 2 = some 2 ∧
      (afterCreate [0xb8]).bufferField 2 1 = some 1 ∧ (afterCreate [0xb8]).bufferField 3 1 = some 1 ∧
      (afterCreate [0xb8]).bufferField 4 1 = some 1) ∧
    ((afterCreate [0xb5, 0x00]).ParseReady ∧ (afterCreate [0xb5, 0x00]).bufferField 0 2 = some 2 ∧
      (afterCreate [0xb5, 0x00]).bufferField 2 1 = some 1 ∧ (afterCreate [0xb5, 0x00]).bufferField 3 1 = some 1 ∧
      (afterCreate [0xb5, 0x00]).bufferField 4 1 ≠ some 1) ∧
    ∃ t, exec .parse (afterCreate [0xb5, 0x00]) = .next t ∧ decide (t.inst.result = .ok ∧ t.inst.hdr.profile = 3) = true :=
  ⟨⟨⟨rfl, rfl, given rfl (by decide), rfl⟩, by decide +kernel, by decide +kernel, by decide +kernel, by decide +kernel⟩,
    ⟨⟨rfl, rfl, given rfl (by decide), rfl⟩, by decide +kernel, by decide +kernel, by decide +kernel, by decide +kernel⟩,
    of_goesOn (by decide +kernel)⟩

/-- FV1 and FV2. -/
theorem witness_ShowExistingIsAWholeHeader :
    ((afterCreate showBytes).ParseReady ∧ (afterCreate showBytes).StartsWith 0 ∧
      (afterCreate showBytes).bufferField (2 + profileBits 0) 1 = some 1 ∧
      (afterCreate showBytes).bufferField (3 + profileBits 0) 3 = some 5) ∧
    (afterCreate [0xb5, 0x00]).ParseReady ∧ (afterCreate [0xb5, 0x00]).StartsWith 3 ∧
      (afterCreate [0xb5, 0x00]).bufferField (2 + profileBits 3) 1 = some 1 ∧
      (afterCreate [0xb5, 0x00]).bufferField (3 + profileBits 3) 3 = some 2 :=
  ⟨⟨⟨rfl, rfl, given rfl (by decide), rfl⟩,
      ⟨by decide +kernel, by decide +kernel, by decide +kernel, fun h => by cases h⟩, by decide +kernel, by decide +kernel⟩,
    ⟨rfl, rfl, given rfl (by decide), rfl⟩,
    ⟨by decide +kernel, by decide +kernel, by decide +kernel, fun _ => by decide +kernel⟩, by decide +kernel,
    by decide +kernel⟩

/-- FV8: sync code 0x498343. -/
def badSync : State := afterKey [0x82, 0x49, 0x83, 0x43, 0x20, 0x15, 0xf0, 0x11, 0xf0, 0x14, 0x07, 0x80, 0x00, 0x64]

/-- FV20b: an intra-only frame of profile 0 with sync code 0. -/
def badIntraSync : State :=
  afterKey [0x84, 0xe0, 0x00, 0x00, 0x00, 0xc0, 0x15, 0xe0, 0x11, 0xf0, 0x15, 0xf0, 0x11, 0xf0, 0x28, 0x0f, 0x00, 0x00, 0xc8]

/-- Clause by clause: FV8; FV8 and FV20b as fields; FV6 and FV20, whose sync code is right; FV20b's cause, after its 35 bits. -/
theorem witness_SyncCodeIsChecked :
    (badSync.ParseReady ∧ badSync.StartsWith 0 ∧ badSync.bufferField (2 + profileBits 0) 1 = some 0 ∧
      badSync.bufferField (3 + profileBits 0) 1 = some 0 ∧ badSync.bufferField (6 + profileBits 0) 24 = some 0x498343) ∧
    (badSync.codes 0 ((ColorFront.key 0 true false).lead ++ [(24, 0x498343)]) ∧ badIntraSync.ParseReady ∧
      badIntraSync.codes 0 ((ColorFront.intra 0 false 3).lead ++ [(24, 0)])) ∧
    ((afterCreate keyBytes).codes 0 ((ColorFront.key 0 true false).lead ++ [(24, 0x498342)]) ∧
      (afterKey intraBytes).codes 0 ((ColorFront.intra 0 false 3).lead ++ [(24, 0x498342)]) ∧
      ∃ t, exec .parse (afterKey intraBytes) = .next t ∧ decide (t.inst.result = .ok) = true) ∧
    ∃ t, exec .parse badIntraSync = .next t ∧
      decide (t.inst.cause = .badSyncCode ∧ t.inst.br.pos = 35 ∧ t.inst.ctx = keyContext) = true :=
  ⟨⟨⟨rfl, rfl, given rfl (by decide), rfl⟩,
      ⟨by decide +kernel, by decide +kernel, by decide +kernel, fun h => by cases h⟩, by decide +kernel, by decide +kernel,
      by decide +kernel⟩,
    ⟨of_codesCheck (by decide +kernel), ⟨rfl, rfl, given rfl (by decide), rfl⟩, of_codesCheck (by decide +kernel)⟩,
    ⟨of_codesCheck (by decide +kernel), of_codesCheck (by decide +kernel), of_goesOn (by decide +kernel)⟩,
    of_goesOn (by decide +kernel)⟩

/-- FV4, FV3, FV20b: the three causes, the last one of an intra-only frame. -/
theorem witness_EarlyFailuresKeepTheContext :
    (∃ t, exec .parse (afterKey [0x00]) = .next t ∧ decide (t.inst.cause = .badFrameMarker) = true) ∧
    (∃ t, exec .parse (afterKey [0xb8]) = .next t ∧ decide (t.inst.cause = .unsupportedProfile) = true) ∧
    ∃ t, exec .parse badIntraSync = .next t ∧
      decide (t.inst.cause = .badSyncCode) = true :=
  ⟨of_goesOn (by decide +kernel), of_goesOn (by decide +kernel), of_goesOn (by decide +kernel)⟩

/-- The inter frame of FV19 and FV21e: its size is that of LAST, whose slot is 0. -/
def sizeFromLast : RefSizeFront :=
  { profile := 0, showFrame := true, resilient := false, reset := 0, refresh := 1, slots := #v[0, 1, 2]
    signBias := #v[false, false, false], ref := 0 }

/-- FV19c: its size is that of GOLDEN, whose slot is 2. -/
def sizeFromGolden : RefSizeFront := { sizeFromLast with slots := #v[0, 2, 5], ref := 1 }

/-- FV19c's bytes. -/
def goldenBytes : List Byte := [0x86, 0x00, 0x41, 0x29, 0x08, 0x14, 0x07, 0x80, 0x00, 0x32, 0x00]

/-- FV19 and FV19c against a context whose slots are empty; FV21e, whose slot holds a frame; the cause reported. -/
theorem witness_InvalidSlotNeedsAnEmptySlot :
    ((afterCreate interBytes).ParseReady ∧ (afterCreate interBytes).codes 0 sizeFromLast.fields ∧
      (sizeFromLast.slot (afterCreate interBytes).inst.ctx).valid = false) ∧
    ((afterCreate goldenBytes).ParseReady ∧ (afterCreate goldenBytes).codes 0 sizeFromGolden.fields ∧
      (sizeFromGolden.slot (afterCreate goldenBytes).inst.ctx).valid = false) ∧
    ((afterKey interBytes).codes 0 sizeFromLast.fields ∧
      (sizeFromLast.slot (afterKey interBytes).inst.ctx).valid = true ∧
      ∃ t, exec .parse (afterKey interBytes) = .next t ∧ decide (t.inst.result = .ok) = true) ∧
    ∃ t, exec .parse (afterCreate interBytes) = .next t ∧ decide (t.inst.cause = .invalidRefSlot) = true :=
  ⟨⟨⟨rfl, rfl, given rfl (by decide), rfl⟩, of_codesCheck (by decide +kernel), rfl⟩,
    ⟨⟨rfl, rfl, given rfl (by decide), rfl⟩, of_codesCheck (by decide +kernel), rfl⟩,
    ⟨of_codesCheck (by decide +kernel), rfl, of_goesOn (by decide +kernel)⟩, of_goesOn (by decide +kernel)⟩

/-- A PARSE that stops at its colour configuration: the hypotheses of the statement, and the cause reported. -/
def StopsAtColour (bs : List Byte) (q : ColorFront) (k : ColorCode) (c : Cause) : Prop :=
  (afterCreate bs).ParseReady ∧ q.Legal ∧ (afterCreate bs).codes 0 (q.fields ++ k.fields q.profile) ∧
    k.cause q.profile = c ∧ ∃ t, exec .parse (afterCreate bs) = .next t ∧ decide (t.inst.cause = c) = true

/-- SRGB as it is coded. -/
def srgbCode : ColorCode := { twelve := false, space := 7, range := false, ssX := false, ssY := false, reserved := false }

/-- FV9 and FV9b (cause 4), FV10 (5), FV12b and FV10b (6). -/
theorem witness_ColourFailureKeepsWhatItWrote_key :
    StopsAtColour [0x82, 0x49, 0x83, 0x42, 0xe0, 0x2b, 0xe0, 0x23, 0xe0, 0x28, 0x0f, 0x00, 0x00, 0xc8]
      (.key 0 true false) srgbCode .srgbInProfile02 ∧
    StopsAtColour [0x92, 0x49, 0x83, 0x42, 0x70, 0x15, 0xf0, 0x11, 0xf0, 0x14, 0x07, 0x80, 0x00, 0x64]
      (.key 2 true false) srgbCode .srgbInProfile02 ∧
    StopsAtColour [0xa2, 0x49, 0x83, 0x42, 0x2c, 0x05, 0x7c, 0x04, 0x7c, 0x05, 0x01, 0xe0, 0x00, 0x19, 0x00]
      (.key 1 true false) { srgbCode with space := 1, ssX := true, ssY := true } .subsampling420InProfile13 ∧
    StopsAtColour [0xa2, 0x49, 0x83, 0x42, 0xf0, 0x15, 0xf0, 0x11, 0xf0, 0x14, 0x07, 0x80, 0x00, 0x64]
      (.key 1 true false) { srgbCode with reserved := true } .reservedBitSet ∧
    StopsAtColour [0xa2, 0x49, 0x83, 0x42, 0x2a, 0x02, 0xbe, 0x02, 0x3e, 0x02, 0x80, 0xf0, 0x00, 0x0c, 0x80]
      (.key 1 true false) { srgbCode with space := 1, ssX := true, reserved := true } .reservedBitSet := by
  refine ⟨?_, ?_, ?_, ?_, ?_⟩ <;>
    exact ⟨⟨rfl, rfl, given rfl (by decide), rfl⟩, by simp [ColorFront.Legal], of_codesCheck (by decide +kernel),
      by decide +kernel, of_goesOn (by decide +kernel)⟩

/-- FV20c, an intra-only frame of profile 1, with its reserved bit set. -/
theorem witness_ColourFailureKeepsWhatItWrote_intra :
    StopsAtColour [0xa4, 0xe9, 0x30, 0x68, 0x48, 0xc1, 0x80]
      (.intra 1 false 3) { srgbCode with space := 2, ssY := true, reserved := true } .reservedBitSet :=
  ⟨⟨rfl, rfl, given rfl (by decide), rfl⟩, by simp [ColorFront.Legal], of_codesCheck (by decide +kernel),
    by decide +kernel, of_goesOn (by decide +kernel)⟩

/-- A frame that refreshes some slots and not others, a failure, a show-existing header. -/
theorem witness_RefSlotsFollowTheRefreshFlags :
    (∃ t, ParsedFrame (afterKey intraBytes) t ∧ decide (t.inst.hdr.refreshFrameFlags = 6) = true) ∧
    (∃ t, exec .parse (afterKey [0x00]) = .next t ∧ decide (t.inst.result ≠ .ok) = true) ∧
    ∃ t, exec .parse (afterKey showBytes) = .next t ∧
      decide (t.inst.result = .ok ∧ t.inst.hdr.showExistingFrame = true) = true :=
  ⟨of_framed (by decide +kernel), of_goesOn (by decide +kernel), of_goesOn (by decide +kernel)⟩

theorem witness_HeaderReportsTheContext : ∃ t, ParsedFrame (afterKey deltaBytes) t ∧ true = true :=
  of_framed (p := fun _ => true) (by decide +kernel)

/-- A frame that is lossless (FV17) and one that is not. -/
theorem witness_LosslessIsAllZero :
    (∃ t, ParsedFrame (afterKey [0x86, 0x00, 0x40, 0x92, 0x10, 0x28, 0x00, 0x00, 0x00, 0xc8]) t ∧
      decide (t.inst.ctx.lossless = true) = true) ∧
    ∃ t, ParsedFrame (afterKey interBytes) t ∧ decide (t.inst.ctx.lossless = false) = true :=
  ⟨of_framed (by decide +kernel), of_framed (by decide +kernel)⟩

/-- FV13: no reset, deltas updated and not; FV21e: no deltas coded. -/
theorem witness_LoopFilterDeltasPersist :
    (∃ t, ParsedFrame (afterKey deltaBytes) t ∧
      decide (t.inst.hdr.resetsContext = false ∧ t.inst.hdr.lf.refDeltaUpdated[0] = false ∧
        t.inst.hdr.lf.refDeltaUpdated[1] = true ∧ t.inst.hdr.lf.modeDeltaUpdated[0] = false) = true) ∧
    ∃ t, ParsedFrame (afterKey interBytes) t ∧
      decide (t.inst.hdr.lf.modeRefDeltaEnabled = false ∧ t.inst.hdr.lf.modeRefDeltaUpdate = false) = true :=
  ⟨of_framed (by decide +kernel), of_framed (by decide +kernel)⟩

/-- A key frame, an intra-only frame and an error-resilient frame, none of which updates anything itself. -/
theorem witness_PastIndependenceRestartsTheContext :
    (∃ t, ParsedFrame (afterKey keyBytes) t ∧ decide (t.inst.hdr.frameType = .key ∧
      t.inst.hdr.lf.refDeltaUpdated[0] = false ∧ t.inst.hdr.lf.modeDeltaUpdated[0] = false ∧
      t.inst.hdr.seg.updateData = false ∧ t.inst.hdr.seg.updateMap = false) = true) ∧
    (∃ t, ParsedFrame (afterKey intraBytes) t ∧ decide (t.inst.hdr.intraOnly = true) = true) ∧
    ∃ t, ParsedFrame (afterKey [0x83, 0x49, 0x83, 0x42, 0x20, 0x15, 0xf0, 0x11, 0xf0, 0x50, 0x1e, 0x00, 0x01, 0x90]) t ∧
      decide (t.inst.hdr.errorResilientMode = true) = true :=
  ⟨of_framed (by decide +kernel), of_framed (by decide +kernel), of_framed (by decide +kernel)⟩

theorem witness_SegmentationPersists :
    ∃ t, ParsedFrame (afterKey interBytes) t ∧ decide (t.inst.hdr.resetsContext = false ∧
      t.inst.hdr.seg.updateData = false ∧ t.inst.hdr.seg.updateMap = false) = true :=
  of_framed (by decide +kernel)

/-- FV24: present and absent probabilities; FV25: no temporal update; FV21e: no segmentation. -/
theorem witness_AbsentMapProbabilitiesAre255 :
    (∃ t, ParsedFrame (afterKey segMapBytes) t ∧ decide (t.inst.hdr.seg.updateMap = true ∧
      t.inst.hdr.seg.treeProbPresent[1] = false ∧ t.inst.hdr.seg.predProbPresent[0] = false) = true) ∧
    (∃ t, ParsedFrame (afterKey [0x86, 0x00, 0x40, 0x92, 0x10, 0x28, 0x0f, 0x06, 0x00, 0x00, 0x32, 0x00]) t ∧
      decide (t.inst.hdr.seg.updateMap = true ∧ t.inst.hdr.seg.temporalUpdate = false) = true) ∧
    ∃ t, ParsedFrame (afterKey interBytes) t ∧
      decide (t.inst.hdr.seg.enabled = false ∧ t.inst.hdr.seg.updateMap = false) = true :=
  ⟨of_framed (by decide +kernel), of_framed (by decide +kernel), of_framed (by decide +kernel)⟩

/-- FV15: segment 3 has a quantizer and no loop-filter level, segment 0 has no feature. -/
theorem witness_DataUpdateClearsAbsentFeatures :
    ∃ t, ParsedFrame (afterKey segDataBytes) t ∧ decide (t.inst.hdr.seg.updateData = true ∧
      t.inst.hdr.seg.feature[3].qEn = true ∧ t.inst.hdr.seg.feature[3].lfEn = false ∧
      t.inst.hdr.seg.feature[0].qEn = false ∧ t.inst.hdr.seg.feature[0].refEn = false) = true :=
  of_framed (by decide +kernel)

/-- The least width of a 352-wide frame, and the largest, 65536 (the last row of the tile table). -/
theorem witness_TileColumnsAreBounded :
    (afterCreate keyBytes).inst.ctx.inRange ∧
    (∃ t, ParsedFrame (afterCreate keyBytes) t ∧ decide (t.inst.hdr.tile.maxLog2Cols = 0) = true) ∧
    ∃ t, ParsedFrame (afterCreate [0x82, 0x49, 0x83, 0x42, 0x2f, 0xff, 0xf0, 0x03, 0xf0, 0x14, 0x07, 0x81, 0xf0, 0x03, 0x20]) t ∧
      decide (t.inst.hdr.tile.minLog2Cols = 4 ∧ t.inst.hdr.tile.maxLog2Cols = 8) = true :=
  ⟨afterCreate_inRange _, of_framed (by decide +kernel), of_framed (by decide +kernel)⟩

theorem witness_CompletedHeaderIsInRange :
    (afterCreate longBytes).inst.ctx.inRange ∧ ∃ t, ParsedFrame (afterCreate longBytes) t ∧
      decide (t.inst.hdr.lf.level = 63 ∧ t.inst.hdr.seg.feature[0].q = 255) = true :=
  ⟨afterCreate_inRange _, of_framed (by decide +kernel)⟩

theorem witness_KeyFrameRefreshesEverySlot :
    (afterCreate keyBytes).inst.ctx.inRange ∧ ∃ t, ParsedFrame (afterCreate keyBytes) t ∧
      decide (t.inst.hdr.frameType = .key) = true :=
  ⟨afterCreate_inRange _, of_framed (by decide +kernel)⟩

/-- FV23: error resilient; FV21e: a shown inter frame. -/
theorem witness_UnreadFlagsTakeTheirDefaults :
    (afterKey interBytes).inst.ctx.inRange ∧
    (∃ t, ParsedFrame (afterCreate [0x83, 0x49, 0x83, 0x42, 0x20, 0x15, 0xf0, 0x11, 0xf0, 0x50, 0x1e, 0x00, 0x01, 0x90]) t ∧
      decide (t.inst.hdr.errorResilientMode = true) = true) ∧
    ∃ t, ParsedFrame (afterKey interBytes) t ∧ decide (t.inst.hdr.showFrame = true ∧ t.inst.hdr.frameType = .inter) = true :=
  ⟨afterKey_inRange _, of_framed (by decide +kernel), of_framed (by decide +kernel)⟩

/-- The size from LAST's slot, and a frame that codes its own. -/
theorem witness_SizeComesFromTheNamedSlot :
    (afterKey interBytes).inst.ctx.inRange ∧
    (∃ t, ParsedFrame (afterKey interBytes) t ∧
      decide (t.inst.hdr.sizeFromRef[0] = true ∧ t.inst.hdr.displaySizePresent = false) = true) ∧
    ∃ t, ParsedFrame (afterCreate keyBytes) t ∧ decide (t.inst.hdr.sizeFromRef[0] = false) = true :=
  ⟨afterKey_inRange _, of_framed (by decide +kernel), of_framed (by decide +kernel)⟩

/-- FV6, FV20c, FV20, FV21e: each clause's frame. -/
theorem witness_ColourIsLegalForcedOrKept :
    (afterKey interBytes).inst.ctx.inRange ∧
    (∃ t, ParsedFrame (afterKey keyBytes) t ∧ decide (t.inst.hdr.frameType = .key) = true) ∧
    (∃ t, ParsedFrame (afterKey
        [0xa4, 0xe9, 0x30, 0x68, 0x48, 0x81, 0x80, 0x2b, 0xc0, 0x23, 0xe0, 0x2b, 0xe0, 0x23, 0xe0, 0x50, 0x1e, 0x00, 0x01, 0x90]) t ∧
      decide (t.inst.hdr.intraOnly = true ∧ 0 < t.inst.hdr.profile) = true) ∧
    (∃ t, ParsedFrame (afterKey intraBytes) t ∧ decide (t.inst.hdr.frameType = .inter ∧ t.inst.hdr.intraOnly = true ∧
      t.inst.hdr.profile = 0) = true) ∧
    ∃ t, ParsedFrame (afterKey interBytes) t ∧
      decide (t.inst.hdr.frameType = .inter ∧ t.inst.hdr.intraOnly = false) = true :=
  ⟨afterKey_inRange _, of_framed (by decide +kernel), of_framed (by decide +kernel), of_framed (by decide +kernel),
    of_framed (by decide +kernel)⟩

/-- The inter frame of FV21a to FV21e, with its filter and its first partition size. -/
def interFrame (filter : Option Nat) (partition : Nat) : CodedFrame :=
  { profile := 0, showFrame := true, resilient := false
    kind := .inter 0 1 #v[0, 1, 2] #v[false, false, false] (.fromRef 0) false filter
    render := none, refreshCtx := false, parallel := false, contextIdx := 0, level := 10, sharpness := 0
    deltas := .disabled, baseQIdx := 60, yDc := none, uvDc := none, uvAc := none, seg := none, tileIncrements := 0
    tileRows := 0, partition := partition }

theorem interFrame_legal (filter : Option Nat) (partition : Nat) : (interFrame filter partition).Legal keyContext := by
  constructor
  case color => exact trivial
  case valid => exact (by decide : (keyContext.refs[slotOf 0]).valid = true)
  all_goals simp [interFrame, CodedFrame.intraOnly]

/-- FV18: a first partition size of 0. -/
def zeroBytes : List Byte := [0x86, 0x00, 0x40, 0x92, 0x10, 0x28, 0x0f, 0x00, 0x00, 0x00]

/-- FVMAX; FV18, as data and as it ends. -/
theorem witness_HeaderEndsWithThePartitionSize :
    (∃ t, ParsedFrame (afterCreate longBytes) t ∧ decide (t.inst.br.pos = 499) = true) ∧
    ((afterKey zeroBytes).ParseReady ∧ (afterKey zeroBytes).codes 0 ((interFrame (some 1) 0).fields keyContext) ∧
      (interFrame (some 1) 0).Legal (afterKey zeroBytes).inst.ctx ∧ (interFrame (some 1) 0).partition = 0) ∧
    ∃ t, exec .parse (afterKey zeroBytes) = .next t ∧
      decide (t.inst.cause = .zeroFirstPartition ∧ t.inst.br.pos = 79) = true :=
  ⟨of_framed (by decide +kernel),
    ⟨⟨rfl, rfl, given rfl (by decide), rfl⟩, of_codesCheck (by decide +kernel), interFrame_legal _ _, rfl⟩,
    of_goesOn (by decide +kernel)⟩

/-- The bound is met: 499 bits in a buffer of 63 bytes. -/
theorem witness_HeaderIsAtMost499Bits :
    (afterCreate longBytes).inst.ctx.inRange ∧ 63 ≤ (afterCreate longBytes).port.len ∧
    ∃ t, exec .parse (afterCreate longBytes) = .next t ∧ decide (t.inst.result = .ok ∧ t.inst.br.pos = 499) = true :=
  ⟨afterCreate_inRange _, by decide, of_goesOn (by decide +kernel)⟩

/-- FA10 and a longer key frame: the same bytes with one more after them. -/
theorem witness_MoreDataNeverChangesAVerdict :
    (afterCreate (keyBytes ++ [0xFF])).ParseReady ∧
      (afterCreate (keyBytes ++ [0xFF])).inst.ctx = (afterCreate keyBytes).inst.ctx ∧
      (afterCreate keyBytes).port.len ≤ (afterCreate (keyBytes ++ [0xFF])).port.len ∧
      (∀ a < (afterCreate keyBytes).port.len,
        (afterCreate (keyBytes ++ [0xFF])).bufferByte a = (afterCreate keyBytes).bufferByte a) ∧
      ∃ t, exec .parse (afterCreate keyBytes) = .next t ∧ decide (t.inst.result ≠ .noPacketError) = true :=
  ⟨⟨rfl, rfl, given (bs := keyBytes ++ [0xFF]) rfl (by decide), rfl⟩, rfl, by decide, by decide, of_goesOn (by decide +kernel)⟩

/-- The same context and bytes, on another instance with another reader bound, in a longer buffer. -/
theorem witness_ParseDependsOnContextAndBytesOnly :
    ∃ s s' : State, s.ParseReady ∧ s'.ParseReady ∧ s.port.target ≠ s'.port.target ∧ s'.port.buf ≠ s.port.buf ∧
      s'.inst.ctx = s.inst.ctx ∧ s'.port.len = s.port.len ∧ ∀ a < s.port.len, s'.bufferByte a = s.bufferByte a :=
  ⟨afterCreate showBytes,
    { insts := [(0, live keyContext), (3, reading [0x12] 4)]
      port := { target := 3, buf := some (Memory.ofBytes [0x8d, 0x77]), len := 1, overlapped := false, bufChanged := false }
      response := none, script := [] },
    ⟨rfl, rfl, given rfl (by decide), rfl⟩, ⟨rfl, rfl, given (bs := [0x8d, 0x77]) rfl (by decide), rfl⟩, by decide,
    by decide, rfl, rfl, by decide⟩

/-- The second clause: FV1 and another show-existing header, in two buffers of one byte. -/
theorem witness_ParseDependsOnContextAndBytesOnly_buffer :
    ∃ t t' : State, exec .parse (afterCreate showBytes) = .next t ∧ exec .parse (afterCreate [0x89]) = .next t' ∧
      (afterCreate [0x89]).port.target = (afterCreate showBytes).port.target ∧
      (afterCreate [0x89]).inst.freeCount = (afterCreate showBytes).inst.freeCount ∧
      (afterCreate [0x89]).port.len = (afterCreate showBytes).port.len ∧
      (afterCreate [0x89]).port.buf ≠ (afterCreate showBytes).port.buf ∧ t'.inst.br.pos = t.inst.br.pos := by
  obtain ⟨t, h, hp⟩ := of_goesOn (i := .parse) (s := afterCreate showBytes) (p := fun t => decide (t.inst.br.pos = 8))
    (by decide +kernel)
  obtain ⟨t', h', hp'⟩ := of_goesOn (i := .parse) (s := afterCreate [0x89]) (p := fun t => decide (t.inst.br.pos = 8))
    (by decide +kernel)
  exact ⟨t, t', h, h', rfl, rfl, rfl, by decide, (of_decide_eq_true hp').trans (of_decide_eq_true hp).symm⟩

/-- After a PARSE a host read goes on at the cursor PARSE left and ends at its length (R79, R131); the byte read is no longer the
buffer's (R148), so only the cursor and OutOfData can be tested. -/
theorem test_read_after_parse :
    (goesOn .parse (afterCreate [0x8D, 0xFF]) fun t => goesOn (.readBits 8) t fun u => decide (u.inst.br.pos = 16)) = true ∧
    (goesOn .parse (afterCreate [0x8D]) fun t => goesOn .readFlag t fun u =>
      decide (u.response = some .outOfData ∧ u.inst.br.pos = 8)) = true := by
  constructor <;> decide +kernel

theorem afterCreate_key_at : PlainKeyFrame.At
    { showFrame := true, colorSpace := 1, colorRange := false, widthMinus1 := 351, heightMinus1 := 287
      refreshFrameContext := false, parallel := false, contextIdx := 0, level := 10, sharpness := 0, baseQIdx := 60
      partition := 100 } (afterCreate keyBytes) := by
  constructor
  case start => exact ⟨by decide +kernel, by decide +kernel, by decide +kernel, fun h => by cases h⟩
  all_goals decide +kernel

theorem witness_PlainKeyFrameIsDecoded :
    ∃ k : PlainKeyFrame, (afterCreate keyBytes).ParseReady ∧ k.At (afterCreate keyBytes) :=
  ⟨_, ready_afterCreate_key, afterCreate_key_at⟩

theorem afterKey_inter_at : PlainInterFrame.At
    { resetFrameContext := 0, refreshFlags := 1, slots := #v[0, 1, 2], signBias := #v[false, false, false]
      highPrecision := false, refreshFrameContext := false, parallel := false, contextIdx := 0, level := 10
      sharpness := 0, baseQIdx := 60, partition := 100 } (afterKey interBytes) := by
  constructor
  case start => exact ⟨by decide +kernel, by decide +kernel, by decide +kernel, fun h => by cases h⟩
  all_goals decide +kernel

theorem witness_PlainInterFrameIsDecoded :
    ∃ k : PlainInterFrame, (afterKey interBytes).ParseReady ∧ k.At (afterKey interBytes) :=
  ⟨_, ready_afterKey_inter, afterKey_inter_at⟩

/-- An intra-only frame with a render size and every segmentation field, its 421 bits laid out by hand from R75. -/
def codedIntraBytes : List Byte :=
  [0x84, 0xc9, 0x30, 0x68, 0x44, 0x80, 0x37, 0xe0, 0x07, 0xf0, 0x27, 0xf0, 0x16, 0x79, 0x47, 0x18] ++
  [0xc7, 0x03, 0xfd, 0x44, 0x70, 0x10, 0x0b, 0x1f, 0xff, 0xc8, 0x80, 0xd0, 0x3f, 0xff, 0xfb, 0xe0] ++
  [0x28, 0x38, 0xc0, 0x20, 0x2e, 0x00, 0xff, 0xc8, 0x3e, 0x4b, 0xa9, 0xaa, 0x9b, 0xb2, 0x6f, 0x33] ++
  [0xfe, 0x8a, 0x95, 0xf7, 0x78]

theorem codedIntra_at : CodedIntraFrame.At
    { resetFrameContext := 2, refreshFlags := 0x24, widthMinus1 := 447, heightMinus1 := 63, displayWidthMinus1 := 639
      displayHeightMinus1 := 359, refreshFrameContext := true, parallel := false, contextIdx := 1, level := 17
      sharpness := 6, baseQIdx := 99, treeProb := #v[3, 250, 17, 128, 0, 99, 255], predProb := #v[200, 1, 64]
      absDelta := true, feature := #v[{ qEn := true, q := -255, lfEn := true, lf := 63, refEn := true, ref := .altref, skip := true },
        { qEn := true, q := 1, lfEn := true, lf := -1, refEn := true, ref := .intra, skip := false },
        { qEn := true, q := 128, lfEn := true, lf := 0, refEn := true, ref := .last, skip := true },
        { qEn := true, q := 0, lfEn := true, lf := -63, refEn := true, ref := .golden, skip := false },
        { qEn := true, q := -7, lfEn := true, lf := 9, refEn := true, ref := .altref, skip := false },
        { qEn := true, q := 77, lfEn := true, lf := -20, refEn := true, ref := .last, skip := true },
        { qEn := true, q := -100, lfEn := true, lf := 30, refEn := true, ref := .golden, skip := false },
        { qEn := true, q := 255, lfEn := true, lf := 5, refEn := true, ref := .intra, skip := true }]
      partition := 0xBEEF } (afterKey codedIntraBytes) := by
  constructor
  case start => exact ⟨by decide +kernel, by decide +kernel, by decide +kernel, fun h => by cases h⟩
  case feature =>
    intro i
    constructor
    case ref =>
      refine ⟨#v[3, 0, 1, 2, 3, 1, 2, 0][i], ?_, ?_⟩
      all_goals revert i; decide +kernel
    all_goals revert i; decide +kernel
  all_goals decide +kernel

theorem witness_CodedIntraFrameIsDecoded :
    ∃ k : CodedIntraFrame, (afterKey codedIntraBytes).ParseReady ∧ k.At (afterKey codedIntraBytes) :=
  ⟨_, ⟨rfl, rfl, given rfl (by decide), rfl⟩, codedIntra_at⟩

/-- An error-resilient inter frame with every loop-filter and quantizer delta, its 173 bits laid out by hand from R75. -/
def codedInterBytes : List Byte :=
  [0x87, 0x81, 0xf0, 0xb0, 0x02, 0x7e, 0x01, 0xde, 0xae, 0x1b, 0xff, 0xc1, 0x42, 0xe8, 0x49, 0xff] ++
  [0x64, 0x7f, 0x45, 0xc0, 0x91, 0xa0]

theorem codedInter_at : CodedInterFrame.At
    { refreshFlags := 0x81, slots := #v[7, 0, 5], signBias := #v[true, false, true], widthMinus1 := 319
      heightMinus1 := 239, highPrecision := true, literal := 2, contextIdx := 3, level := 33, sharpness := 5
      refDelta := #v[-63, 1, -2, 40], modeDelta := #v[-9, 63]
      quant := { baseQIdx := 200, deltaQYDc := -15, deltaQUvDc := 4, deltaQUvAc := 7 }, partition := 0x1234 }
    (afterKey codedInterBytes) := by
  constructor
  case start => exact ⟨by decide +kernel, by decide +kernel, by decide +kernel, fun h => by cases h⟩
  all_goals decide +kernel

theorem witness_CodedInterFrameIsDecoded :
    ∃ k : CodedInterFrame, (afterKey codedInterBytes).ParseReady ∧ k.At (afterKey codedInterBytes) :=
  ⟨_, ⟨rfl, rfl, given rfl (by decide), rfl⟩, codedInter_at⟩

/-- FV11: a key frame of profile 2, 12-bit, BT_709. -/
def keyFrame12 : CodedFrame :=
  { interFrame none 100 with
    profile := 2, kind := .key { srgbCode with twelve := true, space := 2 } 351 287 }

def key12Bytes : List Byte := [0x92, 0x49, 0x83, 0x42, 0xa0, 0x0a, 0xf8, 0x08, 0xf8, 0x0a, 0x03, 0xc0, 0x00, 0x32, 0x00]

/-- FVMAX: an intra-only frame of profile 3 with everything coded. -/
def longFrame : CodedFrame :=
  let m : Bool → CodedSigned := fun neg => { magnitude := 63, negative := neg }
  let feature : Bool → CodedFeature := fun neg =>
    { q := some { magnitude := 255, negative := neg }, lf := some (m neg), ref := some 3, skip := true }
  { profile := 3, showFrame := false, resilient := false
    kind := .intra 0 { srgbCode with twelve := true, space := 1, ssX := true } 255 4095 63
    render := some (4095, 63), refreshCtx := true, parallel := true, contextIdx := 3, level := 63, sharpness := 7
    deltas := .updated #v[some (m false), some (m true), some (m false), some (m true)] #v[some (m true), some (m false)]
    baseQIdx := 255, yDc := some { magnitude := 15, negative := true }, uvDc := some { magnitude := 15, negative := false }
    uvAc := some { magnitude := 15, negative := true }
    seg := some
      { map := some { tree := Vector.ofFn fun i => some (i.val + 1), pred := some (Vector.ofFn fun i => some (100 + i.val)) }
        data := some { absDelta := true, feature := Vector.ofFn fun i => feature (i.val % 2 == 1) } }
    tileIncrements := 4, tileRows := 2, partition := 65535 }

/-- FV11, FV21e and FVMAX: a key, an inter and an intra-only frame, of three profiles. -/
theorem witness_CodedFrameIsDecoded :
    ((afterCreate key12Bytes).ParseReady ∧ (afterCreate key12Bytes).codes 0 (keyFrame12.fields Context.reset) ∧
      keyFrame12.Legal (afterCreate key12Bytes).inst.ctx ∧ keyFrame12.partition ≠ 0) ∧
    ((afterKey interBytes).ParseReady ∧ (afterKey interBytes).codes 0 ((interFrame none 100).fields keyContext) ∧
      (interFrame none 100).Legal (afterKey interBytes).inst.ctx ∧ (interFrame none 100).partition ≠ 0) ∧
    (afterCreate longBytes).ParseReady ∧ (afterCreate longBytes).codes 0 (longFrame.fields Context.reset) ∧
      longFrame.Legal (afterCreate longBytes).inst.ctx ∧ longFrame.partition ≠ 0 := by
  refine ⟨⟨⟨rfl, rfl, given rfl (by decide), rfl⟩, of_codesCheck (by decide +kernel), ?_, by decide⟩,
    ⟨ready_afterKey_inter, of_codesCheck (by decide +kernel), interFrame_legal _ _, by decide⟩,
    ⟨rfl, rfl, given (bs := longBytes) rfl (by decide), rfl⟩, of_codesCheck (by decide +kernel), ?_, by decide⟩
  · constructor
    case color => exact (by decide : ColorCode.cause { srgbCode with twelve := true, space := 2 } 2 = .none)
    case valid => exact trivial
    all_goals decide +kernel
  · constructor
    case color =>
      exact .inr (by decide : ColorCode.cause { srgbCode with twelve := true, space := 1, ssX := true } 3 = .none)
    case valid => exact trivial
    all_goals decide +kernel

/-- The second clause: FV21e is a whole header that parses. -/
theorem witness_CodedFrameIsDecoded_back : ∃ t, ParsedFrame (afterKey interBytes) t ∧ decide (t.inst.br.pos = 77) = true :=
  of_framed (by decide +kernel)

/-- FV21a to FV21d: the inter frame with filter literal `l`. -/
def filterBytes (l : Byte) : List Byte := [0x86, 0x00, 0x40, 0x92, l <<< 4, 0x28, 0x0f, 0x00, 0x00, 0xc8]

/-- R71's map, literal by literal: the header of FV21a to FV21d. -/
theorem test_filter_literals :
    ∀ p ∈ [(0, InterpFilter.eighttapSmooth), (1, .eighttap), (2, .eighttapSharp), (3, .bilinear)],
      (afterKey (filterBytes (BitVec.ofNat 8 p.1))).codes 0 ((interFrame (some p.1) 100).fields keyContext) ∧
      ∃ t, ParsedFrame (afterKey (filterBytes (BitVec.ofNat 8 p.1))) t ∧
        decide (t.inst.hdr.interpFilter = p.2 ∧ t.inst.br.pos = 79 ∧ t.inst.ctx = keyContext) = true := by
  intro p hp
  simp only [List.mem_cons, List.not_mem_nil, or_false] at hp
  rcases hp with rfl | rfl | rfl | rfl <;> exact ⟨of_codesCheck (by decide +kernel), of_framed (by decide +kernel)⟩

/-- FV6 as data. -/
def keyFrame : CodedFrame := { interFrame none 100 with kind := .key { srgbCode with space := 1 } 351 287 }

theorem keyFrame_legal (c : Context) : keyFrame.Legal c := by
  constructor
  case color => exact (by decide : ColorCode.cause { srgbCode with space := 1 } 0 = .none)
  case valid => exact trivial
  case hidden => exact fun h => by cases h
  case tiles => exact Nat.zero_le _
  all_goals decide

/-- A context like that of Program C's step 5, with no colour yet. -/
def updatedContext : Context :=
  { keyContext with lfRefDelta := #v[1, 5, -1, -7], lfModeDelta := #v[0, 3], color := Context.reset.color }

/-- A PARSE of FV6's first `len` bytes: the statement's hypotheses, and the context and the cursor it ends with. -/
def CutEndsIn (c : Context) (len : Nat) (d : Context) (pos : Nat) : Prop :=
  (stateWith (live c) keyBytes).ParseReady ∧ (stateWith (live c) keyBytes).codes 0 (keyFrame.fields c) ∧ keyFrame.Legal c ∧
    8 * len < bitsOf (keyFrame.fields c) ∧
    ∃ t, exec .parse ((stateWith (live c) keyBytes).cut len) = .next t ∧
      decide (t.inst.result = .noPacketError ∧ t.inst.cause = .outOfData ∧ t.inst.ctx = d ∧ t.inst.br.pos = pos) = true

/-- FV7; FV7b; table T5's 9 bytes, with the colour written and the past-independence reset still to come (R146); Program C's
step 5, with the reset run; and the bound of the last clause. -/
theorem witness_RunningOutOfDataIsNoPacket_cut :
    CutEndsIn Context.reset 13 { keyContext with refs := Context.reset.refs } 96 ∧
    CutEndsIn Context.reset 4 { Context.reset with color := { Context.reset.color with bitDepth := .eight } } 32 ∧
    CutEndsIn updatedContext 9 { updatedContext with color := keyContext.color } 71 ∧
    CutEndsIn updatedContext 13 keyContext 96 ∧ bitsOf (keyFrame.fields Context.reset) ≤ 8 * 13 + 16 := by
  refine ⟨?_, ?_, ?_, ?_, by decide +kernel⟩ <;>
    exact ⟨⟨rfl, rfl, given (bs := keyBytes) rfl (by decide), rfl⟩, of_codesCheck (by decide +kernel), keyFrame_legal _,
      by decide +kernel, of_goesOn (by decide +kernel)⟩

/-- A frame whose colour configuration is read to its end. -/
def ReadsColour (bs : List Byte) (q : ColorFront) (k : ColorCode) : Prop :=
  q.Legal ∧ (afterCreate bs).codes 0 (q.fields ++ k.fields q.profile) ∧ k.cause q.profile = .none ∧
    ∃ t, exec .parse (afterCreate bs) = .next t ∧ decide (t.inst.result = .ok) = true

/-- FV10c (4:2:2), FV12 (SRGB), FV11b (10 bits), FV11 (12 bits), FVMAX (an intra-only frame of profile 3). -/
theorem witness_ColourIsReadAsCoded :
    ReadsColour [0xa2, 0x49, 0x83, 0x42, 0x38, 0x02, 0xbe, 0x02, 0x3e, 0x02, 0x80, 0xf0, 0x00, 0x0c, 0x80]
      (.key 1 true false) { srgbCode with space := 1, range := true, ssX := true } ∧
    ReadsColour [0xa2, 0x49, 0x83, 0x42, 0xe0, 0x15, 0xf0, 0x11, 0xf0, 0x14, 0x07, 0x80, 0x00, 0x64]
      (.key 1 true false) srgbCode ∧
    ReadsColour [0x92, 0x49, 0x83, 0x42, 0x58, 0x0a, 0xf8, 0x08, 0xf8, 0x0a, 0x03, 0xc0, 0x00, 0x32, 0x00]
      (.key 2 true false) { srgbCode with space := 5, range := true } ∧
    ReadsColour key12Bytes (.key 2 true false) { srgbCode with twelve := true, space := 2 } ∧
    ReadsColour longBytes (.intra 3 false 0) { srgbCode with twelve := true, space := 1, ssX := true } := by
  refine ⟨?_, ?_, ?_, ?_, ?_⟩ <;>
    exact ⟨by simp [ColorFront.Legal], of_codesCheck (by decide +kernel), by decide +kernel, of_goesOn (by decide +kernel)⟩

theorem witness_CommandsKeepEverythingElse :
    ∃ t, exec .parse (afterCreate keyBytes) = .next t ∧ decide (t.inst.result = .ok) = true :=
  of_goesOn (by decide +kernel)

/-- Two instances: 0 is LIVE, 1 has a reader bound. -/
def twoInstances : State :=
  { insts := [(0, live keyContext), (1, reading [0xA5] 0)], port := Port.idle, response := none, script := [] }

theorem live_inv : (live keyContext).Inv := ⟨fun _ => by decide, fun _ => keyContext_inRange⟩
theorem reading_inv : (reading [0xA5] 0).Inv :=
  ⟨fun _ => by decide, fun _ => show Context.reset.inRange by constructor <;> decide⟩
theorem absent_inv : Instance.absent.Inv := ⟨fun _ => by decide, fun h => by cases h⟩

theorem twoInstances_inv : twoInstances.Inv := by
  refine ⟨by decide, by decide, fun k => ?_, by decide, fun c hc => by cases hc⟩
  match k with
  | 0 => exact live_inv
  | 1 => exact reading_inv
  | _ + 2 => exact absent_inv

/-- A PARSE on instance 0 and a READ_FLAG on instance 1. -/
theorem witness_InstancesAreIndependent :
    twoInstances.Inv ∧ (afterKey keyBytes).port.target ≠ ({ Port.idle with target := 1 } : Port).target ∧
    ∃ t u, exec .parse { twoInstances with port := (afterKey keyBytes).port } = .next t ∧
      exec .readFlag { t with port := { Port.idle with target := 1 } } = .next u := by
  refine ⟨twoInstances_inv, by decide, ?_⟩
  obtain ⟨t, h1, h2⟩ := of_goesOn (i := .parse) (s := { twoInstances with port := (afterKey keyBytes).port })
    (p := fun t => goesOn .readFlag { t with port := { Port.idle with target := 1 } } fun _ => true) (by decide +kernel)
  obtain ⟨u, h3, _⟩ := of_goesOn h2
  exact ⟨t, u, h1, h3⟩

theorem witness_OnlyTheFacadeWritesTheContext :
    Instr.readFlag ≠ .create ∧ Instr.readFlag ≠ .parse ∧ Instr.readFlag ≠ .destroy ∧
      ∃ t, exec .readFlag ones = .next t ∧ decide (t.response = some (.ok 1)) = true :=
  ⟨by decide, by decide, by decide, of_goesOn (by decide +kernel)⟩

theorem aboutToParse_inv : aboutToParse.Inv := by
  refine ⟨by decide, by decide, fun k => ?_, by decide, fun c hc => ?_⟩
  · match k with
    | 0 => exact ⟨fun _ => by decide, fun _ => show Context.reset.inRange by constructor <;> decide⟩
    | _ + 1 => exact absent_inv
  · rw [List.mem_singleton.mp hc]; decide

theorem witness_EveryStepKeepsTheInvariant : aboutToParse.Inv ∧ ∃ t, step aboutToParse = .next t := by
  refine ⟨aboutToParse_inv, ?_⟩
  obtain ⟨t, h, _⟩ := of_goesOn (i := .parse) (s := { aboutToParse with script := [], port := (afterCreate keyBytes).port })
    (p := fun _ => true) (by decide +kernel)
  exact ⟨t, h⟩

theorem witness_NoStepFaultsUnderTheInvariant : aboutToParse.Inv := aboutToParse_inv

end Sys2Proof.Tests
end

/-! Proofs of the statements about the state of the block (10_state.md): what a command does to its parser, the invariant,
the ranges of a completed header, the persistence of the segmentation registers, and what a PARSE depends on. -/

namespace Sys2Proof.Machine

/-! ### What a command that is not refused does to its parser -/

theorem exec_create_next {s t : State} (h : exec .create s = .next t) :
    s.inst.life = .absent ∧ t.inst = s.inst.create s.port.target := by
  simp only [exec, execCreate] at h
  split at h
  · cases h
  · split at h
    · cases h; exact ⟨‹_›, State.inst_done ..⟩
    · cases h

theorem exec_destroy_next {s t : State} (h : exec .destroy s = .next t) :
    s.inst.life = .live ∧ t.inst = s.inst.destroy s.port.target := by
  simp only [exec, execDestroy] at h
  split at h
  · cases h
  · split at h
    · cases h; exact ⟨‹_›, State.inst_done ..⟩
    · cases h

theorem exec_parse_of_ok {s : State} {w : Work} (hp : s.ParseReady) (hu : uncompressedHeader (startWork s) = .ok () w) :
    exec .parse s = .next (s.done (Instance.completed s.port.target s.inst w) none) :=
  (execParse_of_ready hp).trans (by rw [hu]; rfl)

theorem exec_parse_of_raised {s : State} {w : Work} {c : Cause} (hp : s.ParseReady)
    (hu : uncompressedHeader (startWork s) = .error (.raised c) w) :
    exec .parse s = .next (s.done (Instance.failed s.port.target s.inst c w) none) :=
  (execParse_of_ready hp).trans (by rw [hu]; rfl)

/-- A PARSE that is not refused found its parser LIVE and leaves it so (R131, R132). -/
theorem exec_parse_life {s t : State} (h : exec .parse s = .next t) : s.inst.life = .live ∧ t.inst.life = .live := by
  obtain ⟨hp, _⟩ := execParse_next h
  refine ⟨hp.live, ?_⟩
  rcases execParse_outcome hp with ⟨w, _, he, _⟩ | ⟨c, w, _, _, he, _⟩ <;>
  · cases h.symm.trans he
    simpa using hp.live

theorem withBuffer_next {s t : State} {body : Host.Outcome State Fault Refusal} (h : withBuffer s body = .next t) :
    s.port.bufferGiven ∧ body = .next t := by
  unfold withBuffer at h
  split at h
  · cases h
  · exact ⟨Port.bufferMisuse_eq_none.mp ‹_›, h⟩

/-- The reader a bit-reader operation can leave: the operands bound (R77), or the reader it found, its cursor where it was or
moved on inside the buffer (R79, R82). -/
inductive ReaderAfter (s : State) : Reader → Prop
  | bound : s.port.bufferGiven → ReaderAfter s s.port.reader
  | kept : ReaderAfter s s.inst.br
  | moved (n : Nat) : s.inst.br.pos + n ≤ 8 * s.inst.br.len →
      ReaderAfter s { s.inst.br with pos := s.inst.br.pos + n }

theorem answerRead_next {α : Type} {s t : State} {value : α → Int} {n : Nat} {val : Reader → Option α}
    (h : answerRead s value (s.inst.br.read n val) = .next t) :
    ∃ r, ReaderAfter s r ∧ t.inst = s.inst.withReader r := by
  rcases Reader.read_cases s.inst.br n val with ⟨_, e⟩ | ⟨hle, v, _, e⟩ | ⟨_, _, e⟩ <;> rw [e] at h <;> cases h
  · exact ⟨_, .kept, State.inst_done ..⟩
  · exact ⟨_, .moved n hle, State.inst_done ..⟩

/-- A bit-reader operation that is not refused writes the reader of its parser only. -/
theorem exec_reader_next {s t : State} {i : Instr} (hc : i ≠ .create) (hp : i ≠ .parse) (hd : i ≠ .destroy)
    (h : exec i s = .next t) : s.ReaderReady ∧ ∃ r, ReaderAfter s r ∧ t.inst = s.inst.withReader r := by
  cases i with
  | create => exact absurd rfl hc
  | parse => exact absurd rfl hp
  | destroy => exact absurd rfl hd
  | brInit =>
    obtain ⟨hr, h⟩ := withReaderUsable_next h
    obtain ⟨hg, h⟩ := withBuffer_next h
    cases h
    exact ⟨hr, _, .bound hg, State.inst_done ..⟩
  | readBits n =>
    simp only [exec, execReadBits] at h
    split at h
    · exact (withReaderUsable_next h).imp_right answerRead_next
    · cases h
  | readSigned n =>
    simp only [exec, execReadSigned] at h
    split at h
    · exact (withReaderUsable_next h).imp_right answerRead_next
    · cases h
  | readFlag => exact (withReaderUsable_next h).imp_right answerRead_next
  | getPos =>
    obtain ⟨hr, h⟩ := withReaderUsable_next h
    cases h
    exact ⟨hr, _, .kept, State.inst_done ..⟩

/-! ### The invariant -/

/-- A reader a bit-reader operation leaves is well bound, if the one it found is (R16). -/
theorem ReaderAfter.wf {s : State} {r : Reader} (h : ReaderAfter s r) (hport : s.port.wf = true)
    (hbr : s.inst.br.wf = true) : r.wf = true := by
  cases h with
  | bound hg => exact Reader.wf_iff.mpr ⟨hport, Memory.holds_iff.mp (Port.holds_of_bufferGiven hg), Nat.zero_le _⟩
  | kept => exact hbr
  | moved n hle =>
    obtain ⟨hbuf, hfull, _⟩ := Reader.wf_iff.mp hbr
    exact Reader.wf_iff.mpr ⟨hbuf, hfull, hle⟩

/-- Writing a parser that has the invariant keeps the machine's. -/
theorem State.Inv.done {s : State} (hs : s.Inv) {x : Instance} (hx : x.Inv) (a : Option Response) : (s.done x a).Inv :=
  have canonical := State.put_canonical hs.rising hs.present s.port.target x
  { rising := canonical.1
    present := canonical.2
    insts := fun k => by
      rw [State.get_done]
      split
      · exact hx
      · exact hs.insts k
    port := hs.port
    script := hs.script }

/-- Taking the next command off the script keeps the invariant. -/
theorem State.Inv.fetched {s s' : State} {w : CommandWord} (hs : s.Inv) (h : s.fetch = some (w, s')) : s'.Inv := by
  unfold State.fetch at h
  split at h
  · cases h
  · rename_i c rest hscript
    cases h
    have hcmds : ∀ d ∈ c :: rest, d.port.wf = true := hscript ▸ hs.script
    exact { hs with
      port := hcmds c List.mem_cons_self
      script := fun d hd => hcmds d (List.mem_cons_of_mem _ hd) }

/-- A step that goes on is idle, or a command executed after it was fetched. -/
theorem step_next {s t : State} (h : step s = .next t) :
    t = s ∨ ∃ w s' i, s.fetch = some (w, s') ∧ exec i s' = .next t := by
  unfold step at h
  split at h
  · cases h; exact .inl rfl
  · rename_i w s' hf
    split at h
    · exact .inr ⟨w, s', _, hf, h⟩
    · cases h

/-- A PARSE leaves its reader well bound (R148) and its context in range, however it ends. -/
theorem exec_parse_inv {s t : State} (hs : s.inst.Inv) (h : exec .parse s = .next t) : t.inst.Inv := by
  obtain ⟨hp, _⟩ := execParse_next h
  have hctx := hs.context hp.live
  rcases execParse_outcome hp with ⟨w, hu, he, _, ha⟩ | ⟨c, w, hu, _, he, _, ha⟩ <;> cases h.symm.trans he <;>
    rw [State.inst_done]
  · exact ⟨fun _ => Reader.wf_released _ _ ha.inside, fun _ => completed_inRange hctx hu⟩
  · exact ⟨fun _ => Reader.wf_released _ _ ha.inside, fun _ => (failed_inRange (startWork_inRange hctx) hu).ctx⟩

/-- Every command leaves its parser with the invariant. -/
theorem exec_inst_inv {s t : State} {i : Instr} (hs : s.Inv) (h : exec i s = .next t) : t.inst.Inv := by
  have hx : s.inst.Inv := hs.insts _
  by_cases hc : i = .create
  · subst hc
    obtain ⟨habs, e⟩ := exec_create_next h
    rw [e]
    exact ⟨fun _ => hx.reader (by simp [habs]), fun _ => Context.reset_inRange⟩
  by_cases hd : i = .destroy
  · subst hd
    obtain ⟨_, e⟩ := exec_destroy_next h
    rw [e]
    exact ⟨fun hl => absurd (Instance.destroy_life ..) hl, fun hl => by simp at hl⟩
  by_cases hp : i = .parse
  · subst hp
    exact exec_parse_inv hx h
  obtain ⟨hr, r, hafter, e⟩ := exec_reader_next hc hp hd h
  rw [e]
  exact ⟨fun _ => hafter.wf hs.port (hx.reader hr.alive), hx.context⟩

/-- Every command keeps the invariant. -/
theorem exec_keeps_inv {s t : State} {i : Instr} (hs : s.Inv) (h : exec i s = .next t) : t.Inv := by
  rw [exec_next_done h]
  exact hs.done (exec_inst_inv hs h) _

/-! ### The ranges of a completed header -/

theorem Front.profile_le {s : State} {p : Nat} {w : Work} (h : Front s p w) : p ≤ 3 := by
  obtain ⟨lo, hi, hlo, hhi, rfl⟩ := h.bits
  have := Reader.field_lt hlo
  have := Reader.field_lt hhi
  omega

/-- Step 11 leaves the tile fields in the ranges of R35, for every width of R29. -/
theorem tileInfo_inRange {w w' : Work} (h : tileInfo w = .ok () w') (hw : w.hdr.width ≤ 65536) : w'.hdr.tile.inRange := by
  obtain ⟨hmin, hmax, hlo, hhi, hrows⟩ := tileInfo_ok h
  constructor
  · rw [hmin]; exact minLog2Cols_le hw
  · rw [hmax]; exact maxLog2Cols_le hw
  · rw [hmin, hmax]; exact ⟨hlo, hhi⟩
  · exact hrows

namespace FullRun

variable {w w' : Work}

/-- The width step 11 computes from is the one reported. -/
theorem width_segmented (r : FullRun w w') : w'.hdr.width = r.segmented.hdr.width := by
  have fields := r.fields_segmented
  simp only [frameFields, Prod.mk.injEq] at fields
  obtain ⟨_, _, _, _, _, _, width, _⟩ := fields
  exact width

/-- The first partition size is not 0 (R124). -/
theorem partition_pos (r : FullRun w w') : 1 ≤ w'.hdr.firstPartitionSize := by
  obtain ⟨n, hn, _, _, _, hhdr⟩ := headerSize_ok r.measure
  rw [r.hdr_measured, hhdr]
  exact Nat.one_le_iff_ne_zero.mpr hn

/-- The header length is the bits read, rounded up to bytes (R125). -/
theorem headerLength_eq (r : FullRun w w') : w'.hdr.headerLengthBytes = ceilDiv w'.br.pos 8 := by
  obtain ⟨n, _, _, _, hbr, hhdr⟩ := headerSize_ok r.measure
  rw [r.hdr_measured, r.br_measured, hhdr, hbr]

/-- A completed whole header that read at most 499 bits (R127) has every field in its range. -/
theorem hdr_inRange (r : FullRun w w') (hw : w.InRange) (hz : w.hdr.sizeFromRef = Header.zero.sizeFromRef)
    (hpos : w'.br.pos ≤ 499) : w'.hdr.inRange := by
  obtain ⟨⟨_, upper⟩, hwidth, hheight, hdwidth, hdheight⟩ := r.inRange hw hz
  exact {
    profile := upper.profile
    resetFrameCtx := upper.resetFrameCtx
    width := ⟨hwidth, upper.width⟩
    height := ⟨hheight, upper.height⟩
    displayWidth := ⟨hdwidth, upper.displayWidth⟩
    displayHeight := ⟨hdheight, upper.displayHeight⟩
    frameCtxIdx := upper.frameCtxIdx
    lf := upper.lf
    q := upper.q
    seg := upper.seg
    tile := r.hdr_tile ▸ tileInfo_inRange r.tile (r.width_segmented ▸ upper.width)
    partition := ⟨r.partition_pos, upper.partition⟩
    length := by rw [r.headerLength_eq]; unfold ceilDiv; omega }

end FullRun

/-- A completed PARSE read at most 499 bits (R127). -/
theorem completed_pos_le {s : State} {w : Work} (hp : s.ParseReady) (hctx : s.inst.ctx.inRange)
    (hu : uncompressedHeader (startWork s) = .ok () w) : w.br.pos ≤ 499 := by
  have h := (readsIn_uncompressedHeader _ (startWork_inRange hctx) (startWork_full hp.buffer) (Nat.zero_le _)).ok hu
  simpa [startWork, Port.reader, Reader.init] using h.far

/-! ### The segmentation registers of a completed header -/

/-- What step 10 of a completed whole header left (R117 to R120). -/
theorem FullRun.segOk {w w' : Work} (r : FullRun w w') (hz : w.hdr.seg = Header.zero.seg) : SegOk r.quantized r.segmented :=
  segmentationParams_ok r.segment (r.seg_zero.trans hz)

/-- Without the past-independence reset, step 10 starts from the segmentation registers the last PARSE left (R111). -/
theorem FullRun.seg_kept {w w' : Work} (r : FullRun w w') (hr : w'.hdr.resetsContext = false) :
    FullRun.segRegs r.quantized.ctx = FullRun.segRegs w.ctx := by
  rw [r.seg_quantized, r.ctx_restarted, hr]
  rfl

/-! ### What a PARSE depends on -/

/-- Two PARSEs with the same context, and buffers of one length with the same bytes below it, start from the same registers. -/
theorem startWork_extends {s s' : State} (hctx : s'.inst.ctx = s.inst.ctx) (hlen : s'.port.len = s.port.len)
    (hbytes : ∀ a < s.port.len, s'.bufferByte a = s.bufferByte a) : Work.Extends true (startWork s) (startWork s') where
  br :=
    { pos := rfl
      len := hlen.ge
      same := fun _ => hlen
      bytes := fun a ha => by
        have hb := hbytes a ha
        have ha' : a < s'.port.len := hlen ▸ ha
        simpa [startWork, State.bufferByte, Reader.memRead, Port.reader, Reader.init, ha', show a < s.port.len from ha] using hb }
  ctx := hctx
  hdr := rfl

/-- The reader a PARSE leaves is given by its length and its cursor: its bytes are free values (R148, log 19). -/
theorem Reader.released_congr (k n : Nat) {r r' : Reader} (hlen : r'.len = r.len) (hpos : r'.pos = r.pos) :
    r'.released k n = r.released k n := by
  simp [Reader.released, hlen, hpos]

/-! ### The statements -/

/-- Settles O35: without the reset step 10 starts from the context's segmentation registers, leaves what it does not update,
and copies them to the header; the later steps keep both. -/
theorem segmentationPersists : Obligations.SegmentationPersists := by
  intro s t hpf hreset
  obtain ⟨_, p, w3, w, _, _, hctx, hhdr, ⟨r⟩, _, rfl⟩ := fullRun_of_ok hpf.parse hpf.ok hpf.frame
  simp only [State.inst_done, Instance.completed_ctx, Instance.completed_hdr] at hreset ⊢
  have ok := r.segOk (by rw [hhdr])
  obtain ⟨ctree, cpred, cabs, cfeature⟩ := ok.copied
  have kept := r.seg_kept hreset
  have final := r.ctx_seg
  rw [hctx] at kept
  simp only [FullRun.segRegs, Prod.mk.injEq] at kept final
  obtain ⟨ktree, kpred, kabs, kseg⟩ := kept
  obtain ⟨ftree, fpred, fabs, fseg⟩ := final
  rw [r.hdr_seg, ftree, fpred, fabs, fseg, ctree, cpred, cabs, cfeature, ← ktree, ← kpred, ← kabs, ← kseg]
  refine ⟨fun hdata => ?_, fun hmap => ?_⟩
  · obtain ⟨hseg, habs⟩ := ok.dataOff hdata
    exact ⟨hseg, habs, hseg, habs⟩
  · obtain ⟨_, htree, hpred⟩ := ok.mapOff hmap
    exact ⟨htree, hpred, htree, hpred⟩

/-- Settles O39: every step keeps the registers under their bounds, and the steps that must leave a field positive or ordered
(sizes, tile columns, partition size) do. -/
theorem completedHeaderIsInRange : Obligations.CompletedHeaderIsInRange := by
  intro s t hin hpf
  obtain ⟨hp, p, w3, w, hfront, _, hctx, hhdr, ⟨r⟩, hu, rfl⟩ := fullRun_of_ok hpf.parse hpf.ok hpf.frame
  simp only [State.inst_done, Instance.completed_ctx, Instance.completed_hdr]
  have h3 : w3.InRange := ⟨hctx ▸ hin, hhdr ▸ { Header.zero_upper with profile := hfront.profile_le }⟩
  exact ⟨r.hdr_inRange h3 (by rw [hhdr]) (completed_pos_le hp hin hu), completed_inRange hin hu⟩

/-- Settles O47. First part: a step of the grammar does the same on two buffers that agree below one length
(`Built.extends`). Second: the reader a PARSE leaves holds free values, a function of its length and cursor. -/
theorem parseDependsOnContextAndBytesOnly : Obligations.ParseDependsOnContextAndBytesOnly := by
  refine ⟨fun s s' hp hp' hctx hlen hbytes => ?_, fun s s' t t' h h' htarget hcount hlen hpos => ?_⟩
  · obtain ⟨onOk, onRaised⟩ := built_uncompressedHeader.extends true _ _ (startWork_extends hctx hlen hbytes)
    rcases execParse_outcome hp with ⟨w, hu, _⟩ | ⟨c, w, hu, hc, _⟩
    · obtain ⟨w', hu', e⟩ := onOk _ _ hu
      exact ⟨_, _, exec_parse_of_ok hp hu, exec_parse_of_ok hp' hu', by simp, by simp, by simp [e.ctx],
        by simp [e.br.pos], by simp [e.hdr]⟩
    · obtain ⟨w', hu', e⟩ := onRaised _ _ hu (.inr rfl)
      exact ⟨_, _, exec_parse_of_raised hp hu, exec_parse_of_raised hp' hu', by simp, by simp, by simp [e.ctx],
        by simp [e.br.pos], by simp [Cause.result_eq_ok, hc]⟩
  · obtain ⟨r, hr, e⟩ := execParse_released h
    obtain ⟨r', hr', e'⟩ := execParse_released h'
    rw [e, e', Reader.released_pos, Reader.released_pos] at hpos
    rw [e, e', htarget, hcount]
    exact Reader.released_congr _ _ (by rw [hr, hr', hlen]) hpos

/-- Settles O55: an idle step changes nothing, and fetching and executing a command each keep the invariant. -/
theorem everyStepKeepsTheInvariant : Obligations.EveryStepKeepsTheInvariant := by
  intro s t hs h
  obtain rfl | ⟨w, s', i, hfetch, hexec⟩ := step_next h
  · exact hs
  · exact exec_keeps_inv (hs.fetched hfetch) hexec

/-- Settles O20, by the command: CREATE, DESTROY, PARSE, or a bit-reader operation, which writes `BR` only. -/
theorem lifeChangesOnlyByCreateAndDestroy : Obligations.LifeChangesOnlyByCreateAndDestroy := by
  intro s t i h
  by_cases hc : i = .create
  · subst hc
    obtain ⟨habs, e⟩ := exec_create_next h
    exact .inl ⟨rfl, habs, by rw [e, Instance.create_life]⟩
  by_cases hd : i = .destroy
  · subst hd
    obtain ⟨hlive, e⟩ := exec_destroy_next h
    exact .inr (.inl ⟨rfl, hlive, by rw [e, Instance.destroy_life]⟩)
  refine .inr (.inr ⟨hc, hd, ?_⟩)
  by_cases hp : i = .parse
  · subst hp
    obtain ⟨hlive, hlive'⟩ := exec_parse_life h
    exact ⟨hlive'.trans hlive.symm, fun _ => hlive⟩
  · obtain ⟨_, r, _, e⟩ := exec_reader_next hc hp hd h
    exact ⟨by rw [e, Instance.withReader_life], fun hi => absurd hi hp⟩

/-- Settles O54: a bit-reader operation replaces the reader of its parser and keeps its other registers. -/
theorem onlyTheFacadeWritesTheContext : Obligations.OnlyTheFacadeWritesTheContext := by
  intro s t i hc hp hd h
  obtain ⟨_, r, _, e⟩ := exec_reader_next hc hp hd h
  simp [e]

end Sys2Proof.Machine

/-! Proofs of the statements about memory and the order of commands (20_memory.md): what a command leaves alone, that no step
touches a byte that is not there, and the step as the command it decodes. -/

namespace Sys2Proof.Machine

/-! ### The step as the command it decodes -/

theorem State.fetch_of_script {s : State} {c : Command} {rest : List Command} (h : s.script = c :: rest) :
    s.fetch = some (c.word, { s with script := rest, port := c.port }) := by
  simp [State.fetch, h]

theorem step_of_fetch {s s' : State} {w : CommandWord} {i : Instr} (hf : s.fetch = some (w, s')) (hd : decode w = .ok i) :
    step s = exec i s' := by
  simp [step, hf, hd]

/-- A step that faults does so in the command it fetched: being idle and refusing a word are no faults. -/
theorem step_fault {s : State} {flt : Fault} (h : step s = .fault flt) :
    ∃ w s' i, s.fetch = some (w, s') ∧ exec i s' = .fault flt := by
  unfold step at h
  split at h
  · cases h
  · rename_i w s' hf
    split at h
    · exact ⟨w, s', _, hf, h⟩
    · cases h

/-! ### No command faults where its reader is well bound -/

theorem withReaderUsable_ne_fault {s : State} {flt : Fault} {body : Host.Outcome State Fault Refusal}
    (hb : s.ReaderReady → body ≠ .fault flt) : withReaderUsable s body ≠ .fault flt := by
  unfold withReaderUsable
  split
  · nofun
  · split
    · nofun
    · exact hb ⟨Bool.not_eq_true _ ▸ ‹_›, ‹_›⟩

theorem withBuffer_ne_fault {s : State} {flt : Fault} {body : Host.Outcome State Fault Refusal}
    (hb : s.port.bufferGiven → body ≠ .fault flt) : withBuffer s body ≠ .fault flt := by
  unfold withBuffer
  split
  · nofun
  · exact hb (Port.bufferMisuse_eq_none.mp ‹_›)

/-- A read whose value is there whenever its bits are inside the buffer does not fault (R42, R79). -/
theorem answerRead_ne_fault {α : Type} {s : State} {value : α → Int} {n : Nat} {val : Reader → Option α} {flt : Fault}
    (hv : s.inst.br.pos + n ≤ 8 * s.inst.br.len → ∃ v, val s.inst.br = some v) :
    answerRead s value (s.inst.br.read n val) ≠ .fault flt := by
  rcases answerRead_of_full value hv with ⟨_, e⟩ | ⟨_, _, _, e⟩ <;> rw [e] <;> nofun

/-- PARSE checks its buffer against the length before its grammar reads a bit, so it faults from no state. -/
theorem execParse_ne_fault (s : State) (flt : Fault) : execParse s ≠ .fault flt := by
  by_cases hp : s.ParseReady
  · rcases execParse_outcome hp with ⟨_, _, e, _⟩ | ⟨_, _, _, _, e, _⟩ <;> rw [e] <;> nofun
  · unfold execParse
    split
    · nofun
    · split
      · refine withBuffer_ne_fault fun hbuf => ?_
        split
        · nofun
        · exact absurd ⟨Bool.not_eq_true _ ▸ ‹_›, ‹_›, hbuf, Bool.not_eq_true _ ▸ ‹_›⟩ hp
      · nofun

theorem exec_ne_fault {s : State} (hx : s.inst.Inv) (i : Instr) (flt : Fault) : exec i s ≠ .fault flt := by
  have full (hr : s.ReaderReady) : s.inst.br.Full := .of_wf (hx.reader hr.alive)
  cases i with
  | create =>
    simp only [exec, execCreate]
    split_ifs <;> nofun
  | destroy =>
    simp only [exec, execDestroy]
    split_ifs <;> nofun
  | parse => exact execParse_ne_fault s flt
  | brInit => exact withReaderUsable_ne_fault fun _ => withBuffer_ne_fault nofun
  | readBits n =>
    simp only [exec, execReadBits]
    split
    · exact withReaderUsable_ne_fault fun hr => answerRead_ne_fault fun hle => (full hr).bitsFrom n _ 0 hle
    · nofun
  | readSigned n =>
    simp only [exec, execReadSigned]
    split
    · refine withReaderUsable_ne_fault fun hr => answerRead_ne_fault fun hle => ?_
      obtain ⟨_, _, _, _, hv⟩ := (full hr).signedAt hle
      exact ⟨_, hv⟩
    · nofun
  | readFlag =>
    refine withReaderUsable_ne_fault fun hr => answerRead_ne_fault fun hle => ?_
    obtain ⟨_, _, hv⟩ := (full hr).flagAt hle
    exact ⟨_, hv⟩
  | getPos => exact withReaderUsable_ne_fault nofun

/-! ### The statements -/

/-- Settles O52: a command that completes is one write of its own instance and of the answer. -/
theorem commandsKeepEverythingElse : Obligations.CommandsKeepEverythingElse := by
  intro s t i h
  rw [exec_next_done h]
  exact othersKept_done s t.inst t.response

/-- Settles O57: fetching keeps the invariant, so the fetched command finds its reader well bound. -/
theorem noStepFaultsUnderTheInvariant : Obligations.NoStepFaultsUnderTheInvariant := by
  intro s hs flt h
  obtain ⟨_, _, i, hfetch, hexec⟩ := step_fault h
  exact exec_ne_fault ((hs.fetched hfetch).insts _) i flt hexec

/-- Settles O5: the next command of the script is the one fetched. -/
theorem stepRunsTheDecodedCommand : Obligations.StepRunsTheDecodedCommand := by
  intro s c rest i hscript hdecode
  exact step_of_fetch (State.fetch_of_script hscript) hdecode

end Sys2Proof.Machine

/-! Proofs of the statements about the encoding (30_encoding.md): the command word, its decoder and its encoder, and the
whole frames a buffer codes. -/

namespace Sys2Proof.Machine

open Laws (EncodeFields.opc EncodeFields.count)

/-! ### The command word -/

theorem encode_eq_commandWord (i : Instr) : encode i = commandWord (EncodeFields.opc i) (EncodeFields.count i) := by
  cases i <;> rfl

/-- A well-formed instruction's word has the fields of its row. -/
theorem encode_fields (i : Instr) : Laws.EncodeFields.Statement i := by
  cases i with
  | create => exact Laws.EncodeFields.create
  | parse => exact Laws.EncodeFields.parse
  | destroy => exact Laws.EncodeFields.destroy
  | brInit => exact Laws.EncodeFields.brInit
  | readBits n => exact Laws.EncodeFields.readBits n
  | readSigned n => exact Laws.EncodeFields.readSigned n
  | readFlag => exact Laws.EncodeFields.readFlag
  | getPos => exact Laws.EncodeFields.getPos

@[simp] theorem plainOp_zero (i : Instr) : plainOp i 0 = .ok i := rfl

theorem plainOp_eq_error {i : Instr} {n : Nat} {e : DecodeError} :
    plainOp i n = .error e ↔ n ≠ 0 ∧ e = .countNotZero := by
  unfold plainOp
  split <;> simp [*, eq_comm]

theorem countedOp_of_wf {i : Instr} (h : i.wf = true) : countedOp i = .ok i := if_pos h

theorem countedOp_eq_error {i : Instr} {e : DecodeError} :
    countedOp i = .error e ↔ ¬ i.wf = true ∧ e = .countTooWide := by
  unfold countedOp
  split <;> simp [*, eq_comm]

/-- What the decoder does with a word, by the row its `OPC` selects (R58, R59). -/
inductive DecodeRow (w : CommandWord) : Prop
  | unassigned : opcField w ∉ [0x01, 0x02, 0x03, 0x10, 0x11, 0x12, 0x13, 0x14] →
      decode w = .error .unassignedOpcode → DecodeRow w
  | plain (i : Instr) : opcField w ∈ [0x01, 0x02, 0x03, 0x10, 0x13, 0x14] → i.wf = true →
      EncodeFields.opc i = opcField w → EncodeFields.count i = 0 → decode w = plainOp i (countField w) → DecodeRow w
  | readBits : opcField w = 0x11 → decode w = countedOp (.readBits (countField w)) → DecodeRow w
  | readSigned : opcField w = 0x12 → decode w = countedOp (.readSigned (countField w)) → DecodeRow w

theorem decodeRow (w : CommandWord) : DecodeRow w := by
  have hd := decode.eq_def w
  dsimp only at hd
  split at hd <;> rename_i ho
  case h_1 => exact .plain .create (by simp [ho]) rfl ho.symm rfl hd
  case h_2 => exact .plain .parse (by simp [ho]) rfl ho.symm rfl hd
  case h_3 => exact .plain .destroy (by simp [ho]) rfl ho.symm rfl hd
  case h_4 => exact .plain .brInit (by simp [ho]) rfl ho.symm rfl hd
  case h_5 => exact .readBits ho hd
  case h_6 => exact .readSigned ho hd
  case h_7 => exact .plain .readFlag (by simp [ho]) rfl ho.symm rfl hd
  case h_8 => exact .plain .getPos (by simp [ho]) rfl ho.symm rfl hd
  case h_9 => exact .unassigned (by simp_all) hd

/-- A word with the fields of a well-formed instruction's row decodes to that instruction. -/
theorem decode_of_fields {w : CommandWord} {i : Instr} (hi : i.wf = true) (ho : opcField w = EncodeFields.opc i)
    (hn : countField w = EncodeFields.count i) : decode w = .ok i := by
  cases i with
  | readBits n => simpa [decode, ho, hn, EncodeFields.opc, EncodeFields.count] using countedOp_of_wf hi
  | readSigned n => simpa [decode, ho, hn, EncodeFields.opc, EncodeFields.count] using countedOp_of_wf hi
  | _ => simp [decode, ho, hn, EncodeFields.opc, EncodeFields.count]

theorem decode_encode {i : Instr} (hi : i.wf = true) : decode (encode i) = .ok i :=
  have ⟨ho, hn⟩ := encode_fields i hi
  decode_of_fields hi ho hn

/-- An accepted word has the fields of its instruction's row, with the count in the row's range. -/
theorem fields_of_decode {w : CommandWord} {i : Instr} (h : decode w = .ok i) :
    i.wf = true ∧ EncodeFields.opc i = opcField w ∧ EncodeFields.count i = countField w := by
  rcases decodeRow w with ⟨_, hd⟩ | ⟨j, _, hj, ho, hc, hd⟩ | ⟨ho, hd⟩ | ⟨ho, hd⟩ <;> rw [hd] at h
  · cases h
  · obtain ⟨rfl, hn⟩ := plainOp_ok h
    exact ⟨hj, ho, hc.trans hn.symm⟩
  · obtain ⟨rfl, hi⟩ := countedOp_ok h
    exact ⟨hi, ho.symm, rfl⟩
  · obtain ⟨rfl, hi⟩ := countedOp_ok h
    exact ⟨hi, ho.symm, rfl⟩

theorem encode_of_decode {w : CommandWord} {i : Instr} (h : decode w = .ok i) : encode i = w := by
  obtain ⟨_, ho, hn⟩ := fields_of_decode h
  rw [encode_eq_commandWord, ho, hn, commandWord_fields]

/-- The opcode table's numbering of the 16 bits of a command word is the word's own (R57, R60). -/
theorem tableWord_toNat (w : CommandWord) : tableWord 16 w.toNat = w := by
  simp [tableWord, Nat.mod_eq_of_lt (show w.toNat < 65536 from w.isLt)]

theorem decodeTableWord_of_decode {w : CommandWord} {i : Instr} (h : decode w = .ok i) :
    decodeTableWord 16 w.toNat = some i := by
  simp [decodeTableWord, tableWord_toNat, h]

/-! ### Refused words (R59) -/

theorem decode_unassigned_iff (w : CommandWord) : decode w = .error .unassignedOpcode ↔
    opcField w ∉ [0x01, 0x02, 0x03, 0x10, 0x11, 0x12, 0x13, 0x14] := by
  rcases decodeRow w with ⟨hno, hd⟩ | ⟨j, hm, _, _, _, hd⟩ | ⟨ho, hd⟩ | ⟨ho, hd⟩
  · simp only [hd, hno, not_false_eq_true]
  · have sub : [0x01, 0x02, 0x03, 0x10, 0x13, 0x14] ⊆ [0x01, 0x02, 0x03, 0x10, 0x11, 0x12, 0x13, 0x14] := by decide
    have hin := sub hm
    simp [hd, hin, plainOp_eq_error]
  · simp [hd, ho, countedOp_eq_error]
  · simp [hd, ho, countedOp_eq_error]

theorem decode_countTooWide_iff (w : CommandWord) : decode w = .error .countTooWide ↔
    (opcField w = 0x11 ∧ 32 < countField w) ∨ (opcField w = 0x12 ∧ 31 < countField w) := by
  rcases decodeRow w with ⟨hno, hd⟩ | ⟨j, hm, _, _, _, hd⟩ | ⟨ho, hd⟩ | ⟨ho, hd⟩
  · simp only [List.mem_cons, List.not_mem_nil, or_false, not_or] at hno
    simp [hd, hno]
  · have hb : opcField w ≠ 0x11 := fun e => by simp [e] at hm
    have hs : opcField w ≠ 0x12 := fun e => by simp [e] at hm
    simp [hd, hb, hs, plainOp_eq_error]
  · simp [hd, ho, countedOp_eq_error]
  · simp [hd, ho, countedOp_eq_error]

theorem decode_countNotZero_iff (w : CommandWord) : decode w = .error .countNotZero ↔
    opcField w ∈ [0x01, 0x02, 0x03, 0x10, 0x13, 0x14] ∧ countField w ≠ 0 := by
  rcases decodeRow w with ⟨hno, hd⟩ | ⟨j, hm, _, _, _, hd⟩ | ⟨ho, hd⟩ | ⟨ho, hd⟩
  · simp only [List.mem_cons, List.not_mem_nil, or_false, not_or] at hno
    simp [hd, hno]
  · simp only [hd, hm, plainOp_eq_error, true_and, and_true]
  · simp [hd, ho, countedOp_eq_error]
  · simp [hd, ho, countedOp_eq_error]

theorem step_refused_of_fetch {s s' : State} {w : CommandWord} {e : DecodeError} (hf : s.fetch = some (w, s'))
    (hd : decode w = .error e) : step s = .refused (Refusal.ofDecode e) := by
  simp [step, hf, hd]

/-- READ_BITS and READ_SIGNED with a count out of the row's range are refused before anything else is looked at. -/
theorem exec_readBits_too_wide {n : Nat} (h : 32 < n) (s : State) : exec (.readBits n) s = .refused .countTooWide :=
  if_neg (Nat.not_le.mpr h)

theorem exec_readSigned_too_wide {n : Nat} (h : 31 < n) (s : State) : exec (.readSigned n) s = .refused .countTooWide :=
  if_neg (Nat.not_le.mpr h)

/-! ### Whole frames -/

/-- A buffer that codes a legal frame parses OK to that frame's header and context, after its bits (R93 to R126). -/
theorem parse_of_coded {s : State} {k : CodedFrame} (hp : s.ParseReady) (hf : s.codes 0 (k.fields s.inst.ctx))
    (hk : k.Legal s.inst.ctx) (hn : k.partition ≠ 0) : ∃ t, exec .parse s = .next t ∧ OthersKept s t ∧
      DecodedTo s t (bitsOf (k.fields s.inst.ctx)) (k.context s.inst.ctx) (k.header s.inst.ctx) := by
  have hu := coded_completes hk hf hn
  exact ⟨_, exec_parse_of_ok hp hu, othersKept_done .., decodedTo_completed hp hu⟩

/-- A whole header that parses OK is a legal frame coded by the buffer: `completed_codes` reads the frame off the steps of the
completed grammar, and running it forward gives back the registers the PARSE left. -/
theorem coded_of_parse {s t : State} (h : ParsedFrame s t) : ∃ k : CodedFrame, s.codes 0 (k.fields s.inst.ctx) ∧
    k.Legal s.inst.ctx ∧ k.partition ≠ 0 ∧ t.inst.ctx = k.context s.inst.ctx ∧ t.inst.hdr = k.header s.inst.ctx := by
  obtain ⟨hp, w, hu, rfl⟩ := execParse_result_ok h.parse h.ok
  obtain ⟨k, hf, hk, hn⟩ := completed_codes hu (by simpa using h.frame)
  obtain ⟨t, ht, _, decoded⟩ := parse_of_coded hp hf hk hn
  cases h.parse.symm.trans ht
  exact ⟨k, hf, hk, hn, decoded.ctx, decoded.hdr⟩

/-! ### The statements -/

/-- Settles O1: the word has the fields of the instruction's row, and those select the row and pass its check. -/
theorem decodeEncodeRoundTrip : Obligations.DecodeEncodeRoundTrip := by
  intro i hi
  have hd := decode_encode hi
  exact ⟨hd, decodeTableWord_of_decode hd⟩

/-- Settles O59: the grammar run forward on a coded frame, and the frame read back off a completed grammar. -/
theorem codedFrameIsDecoded : Obligations.CodedFrameIsDecoded :=
  ⟨fun _ _ hp hf hk hn => parse_of_coded hp hf hk hn, fun _ _ h => coded_of_parse h⟩

/-- Settles O2: an accepted word's fields are those of its instruction's row, and the two fields make the word. -/
theorem decodedWordsEncodeBack : Obligations.DecodedWordsEncodeBack := by
  intro w i h
  exact ⟨(fields_of_decode h).1, encode_of_decode h⟩

/-- Settles O3, each refusal by the row its word's `OPC` selects. -/
theorem reservedWordsAreRefused : Obligations.ReservedWordsAreRefused :=
  ⟨fun w => ⟨decode_unassigned_iff w, decode_countTooWide_iff w, decode_countNotZero_iff w⟩,
    fun _ _ _ _ _ hscript hd => step_refused_of_fetch (State.fetch_of_script hscript) hd,
    fun s _ h => exec_readBits_too_wide h s, fun s _ h => exec_readSigned_too_wide h s⟩

/-- Settles O4: the eight words evaluate. -/
theorem sampleWordsDecode : Obligations.SampleWordsDecode :=
  ⟨rfl, rfl, rfl, rfl, rfl, rfl, rfl, rfl⟩

end Sys2Proof.Machine

/-! Proofs of the statements about the bit reader (40_bit_reader.md): what the five operations answer and where they leave the
cursor, and what a PARSE does that runs out of data or is given more of it. -/

namespace Sys2Proof.Machine

/-! ### Moving the cursor on -/

/-- The instance with `BR.POS` moved on by `n` bits. -/
def Instance.moved (x : Instance) (n : Nat) : Instance := x.withReader { x.br with pos := x.br.pos + n }

@[simp] theorem Instance.moved_moved (x : Instance) (a b : Nat) : (x.moved a).moved b = x.moved (a + b) := by
  simp [Instance.moved, Instance.withReader, Nat.add_assoc]

@[simp] theorem Instance.moved_life (x : Instance) (n : Nat) : (x.moved n).life = x.life := rfl
@[simp] theorem Instance.moved_br (x : Instance) (n : Nat) : (x.moved n).br = { x.br with pos := x.br.pos + n } := rfl

theorem Instance.moved_br_wf {x : Instance} {n : Nat} (hw : x.br.wf = true) (hle : x.br.pos + n ≤ 8 * x.br.len) :
    (x.moved n).br.wf = true := by
  obtain ⟨hbuf, hfull, _⟩ := Reader.wf_iff.mp hw
  exact Reader.wf_iff.mpr ⟨hbuf, hfull, hle⟩

/-! ### Fields -/

/-- A field of one bit is that bit. -/
theorem Reader.bitsFrom_one (r : Reader) (p : Nat) : r.bitsFrom 1 p 0 = r.bit p := by
  simp only [Reader.bitsFrom]
  cases r.bit p <;> simp

/-- A field of `a + b` bits is its first `a` bits, then its last `b` (R84). -/
theorem Reader.field_split {r : Reader} {a b p v : Nat} (h : r.bitsFrom (a + b) p 0 = some v) :
    ∃ x y, r.bitsFrom a p 0 = some x ∧ r.bitsFrom b (p + a) 0 = some y ∧ v = x * 2 ^ b + y := by
  rw [Reader.bitsFrom_add] at h
  obtain ⟨x, hx, h⟩ := Option.bind_eq_some_iff.mp h
  rw [Reader.bitsFrom_acc] at h
  obtain ⟨y, hy, rfl⟩ := Option.map_eq_some_iff.mp h
  exact ⟨x, y, hx, hy, rfl⟩

/-- The value of READ_SIGNED is put together from its magnitude and its sign bit (R80). -/
theorem Reader.signedAt_parts {r : Reader} {n : Nat} {v : Int} (h : r.signedAt n = some v) :
    ∃ m sign, r.bitsFrom n r.pos 0 = some m ∧ r.bit (r.pos + n) = some sign ∧ v = signMagnitude m sign := by
  unfold Reader.signedAt at h
  split at h
  · rename_i m sign hm hs
    exact ⟨m, sign, hm, hs, (Option.some.inj h).symm⟩
  · cases h

/-! ### How a read within the contract ends (R76, R79) -/

/-- How a read of whole width `w` ends on `s`: with `w` bits left it answers a value of which `P` holds and moves the cursor on by
`w`; with fewer it answers OutOfData and the instance is unchanged. -/
structure ReadEnds (s t : State) (w : Nat) (P : Int → Prop) : Prop where
  others : OthersKept s t
  fits   : s.inst.br.pos + w ≤ 8 * s.inst.br.len → ∃ v, P v ∧ t.response = some (.ok v) ∧ t.inst = s.inst.moved w
  short  : 8 * s.inst.br.len < s.inst.br.pos + w → t.response = some .outOfData ∧ t.inst = s.inst

theorem answerRead_ends {α : Type} {s : State} (value : α → Int) {w : Nat} {val : Reader → Option α}
    (hv : s.inst.br.pos + w ≤ 8 * s.inst.br.len → ∃ v, val s.inst.br = some v) :
    ∃ t, answerRead s value (s.inst.br.read w val) = .next t ∧
      ReadEnds s t w fun x => ∃ v, val s.inst.br = some v ∧ x = value v := by
  rcases answerRead_of_full value hv with ⟨hlt, e⟩ | ⟨hle, v, hval, e⟩ <;> refine ⟨_, e, othersKept_done .., ?_, ?_⟩
  · exact fun h => absurd h (Nat.not_le.mpr hlt)
  · exact fun _ => ⟨rfl, State.inst_done ..⟩
  · exact fun _ => ⟨_, ⟨v, hval, rfl⟩, rfl, State.inst_done ..⟩
  · exact fun h => absurd h (Nat.not_lt.mpr hle)

namespace ReadEnds

variable {s t : State} {w : Nat} {P Q : Int → Prop}

theorem mono (h : ReadEnds s t w P) (hPQ : ∀ v, P v → Q v) : ReadEnds s t w Q where
  others := h.others
  fits hle := (h.fits hle).imp fun v => And.imp_left (hPQ v)
  short := h.short

/-- OutOfData is answered exactly where bits are missing. -/
theorem outOfData_iff (h : ReadEnds s t w P) : t.response = some .outOfData ↔ 8 * s.inst.br.len < s.inst.br.pos + w := by
  refine ⟨fun hr => Nat.not_le.mp fun hle => ?_, fun hlt => (h.short hlt).1⟩
  obtain ⟨v, _, hok, _⟩ := h.fits hle
  rw [hr] at hok
  cases hok

/-- A value is answered only where all its bits are there. -/
theorem of_ok (h : ReadEnds s t w P) {v : Int} (hr : t.response = some (.ok v)) :
    s.inst.br.pos + w ≤ 8 * s.inst.br.len ∧ P v ∧ t.inst = s.inst.moved w := by
  have hle : s.inst.br.pos + w ≤ 8 * s.inst.br.len := Nat.not_lt.mp fun hlt => by
    rw [(h.short hlt).1] at hr
    cases hr
  obtain ⟨v', hP, hok, hinst⟩ := h.fits hle
  rw [hr] at hok
  cases hok
  exact ⟨hle, hP, hinst⟩

end ReadEnds

/-- The value of the next `n` bits (R78). -/
def NextBits (s : State) (n : Nat) (v : Int) : Prop := ∃ m : Nat, s.inst.br.bitsFrom n s.inst.br.pos 0 = some m ∧ v = m

/-- The value of the next `n` magnitude bits and the sign bit after them (R80). -/
def NextSigned (s : State) (n : Nat) (v : Int) : Prop :=
  ∃ m sign : Nat, s.inst.br.bitsFrom n s.inst.br.pos 0 = some m ∧ s.inst.br.bit (s.inst.br.pos + n) = some sign ∧
    v = signMagnitude m sign

theorem exec_readBits_ends {s : State} {n : Nat} (hr : s.ReaderReady) (hw : s.inst.br.wf = true) (hn : n ≤ 32) :
    ∃ t, exec (.readBits n) s = .next t ∧ ReadEnds s t n (NextBits s n) := by
  have e : exec (.readBits n) s = answerRead s (fun (v : Nat) => (v : Int)) (s.inst.br.readBits n) :=
    (if_pos hn).trans (withReaderUsable_of_ready hr _)
  rw [e]
  exact answerRead_ends _ fun hle => (Reader.Full.of_wf hw).bitsFrom n _ 0 hle

theorem exec_readSigned_ends {s : State} {n : Nat} (hr : s.ReaderReady) (hw : s.inst.br.wf = true) (hn : n ≤ 31) :
    ∃ t, exec (.readSigned n) s = .next t ∧ ReadEnds s t (n + 1) (NextSigned s n) := by
  have e : exec (.readSigned n) s = answerRead s (fun (v : Int) => v) (s.inst.br.readSigned n) :=
    (if_pos hn).trans (withReaderUsable_of_ready hr _)
  obtain ⟨t, ht, ends⟩ := answerRead_ends (s := s) (fun (v : Int) => v) (w := n + 1) (val := fun r => r.signedAt n) fun hle =>
    have ⟨_, _, _, _, hv⟩ := (Reader.Full.of_wf hw).signedAt hle
    ⟨_, hv⟩
  refine ⟨t, e.trans ht, ends.mono ?_⟩
  rintro _ ⟨v, hv, rfl⟩
  exact Reader.signedAt_parts hv

/-- READ_FLAG is READ_BITS 1 on every state (R81). -/
theorem exec_readFlag_eq (s : State) : exec .readFlag s = exec (.readBits 1) s := by
  have e : answerRead s (fun (b : Bool) => if b then 1 else 0) s.inst.br.readFlag =
      answerRead s (fun (v : Nat) => (v : Int)) (s.inst.br.readBits 1) := by
    rw [Reader.readFlag_eq]
    cases s.inst.br.readFlag with
    | ok b r => cases b <;> rfl
    | outOfData => rfl
    | absent => rfl
  simp [exec, execReadFlag, execReadBits, e, Config.readMax]

/-! ### Where a read or GET_POS leaves the cursor -/

/-- A read that is answered moves the cursor not at all, or on inside the buffer. -/
theorem answerRead_moves {α : Type} {s t : State} {value : α → Int} {w : Nat} {val : Reader → Option α}
    (h : answerRead s value (s.inst.br.read w val) = .next t) :
    ∃ n, (n = 0 ∨ s.inst.br.pos + n ≤ 8 * s.inst.br.len) ∧ t.inst = s.inst.moved n := by
  rcases Reader.read_cases s.inst.br w val with ⟨_, e⟩ | ⟨hle, v, _, e⟩ | ⟨_, _, e⟩ <;> rw [e] at h <;> cases h
  · exact ⟨0, .inl rfl, State.inst_done ..⟩
  · exact ⟨w, .inr hle, State.inst_done ..⟩

theorem exec_cursor_moves {s t : State} {i : Instr}
    (hi : i ∈ [.readFlag, .getPos] ∨ (∃ n, i = .readBits n) ∨ (∃ n, i = .readSigned n)) (h : exec i s = .next t) :
    ∃ n, (n = 0 ∨ s.inst.br.pos + n ≤ 8 * s.inst.br.len) ∧ t.inst = s.inst.moved n := by
  simp only [List.mem_cons, List.not_mem_nil, or_false] at hi
  rcases hi with (rfl | rfl) | ⟨n, rfl⟩ | ⟨n, rfl⟩
  · exact answerRead_moves (withReaderUsable_next h).2
  · cases (withReaderUsable_next h).2
    exact ⟨0, .inl rfl, State.inst_done ..⟩
  · simp only [exec, execReadBits] at h
    split at h
    · exact answerRead_moves (withReaderUsable_next h).2
    · cases h
  · simp only [exec, execReadSigned] at h
    split at h
    · exact answerRead_moves (withReaderUsable_next h).2
    · cases h

/-! ### Reads in a row (R84) -/

/-- READ_BITS with its `n` bits left answers their field, and the next read is within the contract again. -/
theorem exec_readBits_of_field {s : State} {n x : Nat} (hr : s.ReaderReady) (hw : s.inst.br.wf = true) (hn : n ≤ 32)
    (hle : s.inst.br.pos + n ≤ 8 * s.inst.br.len) (hx : s.inst.br.bitsFrom n s.inst.br.pos 0 = some x) :
    ∃ u, exec (.readBits n) s = .next u ∧ u.response = some (.ok x) ∧ u.inst = s.inst.moved n ∧ u.ReaderReady ∧
      u.inst.br.wf = true := by
  obtain ⟨u, hu, ends⟩ := exec_readBits_ends hr hw hn
  obtain ⟨_, ⟨x', hx', rfl⟩, hok, hinst⟩ := ends.fits hle
  obtain rfl : x = x' := Option.some.inj (hx.symm.trans hx')
  have alive : u.inst.life ≠ .destroyed := by simpa [hinst] using hr.alive
  exact ⟨u, hu, hok, hinst, ⟨ends.others.port ▸ hr.alone, alive⟩, hinst ▸ Instance.moved_br_wf hw hle⟩

/-- A wide read that is answered, as two reads. -/
theorem readBits_split {s t : State} {a b v : Nat} (hr : s.ReaderReady) (hw : s.inst.br.wf = true) (hab : a + b ≤ 32)
    (ht : ReadEnds s t (a + b) (NextBits s (a + b))) (hv : t.response = some (.ok v)) :
    ∃ (x y : Nat) (u t' : State), exec (.readBits a) s = .next u ∧ u.response = some (.ok x) ∧
      exec (.readBits b) u = .next t' ∧ t'.response = some (.ok y) ∧ v = x * 2 ^ b + y ∧ t'.inst = t.inst := by
  obtain ⟨hle, ⟨m, hm, hvm⟩, hinst⟩ := ht.of_ok hv
  obtain rfl : v = m := Int.ofNat.inj hvm
  obtain ⟨x, y, hx, hy, hsum⟩ := Reader.field_split hm
  obtain ⟨u, hu, hux, huinst, hur, huw⟩ := exec_readBits_of_field (n := a) hr hw (by omega) (by omega) hx
  obtain ⟨t', ht', hty, htinst, _⟩ := exec_readBits_of_field (n := b) (x := y) hur huw (by omega)
    (by rw [huinst, Instance.moved_br]; dsimp only; omega)
    (by rw [huinst, Instance.moved_br, Reader.bitsFrom_pos]; exact hy)
  exact ⟨x, y, u, t', hu, hux, ht', hty, hsum, by rw [htinst, huinst, hinst, Instance.moved_moved]⟩

/-- A wide read that runs out of data: the first of the two reads does, or the second. -/
theorem readBits_split_short {s : State} {a b : Nat} (hr : s.ReaderReady) (hw : s.inst.br.wf = true) (hab : a + b ≤ 32)
    (hlt : 8 * s.inst.br.len < s.inst.br.pos + (a + b)) :
    ∃ u, exec (.readBits a) s = .next u ∧
      (u.response = some .outOfData ∨ ∃ t', exec (.readBits b) u = .next t' ∧ t'.response = some .outOfData) := by
  rcases Nat.lt_or_ge (8 * s.inst.br.len) (s.inst.br.pos + a) with hshort | hle
  · obtain ⟨u, hu, ends⟩ := exec_readBits_ends (n := a) hr hw (by omega)
    exact ⟨u, hu, .inl (ends.short hshort).1⟩
  · obtain ⟨x, hx⟩ := (Reader.Full.of_wf hw).bitsFrom a _ 0 hle
    obtain ⟨u, hu, _, huinst, hur, huw⟩ := exec_readBits_of_field hr hw (by omega) hle hx
    obtain ⟨t', ht', ends⟩ := exec_readBits_ends (n := b) hur huw (by omega)
    exact ⟨u, hu, .inr ⟨t', ht', (ends.short (by rw [huinst, Instance.moved_br]; dsimp only; omega)).1⟩⟩

/-- READ_SIGNED that is answered, as READ_BITS of the magnitude and READ_FLAG of the sign. -/
theorem readSigned_split {s t : State} {n : Nat} {v : Int} (hr : s.ReaderReady) (hw : s.inst.br.wf = true) (hn : n ≤ 31)
    (ht : ReadEnds s t (n + 1) (NextSigned s n)) (hv : t.response = some (.ok v)) :
    ∃ (m sign : Nat) (u t' : State), exec (.readBits n) s = .next u ∧ u.response = some (.ok m) ∧
      exec .readFlag u = .next t' ∧ t'.response = some (.ok sign) ∧ v = signMagnitude m sign ∧ t'.inst = t.inst := by
  obtain ⟨hle, ⟨m, sign, hm, hs, hvm⟩, hinst⟩ := ht.of_ok hv
  obtain ⟨u, hu, hum, huinst, hur, huw⟩ := exec_readBits_of_field (n := n) hr hw (by omega) (by omega) hm
  obtain ⟨t', ht', hts, htinst, _⟩ := exec_readBits_of_field (n := 1) (x := sign) hur huw (by omega)
    (by rw [huinst, Instance.moved_br]; dsimp only; omega)
    (by rw [huinst, Instance.moved_br, Reader.bitsFrom_pos, Reader.bitsFrom_one]; exact hs)
  exact ⟨m, sign, u, t', hu, hum, (exec_readFlag_eq u).trans ht', hts, hvm, by rw [htinst, huinst, hinst, Instance.moved_moved]⟩

/-! ### A PARSE that runs out of data (R79, R131, R146) -/

/-- A PARSE whose grammar runs out of data with the registers `w` ends in NoPacketError, with the context and the cursor of `w`. -/
theorem exec_parse_of_outOfData {s : State} {w : Work} (hp : s.ParseReady)
    (hu : uncompressedHeader (startWork s) = .error (.raised .outOfData) w) :
    ∃ t, exec .parse s = .next t ∧ OthersKept s t ∧ t.inst.life = .live ∧ t.inst.result = .noPacketError ∧
      t.inst.cause = .outOfData ∧ t.inst.ctx = w.ctx ∧ ReaderEndsAt s t w.br.pos :=
  ⟨_, exec_parse_of_raised hp hu, othersKept_done .., by simpa using hp.live, by simp [Cause.result], by simp, by simp,
    readerEndsAt_failed hp hu⟩

/-- On an empty buffer the grammar stops at its first read. -/
theorem uncompressedHeader_of_empty {s : State} (h : s.port.len = 0) :
    uncompressedHeader (startWork s) = .error (.raised .outOfData) (startWork s) := by
  have hf : f 2 (startWork s) = .error (.raised .outOfData) (startWork s) := by
    simp [f, receive, Reader.readBits, Reader.read, startWork, Port.reader, Reader.init, h]
  exact bind_error.mpr (.inl (bind_error.mpr (.inl hf)))

/-- A PARSE that goes on leaves the cursor where its grammar did, completed or not, and that is inside the buffer. -/
theorem exec_parse_work {s t : State} (h : exec .parse s = .next t) :
    ∃ w, (uncompressedHeader (startWork s) = .ok () w ∨ ∃ c, uncompressedHeader (startWork s) = .error (.raised c) w) ∧
      t.inst.br.pos = w.br.pos ∧ w.br.pos ≤ 8 * s.port.len := by
  have inside {n : Nat} {w : Work} (ha : Advanced n (startWork s) w) : w.br.pos ≤ 8 * s.port.len :=
    (show w.br.len = s.port.len from ha.len) ▸ ha.inside
  rcases execParse_outcome (execParse_next h).1 with ⟨w, hu, he, _, ha⟩ | ⟨c, w, hu, _, he, _, ha⟩ <;> cases h.symm.trans he
  · exact ⟨w, .inl hu, by simp, inside ha⟩
  · exact ⟨w, .inr ⟨c, hu⟩, by simp, inside ha⟩

/-- Cut before the bit it reached, a PARSE runs out of data. -/
theorem exec_parse_cut_before {s t : State} {len : Nat} (h : exec .parse s = .next t) (hlen : 8 * len < t.inst.br.pos) :
    ∃ u, exec .parse (s.cut len) = .next u ∧ OthersKept (s.cut len) u ∧ u.inst.life = .live ∧
      u.inst.result = .noPacketError ∧ u.inst.cause = .outOfData := by
  obtain ⟨w, hr, hpos, hin⟩ := exec_parse_work h
  have hl : len ≤ s.port.len := by omega
  obtain ⟨v, hv⟩ := shorter_outOfData hl rfl hr (hpos ▸ hlen)
  obtain ⟨u, hu, ho, hlife, hres, hcause, _⟩ := exec_parse_of_outOfData ((execParse_next h).1.cut hl) hv
  exact ⟨u, hu, ho, hlife, hres, hcause⟩

/-- Cut inside it, a coded frame runs out of data at the read that does not fit. -/
theorem exec_parse_cut_inside {s : State} {k : CodedFrame} {len : Nat} (hp : s.ParseReady) (hf : s.codes 0 (k.fields s.inst.ctx))
    (hk : k.Legal s.inst.ctx) (hn : 8 * len < bitsOf (k.fields s.inst.ctx)) :
    ∃ t, exec .parse (s.cut len) = .next t ∧ OthersKept (s.cut len) t ∧ t.inst.life = .live ∧
      t.inst.result = .noPacketError ∧ t.inst.cause = .outOfData ∧
      t.inst.ctx = CodedStep.cut (k.steps s.inst.ctx) (8 * len) s.inst.ctx ∧
      ReaderEndsAt (s.cut len) t (CodedStep.reach (k.steps s.inst.ctx) (8 * len)) := by
  have hl : len ≤ s.port.len := by have := k.bits_inside hf; omega
  obtain ⟨h, hu⟩ := coded_cut hk hf hl hn
  exact exec_parse_of_outOfData (hp.cut hl) hu

/-- NoPacketError is reported exactly with OUT_OF_DATA. -/
theorem exec_parse_noPacket_iff {s t : State} (h : exec .parse s = .next t) :
    t.inst.result = .noPacketError ↔ t.inst.cause = .outOfData := by
  rcases execParse_outcome (execParse_next h).1 with ⟨w, _, he, _⟩ | ⟨c, w, _, _, he, _⟩ <;> cases h.symm.trans he
  · simp
  · simp [Cause.result_eq_noPacketError]

/-- A PARSE that does not end OK commits no reference slot (R126). -/
theorem exec_parse_refs_of_not_ok {s t : State} (h : exec .parse s = .next t) (hr : t.inst.result ≠ .ok) :
    t.inst.ctx.refs = s.inst.ctx.refs := by
  obtain ⟨_, c, w, hu, _, rfl⟩ := execParse_result_not_ok h hr
  simpa [startWork] using failed_refs hu

/-! ### A PARSE given more data (R79, R130) -/

/-- A PARSE on a buffer that goes on after the same bytes starts from registers that extend the shorter one's. -/
theorem startWork_extends_longer {s s' : State} (hctx : s'.inst.ctx = s.inst.ctx) (hlen : s.port.len ≤ s'.port.len)
    (hbytes : ∀ a < s.port.len, s'.bufferByte a = s.bufferByte a) : Work.Extends false (startWork s) (startWork s') where
  br :=
    { pos := rfl
      len := hlen
      same := nofun
      bytes := fun a ha => by
        have hb := hbytes a ha
        have hlt : a < s.port.len := ha
        simpa [startWork, State.bufferByte, Reader.memRead, Port.reader, Reader.init, hlt, Nat.lt_of_lt_of_le hlt hlen] using hb }
  ctx := hctx
  hdr := rfl

/-! ### The statements -/

/-- Settles O22: the grammar stops at its first read on an empty buffer; on a cut one it follows the longer one's up to the cut
(`Built.shorter`), through the steps of the frame coded there (`coded_cut`). -/
theorem runningOutOfDataIsNoPacket : Obligations.RunningOutOfDataIsNoPacket := by
  refine ⟨fun s hp h0 => ?_, fun s t len h hlen => exec_parse_cut_before h hlen, fun s k len hp hf hk hn => ?_,
    fun s t h => ⟨exec_parse_noPacket_iff h, fun hc => ?_⟩⟩
  · obtain ⟨t, ht, ho, hlife, hres, hcause, hctx, _⟩ := exec_parse_of_outOfData hp (uncompressedHeader_of_empty h0)
    exact ⟨t, ht, ho, hlife, hres, hcause, hctx⟩
  · obtain ⟨t, ht, ho, hlife, hres, hcause, hctx, hreader⟩ := exec_parse_cut_inside hp hf hk hn
    exact ⟨t, ht, ho, hlife, hres, hcause, hctx, hreader, fun h16 => hctx.trans (k.cut_last hk (k.spaced hf) hn h16)⟩
  · exact exec_parse_refs_of_not_ok h (by simp [(exec_parse_noPacket_iff h).mpr hc])

/-- Settles O46: run on a buffer that extends the first, a step of the grammar does the same unless it ran out of data there
(`Built.extends`). -/
theorem moreDataNeverChangesAVerdict : Obligations.MoreDataNeverChangesAVerdict := by
  intro s s' t hp' hctx hlen hbytes h hr
  obtain ⟨onOk, onRaised⟩ := built_uncompressedHeader.extends false _ _ (startWork_extends_longer hctx hlen hbytes)
  rcases execParse_outcome (execParse_next h).1 with ⟨w, hu, he, _⟩ | ⟨c, w, hu, hc, he, _⟩ <;> cases h.symm.trans he
  · obtain ⟨w', hu', e⟩ := onOk _ _ hu
    exact ⟨_, exec_parse_of_ok hp' hu', othersKept_done .., by simp, by simp, by simp [e.ctx], by simp [e.br.pos], by simp [e.hdr]⟩
  · have hdata : c ≠ .outOfData := fun hd => hr (by simp [hd, Cause.result])
    obtain ⟨w', hu', e⟩ := onRaised _ _ hu (.inl hdata)
    exact ⟨_, exec_parse_of_raised hp' hu', othersKept_done .., by simp, by simp, by simp [e.ctx], by simp [e.br.pos],
      by simp [Cause.result_eq_ok, hc]⟩

/-- Settles O8: the field read has the stream's bits, the first most significant (`Reader.field_bits`). -/
theorem readBitsReadsTheNextBits : Obligations.ReadBitsReadsTheNextBits := by
  intro s n hr hw hn
  obtain ⟨t, ht, ends⟩ := exec_readBits_ends hr hw hn
  refine ⟨t, ht, ends.others, fun hle => ?_, ends.short⟩
  obtain ⟨_, ⟨v, hv, rfl⟩, hok, hinst⟩ := ends.fits hle
  exact ⟨v, hok, Reader.field_lt hv, fun k hk => Reader.field_bits hv hk, hinst⟩

/-- Settles O9: each of the three reads ends as `ReadEnds` says, at its own width. -/
theorem readsFailExactlyWhenShortOfData : Obligations.ReadsFailExactlyWhenShortOfData := by
  intro s i w hr hw hi hwidth
  obtain ⟨t, ht, P, ends⟩ : ∃ t, exec i s = .next t ∧ ∃ P, ReadEnds s t w P := by
    rcases hwidth with rfl | ⟨n, rfl, rfl⟩ | ⟨rfl, rfl⟩
    · exact (exec_readBits_ends hr hw (Instr.wf_readBits.mp hi)).imp fun t => .imp_right fun h => ⟨_, h⟩
    · exact (exec_readSigned_ends hr hw (Instr.wf_readSigned.mp hi)).imp fun t => .imp_right fun h => ⟨_, h⟩
    · rw [exec_readFlag_eq]
      exact (exec_readBits_ends hr hw (by decide)).imp fun t => .imp_right fun h => ⟨_, h⟩
  refine ⟨t, ht, ends.others, ends.outOfData_iff, fun h => (ends.short (ends.outOfData_iff.mp h)).2, fun h => ?_,
    fun a ha => if_neg (Nat.not_lt.mpr ha)⟩
  obtain ⟨_, _, _, hinst⟩ := ends.fits (Nat.not_lt.mp (mt ends.outOfData_iff.mpr h))
  exact hinst

/-- Settles O10, from the magnitude and the sign bit of `NextSigned`. -/
theorem readSignedIsSignAndMagnitude : Obligations.ReadSignedIsSignAndMagnitude := by
  intro s n hr hw hn
  obtain ⟨t, ht, ends⟩ := exec_readSigned_ends hr hw hn
  refine ⟨t, ht, ends.others, fun hle => ?_, ends.short⟩
  obtain ⟨_, ⟨m, sign, hm, hs, rfl⟩, hok, hinst⟩ := ends.fits hle
  exact ⟨m, sign, hm, hs, hok, Nat.le_sub_one_of_lt (Reader.field_lt hm), Reader.bit_le_one hs, hinst⟩

/-- Settles O11: READ_FLAG is READ_BITS 1, and a field of one bit is that bit. -/
theorem readFlagIsOneBit : Obligations.ReadFlagIsOneBit := by
  refine ⟨exec_readFlag_eq, fun s hr hw => ?_⟩
  obtain ⟨t, ht, ends⟩ := exec_readBits_ends hr hw (by decide : 1 ≤ 32)
  refine ⟨t, (exec_readFlag_eq s).trans ht, ends.others, fun hle => ?_, ends.short⟩
  obtain ⟨_, ⟨b, hb, rfl⟩, hok, hinst⟩ := ends.fits hle
  rw [Reader.bitsFrom_one] at hb
  exact ⟨b, Reader.bit_le_one hb, hb, hok, hinst⟩

/-- Settles O13: a field splits into its first and its last bits, and the cursor moves by their sum. -/
theorem readsCompose : Obligations.ReadsCompose := by
  refine ⟨fun s t a b hr hw hab h => ?_, fun s t n v hr hw hn h hv => ?_⟩
  · obtain ⟨_, ht, ends⟩ := exec_readBits_ends hr hw hab
    cases h.symm.trans ht
    exact ⟨fun v hv => readBits_split hr hw hab ends hv, fun hd => readBits_split_short hr hw hab (ends.outOfData_iff.mp hd)⟩
  · obtain ⟨_, ht, ends⟩ := exec_readSigned_ends hr hw hn
    cases h.symm.trans ht
    exact readSigned_split hr hw hn ends hv

/-- Settles O14: the operation writes its own instance only, and there the cursor moved on by some number of bits. -/
theorem cursorNeverMovesBack : Obligations.CursorNeverMovesBack := by
  intro s t i hi h
  obtain ⟨n, hn, hinst⟩ := exec_cursor_moves hi h
  have hpos : t.inst.br.pos = s.inst.br.pos + n := by rw [hinst]; rfl
  refine ⟨?_, by omega, fun hle => by omega, by rw [hpos]; exact hinst⟩
  rw [exec_next_done h]
  exact othersKept_done ..

/-- Settles O7: within the contract BR_INIT is one write of the reader over its operands. -/
theorem brInitBindsTheBuffer : Obligations.BrInitBindsTheBuffer := fun s hr hg =>
  have e : exec .brInit s = .next (s.done (s.inst.withReader s.port.reader) (some (.ok 0))) :=
    (withReaderUsable_of_ready hr _).trans (withBuffer_of_given hg _)
  ⟨_, e, othersKept_done .., rfl, State.inst_done ..⟩

/-- Settles O12: within the contract GET_POS writes the instance it found. -/
theorem getPosAnswersTheCursor : Obligations.GetPosAnswersTheCursor := fun _ hr =>
  ⟨_, withReaderUsable_of_ready hr _, othersKept_done .., rfl, State.inst_done ..⟩

end Sys2Proof.Machine

/-! Proofs of the statements about the facade (41_facade.md): what CREATE and DESTROY leave, the three ways a PARSE ends, and
which commands are refused. -/

namespace Sys2Proof.Machine

/-! ### CREATE and DESTROY within the contract (R85, R91) -/

theorem exec_create_of_absent {s : State} (ho : s.port.overlapped = false) (ha : s.inst.life = .absent) :
    exec .create s = .next (s.done (s.inst.create s.port.target) none) := by
  simp [exec, execCreate, ho, ha]

theorem exec_destroy_of_live {s : State} (ho : s.port.overlapped = false) (hl : s.inst.life = .live) :
    exec .destroy s = .next (s.done (s.inst.destroy s.port.target) none) := by
  simp [exec, execDestroy, ho, hl]

@[simp] theorem Context.reset_seg (i : Fin 8) : Context.reset.seg[i] = SegFeature.zero := by simp [Context.reset]
@[simp] theorem Context.reset_refs (i : Fin 8) : Context.reset.refs[i] = RefSlot.empty := by simp [Context.reset]

/-! ### The result a cause belongs to (R87, R128) -/

/-- Every cause but 0 and OUT_OF_DATA belongs to BrokenData. -/
theorem Cause.result_eq_brokenData {c : Cause} : c.result = .brokenData ↔ c ≠ .none ∧ c ≠ .outOfData := by
  cases c <;> simp [Cause.result]

/-! ### The contract's breaches, listed (R92) -/

theorem Port.not_bufferGiven_iff {p : Port} : ¬ p.bufferGiven ↔
    (p.buf = none ∧ 0 < p.len) ∨ ∃ m, p.buf = some m ∧ ∃ a < p.len, lookup a m = none := by
  unfold Port.bufferGiven
  cases p.buf <;> simp [Nat.pos_iff_ne_zero, Option.eq_none_iff_forall_ne_some]

theorem State.readerReady_iff {s : State} :
    s.ReaderReady ↔ s.port.overlapped = false ∧ s.inst.life ≠ .destroyed :=
  ⟨fun h => ⟨h.alone, h.alive⟩, fun ⟨ho, hl⟩ => ⟨ho, hl⟩⟩

theorem State.not_readerReady_iff {s : State} :
    ¬ s.ReaderReady ↔ s.port.overlapped = true ∨ s.inst.life = .destroyed := by
  simp only [State.readerReady_iff, not_and_or, Bool.not_eq_false, ne_eq, not_not]

theorem State.parseReady_iff {s : State} : s.ParseReady ↔
    s.port.overlapped = false ∧ s.inst.life = .live ∧ s.port.bufferGiven ∧ s.port.bufChanged = false :=
  ⟨fun h => ⟨h.alone, h.live, h.buffer, h.fixed⟩, fun ⟨ho, hl, hb, hc⟩ => ⟨ho, hl, hb, hc⟩⟩

theorem State.not_parseReady_iff {s : State} : ¬ s.ParseReady ↔
    s.port.overlapped = true ∨ s.inst.life ≠ .live ∨ ¬ s.port.bufferGiven ∨ s.port.bufChanged = true := by
  simp only [State.parseReady_iff, not_and_or, Bool.not_eq_false, ne_eq]

/-! ### When a command is refused (R92)

For PARSE and the bit reader as a breach of the contract: `State.ReaderReady`, `Port.bufferGiven` or `State.ParseReady` fails. -/

theorem withReaderUsable_refused_iff {s : State} {body : Host.Outcome State Fault Refusal} :
    (∃ r, withReaderUsable s body = .refused r) ↔ ¬ s.ReaderReady ∨ ∃ r, body = .refused r := by
  by_cases hr : s.ReaderReady
  · simp [withReaderUsable_of_ready hr, hr]
  · simp only [hr, not_false_eq_true, true_or, iff_true]
    unfold withReaderUsable
    rcases State.not_readerReady_iff.mp hr with ho | hd
    · exact ⟨_, if_pos ho⟩
    · split_ifs <;> exact ⟨_, rfl⟩

theorem withBuffer_refused_iff {s : State} {body : Host.Outcome State Fault Refusal} :
    (∃ r, withBuffer s body = .refused r) ↔ ¬ s.port.bufferGiven ∨ ∃ r, body = .refused r := by
  unfold withBuffer
  rw [← Port.bufferMisuse_eq_none]
  cases s.port.bufferMisuse <;> simp

theorem answerRead_ne_refused {α : Type} (s : State) (value : α → Int) (out : ReadOut α) (r : Refusal) :
    answerRead s value out ≠ .refused r := by
  cases out <;> nofun

theorem exec_create_refused_iff (s : State) :
    (∃ r, exec .create s = .refused r) ↔ s.port.overlapped = true ∨ s.inst.life ≠ .absent := by
  simp only [exec, execCreate]
  split_ifs <;> simp [*]

theorem exec_destroy_refused_iff (s : State) :
    (∃ r, exec .destroy s = .refused r) ↔ s.port.overlapped = true ∨ s.inst.life ≠ .live := by
  simp only [exec, execDestroy]
  split_ifs <;> simp [*]

/-- A PARSE is refused exactly outside its contract: within it, it completes whatever the bytes are (R87). -/
theorem exec_parse_refused_iff (s : State) : (∃ r, exec .parse s = .refused r) ↔ ¬ s.ParseReady := by
  refine ⟨?_, fun hn => ?_⟩
  · rintro ⟨r, hr⟩ hp
    rcases execParse_outcome hp with ⟨w, _, he, _⟩ | ⟨c, w, _, _, he, _⟩ <;> cases hr.symm.trans he
  · simp only [exec, execParse]
    split_ifs with ho hl hc
    · exact ⟨_, rfl⟩
    · exact withBuffer_refused_iff.mpr (.inr ⟨_, rfl⟩)
    · have hb : ¬ s.port.bufferGiven := fun hb =>
        hn ⟨Bool.not_eq_true _ ▸ ho, hl, hb, Bool.not_eq_true _ ▸ hc⟩
      exact withBuffer_refused_iff.mpr (.inl hb)
    · exact ⟨_, rfl⟩

/-- A read or GET_POS with a legal count is refused exactly outside the contract: its answer is no refusal. -/
theorem exec_reader_refused_iff {i : Instr} (s : State)
    (hi : i ∈ [.readFlag, .getPos] ∨ (∃ n ≤ 32, i = .readBits n) ∨ (∃ n ≤ 31, i = .readSigned n)) :
    (∃ r, exec i s = .refused r) ↔ ¬ s.ReaderReady := by
  obtain ⟨body, he, hbody⟩ : ∃ body, exec i s = withReaderUsable s body ∧ ∀ r, body ≠ .refused r := by
    simp only [List.mem_cons, List.not_mem_nil, or_false] at hi
    rcases hi with (rfl | rfl) | ⟨n, hn, rfl⟩ | ⟨n, hn, rfl⟩
    · exact ⟨_, rfl, answerRead_ne_refused _ _ _⟩
    · exact ⟨_, rfl, nofun⟩
    · exact ⟨_, if_pos hn, answerRead_ne_refused _ _ _⟩
    · exact ⟨_, if_pos hn, answerRead_ne_refused _ _ _⟩
  simp [he, withReaderUsable_refused_iff, hbody]

theorem exec_brInit_refused_iff (s : State) :
    (∃ r, exec .brInit s = .refused r) ↔ ¬ s.ReaderReady ∨ ¬ s.port.bufferGiven := by
  simp [exec, execBrInit, withReaderUsable_refused_iff, withBuffer_refused_iff]

/-- A command that overlaps another is refused, whatever it is (R56, R145). -/
theorem exec_refused_of_overlapped {s : State} (ho : s.port.overlapped = true) (i : Instr) : ∃ r, exec i s = .refused r := by
  have hr : ¬ s.ReaderReady := State.not_readerReady_iff.mpr (.inl ho)
  cases i with
  | create => exact (exec_create_refused_iff s).mpr (.inl ho)
  | destroy => exact (exec_destroy_refused_iff s).mpr (.inl ho)
  | parse => exact (exec_parse_refused_iff s).mpr (State.not_parseReady_iff.mpr (.inl ho))
  | brInit => exact (exec_brInit_refused_iff s).mpr (.inl hr)
  | readFlag => exact (exec_reader_refused_iff s (.inl (by simp))).mpr hr
  | getPos => exact (exec_reader_refused_iff s (.inl (by simp))).mpr hr
  | readBits n =>
    rcases Nat.lt_or_ge 32 n with hn | hn
    · exact ⟨_, exec_readBits_too_wide hn s⟩
    · exact (exec_reader_refused_iff s (.inr (.inl ⟨n, hn, rfl⟩))).mpr hr
  | readSigned n =>
    rcases Nat.lt_or_ge 31 n with hn | hn
    · exact ⟨_, exec_readSigned_too_wide hn s⟩
    · exact (exec_reader_refused_iff s (.inr (.inr ⟨n, hn, rfl⟩))).mpr hr

/-! ### The statements -/

/-- Settles O15: CREATE writes the reset context (R142), and each register of that is the value listed. -/
theorem createGivesTheResetContext : Obligations.CreateGivesTheResetContext := by
  intro s ho ha
  refine ⟨_, exec_create_of_absent ho ha, othersKept_done .., ?_⟩
  rw [State.inst_done, Instance.create_ctx]
  exact ⟨rfl, rfl, rfl, rfl, rfl, rfl, rfl, Context.reset_seg, rfl, rfl, rfl, rfl, rfl, rfl, Context.reset_refs⟩

/-- Settles O17: the breaches of each command's contract, listed; a PARSE within its contract always completes. -/
theorem misuseIsRefused : Obligations.MisuseIsRefused := by
  refine ⟨fun s => ⟨exec_create_refused_iff s, exec_destroy_refused_iff s, ?_⟩, fun _ i ho => exec_refused_of_overlapped ho i⟩
  rw [exec_parse_refused_iff, State.not_parseReady_iff, Port.not_bufferGiven_iff, or_assoc]

/-- Settles O18: the breaches of the readers' contract, and for BR_INIT those of its buffer operand, listed. -/
theorem readerMisuseIsRefused : Obligations.ReaderMisuseIsRefused := by
  refine fun s => ⟨fun i hi => (exec_reader_refused_iff s hi).trans State.not_readerReady_iff, ?_⟩
  rw [exec_brInit_refused_iff, State.not_readerReady_iff, Port.not_bufferGiven_iff, or_assoc]

/-- Settles O21: the grammar completes or raises a cause (`execParse_outcome`), and OUT_OF_DATA is the one cause with a result of
its own. -/
theorem parseEndsInOneOfThreeWays : Obligations.ParseEndsInOneOfThreeWays := by
  intro s hp
  rcases execParse_outcome hp with ⟨w, hu, he, _⟩ | ⟨c, w, hu, hc, he, _⟩
  · have d := decodedTo_completed hp hu
    exact ⟨_, w, he, othersKept_done .., d.life, d.ctx, d.reader, .inl ⟨hu, d.result, d.cause, d.hdr⟩⟩
  · refine ⟨_, w, he, othersKept_done .., by simpa using hp.live, by simp, readerEndsAt_failed hp hu, .inr ?_⟩
    by_cases hd : c = .outOfData
    · subst hd
      exact .inr ⟨hu, by simp [Cause.result], by simp⟩
    · exact .inl ⟨c, hu, hc, hd, by simpa using Cause.result_eq_brokenData.mpr ⟨hc, hd⟩, by simp⟩

/-- Settles O16: DESTROY is one write of the destroyed instance. -/
theorem destroyEndsTheInstance : Obligations.DestroyEndsTheInstance := fun s ho hl =>
  ⟨_, exec_destroy_of_live ho hl, othersKept_done .., by simp⟩

end Sys2Proof.Machine

/-! Proofs of the statements about the front of the header (42_header_front.md): what the checks of steps 1 to 6 let through and how
a PARSE ends where one fails, what a completed frame says of its size, colour and restarted context, and four frame shapes
decoded by bit positions. -/

namespace Sys2Proof.Machine

variable {s t : State}

/-! ### How a PARSE ends at a check that fails (R87, R128, R131) -/

/-- A grammar that raises a cause other than OUT_OF_DATA, forward: the PARSE is BrokenData with that cause. -/
theorem parse_of_broken {e : Cause} {n : Nat} {c : Context} {h : Header} (hp : s.ParseReady) (he : e ≠ .outOfData)
    (hu : uncompressedHeader (startWork s) = .error (.raised e) (workAt s.port.reader n c h)) :
    ∃ t, exec .parse s = .next t ∧ OthersKept s t ∧ t.inst.life = .live ∧ t.inst.result = .brokenData ∧
      t.inst.cause = e ∧ t.inst.ctx = c ∧ ReaderEndsAt s t n :=
  ⟨_, exec_parse_of_raised hp hu, othersKept_done .., by simpa using hp.live,
    by simpa using Cause.result_eq_brokenData.mpr ⟨uncompressedHeader_raises_ne_none hu, he⟩, by simp, by simp,
    readerEndsAt_failed hp hu⟩

/-- Back from a cause that a PARSE reports to the grammar that raised it. -/
theorem raised_of_parse (h : exec .parse s = .next t) (hn : t.inst.cause ≠ .none) :
    ∃ w, uncompressedHeader (startWork s) = .error (.raised t.inst.cause) w ∧ t.inst.ctx = w.ctx ∧
      (t.inst.cause ≠ .outOfData → t.inst.result = .brokenData) := by
  rcases execParse_outcome (execParse_next h).1 with ⟨w, _, he, _⟩ | ⟨e, w, hu, hne, he, _⟩ <;> cases h.symm.trans he
  · simp at hn
  · exact ⟨w, by simpa using hu, by simp, fun hd => by simpa using Cause.result_eq_brokenData.mpr ⟨hne, by simpa using hd⟩⟩

/-- The same for one cause. -/
theorem raised_of_cause (h : exec .parse s = .next t) {e : Cause} (hc : t.inst.cause = e) (hn : e ≠ .none)
    (hd : e ≠ .outOfData) :
    ∃ w, uncompressedHeader (startWork s) = .error (.raised e) w ∧ t.inst.ctx = w.ctx ∧ t.inst.result = .brokenData := by
  subst hc
  obtain ⟨w, hu, hctx, hr⟩ := raised_of_parse h hn
  exact ⟨w, hu, hctx, hr hd⟩

/-! ### Steps 1 to 3 (R94 to R96) -/

/-- What follows the profile raises neither cause of steps 1 and 2. -/
theorem raises_afterProfile : Raises fullCauses (showExisting >>= fun short => whenTrue (!short) fullHeader) :=
  raises_bind (raises_showExisting.mono (by decide)) fun _ => raises_whenTrue raises_fullHeader

/-- UNSUPPORTED_PROFILE is raised only by profile 3 with its reserved bit 1 (R95). -/
theorem profile_raised {P : Nat} {c : Context} {h : Header} {w : Work}
    (hw : profile (workAt s.port.reader P c h) = .error (.raised .unsupportedProfile) w) :
    ∃ lo hi, s.codes P [(1, lo), (1, hi), (1, 1)] ∧ 2 * hi + lo = 3 := by
  unfold profile at hw
  rcases bind_error.mp hw with hw | ⟨lo, w1, h1, hw⟩
  · simpa using raises_receive [] _ _ _ _ hw
  obtain ⟨⟨c1, _⟩, rfl⟩ := f_code h1
  rcases bind_error.mp hw with hw | ⟨hi, w2, h2, hw⟩
  · simpa using raises_receive [] _ _ _ _ hw
  obtain ⟨⟨c2, _⟩, rfl⟩ := f_code h2
  by_cases hp : 2 * hi + lo = 3
  · rcases bind_error.mp hw with hw | ⟨_, w3, _, hw⟩
    · rw [beq_iff_eq.mpr hp, whenTrue_true] at hw
      rcases bind_error.mp hw with hw | ⟨b, w4, h4, hw⟩
      · simpa using raises_receive [] _ _ _ _ hw
      obtain ⟨⟨c3, _⟩, rfl⟩ := flag_code h4
      cases b with
      | false => cases hw
      | true => exact ⟨lo, hi, ⟨c1, c2, c3, trivial⟩, hp⟩
    · cases hw
  · rw [beq_eq_false_iff_ne.mpr hp, whenTrue_false] at hw
    cases hw

/-- A PARSE that ends in UNSUPPORTED_PROFILE read profile 3 and a reserved bit of 1. -/
theorem unsupportedProfile_codes {w : Work}
    (hu : uncompressedHeader (startWork s) = .error (.raised .unsupportedProfile) w) :
    ∃ lo hi, s.codes 2 [(1, lo), (1, hi), (1, 1)] ∧ 2 * hi + lo = 3 := by
  unfold uncompressedHeader at hu
  rcases bind_error.mp hu with hu | ⟨_, w1, h1, hu⟩
  · simpa using raises_frameMarker _ _ _ hu
  obtain ⟨_, rfl⟩ := frameMarker_ok h1
  rcases bind_error.mp hu with hu | ⟨_, w2, _, hu⟩
  · exact profile_raised (P := 2) hu
  · exact absurd (raises_afterProfile _ _ _ hu) (by decide)

/-- A completed PARSE reports the profile coded low bit first, also in a show-existing header (R95). -/
theorem completed_profile {w : Work} (hu : uncompressedHeader (startWork s) = .ok () w) {lo hi : Nat}
    (hlo : s.bufferField 2 1 = some lo) (hhi : s.bufferField 3 1 = some hi) : w.hdr.profile = 2 * hi + lo := by
  obtain ⟨p, w2, front, ends⟩ := completed_cases hu
  obtain ⟨lo', hi', hlo', hhi', rfl⟩ := front.bits
  cases hlo.symm.trans hlo'
  cases hhi.symm.trans hhi'
  rcases ends with ⟨i, _, _, rfl⟩ | ⟨w3, _, rfl, ⟨r⟩⟩
  · simp [front.at_]
  · simp [r.hdr_front.1, front.at_]

/-- A buffer that starts with a profile and goes on to a whole header codes the front of that profile. -/
theorem State.StartsWith.codes {p : Nat} (h : s.StartsWith p) (he : s.bufferField (2 + profileBits p) 1 = some 0) :
    s.codes 0 (frontFields p) :=
  have front : Front s p _ := ⟨h.marker, ⟨_, _, h.low, h.high, by omega⟩, h.reserved, rfl⟩
  (front_fields front ⟨he, trivial⟩).2

theorem bitsOf_frontFields (p : Nat) : bitsOf (frontFields p) = 3 + profileBits p := by
  unfold frontFields profileBits
  split <;> rfl

/-- A show-existing header ends after its slot index (R96). -/
theorem showExisting_run {p i : Nat} (h : s.StartsWith p) (h1 : s.bufferField (2 + profileBits p) 1 = some 1)
    (hi : s.bufferField (3 + profileBits p) 3 = some i) :
    uncompressedHeader (startWork s) = .ok () (workAt s.port.reader (6 + profileBits p) s.inst.ctx { Header.zero with
      profile := p, showExistingFrame := true, frameToShow := Fin.ofNat 8 i
      headerLengthBytes := ceilDiv (6 + profileBits p) 8 }) := by
  have hi' : s.port.reader.bitsFrom 3 (2 + profileBits p + 1) 0 = some i := by
    rw [show 2 + profileBits p + 1 = 3 + profileBits p by omega]
    exact hi
  have hpos : 2 + profileBits p + 1 + 3 = 6 + profileBits p := by omega
  rw [startsWith_run h]
  unfold showExisting shortHeader
  simp only [grammar_assoc, flag_then h1, setHdr_then, decide_true, whenTrue_true, f_then hi' (by decide), getPos_then, hpos,
    pure_then, Bool.not_true, whenTrue_false]
  rfl

theorem ceilDiv_showExisting (p : Nat) : ceilDiv (6 + profileBits p) 8 = if p = 3 then 2 else 1 := by
  unfold profileBits
  split <;> rfl

/-! ### The sync code of a key frame, by bit positions -/

/-- Inside the buffer of a PARSE within its contract every bit is there. -/
theorem bufferFlag_of_inside {p : Nat} (hp : s.ParseReady) (h : p < 8 * s.port.len) : ∃ b, s.codes p [flagField b] := by
  obtain ⟨v, hv⟩ := (startWork_full hp.buffer).bitsFrom 1 p 0 h
  have hlt : v < 2 := Reader.field_lt hv
  refine ⟨decide (v = 1), ?_, trivial⟩
  obtain rfl | rfl : v = 0 ∨ v = 1 := by omega
  · exact hv
  · exact hv

/-- A key frame up to its sync code, its two flags being whatever stands there. -/
theorem keyLead_codes {p v : Nat} (hp : s.ParseReady) (hs : s.StartsWith p)
    (he : s.bufferField (2 + profileBits p) 1 = some 0) (ht : s.bufferField (3 + profileBits p) 1 = some 0)
    (hv : s.bufferField (6 + profileBits p) 24 = some v) :
    ∃ b e, s.codes 0 ((ColorFront.key p b e).lead ++ [(24, v)]) := by
  have inside : 6 + profileBits p + 24 ≤ 8 * s.port.len := Reader.field_inside hv (by decide)
  obtain ⟨b, hb⟩ := bufferFlag_of_inside hp (p := 3 + profileBits p + 1) (by omega)
  obtain ⟨e, he'⟩ := bufferFlag_of_inside hp (p := 3 + profileBits p + 1 + 1) (by omega)
  have typed : s.codes (3 + profileBits p) [(1, 0), flagField b, flagField e] := ⟨ht, hb.1, he'.1, trivial⟩
  refine ⟨b, e, State.codes_append.mpr ⟨State.codes_append.mpr ⟨hs.codes he, State.codes_at typed ?_⟩,
    State.codes_at ⟨hv, trivial⟩ ?_⟩⟩
  · rw [bitsOf_frontFields, Nat.zero_add]
  · simp only [ColorFront.lead, bitsOf_append, bitsOf_frontFields, bitsOf_cons, bitsOf_nil, flagField]
    omega

/-! ### The statements about the checks -/

/-- Settles O25: the grammar is run to the end of the short header. -/
theorem showExistingIsAWholeHeader : Obligations.ShowExistingIsAWholeHeader := by
  intro s p i hp _ hs h1 hi
  have hu := showExisting_run hs h1 hi
  rw [ceilDiv_showExisting] at hu
  exact ⟨_, exec_parse_of_ok hp hu, othersKept_done .., decodedTo_completed hp hu⟩

/-- Settles O26: a wrong code breaks the grammar there (`sync_breaks`), the right one never does, and the way back from the cause
finds the fields (`sync_codes`). -/
theorem syncCodeIsChecked : Obligations.SyncCodeIsChecked := by
  have wrong {s : State} {q : ColorFront} {v : Nat} (hp : s.ParseReady) (hf : s.codes 0 (q.lead ++ [(24, v)]))
      (hv : v ≠ 0x498342) := (sync_breaks hv hf).elim fun _ hu => parse_of_broken hp (by decide) hu
  refine ⟨fun s p v hp _ hs he ht hsync hv => ?_, fun s q v hp hf hv => wrong hp hf hv, fun s t q hf h hc => ?_,
    fun s t h hc => ?_⟩
  · obtain ⟨b, e, hf⟩ := keyLead_codes hp hs he ht hsync
    obtain ⟨t, ht, ho, _, hr, hc, hctx, _⟩ := wrong hp hf hv
    exact ⟨t, ht, ho, hr, hc, hctx⟩
  · obtain ⟨w, hu, _⟩ := raised_of_cause h hc (by decide) (by decide)
    exact sync_not_raised hf hu
  · obtain ⟨w, hu, hctx, hr⟩ := raised_of_cause h hc (by decide) (by decide)
    exact ⟨hr, hctx.trans (fails_badSyncCode _ _ hu), sync_codes hu⟩

/-- Settles O60: after a legal colour configuration only OUT_OF_DATA and ZERO_FIRST_PARTITION are left (`color_not_raised`). -/
theorem colourIsReadAsCoded : Obligations.ColourIsReadAsCoded := by
  intro s t q k hq hf hk h
  refine ⟨fun hc => ?_, fun hr => ?_⟩
  · obtain ⟨w, hu, _⟩ := raised_of_parse h (by rintro e; simp [e] at hc)
    rcases color_not_raised hq hk hf hu with e | e <;> simp [e] at hc
  · obtain ⟨_, w, hu, rfl⟩ := execParse_result_ok h hr
    simpa using color_reported hq hk hf hu

/-- Settles O23: the marker is checked first, and nothing after it raises its cause. -/
theorem frameMarkerIsChecked : Obligations.FrameMarkerIsChecked := by
  intro s m hp hm
  refine ⟨fun hne => ?_, ?_⟩
  · obtain ⟨t, ht, ho, _, hr, hc, hctx, hb⟩ := parse_of_broken hp (by decide) (frameMarker_bad hm hne)
    exact ⟨t, ht, ho, hr, hc, hctx, hb.pos⟩
  · rintro rfl t ht hc
    obtain ⟨w, hu, _⟩ := raised_of_cause ht hc (by decide) (by decide)
    unfold uncompressedHeader at hu
    rw [startWork_at, frameMarker_then hm] at hu
    have := raises_bind (raises_profile.mono (D := .unsupportedProfile :: fullCauses) (by decide))
      (fun _ => raises_afterProfile.mono (by decide)) _ _ _ hu
    exact absurd this (by decide)

/-- Settles O24: forward for the refusal, back from the cause for the second part, and off the completed front for the third. -/
theorem profileIsLowBitFirst : Obligations.ProfileIsLowBitFirst := by
  intro s lo hi hp hm hlo hhi
  refine ⟨fun h3 hres => ?_, fun hno t ht hc => ?_, fun t ht hr => ?_⟩
  · have hu : uncompressedHeader (startWork s) = _ := (frameMarker_then hm).trans (profile_bad hlo hhi h3 hres)
    obtain ⟨t, ht, ho, _, hr, hc, hctx, _⟩ := parse_of_broken hp (by decide) hu
    exact ⟨t, ht, ho, hr, hc, hctx⟩
  · obtain ⟨w, hu, _⟩ := raised_of_cause ht hc (by decide) (by decide)
    obtain ⟨lo', hi', ⟨hlo', hhi', hres, _⟩, h3⟩ := unsupportedProfile_codes hu
    cases hlo.symm.trans hlo'
    cases hhi.symm.trans hhi'
    exact hno.elim (· h3) (· hres)
  · obtain ⟨_, w, hu, rfl⟩ := execParse_result_ok ht hr
    simpa using completed_profile hu hlo hhi

/-- Settles O28: the slot named by the first flag that is 1 decides (`refSize_breaks`, `refSize_not_invalid`), and the way back from
the cause finds that flag (`invalidSlot_codes`). -/
theorem invalidSlotNeedsAnEmptySlot : Obligations.InvalidSlotNeedsAnEmptySlot := by
  refine ⟨fun s q hp hf hv => ?_, fun s t q hf hv h hc => ?_, fun s t h hc => ?_⟩
  · obtain ⟨_, hu⟩ := refSize_breaks hv hf
    exact parse_of_broken hp (by decide) hu
  · obtain ⟨w, hu, _⟩ := raised_of_cause h hc (by decide) (by decide)
    exact refSize_not_invalid hv hf hu
  · obtain ⟨w, hu, hctx, hr⟩ := raised_of_cause h hc (by decide) (by decide)
    obtain ⟨kept, _⟩ := fails_invalidRefSlot _ _ hu
    exact ⟨hr, hctx.trans kept, invalidSlot_codes hu⟩

/-- A colour cause that is raised is neither 0 nor OUT_OF_DATA. -/
theorem ColorCode.cause_ne_outOfData (k : ColorCode) (p : Nat) : k.cause p ≠ .outOfData := by
  unfold ColorCode.cause
  split_ifs <;> decide

/-- Settles O29: forward to the check that fails (`color_breaks`), back from each cause to the code that fails it (`color_codes`), and
what cause 4 had written (`fails_srgb`). -/
theorem colourFailureKeepsWhatItWrote : Obligations.ColourFailureKeepsWhatItWrote := by
  refine ⟨fun s q k hp hq hf hk => ?_, fun s t h hc => ?_, fun s t h hc => ?_⟩
  · obtain ⟨_, hu⟩ := color_breaks hq hk hf
    exact parse_of_broken hp (k.cause_ne_outOfData _) hu
  · obtain ⟨w, hu, _, hr⟩ := raised_of_parse h (by rintro e; simp [e] at hc)
    obtain ⟨q, k, hq, hf, hk⟩ := color_codes hc hu
    exact ⟨hr (by rintro e; simp [e] at hc), q, k, hq, hf, hk.symm⟩
  · obtain ⟨w, hu, hctx, hr⟩ := raised_of_cause h hc (by decide) (by decide)
    rw [hctx]
    exact ⟨hr, fails_srgb _ _ hu⟩

/-! ### What a completed frame says: each read off the coded frame it is (`coded_of_parse`) -/

theorem CodedFrame.restarts_iff (k : CodedFrame) (c : Context) : k.restarts = true ↔
    (k.header c).frameType = .key ∨ (k.header c).intraOnly = true ∨ (k.header c).errorResilientMode = true := by
  simp [CodedFrame.restarts, CodedFrame.header, or_assoc]

/-- A frame that restarts starts from the registers of R111. -/
theorem CodedFrame.startContext_of_restarts {k : CodedFrame} (h : k.restarts = true) (c : Context) :
    k.startContext c = c.pastIndependent := if_pos h

/-- The probabilities are not restarted (R111). -/
theorem CodedFrame.startContext_probs (k : CodedFrame) (c : Context) :
    (k.startContext c).segTreeProb = c.segTreeProb ∧ (k.startContext c).segPredProb = c.segPredProb := by
  unfold CodedFrame.startContext
  split <;> exact ⟨rfl, rfl⟩

/-- A reference delta the frame does not update is the one it starts from (R113). -/
theorem CodedFrame.context_refDelta {k : CodedFrame} {c : Context} {i : Fin 4}
    (h : (k.header c).lf.refDeltaUpdated[i] = false) : (k.context c).lfRefDelta[i] = (k.startContext c).lfRefDelta[i] := by
  have : k.refDelta i = none := by simpa [CodedFrame.header] using h
  simp [CodedFrame.context, CodedFrame.written, this]

/-- So is a mode delta. -/
theorem CodedFrame.context_modeDelta {k : CodedFrame} {c : Context} {i : Fin 2}
    (h : (k.header c).lf.modeDeltaUpdated[i] = false) : (k.context c).lfModeDelta[i] = (k.startContext c).lfModeDelta[i] := by
  have : k.modeDelta i = none := by simpa [CodedFrame.header] using h
  simp [CodedFrame.context, CodedFrame.written, this]

/-- Without a data update the features and the abs/delta flag are those the frame starts from (R117). -/
theorem CodedFrame.context_data {k : CodedFrame} {c : Context} (h : (k.header c).seg.updateData = false) :
    (k.context c).seg = (k.startContext c).seg ∧ (k.context c).segAbsDelta = (k.startContext c).segAbsDelta := by
  have : k.data = none := by simpa [CodedFrame.header] using h
  simp [CodedFrame.context, CodedFrame.written, this]

/-- Without a map update the probabilities are the context's (R117). -/
theorem CodedFrame.context_map {k : CodedFrame} {c : Context} (h : (k.header c).seg.updateMap = false) :
    (k.context c).segTreeProb = c.segTreeProb ∧ (k.context c).segPredProb = c.segPredProb := by
  have : k.map = none := by simpa [CodedFrame.header] using h
  simpa [CodedFrame.context, CodedFrame.written, this] using k.startContext_probs c

theorem noSizeFlag : ∀ i : Fin 3, (#v[false, false, false] : Vector Bool 3)[i] = false := by decide

/-- The size of a legal frame comes from the slot its flag names (R107); a frame of another kind has no such flag. -/
theorem CodedFrame.sizeFlags {k : CodedFrame} {c : Context} (hk : k.Legal c) : SizeFlags c.refs (k.header c) := by
  have valid := hk.valid
  obtain ⟨_, _, _, kind, _, _, _, _, _, _, _, _, _, _, _, _, _, _, _⟩ := k
  cases kind with
  | key => exact .inl noSizeFlag
  | intra => exact .inl noSizeFlag
  | inter _ _ slots _ size =>
    cases size with
    | own => exact .inl noSizeFlag
    | fromRef i =>
      have named : (slots.map slotOf)[i] = slotOf slots[i] := by simp
      have valid : (c.refs[slotOf slots[i]]).valid = true := valid
      refine .inr ⟨i, fun j => by simp [CodedFrame.header, CodedSize.flags], ?_⟩
      show (c.refs[(slots.map slotOf)[i]]).valid = true ∧ (c.refs[slotOf slots[i]]).width = (c.refs[(slots.map slotOf)[i]]).width ∧
        (c.refs[slotOf slots[i]]).height = (c.refs[(slots.map slotOf)[i]]).height
      simpa only [named, and_true] using valid

/-- A key frame, by its coded kind. -/
theorem CodedFrame.kind_of_key {k : CodedFrame} (h : k.frameType = .key) : ∃ col w v, k.kind = .key col w v := by
  unfold CodedFrame.frameType at h
  split at h
  · exact ⟨_, _, _, ‹_›⟩
  · cases h
  · cases h

theorem CodedFrame.refresh_of_key {k : CodedFrame} (h : k.frameType = .key) : k.refresh = 0xFF := by
  obtain ⟨_, _, _, hk⟩ := k.kind_of_key h
  simp [CodedFrame.refresh, hk]

/-- A key frame reports the defaults of R98 and restarts the context (R111). -/
theorem CodedFrame.key_header {k : CodedFrame} (h : k.frameType = .key) (c : Context) :
    (k.header c).intraOnly = false ∧ (k.header c).resetFrameContext = 0 ∧ (k.header c).refreshFrameFlags = 0xFF ∧
      (k.header c).resetsContext = true := by
  obtain ⟨_, _, _, hk⟩ := k.kind_of_key h
  simp [CodedFrame.header, Header.resetsContext, h, CodedFrame.intraOnly, CodedFrame.reset, k.refresh_of_key h, hk]

/-- A key frame fills every slot with its own size (R98, R126). -/
theorem CodedFrame.key_refs {k : CodedFrame} (h : k.frameType = .key) (c : Context) (i : Fin 8) :
    (k.context c).refs[i] = { valid := true, width := (k.header c).width, height := (k.header c).height } := by
  have named : k.refresh.getLsbD i = true := by
    rw [k.refresh_of_key h]
    exact (by decide : ∀ j : Fin 8, (0xFF#8).getLsbD j = true) i
  simp [CodedFrame.context, named, CodedFrame.header, ← k.slot_eq c]

/-- An error-resilient frame has the defaults of R103 and R110. -/
theorem CodedFrame.resilient_header {k : CodedFrame} (h : k.resilient = true) (c : Context) :
    (k.header c).refreshFrameContext = false ∧ (k.header c).frameParallelDecodingMode = true ∧
      (k.header c).resetFrameContext = 0 := by
  refine ⟨by simp [CodedFrame.header, h], by simp [CodedFrame.header, h], ?_⟩
  show k.reset = 0
  unfold CodedFrame.reset
  split <;> simp [h]

/-! ### The statements about a completed frame -/

/-- Settles O34: what such a frame does not update is what it starts from, and that is the restarted context. -/
theorem pastIndependenceRestartsTheContext : Obligations.PastIndependenceRestartsTheContext := by
  intro s t hpf hres
  obtain ⟨k, _, _, _, hctx, hhdr⟩ := coded_of_parse hpf
  rw [hhdr] at hres ⊢
  have start := k.startContext_of_restarts ((k.restarts_iff _).mpr hres) s.inst.ctx
  rw [hctx]
  refine ⟨fun i hi => ?_, fun i hi => ?_, fun hd => ?_, fun hm => k.context_map hm⟩
  · rw [k.context_refDelta hi, start]
    rfl
  · rw [k.context_modeDelta hi, start]
    exact (by decide : ∀ i : Fin 2, (#v[0, 0] : Vector Int 2)[i] = 0) i
  · obtain ⟨hseg, habs⟩ := k.context_data hd
    rw [hseg, habs, start]
    exact ⟨fun i => by simp [Context.pastIndependent], rfl⟩

/-- Settles O42: of the ways a frame codes its size only a flag of 1 names a slot, and there the frame is legal only if the slot is
valid; a display size that is not coded is the coded size. -/
theorem sizeComesFromTheNamedSlot : Obligations.SizeComesFromTheNamedSlot := by
  intro s t _ hpf
  obtain ⟨k, _, hk, _, _, hhdr⟩ := coded_of_parse hpf
  rw [hhdr]
  refine ⟨k.sizeFlags hk, fun hd => ?_⟩
  have : k.render = none := by simpa [CodedFrame.header] using hd
  simp [CodedFrame.header, this]

/-- Settles O43: the three cases of the frame-type branch (`FrameOk`), whose colour the header reports. -/
theorem colourIsLegalForcedOrKept : Obligations.ColourIsLegalForcedOrKept := by
  intro s t hin hpf
  obtain ⟨_, p, w3, w, _, _, hctx, hhdr, ⟨r⟩, _, rfl⟩ := fullRun_of_ok hpf.parse hpf.ok hpf.frame
  simp only [State.inst_done, Instance.completed_hdr]
  have branch := r.frame (by rw [hhdr]) (by rw [hctx]; exact hin.refs)
  have profile : r.typed.hdr.profile = w.hdr.profile := (congrArg (fun q => q.2.profile) r.out_type).trans r.hdr_front.1.symm
  have kept : r.typed.ctx = s.inst.ctx := (congrArg Prod.fst r.out_type).trans hctx
  have intra : w.hdr.intraOnly = r.framed.hdr.intraOnly := congrArg (fun q => q.2.2.2.1) r.fields_framed
  rw [r.hdr_color, r.fields_typed.1, intra, ← profile, ← kept]
  exact ⟨branch.coded, branch.forced, fun ht hi => by rw [branch.kept ht hi]⟩

/-- Settles O31: the coded frame's header is made of the context it writes. -/
theorem headerReportsTheContext : Obligations.HeaderReportsTheContext := by
  intro s t hpf
  obtain ⟨k, _, _, _, hctx, hhdr⟩ := coded_of_parse hpf
  rw [hctx, hhdr]
  exact ⟨rfl, rfl, rfl, rfl, rfl, rfl, rfl⟩

/-- Settles O40: all flags are 1, so the write of the slots reaches each of them. -/
theorem keyFrameRefreshesEverySlot : Obligations.KeyFrameRefreshesEverySlot := by
  intro s t _ hpf hkey
  obtain ⟨k, _, _, _, hctx, hhdr⟩ := coded_of_parse hpf
  rw [hhdr] at hkey ⊢
  obtain ⟨hi, hr, hf, hreset⟩ := k.key_header hkey s.inst.ctx
  exact ⟨hi, hr, hf, hreset, fun i => by rw [hctx]; exact k.key_refs hkey _ i⟩

/-- Settles O41: a frame that is shown does not code `intra_only` (R103). -/
theorem unreadFlagsTakeTheirDefaults : Obligations.UnreadFlagsTakeTheirDefaults := by
  intro s t _ hpf
  obtain ⟨k, _, hk, _, _, hhdr⟩ := coded_of_parse hpf
  rw [hhdr]
  refine ⟨fun he => k.resilient_header he _, fun hs => ?_⟩
  exact Bool.eq_false_iff.mpr fun hi => Bool.false_ne_true ((hk.hidden hi).symm.trans hs)

/-! ### Four frame shapes, written by bit positions (R75), as coded frames -/

@[simp] theorem flagField_width (b : Bool) : (flagField b).1 = 1 := rfl
@[simp] theorem flagField_false : flagField false = (1, 0) := rfl
@[simp] theorem flagField_true : flagField true = (1, 1) := rfl

/-- A buffer that codes a legal frame, with the bits, the context and the header of that frame worked out. -/
theorem decodedTo_of_coded {k : CodedFrame} {n : Nat} {c : Context} {h : Header} (hp : s.ParseReady)
    (hf : s.codes 0 (k.fields s.inst.ctx)) (hk : k.Legal s.inst.ctx) (hn : k.partition ≠ 0)
    (hb : bitsOf (k.fields s.inst.ctx) = n) (hc : k.context s.inst.ctx = c) (hh : k.header s.inst.ctx = h) :
    ∃ t, exec .parse s = .next t ∧ OthersKept s t ∧ DecodedTo s t n c h := by
  subst hb hc hh
  exact parse_of_coded hp hf hk hn

/-- Three flags of 0, from one field. -/
theorem threeZeros_code {p : Nat} (h : s.bufferField p 3 = some 0) : s.codes p [(1, 0), (1, 0), (1, 0)] := by
  obtain ⟨h1, h⟩ := Reader.field_zero_split (a := 1) (b := 2) h
  obtain ⟨h2, h3⟩ := Reader.field_zero_split (a := 1) (b := 1) h
  exact ⟨h1, h2, h3, trivial⟩

/-- A frame at most 448 wide has no choice of tile columns (R121). -/
theorem CodedFrame.tileFields_narrow {k : CodedFrame} {c : Context} (hw : (k.slot c).width ≤ 448)
    (hi : k.tileIncrements = 0) (hr : k.tileRows = 0) : k.tileFields c = [(1, 0)] := by
  obtain ⟨hmin, hmax⟩ := tileBounds_narrow hw
  simp [CodedFrame.tileFields, CodedFrame.tileStop, hmin, hmax, hi, hr]

theorem CodedFrame.refDelta_disabled {k : CodedFrame} (hd : k.deltas = .disabled) : k.refDelta = fun _ => none := by
  funext i
  simp [CodedFrame.refDelta, hd]

theorem CodedFrame.modeDelta_disabled {k : CodedFrame} (hd : k.deltas = .disabled) : k.modeDelta = fun _ => none := by
  funext i
  simp [CodedFrame.modeDelta, hd]

/-- Without deltas a frame leaves those it starts from (R112). -/
theorem CodedFrame.written_lf_disabled {k : CodedFrame} (hd : k.deltas = .disabled) (c : Context) :
    (k.written c).lfRefDelta = (k.startContext c).lfRefDelta ∧ (k.written c).lfModeDelta = (k.startContext c).lfModeDelta := by
  simp [CodedFrame.written, k.refDelta_disabled hd, k.modeDelta_disabled hd]

/-- Without deltas and segmentation a frame writes its lossless flag and its colour to the context it starts from. -/
theorem CodedFrame.written_plain {k : CodedFrame} (hd : k.deltas = .disabled) (hs : k.seg = none) (c : Context) :
    k.written c = { k.startContext c with lossless := k.quant.isLossless, color := k.color c, refs := c.refs } := by
  simp [CodedFrame.written, CodedFrame.map, CodedFrame.data, k.refDelta_disabled hd, k.modeDelta_disabled hd, hs]

/-- The loop-filter fields of a frame without deltas (R112, R114). -/
theorem CodedFrame.header_lf_disabled {k : CodedFrame} (hd : k.deltas = .disabled) (c : Context) :
    (k.header c).lf = { Header.zero.lf with
      level := k.level, sharpness := k.sharpness
      refDelta := (k.startContext c).lfRefDelta, modeDelta := (k.startContext c).lfModeDelta } := by
  obtain ⟨ref, mode⟩ := k.written_lf_disabled hd c
  simp only [CodedFrame.header, ref, mode, k.refDelta_disabled hd, k.modeDelta_disabled hd, hd, Option.isSome_none]
  rfl

/-- The segmentation fields of a frame without segmentation (R117, R120). -/
theorem CodedFrame.header_seg_none {k : CodedFrame} (hs : k.seg = none) (c : Context) :
    (k.header c).seg = { Header.zero.seg with
      treeProb := c.segTreeProb, predProb := c.segPredProb
      absDelta := (k.startContext c).segAbsDelta, feature := (k.startContext c).seg } := by
  obtain ⟨tree, pred⟩ := k.startContext_probs c
  simp only [CodedFrame.header, CodedFrame.written, CodedFrame.map, CodedFrame.data, hs, Option.bind_none, Option.isSome_none,
    tree, pred]
  rfl

/-- The tile fields of a frame at most 448 wide with one tile row (R121). -/
theorem CodedFrame.header_tile_narrow {k : CodedFrame} {c : Context} (hw : (k.slot c).width ≤ 448)
    (hi : k.tileIncrements = 0) (hr : k.tileRows = 0) : (k.header c).tile = Header.zero.tile := by
  obtain ⟨hmin, hmax⟩ := tileBounds_narrow hw
  simp [CodedFrame.header, hmin, hmax, hi, hr, Header.zero]

/-- Two headers are equal when their grouped fields are, and the rest of them. -/
theorem Header.eq_of_parts {h h' : Header} (color : h.color = h'.color) (lf : h.lf = h'.lf) (q : h.q = h'.q)
    (lossless : h.lossless = h'.lossless) (seg : h.seg = h'.seg) (tile : h.tile = h'.tile)
    (length : h.headerLengthBytes = h'.headerLengthBytes)
    (rest : { h with color := h'.color, lf := h'.lf, q := h'.q, lossless := h'.lossless, seg := h'.seg, tile := h'.tile
                     headerLengthBytes := h'.headerLengthBytes } = h') : h = h' := by
  rw [← rest, ← color, ← lf, ← q, ← lossless, ← seg, ← tile, ← length]

/-! #### The plain key frame -/

/-- The plain key frame as a coded frame. -/
def PlainKeyFrame.coded (k : PlainKeyFrame) : CodedFrame :=
  { profile := 0, showFrame := k.showFrame, resilient := false
    kind := .key { twelve := false, space := k.colorSpace, range := k.colorRange, ssX := false, ssY := false, reserved := false }
      k.widthMinus1 k.heightMinus1
    render := none, refreshCtx := k.refreshFrameContext, parallel := k.parallel, contextIdx := k.contextIdx
    level := k.level, sharpness := k.sharpness, deltas := .disabled, baseQIdx := k.baseQIdx
    yDc := none, uvDc := none, uvAc := none, seg := none, tileIncrements := 0, tileRows := 0, partition := k.partition }

/-- Its fields, in stream order. -/
theorem PlainKeyFrame.coded_fields {k : PlainKeyFrame} (h7 : k.colorSpace ≠ 7) (hw : k.widthMinus1 < 448) (c : Context) :
    k.coded.fields c = [(2, 2), (1, 0), (1, 0), (1, 0), (1, 0), flagField k.showFrame, (1, 0), (24, Config.syncCode),
      (3, k.colorSpace), flagField k.colorRange, (16, k.widthMinus1), (16, k.heightMinus1), (1, 0),
      flagField k.refreshFrameContext, flagField k.parallel, (2, k.contextIdx), (6, k.level), (3, k.sharpness), (1, 0),
      (8, k.baseQIdx), (1, 0), (1, 0), (1, 0), (1, 0), (1, 0), (16, k.partition)] := by
  have tiles : k.coded.tileFields c = [(1, 0)] := CodedFrame.tileFields_narrow hw rfl rfl
  unfold CodedFrame.fields
  rw [tiles]
  simp [PlainKeyFrame.coded, frontFields, CodedFrame.frameType, CodedFrame.kindFields, ColorCode.fields, sizeFields, h7,
    CodedFrame.renderFields, subsampled, optionalFields, CodedFrame.filterFields, CodedDeltas.fields, CodedFrame.quantFields,
    Config.frameMarker]

theorem PlainKeyFrame.coded_bits {k : PlainKeyFrame} (h7 : k.colorSpace ≠ 7) (hw : k.widthMinus1 < 448) (c : Context) :
    bitsOf (k.coded.fields c) = 112 := by
  simp [coded_fields h7 hw]

/-- The bit positions of R75 are those of the fields in order. -/
theorem PlainKeyFrame.At.codes {k : PlainKeyFrame} (h : k.At s) : s.codes 0 (k.coded.fields s.inst.ctx) := by
  rw [PlainKeyFrame.coded_fields h.notSrgb h.narrow]
  obtain ⟨q1, q2, q3, _⟩ := threeZeros_code h.noQDeltas
  exact ⟨h.start.marker, h.start.low, h.start.high, h.existing, h.frameType, h.showFrame, h.resilient, h.sync, h.colorSpace,
    h.colorRange, h.width, h.height, h.render, h.refreshCtx, h.parallel, h.contextIdx, h.level, h.sharpness, h.noDeltas,
    h.baseQIdx, q1, q2, q3, h.noSeg, h.oneRow, h.partition, trivial⟩

theorem PlainKeyFrame.At.legal {k : PlainKeyFrame} (h : k.At s) (c : Context) : k.coded.Legal c where
  profile := Nat.zero_le _
  color := by simp [PlainKeyFrame.coded, ColorCode.cause, h.notSrgb]
  hidden := nofun
  valid := trivial
  tiles := Nat.zero_le _
  rows := Nat.zero_le _

theorem PlainKeyFrame.coded_color {k : PlainKeyFrame} (h7 : k.colorSpace ≠ 7) (c : Context) : k.coded.color c = k.color := by
  simp [CodedFrame.color, PlainKeyFrame.coded, PlainKeyFrame.color, ColorCode.config, ColorCode.depth, subsampled, h7]

theorem PlainKeyFrame.coded_lossless (k : PlainKeyFrame) : k.coded.quant.isLossless = decide (k.baseQIdx = 0) :=
  QuantHdr.isLossless_base _

theorem PlainKeyFrame.coded_written {k : PlainKeyFrame} (h7 : k.colorSpace ≠ 7) (c : Context) :
    k.coded.written c = { k.context c with refs := c.refs } := by
  rw [CodedFrame.written_plain rfl rfl, k.coded_lossless, coded_color h7, CodedFrame.startContext_of_restarts rfl]
  rfl

theorem PlainKeyFrame.coded_context {k : PlainKeyFrame} (h7 : k.colorSpace ≠ 7) (c : Context) :
    k.coded.context c = k.context c := by
  have refs : (k.coded.context c).refs = (k.context c).refs := by
    ext1 i hi
    exact (CodedFrame.key_refs (k := k.coded) rfl c ⟨i, hi⟩).trans (Vector.getElem_replicate ..).symm
  have : k.coded.context c = { k.coded.written c with refs := (k.coded.context c).refs } := rfl
  rw [this, refs, coded_written h7]

theorem PlainKeyFrame.coded_header {k : PlainKeyFrame} (h7 : k.colorSpace ≠ 7) (hw : k.widthMinus1 < 448) (c : Context) :
    k.coded.header c = k.header c := by
  have start := CodedFrame.startContext_of_restarts (k := k.coded) rfl c
  refine Header.eq_of_parts (coded_color h7 c) ?_ rfl k.coded_lossless ?_ (CodedFrame.header_tile_narrow hw rfl rfl) ?_ rfl
  · rw [CodedFrame.header_lf_disabled rfl, start]
    rfl
  · rw [CodedFrame.header_seg_none rfl, start]
    rfl
  · exact congrArg (fun n => (n + 7) / 8) (coded_bits h7 hw c)

/-- Settles O48: the bit positions are those of its coded frame, whose context and header are the ones written out. -/
theorem plainKeyFrameIsDecoded : Obligations.PlainKeyFrameIsDecoded := fun _ _ hp h =>
  decodedTo_of_coded hp h.codes (h.legal _) h.notEmpty (PlainKeyFrame.coded_bits h.notSrgb h.narrow _)
    (PlainKeyFrame.coded_context h.notSrgb _) (PlainKeyFrame.coded_header h.notSrgb h.narrow _)

/-! #### The plain inter frame -/

/-- The plain inter frame as a coded frame. -/
def PlainInterFrame.coded (k : PlainInterFrame) : CodedFrame :=
  { profile := 0, showFrame := true, resilient := false
    kind := .inter k.resetFrameContext k.refreshFlags k.slots k.signBias (.fromRef 0) k.highPrecision none
    render := none, refreshCtx := k.refreshFrameContext, parallel := k.parallel, contextIdx := k.contextIdx
    level := k.level, sharpness := k.sharpness, deltas := .disabled, baseQIdx := k.baseQIdx
    yDc := none, uvDc := none, uvAc := none, seg := none, tileIncrements := 0, tileRows := 0, partition := k.partition }

section

variable {k : PlainInterFrame} {c : Context}

/-- Its fields, in stream order. -/
theorem PlainInterFrame.coded_fields (hw : (k.slot c).width ≤ 448) :
    k.coded.fields c = [(2, 2), (1, 0), (1, 0), (1, 0), (1, 1), (1, 1), (1, 0), (2, k.resetFrameContext), (8, k.refreshFlags)] ++
      refFields k.slots k.signBias ++ [(1, 1), (1, 0), flagField k.highPrecision, (1, 1), flagField k.refreshFrameContext,
      flagField k.parallel, (2, k.contextIdx), (6, k.level), (3, k.sharpness), (1, 0), (8, k.baseQIdx), (1, 0), (1, 0), (1, 0),
      (1, 0), (1, 0), (16, k.partition)] := by
  have tiles : k.coded.tileFields c = [(1, 0)] := CodedFrame.tileFields_narrow hw rfl rfl
  unfold CodedFrame.fields
  rw [tiles]
  simp [PlainInterFrame.coded, frontFields, CodedFrame.frameType, CodedFrame.kindFields, interLead, CodedSize.fields, foundFields,
    filterCode, CodedFrame.renderFields, optionalFields, CodedFrame.filterFields, CodedDeltas.fields, CodedFrame.quantFields,
    Config.frameMarker]

theorem PlainInterFrame.coded_bits (hw : (k.slot c).width ≤ 448) : bitsOf (k.coded.fields c) = 77 := by
  simp [coded_fields hw, refFields]

theorem PlainInterFrame.At.codes (h : k.At s) : s.codes 0 (k.coded.fields s.inst.ctx) := by
  rw [PlainInterFrame.coded_fields h.narrow]
  obtain ⟨q1, q2, q3, _⟩ := threeZeros_code h.noQDeltas
  exact ⟨h.start.marker, h.start.low, h.start.high, h.existing, h.frameType, h.showFrame, h.resilient, h.resetCtx, h.refresh,
    h.slots 0, h.signBias 0, h.slots 1, h.signBias 1, h.slots 2, h.signBias 2, h.found, h.render, h.precision, h.switchable,
    h.refreshCtx, h.parallel, h.contextIdx, h.level, h.sharpness, h.noDeltas, h.baseQIdx, q1, q2, q3, h.noSeg, h.oneRow,
    h.partition, trivial⟩

theorem PlainInterFrame.At.legal (h : k.At s) : k.coded.Legal s.inst.ctx where
  profile := Nat.zero_le _
  color := trivial
  hidden := nofun
  valid := h.valid
  tiles := Nat.zero_le _
  rows := Nat.zero_le _

theorem PlainInterFrame.coded_lossless (k : PlainInterFrame) : k.coded.quant.isLossless = decide (k.baseQIdx = 0) :=
  QuantHdr.isLossless_base _

theorem PlainInterFrame.coded_context (k : PlainInterFrame) (c : Context) : k.coded.context c = k.context c := by
  unfold CodedFrame.context
  rw [CodedFrame.written_plain rfl rfl, k.coded_lossless]
  rfl

theorem PlainInterFrame.coded_header (hw : (k.slot c).width ≤ 448) : k.coded.header c = k.header c := by
  refine Header.eq_of_parts rfl (CodedFrame.header_lf_disabled rfl c) rfl k.coded_lossless (CodedFrame.header_seg_none rfl c)
    (CodedFrame.header_tile_narrow hw rfl rfl) (congrArg (fun n => (n + 7) / 8) (coded_bits hw)) ?_
  have flags : (CodedSize.fromRef 0).flags = #v[true, false, false] := by decide
  rw [PlainInterFrame.header, ← flags]
  rfl

end

/-- Settles O49, as the plain key frame; the context is not restarted. -/
theorem plainInterFrameIsDecoded : Obligations.PlainInterFrameIsDecoded := fun _ k hp h =>
  decodedTo_of_coded hp h.codes h.legal h.notEmpty (PlainInterFrame.coded_bits h.narrow) (k.coded_context _)
    (PlainInterFrame.coded_header h.narrow)

/-! #### Arrays of fields, and values behind their flags -/

/-- A row of blocks of one width, block by block. -/
theorem codes_blocks {n : Nat} (w : Nat) {p : Nat} {F : Fin n → List BitField} (hw : ∀ i, bitsOf (F i) = w)
    (hc : ∀ i : Fin n, s.codes (p + w * i) (F i)) : s.codes p ((List.finRange n).flatMap F) := by
  induction n generalizing p with
  | zero => trivial
  | succ n ih =>
    have codes := ih (p := p + w) (F := fun i => F i.succ) (fun i => hw _) fun i =>
      State.codes_at (hc i.succ) (by simp only [Fin.val_succ]; ring)
    rw [List.finRange_succ, List.flatMap_cons, List.flatMap_map]
    exact State.codes_append.mpr ⟨State.codes_at (hc 0) (by simp), State.codes_at codes (by rw [hw])⟩

/-- The bits of blocks of one width. -/
theorem bitsOf_blocks {α : Type} {w : Nat} {g : α → List BitField} {xs : List α} (hw : ∀ x ∈ xs, bitsOf (g x) = w) :
    bitsOf (xs.flatMap g) = w * xs.length := by
  induction xs with
  | nil => rfl
  | cons x xs ih =>
    rw [List.flatMap_cons, bitsOf_append, ih fun y hy => hw y (List.mem_cons_of_mem _ hy), hw x List.mem_cons_self,
      List.length_cons]
    ring

section

variable {α : Type} {n w : Nat} {v : Vector α n} {g : α → List BitField} (hw : ∀ i : Fin n, bitsOf (g v[i]) = w)

include hw

/-- The entries of an array, entry by entry. -/
theorem codes_entries {p : Nat} (hc : ∀ i : Fin n, s.codes (p + w * i) (g v[i])) : s.codes p (v.toList.flatMap g) := by
  rw [toList_flatMap]
  exact codes_blocks w hw hc

theorem bitsOf_entries : bitsOf (v.toList.flatMap g) = w * n := by
  rw [toList_flatMap, bitsOf_blocks fun i _ => hw i, List.length_finRange]

end

/-- Entries that exist one by one make an array. -/
theorem exists_entries {α : Type} {n : Nat} {P : Fin n → α → Prop} (h : ∀ i, ∃ x, P i x) :
    ∃ v : Vector α n, ∀ i : Fin n, P i v[i] := by
  choose x hx using h
  exact ⟨Vector.ofFn x, fun i => by simpa using hx i⟩

/-- A signed field that is there is coded by its magnitude and its sign (R80). -/
theorem signed_coded {p n : Nat} {v : Int} (h : s.bufferSigned p n = some v) :
    ∃ x : CodedSigned, x.value = v ∧ s.codes p (x.fields n) := by
  unfold State.bufferSigned at h
  split at h
  · rename_i m b hm hb
    have hlt : b < 2 := Reader.field_lt hb
    cases h
    refine ⟨⟨m, decide (b = 1)⟩, by simp [CodedSigned.value], hm, ?_, trivial⟩
    obtain rfl | rfl : b = 0 ∨ b = 1 := by omega
    · exact hb
    · exact hb
  · cases h

/-- The same behind a presence flag of 1 (R63). -/
theorem flaggedSigned_coded {p n : Nat} {v : Int} (hf : s.bufferField p 1 = some 1) (h : s.bufferSigned (p + 1) n = some v) :
    ∃ x : CodedSigned, x.value = v ∧ s.codes p (optionalFields (CodedSigned.fields n) (some x)) :=
  (signed_coded h).imp fun _ hx => ⟨hx.1, hf, hx.2⟩

@[simp] theorem bitsOf_someSigned (n : Nat) (x : CodedSigned) :
    bitsOf (optionalFields (CodedSigned.fields n) (some x)) = n + 2 := by
  simp only [optionalFields, CodedSigned.fields, bitsOf_cons, bitsOf_nil, flagField_width]
  omega

/-- An array of signed values, each behind its flag. -/
theorem flaggedSigneds_coded {m n p : Nat} {v : Vector Int n} (hf : ∀ i : Fin n, s.bufferField (p + (m + 2) * i) 1 = some 1)
    (hv : ∀ i : Fin n, s.bufferSigned (p + 1 + (m + 2) * i) m = some v[i]) :
    ∃ x : Vector CodedSigned n, (∀ i : Fin n, x[i].value = v[i]) ∧
      s.codes p (x.toList.flatMap fun y => optionalFields (CodedSigned.fields m) (some y)) := by
  obtain ⟨x, hx⟩ := exists_entries fun i => flaggedSigned_coded (hf i)
    (show s.bufferSigned (p + (m + 2) * i + 1) m = some v[i] by rw [Nat.add_right_comm]; exact hv i)
  exact ⟨x, fun i => (hx i).1, codes_entries (fun _ => bitsOf_someSigned m _) fun i => (hx i).2⟩

@[simp] theorem bitsOf_someSigneds (m : Nat) {n : Nat} (x : Vector CodedSigned n) :
    bitsOf (x.toList.flatMap fun y => optionalFields (CodedSigned.fields m) (some y)) = (m + 2) * n :=
  bitsOf_entries (g := fun y => optionalFields (CodedSigned.fields m) (some y)) fun _ => bitsOf_someSigned m _

/-! #### The error-resilient inter frame with all its deltas -/

/-- The coded inter frame as a coded frame, its signed values as they are coded. -/
def CodedInterFrame.coded (k : CodedInterFrame) (ref : Vector CodedSigned 4) (mode : Vector CodedSigned 2)
    (yDc uvDc uvAc : CodedSigned) : CodedFrame :=
  { profile := 0, showFrame := true, resilient := true
    kind := .inter 0 k.refreshFlags k.slots k.signBias (.own k.widthMinus1 k.heightMinus1) k.highPrecision (some k.literal)
    render := none, refreshCtx := false, parallel := false, contextIdx := k.contextIdx
    level := k.level, sharpness := k.sharpness, deltas := .updated (ref.map some) (mode.map some), baseQIdx := k.quant.baseQIdx
    yDc := some yDc, uvDc := some uvDc, uvAc := some uvAc, seg := none, tileIncrements := 0, tileRows := 0
    partition := k.partition }

/-- The coded values of the deltas of frame `k`. -/
structure CodedInterFrame.Values (k : CodedInterFrame) (ref : Vector CodedSigned 4) (mode : Vector CodedSigned 2)
    (yDc uvDc uvAc : CodedSigned) : Prop where
  ref  : ∀ i : Fin 4, ref[i].value = k.refDelta[i]
  mode : ∀ i : Fin 2, mode[i].value = k.modeDelta[i]
  yDc  : yDc.value = k.quant.deltaQYDc
  uvDc : uvDc.value = k.quant.deltaQUvDc
  uvAc : uvAc.value = k.quant.deltaQUvAc

section

variable {k : CodedInterFrame} {ref : Vector CodedSigned 4} {mode : Vector CodedSigned 2} {yDc uvDc uvAc : CodedSigned}
  {c : Context}

/-- Its fields, in stream order. -/
theorem CodedInterFrame.coded_fields (hw : k.widthMinus1 < 448) : (k.coded ref mode yDc uvDc uvAc).fields c =
    [(2, 2), (1, 0), (1, 0), (1, 0), (1, 1), (1, 1), (1, 1), (8, k.refreshFlags)] ++
      refFields k.slots k.signBias ++ [(1, 0), (1, 0), (1, 0), (16, k.widthMinus1), (16, k.heightMinus1), (1, 0),
      flagField k.highPrecision, (1, 0), (2, k.literal), (2, k.contextIdx), (6, k.level), (3, k.sharpness), (1, 1), (1, 1)] ++
      (ref.toList.flatMap fun x => optionalFields (CodedSigned.fields 6) (some x)) ++
      (mode.toList.flatMap fun x => optionalFields (CodedSigned.fields 6) (some x)) ++ [(8, k.quant.baseQIdx)] ++
      optionalFields (CodedSigned.fields 4) (some yDc) ++ optionalFields (CodedSigned.fields 4) (some uvDc) ++
      optionalFields (CodedSigned.fields 4) (some uvAc) ++ [(1, 0), (1, 0), (16, k.partition)] := by
  have tiles : (k.coded ref mode yDc uvDc uvAc).tileFields c = [(1, 0)] := CodedFrame.tileFields_narrow hw rfl rfl
  unfold CodedFrame.fields
  rw [tiles]
  simp [CodedInterFrame.coded, frontFields, CodedFrame.frameType, CodedFrame.kindFields, interLead, CodedSize.fields, sizeFields,
    filterCode, CodedFrame.renderFields, optionalFields, CodedFrame.filterFields, CodedDeltas.fields, CodedFrame.quantFields,
    Config.frameMarker, Vector.toList_map, List.flatMap_map]

/-- A buffer at which the frame stands codes it, with some coded values of its deltas. -/
theorem CodedInterFrame.At.codes (h : k.At s) : ∃ ref mode yDc uvDc uvAc, k.Values ref mode yDc uvDc uvAc ∧
    s.codes 0 ((k.coded ref mode yDc uvDc uvAc).fields s.inst.ctx) := by
  obtain ⟨ref, href, refCodes⟩ := flaggedSigneds_coded (m := 6) h.refFlag h.refDelta
  obtain ⟨mode, hmode, modeCodes⟩ := flaggedSigneds_coded (m := 6) h.modeFlag h.modeDelta
  obtain ⟨yDc, vy, cy⟩ := flaggedSigned_coded (h.quantFlag 0) h.yDc
  obtain ⟨uvDc, vu, cu⟩ := flaggedSigned_coded (h.quantFlag 1) h.uvDc
  obtain ⟨uvAc, va, ca⟩ := flaggedSigned_coded (h.quantFlag 2) h.uvAc
  refine ⟨ref, mode, yDc, uvDc, uvAc, ⟨href, hmode, vy, vu, va⟩, ?_⟩
  rw [CodedInterFrame.coded_fields h.narrow]
  simp only [State.codes_append, bitsOf_append, bitsOf_someSigneds, bitsOf_someSigned, bitsOf_cons, bitsOf_nil, flagField_width,
    refFields, Nat.reduceAdd, Nat.reduceMul]
  exact ⟨⟨⟨⟨⟨⟨⟨⟨⟨⟨h.start.marker, h.start.low, h.start.high, h.existing, h.frameType, h.showFrame, h.resilient, h.refresh, trivial⟩,
    h.slots 0, h.signBias 0, h.slots 1, h.signBias 1, h.slots 2, h.signBias 2, trivial⟩,
    h.noSizeRef 0, h.noSizeRef 1, h.noSizeRef 2, h.width, h.height, h.render, h.precision, h.switchable, h.literal, h.contextIdx,
    h.level, h.sharpness, h.enabled, h.update, trivial⟩, refCodes⟩, modeCodes⟩, h.baseQIdx, trivial⟩, cy⟩, cu⟩, ca⟩,
    h.noSeg, h.oneRow, h.partition, trivial⟩

theorem CodedInterFrame.coded_bits (hw : k.widthMinus1 < 448) : bitsOf ((k.coded ref mode yDc uvDc uvAc).fields c) = 173 := by
  simp [CodedInterFrame.coded_fields hw, refFields]

theorem CodedInterFrame.coded_legal : (k.coded ref mode yDc uvDc uvAc).Legal c where
  profile := Nat.zero_le _
  color := trivial
  hidden := nofun
  valid := trivial
  tiles := Nat.zero_le _
  rows := Nat.zero_le _

section

variable (hv : k.Values ref mode yDc uvDc uvAc)

include hv

theorem CodedInterFrame.Values.refDelta (old : Vector Int 4) :
    (Vector.ofFn fun i => (((k.coded ref mode yDc uvDc uvAc).refDelta i).map CodedSigned.value).getD old[i]) = k.refDelta := by
  ext i hi
  simpa [CodedInterFrame.coded, CodedFrame.refDelta] using hv.ref ⟨i, hi⟩

theorem CodedInterFrame.Values.modeDelta (old : Vector Int 2) :
    (Vector.ofFn fun i => (((k.coded ref mode yDc uvDc uvAc).modeDelta i).map CodedSigned.value).getD old[i]) = k.modeDelta := by
  ext i hi
  simpa [CodedInterFrame.coded, CodedFrame.modeDelta] using hv.mode ⟨i, hi⟩

theorem CodedInterFrame.Values.quant : (k.coded ref mode yDc uvDc uvAc).quant = k.quant := by
  simp [CodedInterFrame.coded, CodedFrame.quant, CodedFrame.delta, hv.yDc, hv.uvDc, hv.uvAc]

theorem CodedInterFrame.Values.written : (k.coded ref mode yDc uvDc uvAc).written c = { k.context c with refs := c.refs } := by
  have start := CodedFrame.startContext_of_restarts (k := k.coded ref mode yDc uvDc uvAc) rfl c
  simp only [CodedFrame.written, hv.refDelta, hv.modeDelta, hv.quant, start]
  rfl

theorem CodedInterFrame.Values.context : (k.coded ref mode yDc uvDc uvAc).context c = k.context c := by
  unfold CodedFrame.context
  rw [hv.written]
  rfl

theorem CodedInterFrame.Values.header (hw : k.widthMinus1 < 448) : (k.coded ref mode yDc uvDc uvAc).header c = k.header c := by
  refine Header.eq_of_parts rfl ?_ hv.quant (congrArg QuantHdr.isLossless hv.quant) (CodedFrame.header_seg_none rfl c)
    (CodedFrame.header_tile_narrow hw rfl rfl) (congrArg (fun n => (n + 7) / 8) (coded_bits hw)) rfl
  have flags : ((k.coded ref mode yDc uvDc uvAc).header c).lf.refDeltaUpdated = Vector.replicate 4 true := by
    ext i hi
    simp [CodedFrame.header, CodedFrame.refDelta, CodedInterFrame.coded]
  have modeFlags : ((k.coded ref mode yDc uvDc uvAc).header c).lf.modeDeltaUpdated = Vector.replicate 2 true := by
    ext i hi
    simp [CodedFrame.header, CodedFrame.modeDelta, CodedInterFrame.coded]
  rw [CodedInterFrame.header, ← flags, ← modeFlags]
  simp only [CodedFrame.header, hv.written]
  rfl

end

end

/-- Settles O51: each delta coded in the buffer is a magnitude and a sign, and the frame of these decodes to their values. -/
theorem codedInterFrameIsDecoded : Obligations.CodedInterFrameIsDecoded := by
  intro s k hp h
  obtain ⟨ref, mode, yDc, uvDc, uvAc, hv, hf⟩ := h.codes
  exact decodedTo_of_coded hp hf CodedInterFrame.coded_legal h.notEmpty (CodedInterFrame.coded_bits h.narrow) hv.context
    (hv.header h.narrow)

/-! #### The intra-only frame with the whole segmentation -/

/-- The features of a segment, all present, are coded at `p` in 22 bits (R119). -/
theorem SegFeature.At.coded {e : SegFeature} {p : Nat} (h : e.At s p) :
    ∃ x : CodedFeature, x.value = e ∧ s.codes p x.fields ∧ bitsOf x.fields = 22 := by
  obtain ⟨q, vq, cq⟩ := flaggedSigned_coded h.qFlag h.q
  obtain ⟨l, vl, cl⟩ := flaggedSigned_coded h.lfFlag h.lf
  obtain ⟨r, cr, vr⟩ := h.ref
  have hq := h.qEn
  have hl := h.lfEn
  have hr := h.refEn
  have hskip := h.skip
  obtain ⟨qEn, qv, lfEn, lv, refEn, rv, skip⟩ := e
  simp only at hq hl hr vq vl vr hskip
  subst hq hl hr vq vl vr
  refine ⟨⟨some q, some l, some r, skip⟩, rfl, ?_, by simp [CodedFeature.fields, optionalFields, CodedSigned.fields]⟩
  have ref : s.codes (p + 18) (optionalFields (fun v => [(2, v)]) (some r)) := ⟨h.refFlag, cr, trivial⟩
  simp only [CodedFeature.fields, State.codes_append, bitsOf_append, bitsOf_someSigned]
  exact ⟨⟨⟨cq, cl⟩, ref⟩, hskip, trivial⟩

/-- The coded intra-only frame as a coded frame, its segment features as they are coded. Profile 0 codes no colour. -/
def CodedIntraFrame.coded (k : CodedIntraFrame) (feature : Vector CodedFeature 8) : CodedFrame :=
  { profile := 0, showFrame := false, resilient := false
    kind := .intra k.resetFrameContext
      { twelve := false, space := 0, range := false, ssX := false, ssY := false, reserved := false }
      k.refreshFlags k.widthMinus1 k.heightMinus1
    render := some (k.displayWidthMinus1, k.displayHeightMinus1)
    refreshCtx := k.refreshFrameContext, parallel := k.parallel, contextIdx := k.contextIdx
    level := k.level, sharpness := k.sharpness, deltas := .disabled, baseQIdx := k.baseQIdx
    yDc := none, uvDc := none, uvAc := none
    seg := some { map := some { tree := k.treeProb.map some, pred := some (k.predProb.map some) }
                  data := some { absDelta := k.absDelta, feature := feature } }
    tileIncrements := 0, tileRows := 0, partition := k.partition }

/-- An array of probabilities, each behind its flag (R118). -/
theorem flaggedProbs_coded {n p : Nat} {v : Vector Nat n} (hf : ∀ i : Fin n, s.bufferField (p + 9 * i) 1 = some 1)
    (hv : ∀ i : Fin n, s.bufferField (p + 1 + 9 * i) 8 = some v[i]) :
    s.codes p (v.toList.flatMap fun x => probFields (some x)) :=
  codes_entries (g := fun x => probFields (some x)) (w := 9) (fun _ => rfl) fun i =>
    ⟨hf i, State.codes_at (fs := [(8, v[i])]) ⟨hv i, trivial⟩ (Nat.add_right_comm ..)⟩

@[simp] theorem bitsOf_someProbs {n : Nat} (v : Vector Nat n) :
    bitsOf (v.toList.flatMap fun x => probFields (some x)) = 9 * n :=
  bitsOf_entries (g := fun x => probFields (some x)) fun _ => rfl

section

variable {k : CodedIntraFrame} {feature : Vector CodedFeature 8} {c : Context}

/-- Its fields, in stream order. -/
theorem CodedIntraFrame.coded_fields (hw : k.widthMinus1 < 448) : (k.coded feature).fields c =
    [(2, 2), (1, 0), (1, 0), (1, 0), (1, 1), (1, 0), (1, 0), (1, 1), (2, k.resetFrameContext), (24, Config.syncCode),
      (8, k.refreshFlags), (16, k.widthMinus1), (16, k.heightMinus1), (1, 1), (16, k.displayWidthMinus1),
      (16, k.displayHeightMinus1), flagField k.refreshFrameContext, flagField k.parallel, (2, k.contextIdx), (6, k.level),
      (3, k.sharpness), (1, 0), (8, k.baseQIdx), (1, 0), (1, 0), (1, 0), (1, 1), (1, 1)] ++
      (k.treeProb.toList.flatMap fun v => probFields (some v)) ++ [(1, 1)] ++
      (k.predProb.toList.flatMap fun v => probFields (some v)) ++ [(1, 1), flagField k.absDelta] ++
      feature.toList.flatMap CodedFeature.fields ++ [(1, 0), (16, k.partition)] := by
  have tiles : (k.coded feature).tileFields c = [(1, 0)] := CodedFrame.tileFields_narrow hw rfl rfl
  unfold CodedFrame.fields
  rw [tiles]
  simp [CodedIntraFrame.coded, frontFields, CodedFrame.frameType, CodedFrame.kindFields, interLead, sizeFields,
    CodedFrame.renderFields, optionalFields, CodedFrame.filterFields, CodedDeltas.fields, CodedFrame.quantFields,
    CodedSeg.fields, CodedMap.fields, CodedData.fields, Config.frameMarker, Vector.toList_map, List.flatMap_map]

/-- A buffer at which the frame stands codes it, with some coded segment features, of 22 bits each. -/
theorem CodedIntraFrame.At.codes (h : k.At s) : ∃ feature : Vector CodedFeature 8, feature.map CodedFeature.value = k.feature ∧
    (∀ i : Fin 8, bitsOf (feature[i]).fields = 22) ∧ s.codes 0 ((k.coded feature).fields s.inst.ctx) := by
  obtain ⟨feature, hfeature⟩ := exists_entries fun i => (h.feature i).coded
  have value : feature.map CodedFeature.value = k.feature := by
    ext1 i hi
    simpa using (hfeature ⟨i, hi⟩).1
  have bits : ∀ i : Fin 8, bitsOf (feature[i]).fields = 22 := fun i => (hfeature i).2.2
  refine ⟨feature, value, bits, ?_⟩
  have featureCodes := codes_entries bits fun i => (hfeature i).2.1
  obtain ⟨q1, q2, q3, _⟩ := threeZeros_code h.noQDeltas
  rw [CodedIntraFrame.coded_fields h.narrow]
  simp only [State.codes_append, bitsOf_append, bitsOf_someProbs, bitsOf_entries bits, bitsOf_cons,
    bitsOf_nil, flagField_width, Nat.reduceAdd, Nat.reduceMul]
  exact ⟨⟨⟨⟨⟨⟨⟨h.start.marker, h.start.low, h.start.high, h.existing, h.frameType, h.showFrame, h.resilient, h.intraOnly, h.resetCtx,
    h.sync, h.refresh, h.width, h.height, h.render, h.displayWidth, h.displayHeight, h.refreshCtx, h.parallel, h.contextIdx,
    h.level, h.sharpness, h.noDeltas, h.baseQIdx, q1, q2, q3, h.segEnabled, h.updateMap, trivial⟩,
    flaggedProbs_coded h.treeFlag h.treeProb⟩, h.temporal, trivial⟩, flaggedProbs_coded h.predFlag h.predProb⟩,
    h.updateData, h.absDelta, trivial⟩, featureCodes⟩, h.oneRow, h.partition, trivial⟩

theorem CodedIntraFrame.coded_bits (hw : k.widthMinus1 < 448) (bits : ∀ i : Fin 8, bitsOf (feature[i]).fields = 22) :
    bitsOf ((k.coded feature).fields c) = 421 := by
  simp [CodedIntraFrame.coded_fields hw, bitsOf_entries bits]

theorem CodedIntraFrame.coded_legal : (k.coded feature).Legal c where
  profile := Nat.zero_le _
  color := .inl rfl
  hidden := fun _ => rfl
  valid := trivial
  tiles := Nat.zero_le _
  rows := Nat.zero_le _

theorem CodedIntraFrame.coded_lossless : (k.coded feature).quant.isLossless = decide (k.baseQIdx = 0) :=
  QuantHdr.isLossless_base _

section

variable (value : feature.map CodedFeature.value = k.feature)

include value

theorem CodedIntraFrame.coded_written : (k.coded feature).written c = { k.context c with refs := c.refs } := by
  obtain ⟨ref, mode⟩ := CodedFrame.written_lf_disabled (k := k.coded feature) rfl c
  rw [CodedFrame.startContext_of_restarts rfl] at ref mode
  have tree : (k.treeProb.map some).map (·.getD 255) = k.treeProb := by simp
  have pred : (k.predProb.map some).map (·.getD 255) = k.predProb := by simp
  exact (Context.mk.injEq ..).mpr ⟨ref, mode, tree, pred, rfl, value, coded_lossless, rfl, rfl⟩

theorem CodedIntraFrame.coded_context : (k.coded feature).context c = k.context c := by
  unfold CodedFrame.context
  rw [coded_written value]
  rfl

theorem CodedIntraFrame.coded_header (hw : k.widthMinus1 < 448) (bits : ∀ i : Fin 8, bitsOf (feature[i]).fields = 22) :
    (k.coded feature).header c = k.header := by
  have start := CodedFrame.startContext_of_restarts (k := k.coded feature) rfl c
  refine Header.eq_of_parts rfl ?_ rfl coded_lossless ?_ (CodedFrame.header_tile_narrow hw rfl rfl)
    (congrArg (fun n => (n + 7) / 8) (coded_bits hw bits)) rfl
  · rw [CodedFrame.header_lf_disabled rfl, start]
    rfl
  · have tree : ((k.coded feature).header c).seg.treeProbPresent = Vector.replicate 7 true := by
      ext i hi
      simp [CodedFrame.header, CodedFrame.map, CodedIntraFrame.coded]
    have pred : ((k.coded feature).header c).seg.predProbPresent = Vector.replicate 3 true := by
      ext i hi
      simp [CodedFrame.header, CodedFrame.map, CodedIntraFrame.coded]
    rw [CodedIntraFrame.header, ← tree, ← pred]
    simp only [CodedFrame.header, coded_written value]
    rfl

end

end

/-- Settles O50: the segments' features are those coded in 22 bits each, the probabilities are coded as they are. -/
theorem codedIntraFrameIsDecoded : Obligations.CodedIntraFrameIsDecoded := by
  intro s k hp h
  obtain ⟨feature, value, bits, hf⟩ := h.codes
  exact decodedTo_of_coded hp hf CodedIntraFrame.coded_legal h.notEmpty (CodedIntraFrame.coded_bits h.narrow bits)
    (CodedIntraFrame.coded_context value) (CodedIntraFrame.coded_header value h.narrow bits)
end Sys2Proof.Machine

/-! Proofs of the statements about the back of the header (43_header_back.md): what a completed frame leaves of the reference
slots, the loop-filter deltas, the quantizer, the segmentation and the tiles, where its header ends, and how long it can be. -/

namespace Sys2Proof.Machine

variable {s t : State}

/-! ### What a coded frame says (`coded_of_parse`) -/

/-- A slot holds the frame if its refresh flag is 1, and what it held otherwise (R126). -/
theorem CodedFrame.context_refs (k : CodedFrame) (c : Context) (i : Fin 8) : (k.context c).refs[i] =
    if (k.header c).refreshFrameFlags.getLsbD i then
      { valid := true, width := (k.header c).width, height := (k.header c).height }
    else c.refs[i] := by
  simp [CodedFrame.context, CodedFrame.header, ← k.slot_eq c]

/-- A frame that does not restart starts from the context it found (R111). -/
theorem CodedFrame.startContext_of_not_resets {k : CodedFrame} {c : Context} (h : (k.header c).resetsContext = false) :
    k.startContext c = c := if_neg (Bool.eq_false_iff.mp h)

/-- Deltas that are disabled are not updated (R112). -/
theorem CodedFrame.deltas_of_disabled {k : CodedFrame} {c : Context} (h : (k.header c).lf.modeRefDeltaEnabled = false) :
    (k.header c).lf.modeRefDeltaUpdate = false := by
  cases hd : k.deltas with
  | disabled => simp [CodedFrame.header, hd]
  | kept => simp [CodedFrame.header, hd]
  | updated => simp [CodedFrame.header, hd] at h

/-- Without an update no delta has its update flag 1 (R113). -/
theorem CodedFrame.deltas_of_kept {k : CodedFrame} {c : Context} (h : (k.header c).lf.modeRefDeltaUpdate = false) :
    (∀ i : Fin 4, (k.header c).lf.refDeltaUpdated[i] = false) ∧ ∀ i : Fin 2, (k.header c).lf.modeDeltaUpdated[i] = false := by
  cases hd : k.deltas with
  | disabled => simp [CodedFrame.header, CodedFrame.refDelta, CodedFrame.modeDelta, hd]
  | kept => simp [CodedFrame.header, CodedFrame.refDelta, CodedFrame.modeDelta, hd]
  | updated => simp [CodedFrame.header, hd] at h

/-! ### What step 10 of a completed frame left -/

/-- The segmentation fields and registers of a completed frame are those step 10 left (R117 to R120). -/
theorem segOk_of_parse (hpf : ParsedFrame s t) : ∃ w w', SegOk w w' ∧ t.inst.hdr.seg = w'.hdr.seg ∧
    FullRun.segRegs t.inst.ctx = FullRun.segRegs w'.ctx := by
  obtain ⟨_, _, _, _, _, _, _, hhdr, ⟨r⟩, _, rfl⟩ := fullRun_of_ok hpf.parse hpf.ok hpf.frame
  exact ⟨_, _, r.segOk (by rw [hhdr]), by simpa using r.hdr_seg, by simpa using r.ctx_seg⟩

/-! ### The bounds of the tile columns, as shifts -/

/-- MIN_LOG2_COLS is the first shift of 64 that reaches the superblocks across (R121). -/
theorem minLog2Cols_least (width : Nat) :
    (width + 63) / 64 ≤ 64 <<< minLog2Cols width ∧ ∀ k < minLog2Cols width, 64 <<< k < (width + 63) / 64 := by
  simp only [Nat.shiftLeft_eq]
  exact minLog2Cols_spec width

/-- MAX_LOG2_COLS + 1 is the first shift from 1 that leaves fewer than 4 superblocks (R121). -/
theorem maxLog2Cols_least (width : Nat) : ((width + 63) / 64) >>> (maxLog2Cols width + 1) < 4 ∧
    ∀ m, 1 ≤ m → m ≤ maxLog2Cols width → 4 ≤ ((width + 63) / 64) >>> m := by
  simp only [Nat.shiftRight_eq_div_pow]
  exact maxLog2Cols_spec width

/-! ### The header's end -/

/-- A show-existing header leaves the context (R96). -/
theorem completed_showExisting_ctx {w : Work} (hu : uncompressedHeader (startWork s) = .ok () w)
    (hs : w.hdr.showExistingFrame = true) : w.ctx = s.inst.ctx := by
  obtain ⟨_, w2, front, ⟨_, _, _, rfl⟩ | ⟨w3, _, rfl, ⟨r⟩⟩⟩ := completed_cases hu
  · rw [front.at_]
  · rw [r.hdr_front.2.1, front.at_] at hs
    cases hs

/-- The header length is the bits read, rounded up to bytes, in a show-existing header too (R96, R125). -/
theorem completed_headerLength {w : Work} (hu : uncompressedHeader (startWork s) = .ok () w) :
    w.hdr.headerLengthBytes = ceilDiv w.br.pos 8 := by
  obtain ⟨_, w2, _, ⟨_, _, _, rfl⟩ | ⟨w3, _, _, ⟨r⟩⟩⟩ := completed_cases hu
  · rfl
  · exact r.headerLength_eq

/-- A PARSE runs out of data only on a buffer of fewer than 499 bits (R127). -/
theorem raised_outOfData_short {w : Work} (hp : s.ParseReady) (hctx : s.inst.ctx.inRange)
    (hu : uncompressedHeader (startWork s) = .error (.raised .outOfData) w) : 8 * s.port.len < 499 := by
  have h := (readsIn_uncompressedHeader _ (startWork_inRange hctx) (startWork_full hp.buffer) (Nat.zero_le _)).error hu
  simpa [startWork, Port.reader, Reader.init] using h.2.2 rfl

/-- The grammar reads the caller's buffer and no other. -/
theorem Advanced.field {n m p : Nat} {w : Work} (h : Advanced n (startWork s) w) : w.br.bitsFrom m p 0 = s.bufferField p m := by
  obtain ⟨⟨buf, len, pos⟩, _, _⟩ := w
  obtain rfl : buf = s.port.reader.buf := h.buf
  obtain rfl : len = s.port.reader.len := h.len
  exact Reader.bitsFrom_pos ..

/-- A completed frame is coded up to the cursor. -/
theorem coded_to_cursor (hpf : ParsedFrame s t) : ∃ k : CodedFrame, s.codes 0 (k.fields s.inst.ctx) ∧ k.Legal s.inst.ctx ∧
    k.partition ≠ 0 ∧ t.inst.br.pos = bitsOf (k.fields s.inst.ctx) ∧ t.inst.hdr = k.header s.inst.ctx := by
  obtain ⟨k, hf, hk, hn, _, hhdr⟩ := coded_of_parse hpf
  obtain ⟨_, ht, _, decoded⟩ := parse_of_coded (execParse_next hpf.parse).1 hf hk hn
  cases hpf.parse.symm.trans ht
  exact ⟨k, hf, hk, hn, decoded.reader.pos, hhdr⟩

/-- The last 16 bits read before ZERO_FIRST_PARTITION are 0 (R124). -/
theorem zeroPartition_field (h : exec .parse s = .next t) (hc : t.inst.cause = .zeroFirstPartition) :
    16 ≤ t.inst.br.pos ∧ s.bufferField (t.inst.br.pos - 16) 16 = some 0 := by
  rcases execParse_outcome (execParse_next h).1 with ⟨w, _, he, _⟩ | ⟨e, w, hu, _, he, _, ha⟩ <;> cases h.symm.trans he
  · simp at hc
  · obtain rfl : e = .zeroFirstPartition := by simpa using hc
    simpa [ha.field] using zeroPartition_code hu

/-! ### The statements -/

/-- Settles O30: the coded frame's context for a completed frame; a failed PARSE or a short header never reaches the write. -/
theorem refSlotsFollowTheRefreshFlags : Obligations.RefSlotsFollowTheRefreshFlags := by
  refine ⟨fun s t hpf i => ?_, fun s t h hr => exec_parse_refs_of_not_ok h hr, fun s t h hr hs => ?_⟩
  · obtain ⟨k, _, _, _, hctx, hhdr⟩ := coded_of_parse hpf
    rw [hctx, hhdr]
    exact k.context_refs _ i
  · obtain ⟨_, w, hu, rfl⟩ := execParse_result_ok h hr
    simpa using completed_showExisting_ctx hu (by simpa using hs)

/-- Settles O33: what the coded frame does not update is what it starts from, here the context found; the header reports the
context's deltas. -/
theorem loopFilterDeltasPersist : Obligations.LoopFilterDeltasPersist := by
  intro s t hpf
  obtain ⟨k, _, _, _, hctx, hhdr⟩ := coded_of_parse hpf
  rw [hctx, hhdr]
  refine ⟨fun hreset => ⟨fun i hi => ?_, fun i hi => ?_⟩, k.deltas_of_disabled, k.deltas_of_kept⟩
  · have kept := k.context_refDelta hi
    rw [k.startContext_of_not_resets hreset] at kept
    exact ⟨kept, kept⟩
  · have kept := k.context_modeDelta hi
    rw [k.startContext_of_not_resets hreset] at kept
    exact ⟨kept, kept⟩

/-- Settles O38: the two loops of R121 stop at the least values (`minLog2Cols_spec`, `maxLog2Cols_spec`), and the ranges are
those of a completed header. -/
theorem tileColumnsAreBounded : Obligations.TileColumnsAreBounded := by
  intro s t hin hpf
  have tile := (completedHeaderIsInRange s t hin hpf).1.tile
  obtain ⟨k, _, _, _, _, hhdr⟩ := coded_of_parse hpf
  have hmin : t.inst.hdr.tile.minLog2Cols = minLog2Cols t.inst.hdr.width := by rw [hhdr]; rfl
  have hmax : t.inst.hdr.tile.maxLog2Cols = maxLog2Cols t.inst.hdr.width := by rw [hhdr]; rfl
  exact ⟨hmin ▸ minLog2Cols_least _, hmax ▸ maxLog2Cols_least _, tile.minLog2Cols, tile.maxLog2Cols, tile.log2Cols.1,
    tile.log2Cols.2, tile.log2Rows⟩

/-- Settles O45: the grammar reads at most 499 bits of registers in range (`readsIn_uncompressedHeader`). -/
theorem headerIsAtMost499Bits : Obligations.HeaderIsAtMost499Bits := by
  intro s t hin h
  refine ⟨fun hr => ?_, fun hlen hr => ?_⟩
  · obtain ⟨hp, w, hu, rfl⟩ := execParse_result_ok h hr
    have hpos := completed_pos_le hp hin hu
    have hlength := completed_headerLength hu
    unfold ceilDiv at hlength
    simp only [State.inst_done, Instance.completed_hdr]
    exact ⟨by simpa using hpos, by omega⟩
  · have hc := (exec_parse_noPacket_iff h).mp hr
    obtain ⟨w, hu, _⟩ := raised_of_parse h (by simp [hc])
    rw [hc] at hu
    have := raised_outOfData_short (execParse_next h).1 hin hu
    omega

/-- Settles O32: both flags are the coded quantizer's (`QuantHdr.isLossless`). -/
theorem losslessIsAllZero : Obligations.LosslessIsAllZero := by
  intro s t hpf
  obtain ⟨k, _, _, _, hctx, hhdr⟩ := coded_of_parse hpf
  rw [hctx, hhdr]
  exact ⟨decide_eq_true_iff, rfl⟩

/-- Settles O36, off what step 10 leaves (`SegOk`). -/
theorem absentMapProbabilitiesAre255 : Obligations.AbsentMapProbabilitiesAre255 := by
  intro s t hpf
  obtain ⟨_, _, ok, hseg, hctx⟩ := segOk_of_parse hpf
  simp only [FullRun.segRegs, Prod.mk.injEq] at hctx
  obtain ⟨htree, hpred, _, _⟩ := hctx
  rw [hseg, htree, hpred]
  exact ⟨ok.off, fun hm => (ok.mapOff hm).1, fun hm =>
    have ⟨tree, pred, still⟩ := ok.mapOn hm
    ⟨tree, pred, still⟩⟩

/-- Settles O37: the data update writes every feature, and the header copies them (`SegOk`). -/
theorem dataUpdateClearsAbsentFeatures : Obligations.DataUpdateClearsAbsentFeatures := by
  intro s t hpf hdata i
  obtain ⟨_, _, ok, hseg, _⟩ := segOk_of_parse hpf
  obtain ⟨_, _, _, hfeature⟩ := ok.copied
  rw [hseg] at hdata ⊢
  rw [hfeature]
  exact ok.dataOn hdata i

/-- Settles O44: the coded frame ends with its first partition size; 0 there stops the grammar before the slots are written
(`coded_zero`), and the way back from the cause finds the 0 (`zeroPartition_code`). -/
theorem headerEndsWithThePartitionSize : Obligations.HeaderEndsWithThePartitionSize := by
  refine ⟨fun s t hpf => ?_, fun s k hp hf hk hn => ?_, fun s t h hc => ?_⟩
  · obtain ⟨k, hf, hk, hn, hpos, hhdr⟩ := coded_to_cursor hpf
    obtain ⟨p, hp, hfield, _⟩ := coded_run hk hf
    have inside := k.bits_inside hf
    have hlength : (k.header s.inst.ctx).headerLengthBytes = (bitsOf (k.fields s.inst.ctx) + 7) / 8 := rfl
    rw [hpos, hhdr, ← hp, Nat.add_sub_cancel]
    exact ⟨Nat.le_add_left .., hfield, hn, by omega, by omega, by omega⟩
  · obtain ⟨_, hu⟩ := coded_zero hk hf hn
    exact parse_of_broken hp (by decide) hu
  · obtain ⟨_, _, _, hr⟩ := raised_of_cause h hc (by decide) (by decide)
    obtain ⟨hpos, hfield⟩ := zeroPartition_field h hc
    exact ⟨hr, hpos, hfield, exec_parse_refs_of_not_ok h (by simp [hr])⟩

end Sys2Proof.Machine

/-! Proofs of the statements about the block as a whole (60_exceptions.md): what an idle step does, what an early failure leaves
alone, and that the order of two commands on different instances does not matter. -/

namespace Sys2Proof.Machine

variable {s t : State}

/-! ### The idle block (R140) -/

theorem State.fetch_of_empty (h : s.script = []) : s.fetch = none := by
  simp [State.fetch, h]

theorem step_of_no_fetch (h : s.fetch = none) : step s = .next s := by
  simp [step, h]

/-! ### Failures that leave the context (R133) -/

/-- A cause whose every failure of the grammar keeps the context is reported with the context as PARSE found it. -/
theorem context_kept_of_cause {c : Cause} (hk : Fails c CtxKept uncompressedHeader) (hn : c ≠ .none) (hd : c ≠ .outOfData)
    (h : exec .parse s = .next t) (hc : t.inst.cause = c) : t.inst.result = .brokenData ∧ t.inst.ctx = s.inst.ctx := by
  obtain ⟨w, hu, hctx, hr⟩ := raised_of_cause h hc hn hd
  exact ⟨hr, hctx.trans (hk _ _ hu)⟩

/-! ### Two writes of the table of instances -/

theorem lookup_putInst (k j : Nat) (x : Instance) (l : List (Nat × Instance)) :
    lookup j (putInst k x l) = if j = k then (if x = Instance.absent then none else some x) else lookup j l := by
  unfold putInst
  by_cases hx : x = Instance.absent
  · simp [hx, lookup_eraseAt]
  · simp [hx, lookup_insertAt]

theorem risingFrom_putInst {l : List (Nat × Instance)} (h : risingFrom 0 l = true) (k : Nat) (x : Instance) :
    risingFrom 0 (putInst k x l) = true := by
  unfold putInst
  split
  · exact risingFrom_eraseAt h
  · exact risingFrom_insertAt h (Nat.zero_le k)

/-- Writes under different numbers commute: both orders give a canonical table that lists the same. -/
theorem putInst_comm {l : List (Nat × Instance)} (h : risingFrom 0 l = true) {j k : Nat} (hjk : j ≠ k) (x y : Instance) :
    putInst j x (putInst k y l) = putInst k y (putInst j x l) := by
  refine eq_of_lookup_eq (risingFrom_putInst (risingFrom_putInst h k y) j x)
    (risingFrom_putInst (risingFrom_putInst h j x) k y) fun n => ?_
  by_cases hn : n = j
  · simp [lookup_putInst, hn, hjk]
  · simp [lookup_putInst, hn]

/-! ### A command and an instance it is not issued to (R141) -/

theorem Alike.symm (h : Alike s t) : Alike t s := ⟨h.port.symm, h.inst.symm⟩

/-- A command on another instance leaves a command issued with `q` the port and the instance it would have seen before. -/
theorem alike_of_othersKept {p q : Port} (hpq : p.target ≠ q.target) (h : OthersKept { s with port := p } t) :
    Alike { t with port := q } { s with port := q } where
  port := rfl
  inst := (h.others q.target hpq.symm).symm

/-! ### The statements -/

/-- Settles O53. Each command sees its own instance the same in either order, so it writes and answers the same there
(`exec_next_alike`); what is left are two writes under different numbers (`putInst_comm`). -/
theorem instancesAreIndependent : Obligations.InstancesAreIndependent := by
  intro s t u p q i j hs hpq hi hj
  have hj' := exec_next_alike (alike_of_othersKept hpq (commandsKeepEverythingElse _ _ _ hi)) hj
  have hi' := exec_next_alike (alike_of_othersKept hpq.symm (commandsKeepEverythingElse _ _ _ hj')).symm hi
  refine ⟨_, _, hj', hi', ?_, rfl, rfl⟩
  have ht : t.insts = putInst p.target t.inst s.insts := congrArg State.insts (exec_next_done hi)
  have hu : u.insts = putInst q.target u.inst t.insts := congrArg State.insts (exec_next_done hj)
  rw [hu, ht]
  exact putInst_comm hs.rising hpq _ _

/-- Settles O27, by the three causes: each is raised before the grammar writes the context. -/
theorem earlyFailuresKeepTheContext : Obligations.EarlyFailuresKeepTheContext := by
  intro s t h hc
  simp only [List.mem_cons, List.not_mem_nil, or_false] at hc
  rcases hc with hc | hc | hc
  · exact context_kept_of_cause fails_badFrameMarker (by decide) (by decide) h hc
  · exact context_kept_of_cause fails_unsupportedProfile (by decide) (by decide) h hc
  · exact context_kept_of_cause fails_badSyncCode (by decide) (by decide) h hc

/-- Settles O6: an empty script has no command to fetch. -/
theorem idleBlockHoldsItsState : Obligations.IdleBlockHoldsItsState := fun _ h =>
  step_of_no_fetch (State.fetch_of_empty h)

end Sys2Proof.Machine

/-! Proofs of the statements about reset and hazards (70_reset_and_hazards.md): what the machine holds right after reset, and that
a destroyed instance takes no command. -/

namespace Sys2Proof.Machine

/-! ### The reset state, instance by instance (R142) -/

theorem State.get_reset_zero : State.reset.get 0 = Instance.created := rfl

theorem State.get_reset_of_ne_zero {k : Nat} (hk : k ≠ 0) : State.reset.get k = Instance.absent := by
  simp [State.get, State.reset, lookup, hk.symm]

theorem Reader.wf_unbound : Reader.unbound.wf = true := by decide

theorem Instance.absent_inv : Instance.absent.Inv where
  reader _ := Reader.wf_unbound
  context _ := Context.reset_inRange

theorem Instance.created_inv : Instance.created.Inv where
  reader _ := Reader.wf_unbound
  context _ := Context.reset_inRange

theorem State.reset_inv : State.reset.Inv where
  rising := rfl
  present e he := by
    rw [List.mem_singleton.mp he]
    decide
  insts k := by
    by_cases hk : k = 0
    · subst hk
      exact State.get_reset_zero ▸ Instance.created_inv
    · exact State.get_reset_of_ne_zero hk ▸ Instance.absent_inv
  port := rfl
  script _ hc := absurd hc List.not_mem_nil

/-! ### A bit-reader operation outside its contract (R92, R149) -/

/-- A bit-reader operation is refused outside its contract, by its count or by the contract's check. -/
theorem exec_reader_refused_of_not_ready {s : State} {i : Instr} (hc : i ≠ .create) (hp : i ≠ .parse) (hd : i ≠ .destroy)
    (hr : ¬ s.ReaderReady) : ∃ r, exec i s = .refused r := by
  cases i with
  | create => exact absurd rfl hc
  | parse => exact absurd rfl hp
  | destroy => exact absurd rfl hd
  | brInit => exact (exec_brInit_refused_iff s).mpr (.inl hr)
  | readFlag => exact withReaderUsable_refused_iff.mpr (.inl hr)
  | getPos => exact withReaderUsable_refused_iff.mpr (.inl hr)
  | readBits n =>
    by_cases hn : n ≤ 32
    · exact (exec_reader_refused_iff s (.inr (.inl ⟨n, hn, rfl⟩))).mpr hr
    · exact ⟨_, exec_readBits_too_wide (Nat.lt_of_not_le hn) s⟩
  | readSigned n =>
    by_cases hn : n ≤ 31
    · exact (exec_reader_refused_iff s (.inr (.inr ⟨n, hn, rfl⟩))).mpr hr
    · exact ⟨_, exec_readSigned_too_wide (Nat.lt_of_not_le hn) s⟩

/-! ### The statements -/

/-- Settles O19: CREATE wants an ABSENT instance, DESTROY and PARSE a LIVE one, and a bit-reader operation one that is not
DESTROYED. -/
theorem destroyedInstanceTakesNoCommand : Obligations.DestroyedInstanceTakesNoCommand := by
  intro s i hlife
  by_cases hc : i = .create
  · subst hc
    exact (exec_create_refused_iff s).mpr (.inr (by simp [hlife]))
  by_cases hp : i = .parse
  · subst hp
    exact (exec_parse_refused_iff s).mpr (State.not_parseReady_iff.mpr (.inr (.inl (by simp [hlife]))))
  by_cases hd : i = .destroy
  · subst hd
    exact (exec_destroy_refused_iff s).mpr (.inr (by simp [hlife]))
  exact exec_reader_refused_of_not_ready hc hp hd (State.not_readerReady_iff.mpr (.inr hlife))

/-- Settles O56: instance 0 is the created one, every other the absent one, and both have the invariant. -/
theorem resetSatisfiesTheInvariant : Obligations.ResetSatisfiesTheInvariant :=
  ⟨rfl, State.reset_inv⟩

/-- Settles O58: instance 0 is the created one, whose context is the table's, and every other the absent one. -/
theorem resetIsAFreshInstance : Obligations.ResetIsAFreshInstance := by
  refine ⟨rfl, ?_, rfl, fun k hk => ?_⟩
  · rw [State.get_reset_zero]
    rfl
  · rw [State.get_reset_of_ne_zero hk]
    rfl

end Sys2Proof.Machine
